-- ==== Sys2Proof/Word.lean ====
section
/-! DEFINITION. The words a host sends and receives: bytes and two-byte fields (R106, R187). -/

namespace Sys2Proof

/-- One byte of a frame or of the shared array. -/
abbrev Byte := BitVec 8

/-- A two-byte field: a handle, a ticket, a label, a frame check. -/
abbrev Half := BitVec 16

end Sys2Proof
end

