-- ==== Sys2Proof/Config.lean ====
section
/-! DEFINITION. The sizes of the part, and the one value its manual leaves free. -/

namespace Sys2Proof.Config

/-- Slots of the range table (R3). -/
abbrev slotCount : Nat := 128

/-- Pages of the array (R141). -/
abbrev pageCount : Nat := 4096

/-- Bytes of a page (R141). -/
abbrev pageBytes : Nat := 64

/-- Bytes of the array (R141). -/
abbrev arrayBytes : Nat := 262144

/-- Entries the wait list holds at most (R48). -/
abbrev waitListMax : Nat := 12

/-- Entries of one port the wait list holds at most (R48). -/
abbrev portWaitsMax : Nat := 4

/-- Places of a port's outcome list (R126). -/
abbrev outcomePlaces : Nat := 8

/-- CLKIN periods of one base unit of 100 µs (R72). -/
abbrev periodsPerUnit : Nat := 1600

/-- Largest LEN of a command frame (R108). -/
abbrev maxLen : Nat := 72

/-- Most items in a PROBE, LIST or WAITLIST reply (R20, R21, R183). -/
abbrev maxItems : Nat := 16

/-- FREE VALUE (DESIGN CHOICE, log entry 2). What the array holds right after power is applied, before start-up
clearing has reached a byte, is not given (R152). This is that byte, by the number of power-ups so far and the
byte's address; it has no body, so nothing is known of it. -/
opaque powerUpByte : Nat → Nat → Byte

end Sys2Proof.Config
end

