-- ==== Sys2Proof/Syntax.lean ====
section
/-! DEFINITION. The commands and events of the AP-820: one constructor of `Instr` per row of the operation table,
with what a host or the board supplies when it happens. -/

namespace Sys2Proof

/-- The four target ports (00_scope.md, section 3). -/
inductive Port where
  | p0 | p1 | p2 | p3
  deriving DecidableEq, Repr

/-- A number of the range table's slots, 0 to 127 (R3). -/
abbrev SlotId := Fin 128

/-- The 31 commands of Table 55. -/
inductive Command where
  | open_ | close | status | replay | ackErrors
  | claim | renew | release | downgrade | upgrade | trim | cancel | probe | list
  | read | write
  | fill | copy | sum | stopJob | jobState
  | collect | setNotice | clearNotices
  | configSet | configGet | revoke | evict | inspect | waitlist | restart
  deriving DecidableEq, Repr

/-- What a complete command frame carries besides its CODE byte (R108), on the port it arrives at. Its LEN is the
number of its argument bytes. -/
structure Frame where
  port  : Port
  tag   : Byte
  args  : List Byte
  check : Half
  deriving DecidableEq, Repr

/-- The two accesses of the shared array (R142). -/
inductive Access where
  | read | write
  deriving DecidableEq, Repr

/-- A READ or WRITE frame that completes (R142). -/
structure Arrival where
  access : Access
  frame  : Frame
  deriving DecidableEq, Repr

/-- An edge of a port's clock while the port is selected (R106); a rising edge finds a bit on data-in. -/
inductive ClockEdge where
  | rise (dataIn : Bool)
  | fall
  deriving DecidableEq, Repr

/-- A port that sends a reply, and the clock edges since the reply's first bit (R106, R109). -/
structure ClockedReply where
  port  : Port
  edges : List ClockEdge
  deriving DecidableEq, Repr

/-- The rows of the operation table. -/
inductive Instr where
  -- power, clearing and reset
  | powerUp
  | startupClearPage
  | resetNAssert
  | resetNRelease
  | restartTakesHold
  -- lease time
  | leaseTick
  | lapse (slot : SlotId)
  | waitExpiry (ticket : Half)
  -- selections and frames that name no command
  | selectionBegin (port : Port)
  /-- `edges`: the clock edges of the selection, from the fall of select on (R106, R117). -/
  | deselectionReceiving (port : Port) (edges : List ClockEdge)
  | deselectionAnswering (port : Port)
  | deselectionSpent (port : Port)
  /-- CODE, TAG and LEN, the three bytes an oversize frame has (R113). -/
  | oversizeFrame (port : Port) (code tag len : Byte)
  | unknownCommand (code : Byte) (frame : Frame)
  -- session and transport commands
  | openSession (frame : Frame)
  | close (frame : Frame)
  | status (frame : Frame)
  | replay (frame : Frame)
  | ackErrors (frame : Frame)
  -- lock manager commands
  | claim (frame : Frame)
  | renew (frame : Frame)
  | release (frame : Frame)
  | downgrade (frame : Frame)
  | upgrade (frame : Frame)
  | trim (frame : Frame)
  | cancel (frame : Frame)
  | probe (frame : Frame)
  | list (frame : Frame)
  -- the service of a port's access by the arbiter
  | read (port : Port)
  | write (port : Port)
  -- engine commands and the service of a page step
  | fill (frame : Frame)
  | copy (frame : Frame)
  | sum (frame : Frame)
  | pageStep
  | stopJob (frame : Frame)
  | jobState (frame : Frame)
  -- outcome and notice commands
  | collect (frame : Frame)
  | setNotice (frame : Frame)
  | clearNotices (frame : Frame)
  -- supervision commands
  | configSet (frame : Frame)
  | configGet (frame : Frame)
  | revoke (frame : Frame)
  | evict (frame : Frame)
  | inspect (frame : Frame)
  | waitlist (frame : Frame)
  | restart (frame : Frame)
  -- the rest of the port unit and the arbiter
  | replyLastByteSent (reply : ClockedReply)
  | selectSeenHigh (port : Port)
  /-- The READ and WRITE frames that complete together, in any order of the ports (R150). -/
  | arbiterRequestArrives (arrivals : List Arrival)
  deriving DecidableEq, Repr

end Sys2Proof
end

