-- ==== Sys2Proof/Machine/State.lean ====
section
/-! DEFINITION. Everything the AP-820 holds, as plain data, and its state right after power-up. -/

namespace Sys2Proof.Machine

/-- Why a step stops with a fault. -/
inductive Fault where
  /-- Raised by PAGE_STEP when the page its job would read or write is above 4095. Safe: R1, R160 and R165 keep every
  job the part can reach inside the array, so only a state no run reaches raises it (log entry 19). -/
  | outsideArray
  deriving DecidableEq, Repr

/-- Why a step gives no meaning. -/
inductive Refusal where
  /-- Raised by an arm of `exec` whose row has no meaning yet; no arm does. Safe. -/
  | notModelled (mnemonic : String)
  deriving DecidableEq, Repr

/-- One value for each of the four ports. -/
structure PerPort (α : Type) where
  p0 : α
  p1 : α
  p2 : α
  p3 : α
  deriving DecidableEq, Repr

/-- The same value for every port. -/
def PerPort.all {α : Type} (x : α) : PerPort α := ⟨x, x, x, x⟩

/-- SHARED or EXCLUSIVE (R15). -/
inductive Mode where
  | shared | exclusive
  deriving DecidableEq, Repr

/-- A first page and a page count (R1). -/
structure Range where
  first : Nat
  count : Nat
  deriving DecidableEq, Repr

/-- Why a lock ended without its holder's release (R11). -/
inductive EndCause where
  | expired | revoked
  deriving DecidableEq, Repr

/-- The fields a record has from its allocation on (R9). -/
structure Claimed where
  holder : Port
  mode   : Mode
  range  : Range
  label  : Half
  deriving DecidableEq, Repr

/-- The lease fields a record has from its grant on, but for the ticks remaining (R10). -/
structure Lease where
  term     : Nat
  renewals : Nat
  warned   : Bool
  deriving DecidableEq, Repr

/-- The four slot states with the fields each carries (R4, Table 8). The remaining of a LAPSED record is 0. -/
inductive Content where
  | free
  | reserved (c : Claimed)
  | held (c : Claimed) (l : Lease) (remaining : Nat)
  | lapsed (c : Claimed) (l : Lease) (cause : EndCause)
  deriving DecidableEq, Repr

/-- One slot of the range table (R3, R5). -/
structure Slot where
  gen     : Byte
  content : Content
  deriving DecidableEq, Repr

/-- The range table: 128 slots (R3). -/
abbrev Table := { l : List Slot // l.length = 128 }

/-- What a wait entry waits for; only a CLAIM carries a term and a label (R49, Table 18). -/
inductive EntryKind where
  | claim (term : Nat) (label : Half)
  | upgrade
  deriving DecidableEq, Repr

/-- A wait entry (R49, Table 18). -/
structure WaitEntry where
  ticket        : Half
  port          : Port
  kind          : EntryKind
  mode          : Mode
  range         : Range
  waitRemaining : Nat
  tag           : Byte
  deriving DecidableEq, Repr

/-- The lease clock (R72, R74). -/
structure Clock where
  periodCount   : Nat
  baseCount     : Nat
  lengthInUse   : Nat
  pendingLength : Option Nat
  deriving DecidableEq, Repr

/-- FILL, COPY or SUM (R156). -/
inductive JobKind where
  | fill | copy | sum
  deriving DecidableEq, Repr

/-- The order in which a job takes its pages (R158). -/
inductive Direction where
  | upward | downward
  deriving DecidableEq, Repr

/-- Why a job that is reported STOPPED stopped (R131). -/
inductive StopCause where
  | host | expired | revoked
  deriving DecidableEq, Repr

/-- A job's stop request (R156). -/
inductive StopRequest where
  | none | host | closed
  deriving DecidableEq, Repr

/-- What a job does and the records it names, with the fields its kind has (Table 45). -/
inductive Work where
  | fill (dst : Half) (dstFirst : Nat) (pattern : Byte)
  | copy (src dst : Half) (srcFirst dstFirst : Nat) (direction : Direction)
  | sum (src : Half) (srcFirst : Nat) (running : Half)
  deriving DecidableEq, Repr

/-- An active job (Table 45); its port is its place in the job table. -/
structure Job where
  tag       : Byte
  work      : Work
  count     : Nat
  pagesDone : Nat
  stop      : StopRequest
  deriving DecidableEq, Repr

/-- The block engine (R156, R163). -/
structure Engine where
  jobs     : PerPort (Option Job)
  turn     : Port
  /-- The port whose job's page step waits at the arbiter or is being served. -/
  inFlight : Option Port
  deriving DecidableEq, Repr

/-- CLAIM or UPGRADE, as an outcome names the work of a wait entry (Table 37). -/
inductive WaitKind where
  | claim | upgrade
  deriving DecidableEq, Repr

/-- How a wait entry ended other than by its grant (Table 37). -/
inductive WaitEnd where
  | timedOut | cancelled | withdrawn | recordEnded
  deriving DecidableEq, Repr

/-- The kind, result and fields of an outcome, present as Table 37 gives (R130, R131). -/
inductive OutcomeBody where
  | granted (handle : Half) (mode : Mode) (range : Range) (term : Nat)
  /-- UPGRADED: the mode is EXCLUSIVE. -/
  | upgraded (handle : Half) (range : Range) (term : Nat)
  | ended (kind : WaitKind) (how : WaitEnd) (handle : Half)
  | jobDone (kind : JobKind) (pagesDone : Nat) (sum : Option Half)
  | jobStopped (kind : JobKind) (pagesDone : Nat) (cause : StopCause) (sum : Option Half)
  deriving DecidableEq, Repr

/-- An outcome (R130). -/
structure OutcomeRecord where
  tag  : Byte
  body : OutcomeBody
  deriving DecidableEq, Repr

/-- What a reserved place of an outcome list is bound to (R126, R127). -/
inductive Reservation where
  | entry (ticket : Half)
  | job
  deriving DecidableEq, Repr

/-- DETACHED, ATTACHED or CLOSING (R89). -/
inductive SessionState where
  | detached | attached | closing
  deriving DecidableEq, Repr

/-- A set of the five notice flags (R135): a notice mask, or the flags now set. -/
structure NoticeSet where
  outcomeReady : Bool
  leaseLow     : Bool
  leaseLost    : Bool
  revoked      : Bool
  contended    : Bool
  deriving DecidableEq, Repr

/-- The empty set of notice flags. -/
def NoticeSet.none : NoticeSet := ⟨false, false, false, false, false⟩

/-- The four sticky notice flags (R135). -/
structure StickyNotices where
  leaseLow  : Bool
  leaseLost : Bool
  revoked   : Bool
  contended : Bool
  deriving DecidableEq, Repr

/-- No sticky notice flag set. -/
def StickyNotices.none : StickyNotices := ⟨false, false, false, false⟩

/-- The four sticky transport errors (R121). -/
structure StickyErrors where
  checkFailed : Bool
  truncated   : Bool
  replyCut    : Bool
  oversize    : Bool
  deriving DecidableEq, Repr

/-- No sticky error set. -/
def StickyErrors.none : StickyErrors := ⟨false, false, false, false⟩

/-- A port's session context (R88, Table 28). -/
structure Session where
  state         : SessionState
  checking      : Bool
  mask          : NoticeSet
  warnThreshold : Nat
  /-- The reserved places of the outcome list, each known by its binding (R126). -/
  reserved      : List Reservation
  /-- The held outcomes, oldest first, in completion order (R129). -/
  held          : List OutcomeRecord
  evicted       : Bool
  usage         : Nat
  deriving DecidableEq, Repr

/-- The result codes of Table 56. -/
inductive ResultCode where
  | ok | pending | starting | notAttached | evicted | closing | alreadyAttached
  | unknownCommand | badLength | checkFailed | notSupervisor
  | badRange | badMode | badTerm | badWait | badValue
  | staleHandle | lapsed | waiting | engaged | alreadyExclusive | alreadyShared | alreadyWaiting | notWaiting
  | overlapSelf | quotaExceeded | tableFull | conflict | portWaitsFull | waitlistFull | outcomesFull | deadlock
  | contested | accessDenied | jobBusy | noJob | noOutcome | quotaInUse | nothing
  deriving DecidableEq, Repr

/-- A reply frame (R109); its LEN is the number of its result bytes. -/
structure Reply where
  status  : ResultCode
  tag     : Byte
  attn    : Byte
  results : List Byte
  check   : Half
  deriving DecidableEq, Repr

/-- The reply that a port unit sends or, in SPENT, has sent, and whether it is one that is kept as the last reply (R119). -/
structure Sending where
  reply : Reply
  kept  : Bool
  deriving DecidableEq, Repr

/-- IDLE, RECEIVING, ANSWERING or SPENT (R107). -/
inductive SelState where
  | idle | receiving | answering | spent
  deriving DecidableEq, Repr

/-- A READ or WRITE handed on to the array and not yet answered (R142). `cut`: the selection that carried it has
ended (R118). -/
structure Request where
  access : Access
  tag    : Byte
  args   : List Byte
  cut    : Bool
  deriving DecidableEq, Repr

/-- A complete frame whose judgement waits for the reply of the port's previous command (R118). `cut`: the selection
that carried it has ended. -/
structure Deferred where
  code  : Byte
  frame : Frame
  cut   : Bool
  deriving DecidableEq, Repr

/-- A port unit (R107, R119, R121, R135, R137). -/
structure PortUnit where
  sel        : SelState
  /-- The select line stands high, as last seen; a selection begins only at a fall after it (R107, R124). -/
  seenHigh   : Bool
  /-- The reply of the selection: being sent in ANSWERING, sent in SPENT; absent before it is formed (R109). -/
  answer     : Option Sending
  lastReply  : Option Reply
  errors     : StickyErrors
  notices    : StickyNotices
  /-- NOTICEn_N is asserted, driven low (R137). -/
  noticeLine : Bool
  request    : Option Request
  /-- Oldest first. -/
  deferred   : List Deferred
  deriving DecidableEq, Repr

/-- A user of the array (R150). -/
inductive User where
  | port (p : Port)
  | engine
  deriving DecidableEq, Repr

/-- A set of the five users (R150). -/
structure UserSet where
  p0     : Bool
  p1     : Bool
  p2     : Bool
  p3     : Bool
  engine : Bool
  deriving DecidableEq, Repr

/-- The empty set of users. -/
def UserSet.none : UserSet := ⟨false, false, false, false, false⟩

/-- The array arbiter (R150). `serving` is the user whose service is in progress; the array is also busy while
start-up clearing holds it (R152, log entry 14). -/
structure Arbiter where
  waiting    : UserSet
  serving    : Option User
  lastServed : User
  deriving DecidableEq, Repr

/-- STRICT, WRITES or OFF (R144). -/
inductive Enforce where
  | strict | writes | off
  deriving DecidableEq, Repr

/-- The configuration set (R174, Table 50). -/
structure Params where
  tickLength  : Nat
  maxTerm     : Nat
  defaultTerm : Nat
  maxWait     : Nat
  renewLimit  : Nat
  enforce     : Enforce
  quota       : PerPort Nat
  deriving DecidableEq, Repr

/-- The shared array as (address, byte) cells, addresses rising, no byte 0: an unlisted byte reads 0 (log entry 2). -/
abbrev Memory := List Host.Cell

/-- The state of the AP-820, with the queue of the commands that are waiting. -/
structure State where
  table          : Table
  waitList       : List WaitEntry
  clock          : Clock
  array          : Memory
  /-- The next page start-up clearing writes, 4096 once it has ended (R152). -/
  clearNext      : Nat
  arbiter        : Arbiter
  engine         : Engine
  params         : Params
  sessions       : PerPort Session
  ports          : PerPort PortUnit
  /-- A RESTART taken and not yet in hold; part of P0's port unit (R184, Table 32). -/
  restartPending : Bool
  /-- RESET_N is low (R124). -/
  resetLow       : Bool
  /-- The model's own: how many POWER_UP rows were taken (log entry 2). -/
  powerUps       : Nat
  /-- The commands that are waiting, first in, first out. -/
  pending        : List Instr
  deriving DecidableEq, Repr

/-- A session context after any reset (Table 32). -/
def Session.reset : Session :=
  { state := .detached, checking := true, mask := .none, warnThreshold := 0, reserved := [], held := [],
    evicted := false, usage := 0 }

/-- A port unit right after power-up: IDLE, waiting for select to be seen high (R105, R124). -/
def PortUnit.reset : PortUnit :=
  { sel := .idle, seenHigh := false, answer := none, lastReply := none, errors := .none, notices := .none,
    noticeLine := false, request := none, deferred := [] }

/-- The configuration after power-up and pin reset (R186). -/
def Params.reset : Params :=
  { tickLength := 10, maxTerm := 10000, defaultTerm := 1000, maxWait := 5000, renewLimit := 0, enforce := .strict,
    quota := .all 32 }

/-- The lease clock after power-up and pin reset (R75). -/
def Clock.reset : Clock := { periodCount := 0, baseCount := 0, lengthInUse := 10, pendingLength := none }

/-- The arbiter after a reset (R154). -/
def Arbiter.reset : Arbiter := { waiting := .none, serving := none, lastServed := .engine }

/-- The block engine after a reset (R172). -/
def Engine.reset : Engine := { jobs := .all none, turn := .p0, inFlight := none }

/-- The range table after power-up: every slot FREE with generation 1 (R22). -/
def Table.reset : Table := ⟨List.replicate 128 { gen := 1, content := .free }, List.length_replicate⟩

/-- The machine right after power is applied, RESET_N high, nothing in its queue (log entries 1 and 2). -/
def State.reset : State :=
  { table := Table.reset, waitList := [], clock := .reset, array := [], clearNext := 0, arbiter := .reset,
    engine := .reset, params := .reset, sessions := .all .reset, ports := .all .reset, restartPending := false,
    resetLow := false, powerUps := 0, pending := [] }

end Sys2Proof.Machine
end

