-- ==== Sys2Proof/Machine/Ops.lean ====
section
/-! DEFINITION. The named operations over ports, ranges, handles, the range table, the outcome list and the array. -/

namespace Sys2Proof.Machine

/-! ### Ports -/

/-- A port's number (00_scope.md, section 8). -/
def portNumber : Port → Nat
  | .p0 => 0
  | .p1 => 1
  | .p2 => 2
  | .p3 => 3

/-- The port of a number, if it is one of 0 to 3. -/
def portOfNumber : Nat → Option Port
  | 0 => some .p0
  | 1 => some .p1
  | 2 => some .p2
  | 3 => some .p3
  | _ => none

/-- The ports by number, lowest first. -/
def allPorts : List Port := [.p0, .p1, .p2, .p3]

/-- The port after a port in the cyclic order P0, P1, P2, P3 (R163). -/
def nextPort : Port → Port
  | .p0 => .p1
  | .p1 => .p2
  | .p2 => .p3
  | .p3 => .p0

/-- The value of one port. -/
def PerPort.get {α : Type} (x : PerPort α) : Port → α
  | .p0 => x.p0
  | .p1 => x.p1
  | .p2 => x.p2
  | .p3 => x.p3

/-- The values with one port's replaced. -/
def PerPort.set {α : Type} (x : PerPort α) (p : Port) (v : α) : PerPort α :=
  match p with
  | .p0 => { x with p0 := v }
  | .p1 => { x with p1 := v }
  | .p2 => { x with p2 := v }
  | .p3 => { x with p3 := v }

/-- The values with a function applied to each port's. -/
def PerPort.map {α β : Type} (f : α → β) (x : PerPort α) : PerPort β := ⟨f x.p0, f x.p1, f x.p2, f x.p3⟩

/-- The session context of a port (R88). -/
def State.session (s : State) (p : Port) : Session := s.sessions.get p

/-- The port unit of a port. -/
def State.port (s : State) (p : Port) : PortUnit := s.ports.get p

/-- The active job of a port, if it has one (R156). -/
def State.job (s : State) (p : Port) : Option Job := s.engine.jobs.get p

/-- The state with one session context changed. -/
def State.modSession (s : State) (p : Port) (f : Session → Session) : State :=
  { s with sessions := s.sessions.set p (f (s.sessions.get p)) }

/-- The state with one port unit changed. -/
def State.modPort (s : State) (p : Port) (f : PortUnit → PortUnit) : State :=
  { s with ports := s.ports.set p (f (s.ports.get p)) }

/-- The state with one place of the job table replaced. -/
def State.setJob (s : State) (p : Port) (j : Option Job) : State :=
  { s with engine := { s.engine with jobs := s.engine.jobs.set p j } }

/-- Start-up clearing of the array is in progress (R152). -/
def clearing (s : State) : Bool := decide (s.clearNext < Config.pageCount)

/-! ### Ranges -/

/-- R1: the test a range carried by a command must pass. -/
def rangeOk (r : Range) : Bool :=
  decide (r.first ≤ 4095) && decide (1 ≤ r.count) && decide (r.count ≤ 4096) && decide (r.first + r.count ≤ 4096)

/-- R2: two ranges have a page in common. -/
def overlaps (a b : Range) : Bool :=
  decide (a.first < b.first + b.count) && decide (b.first < a.first + a.count)

/-- R2: a range contains a page. -/
def coversPage (r : Range) (page : Nat) : Bool :=
  decide (r.first ≤ page) && decide (page < r.first + r.count)

/-- R41, R160: `inner` lies inside `outer`. -/
def insideRange (inner outer : Range) : Bool :=
  decide (outer.first ≤ inner.first) && decide (inner.first + inner.count ≤ outer.first + outer.count)

/-- R15: two modes that may stand over the same pages for different ports: both SHARED. -/
def bothShared (a b : Mode) : Bool := a == .shared && b == .shared

/-! ### Handles -/

/-- R6: the handle of a slot with a generation. -/
def handleOf (gen : Byte) (i : SlotId) : Half := gen ++ BitVec.ofNat 8 i.val

/-- R6: the high byte of a handle. -/
def handleGen (h : Half) : Byte := h.extractLsb' 8 8

/-- R7, case 1: the slot a handle's low byte names, if there is such a slot. -/
def handleSlot (h : Half) : Option SlotId :=
  let n := (h.extractLsb' 0 8).toNat
  if lt : n < 128 then some ⟨n, lt⟩ else none

/-- R5: the generation a slot's freeing gives it. -/
def nextGen (g : Byte) : Byte := if g = 255 then 1 else g + 1

/-! ### The range table -/

/-- One slot of the table. -/
def slotAt (s : State) (i : SlotId) : Slot := s.table.val[i.val]'(by rw [s.table.property]; exact i.isLt)

/-- The state with one slot replaced. -/
def setSlot (s : State) (i : SlotId) (x : Slot) : State :=
  { s with table := ⟨s.table.val.set i.val x, by rw [List.length_set]; exact s.table.property⟩ }

/-- The state with the content of one slot replaced; the generation stays (R5). -/
def setContent (s : State) (i : SlotId) (c : Content) : State := setSlot s i { slotAt s i with content := c }

/-- The slot numbers, lowest first. -/
def allSlots : List SlotId := List.finRange 128

/-- The record fields of a slot that is not FREE (Table 6). -/
def Content.claimed : Content → Option Claimed
  | .free => none
  | .reserved c => some c
  | .held c _ _ => some c
  | .lapsed c _ _ => some c

/-- The record fields of a HELD slot. -/
def Content.heldRecord : Content → Option Claimed
  | .held c _ _ => some c
  | _ => none

/-- The slot is FREE (R4). -/
def isFree (s : State) (i : SlotId) : Bool := (slotAt s i).content == .free

/-- The slot holds a record of the port (Table 6, R18). -/
def ownedBy (s : State) (p : Port) (i : SlotId) : Bool :=
  match (slotAt s i).content.claimed with
  | some c => c.holder == p
  | none => false

/-- R13: the lowest-numbered FREE slot. -/
def lowestFree (s : State) : Option SlotId := allSlots.find? (isFree s)

/-- The handle of the record in a slot (R6). -/
def slotHandle (s : State) (i : SlotId) : Half := handleOf (slotAt s i).gen i

/-- R14: a slot is freed: FREE, the generation advanced, the holder's usage lowered by 1. A FREE slot stays as it is. -/
def freeSlot (s : State) (i : SlotId) : State :=
  match (slotAt s i).content.claimed with
  | none => s
  | some c =>
    (setSlot s i { gen := nextGen (slotAt s i).gen, content := .free }).modSession c.holder
      fun x => { x with usage := x.usage - 1 }

/-- R13: a slot is allocated to a port, whose usage rises by 1 (R18). -/
def allocate (s : State) (p : Port) (i : SlotId) (c : Content) : State :=
  (setContent s i c).modSession p fun x => { x with usage := x.usage + 1 }

/-- R8: the slot a handle resolves to, for any holder. -/
def resolveAny (s : State) (h : Half) : Option SlotId :=
  match handleSlot h with
  | none => none
  | some i => if isFree s i || !(handleGen h == (slotAt s i).gen) then none else some i

/-- R7: the slot a handle resolves to for a port. -/
def resolve (s : State) (p : Port) (h : Half) : Option SlotId :=
  match resolveAny s h with
  | none => none
  | some i => if ownedBy s p i then some i else none

/-! ### Jobs, upgrades and the engaged condition -/

/-- The src handle of a job (Table 45). -/
def Work.src : Work → Option Half
  | .fill _ _ _ => none
  | .copy src _ _ _ _ => some src
  | .sum src _ _ => some src

/-- The dst handle of a job (Table 45). -/
def Work.dst : Work → Option Half
  | .fill dst _ _ => some dst
  | .copy _ dst _ _ _ => some dst
  | .sum _ _ _ => none

/-- The kind of a job. -/
def Work.kind : Work → JobKind
  | .fill _ _ _ => .fill
  | .copy _ _ _ _ _ => .copy
  | .sum _ _ _ => .sum

/-- The direction of a job: DOWNWARD only for a COPY (Table 45). -/
def Work.direction : Work → Direction
  | .copy _ _ _ _ d => d
  | _ => .upward

/-- The active job of a port names a handle as source or destination (R43). -/
def jobNames (s : State) (p : Port) (h : Half) : Bool :=
  match s.job p with
  | none => false
  | some j => j.work.src == some h || j.work.dst == some h

/-- The entry is an UPGRADE (R49). -/
def WaitEntry.isUpgrade (e : WaitEntry) : Bool :=
  match e.kind with
  | .upgrade => true
  | .claim _ _ => false

/-- An UPGRADE entry with this ticket waits (R43). -/
def upgradeWaits (s : State) (h : Half) : Bool := s.waitList.any fun e => e.isUpgrade && e.ticket == h

/-- R43: the record in a slot is engaged. Only a HELD record is (R12). -/
def engaged (s : State) (i : SlotId) : Bool :=
  match (slotAt s i).content with
  | .held c _ _ => jobNames s c.holder (slotHandle s i) || upgradeWaits s (slotHandle s i)
  | _ => false

/-! ### The outcome list -/

/-- R56, R126: places in use, reserved and held together. -/
def placesUsed (s : State) (p : Port) : Nat := (s.session p).reserved.length + (s.session p).held.length

/-- R127: one place is reserved. -/
def reservePlace (s : State) (p : Port) (r : Reservation) : State :=
  s.modSession p fun x => { x with reserved := x.reserved ++ [r] }

/-- R128: an outcome fills the reservation made for it and joins the tail of the held outcomes. -/
def fillPlace (s : State) (p : Port) (r : Reservation) (o : OutcomeRecord) : State :=
  s.modSession p fun x => { x with reserved := x.reserved.erase r, held := x.held ++ [o] }

/-! ### The array -/

/-- R141: the byte at an address; a byte no cell lists is 0 (log entry 2). -/
def readByte : Memory → Nat → Byte
  | [], _ => 0
  | (a', b) :: m, a => if a' = a then b else readByte m a

/-- The cells with one byte written, in canonical form. There is no byte at 262,144 or above (R141). -/
def writeByte (m : Memory) (a : Nat) (b : Byte) : Memory :=
  if a < Config.arrayBytes then go m else m
where
  /-- The write into the cells themselves. -/
  go : Memory → Memory
    | [] => if b = 0 then [] else [(a, b)]
    | (a', b') :: m =>
      if a < a' then (if b = 0 then (a', b') :: m else (a, b) :: (a', b') :: m)
      else if a = a' then (if b = 0 then m else (a, b) :: m)
      else (a', b') :: go m

/-- R146: `n` bytes from an address on, in ascending address order. -/
def readBytes (m : Memory) (a : Nat) : Nat → List Byte
  | 0 => []
  | n + 1 => readByte m a :: readBytes m (a + 1) n

/-- R146: bytes stored from an address on, in ascending address order. -/
def writeBytes (m : Memory) (a : Nat) : List Byte → Memory
  | [] => m
  | b :: bs => writeBytes (writeByte m a b) (a + 1) bs

/-- The 64 bytes of a page (R141). -/
def readPage (m : Memory) (page : Nat) : List Byte := readBytes m (64 * page) Config.pageBytes

/-- A page written whole (R141). -/
def writePage (m : Memory) (page : Nat) (bytes : List Byte) : Memory := writeBytes m (64 * page) bytes

/-- 64 times the same byte (R152, R157). -/
def filledPage (b : Byte) : List Byte := List.replicate Config.pageBytes b

/-- The canonical form of the array's cells: addresses rising and below 262,144, no byte 0. -/
def Memory.wf : Memory → Bool
  | [] => true
  | [(a, b)] => decide (a < Config.arrayBytes) && !(b == 0)
  | (a, b) :: (a', b') :: m => decide (a < a') && !(b == 0) && Memory.wf ((a', b') :: m)

/-- The cells of a whole array given byte by byte. -/
def cellsOf (f : Nat → Byte) : Memory :=
  (List.range Config.arrayBytes).filterMap fun a => if f a = 0 then none else some (a, f a)

end Sys2Proof.Machine
end

