-- ==== Sys2Proof/Machine/Check.lean ====
section
/-! DEFINITION. The frame check of R111, which also is what a SUM job computes (R159). -/

namespace Sys2Proof.Machine

/-- One bit of the check: generator x^16 + x^12 + x^5 + 1, most significant bit first. -/
def checkBit (c : Half) : Half := if c.msb then (c <<< 1) ^^^ 0x1021#16 else c <<< 1

/-- One byte taken into a running check, most significant bit first. -/
def checkByte (c : Half) (b : Byte) : Half :=
  checkBit <| checkBit <| checkBit <| checkBit <| checkBit <| checkBit <| checkBit <| checkBit <|
    c ^^^ (b.zeroExtend 16 <<< 8)

/-- Bytes taken into a running check, in order. -/
def checkBytes (c : Half) (bs : List Byte) : Half := bs.foldl checkByte c

/-- The check's initial value (R111, R159). -/
def checkStart : Half := 0xFFFF#16

/-- R111: the frame check over bytes. -/
def frameCheck (bs : List Byte) : Half := checkBytes checkStart bs

end Sys2Proof.Machine
end

