-- ==== Sys2Proof/Machine/Operands.lean ====
section
/-! DEFINITION. The bytes of frames: field order and width, encoded values, command codes, argument layouts and the
layouts of everything a reply carries (R187 to R191). -/

namespace Sys2Proof.Machine

/-! ### Fields of two and three bytes, high byte first (R187) -/

/-- A two-byte field from its bytes. -/
def ofBytes2 (hi lo : Byte) : Half := hi ++ lo

/-- The bytes of a two-byte field. -/
def bytes2 (x : Half) : List Byte := [x.extractLsb' 8 8, x.extractLsb' 0 8]

/-- A three-byte field from its bytes. -/
def ofBytes3 (hi mid lo : Byte) : BitVec 24 := hi ++ mid ++ lo

/-- The bytes of a three-byte field. -/
def bytes3 (x : BitVec 24) : List Byte := [x.extractLsb' 16 8, x.extractLsb' 8 8, x.extractLsb' 0 8]

/-- A number in one byte. -/
def num1 (n : Nat) : List Byte := [BitVec.ofNat 8 n]

/-- A number in two bytes. -/
def num2 (n : Nat) : List Byte := bytes2 (BitVec.ofNat 16 n)

/-- The argument byte at a place. -/
def argByte (args : List Byte) (k : Nat) : Byte := args.getD k 0

/-- The two-byte argument field at a place. -/
def argHalf (args : List Byte) (k : Nat) : Half := ofBytes2 (argByte args k) (argByte args (k + 1))

/-- The two-byte argument field at a place, as a number. -/
def argNum (args : List Byte) (k : Nat) : Nat := (argHalf args k).toNat

/-- The three-byte argument field at a place, as a number. -/
def argAddress (args : List Byte) (k : Nat) : Nat :=
  (ofBytes3 (argByte args k) (argByte args (k + 1)) (argByte args (k + 2))).toNat

/-- A range whose first and count stand at two places. -/
def argRange (args : List Byte) (first count : Nat) : Range := ⟨argNum args first, argNum args count⟩

/-! ### Encoded values (Table 53) -/

def boolByte (b : Bool) : Byte := if b then 1 else 0

/-- A yes-no argument: 0x01 yes, 0x00 no, nothing else. -/
def boolOfByte (b : Byte) : Option Bool := if b = 0 then some false else if b = 1 then some true else none

def modeByte : Mode → Byte
  | .shared => 0
  | .exclusive => 1

def modeOfByte (b : Byte) : Option Mode :=
  if b = 0 then some .shared else if b = 1 then some .exclusive else none

def contentByte : Content → Byte
  | .free => 0
  | .reserved _ => 1
  | .held _ _ _ => 2
  | .lapsed _ _ _ => 3

def endCauseByte : EndCause → Byte
  | .expired => 1
  | .revoked => 2

def sessionStateByte : SessionState → Byte
  | .detached => 0
  | .attached => 1
  | .closing => 2

/-- A set of flags as a byte, its first flag in bit 0. -/
def flagByte (flags : List Bool) : Byte :=
  BitVec.ofNat 8 (flags.foldr (fun b n => (if b then 1 else 0) + 2 * n) 0)

def noticeByte (x : NoticeSet) : Byte := flagByte [x.outcomeReady, x.leaseLow, x.leaseLost, x.revoked, x.contended]

/-- A flag set names no flag outside the five: bits 5 to 7 are clear (R187). -/
def noticeOfByte (b : Byte) : Option NoticeSet :=
  if b < 32 then some ⟨b.getLsbD 0, b.getLsbD 1, b.getLsbD 2, b.getLsbD 3, b.getLsbD 4⟩ else none

def errorByte (x : StickyErrors) : Byte := flagByte [x.checkFailed, x.truncated, x.replyCut, x.oversize]

def waitKindByte : WaitKind → Byte
  | .claim => 1
  | .upgrade => 2

/-- The kind of a wait entry, as an outcome and a reply name it. -/
def WaitEntry.waitKind (e : WaitEntry) : WaitKind := if e.isUpgrade then .upgrade else .claim

def waitEndByte : WaitEnd → Byte
  | .timedOut => 2
  | .cancelled => 3
  | .withdrawn => 4
  | .recordEnded => 6

def jobKindByte : JobKind → Byte
  | .fill => 1
  | .copy => 2
  | .sum => 3

def stopCauseByte : StopCause → Byte
  | .host => 1
  | .expired => 2
  | .revoked => 3

/-- Table 53 codes none and HOST. JOB_STATE is taken only in ATTACHED, where no job's stop request is CLOSED
(R98, R166); the byte of CLOSED is never sent (log entry 18). -/
def stopRequestByte : StopRequest → Byte
  | .host => 1
  | _ => 0

def directionByte : Direction → Byte
  | .upward => 0
  | .downward => 1

def enforceNumber : Enforce → Nat
  | .strict => 0
  | .writes => 1
  | .off => 2

def enforceOfNumber : Nat → Option Enforce
  | 0 => some .strict
  | 1 => some .writes
  | 2 => some .off
  | _ => none

/-- Table 56. -/
def resultByte : ResultCode → Byte
  | .ok => 0x00
  | .pending => 0x01
  | .starting => 0x10
  | .notAttached => 0x11
  | .evicted => 0x12
  | .closing => 0x13
  | .alreadyAttached => 0x14
  | .unknownCommand => 0x18
  | .badLength => 0x19
  | .checkFailed => 0x1A
  | .notSupervisor => 0x1B
  | .badRange => 0x20
  | .badMode => 0x21
  | .badTerm => 0x22
  | .badWait => 0x23
  | .badValue => 0x24
  | .staleHandle => 0x28
  | .lapsed => 0x29
  | .waiting => 0x2A
  | .engaged => 0x2B
  | .alreadyExclusive => 0x2C
  | .alreadyShared => 0x2D
  | .alreadyWaiting => 0x2E
  | .notWaiting => 0x2F
  | .overlapSelf => 0x30
  | .quotaExceeded => 0x31
  | .tableFull => 0x32
  | .conflict => 0x33
  | .portWaitsFull => 0x34
  | .waitlistFull => 0x35
  | .outcomesFull => 0x36
  | .deadlock => 0x37
  | .contested => 0x38
  | .accessDenied => 0x40
  | .jobBusy => 0x48
  | .noJob => 0x49
  | .noOutcome => 0x50
  | .quotaInUse => 0x58
  | .nothing => 0x59

/-! ### Commands (Table 55, Table 57) -/

/-- Table 55. -/
def commandCode : Command → Byte
  | .open_ => 0x01
  | .close => 0x02
  | .status => 0x03
  | .replay => 0x04
  | .ackErrors => 0x05
  | .claim => 0x10
  | .renew => 0x11
  | .release => 0x12
  | .downgrade => 0x13
  | .upgrade => 0x14
  | .trim => 0x15
  | .cancel => 0x16
  | .probe => 0x17
  | .list => 0x18
  | .read => 0x20
  | .write => 0x21
  | .fill => 0x28
  | .copy => 0x29
  | .sum => 0x2A
  | .stopJob => 0x2B
  | .jobState => 0x2C
  | .collect => 0x30
  | .setNotice => 0x31
  | .clearNotices => 0x32
  | .configSet => 0x38
  | .configGet => 0x39
  | .revoke => 0x3A
  | .evict => 0x3B
  | .inspect => 0x3C
  | .waitlist => 0x3D
  | .restart => 0x3E

/-- The 31 commands. -/
def allCommands : List Command :=
  [.open_, .close, .status, .replay, .ackErrors, .claim, .renew, .release, .downgrade, .upgrade, .trim, .cancel,
   .probe, .list, .read, .write, .fill, .copy, .sum, .stopJob, .jobState, .collect, .setNotice, .clearNotices,
   .configSet, .configGet, .revoke, .evict, .inspect, .waitlist, .restart]

/-- The command a CODE byte names, if it names one (R115). -/
def commandOfCode (b : Byte) : Option Command := allCommands.find? fun c => commandCode c == b

/-- The seven supervision commands (R173). -/
def isSupervision : Command → Bool
  | .configSet | .configGet | .revoke | .evict | .inspect | .waitlist | .restart => true
  | _ => false

/-- R115, R189: the argument bytes have a length that is right for the command (Table 57). -/
def lengthOk (c : Command) (args : List Byte) : Bool :=
  match c with
  | .write => decide (4 ≤ args.length) && decide (args.length = 4 + (argByte args 3).toNat)
  | .open_ | .configSet => decide (args.length = 3)
  | .close | .status | .replay | .ackErrors | .stopJob | .jobState | .collect | .restart => decide (args.length = 0)
  | .claim => decide (args.length = 11)
  | .renew | .upgrade | .probe | .read => decide (args.length = 4)
  | .release | .downgrade | .cancel | .setNotice | .revoke => decide (args.length = 2)
  | .trim | .sum => decide (args.length = 6)
  | .fill => decide (args.length = 7)
  | .copy => decide (args.length = 10)
  | .list | .clearNotices | .configGet | .evict | .inspect | .waitlist => decide (args.length = 1)

/-! ### Typed arguments (R24, R142, R160) with their bytes (Table 57) -/

/-- The arguments of CLAIM (R24). -/
structure ClaimArgs where
  mode  : Byte
  first : Half
  count : Half
  term  : Half
  wait  : Half
  label : Half
  deriving DecidableEq, Repr

def claimArgs (args : List Byte) : ClaimArgs :=
  ⟨argByte args 0, argHalf args 1, argHalf args 3, argHalf args 5, argHalf args 7, argHalf args 9⟩

def claimBytes (a : ClaimArgs) : List Byte :=
  [a.mode] ++ bytes2 a.first ++ bytes2 a.count ++ bytes2 a.term ++ bytes2 a.wait ++ bytes2 a.label

/-- The arguments of READ and WRITE (R142). -/
structure AccessArgs where
  address : BitVec 24
  length  : Byte
  data    : List Byte
  deriving DecidableEq, Repr

def accessArgs (args : List Byte) : AccessArgs :=
  ⟨ofBytes3 (argByte args 0) (argByte args 1) (argByte args 2), argByte args 3, args.drop 4⟩

def accessBytes (a : AccessArgs) : List Byte := bytes3 a.address ++ [a.length] ++ a.data

/-- The arguments of COPY (R160). -/
structure CopyArgs where
  src      : Half
  dst      : Half
  srcFirst : Half
  dstFirst : Half
  count    : Half
  deriving DecidableEq, Repr

def copyArgs (args : List Byte) : CopyArgs :=
  ⟨argHalf args 0, argHalf args 2, argHalf args 4, argHalf args 6, argHalf args 8⟩

def copyBytes (a : CopyArgs) : List Byte :=
  bytes2 a.src ++ bytes2 a.dst ++ bytes2 a.srcFirst ++ bytes2 a.dstFirst ++ bytes2 a.count

/-- The arguments of FILL (R160). -/
structure FillArgs where
  dst     : Half
  first   : Half
  count   : Half
  pattern : Byte
  deriving DecidableEq, Repr

def fillArgs (args : List Byte) : FillArgs :=
  ⟨argHalf args 0, argHalf args 2, argHalf args 4, argByte args 6⟩

def fillBytes (a : FillArgs) : List Byte := bytes2 a.dst ++ bytes2 a.first ++ bytes2 a.count ++ [a.pattern]

/-- The arguments of SUM (R160), and of TRIM (R41): a handle, a first page and a count. -/
structure SpanArgs where
  handle : Half
  first  : Half
  count  : Half
  deriving DecidableEq, Repr

def spanArgs (args : List Byte) : SpanArgs := ⟨argHalf args 0, argHalf args 2, argHalf args 4⟩

def spanBytes (a : SpanArgs) : List Byte := bytes2 a.handle ++ bytes2 a.first ++ bytes2 a.count

/-! ### Whole frames (R108, R109) -/

/-- The bytes of a command frame the check covers: CODE, TAG, LEN and the arguments (R111). -/
def frameBody (code : Byte) (f : Frame) : List Byte := code :: f.tag :: BitVec.ofNat 8 f.args.length :: f.args

/-- R108: a command frame as the bytes a host sends. -/
def frameBytes (code : Byte) (f : Frame) : List Byte := frameBody code f ++ bytes2 f.check

/-- The check of a frame is the one the port unit computes (R111, R114). -/
def checkMatches (code : Byte) (f : Frame) : Bool := frameCheck (frameBody code f) == f.check

/-- A frame with a correct check. -/
def goodFrame (c : Command) (p : Port) (tag : Byte) (args : List Byte) : Frame :=
  { port := p, tag := tag, args := args,
    check := frameCheck (commandCode c :: tag :: BitVec.ofNat 8 args.length :: args) }

/-- What the bytes taken so far in a selection amount to (R108, R113, R117). -/
inductive Reception where
  /-- No complete frame yet: the port unit is in RECEIVING. -/
  | partialFrame
  /-- The LEN byte is above 72: the frame ended there. -/
  | oversize (code tag len : Byte)
  /-- The frame is complete; later bytes are ignored (R116). -/
  | complete (code : Byte) (f : Frame)
  deriving DecidableEq, Repr

/-- R108, R113: the frame that the bytes of a selection of a port carry. -/
def receive (p : Port) : List Byte → Reception
  | code :: tag :: len :: rest =>
    if Config.maxLen < len.toNat then .oversize code tag len
    else if rest.length < len.toNat + 2 then .partialFrame
    else .complete code
      { port := p, tag := tag, args := rest.take len.toNat,
        check := ofBytes2 (argByte rest len.toNat) (argByte rest (len.toNat + 1)) }
  | _ => .partialFrame

/-- The bytes of a reply the check covers (R111). -/
def replyBody (status : ResultCode) (tag attn : Byte) (results : List Byte) : List Byte :=
  resultByte status :: tag :: attn :: BitVec.ofNat 8 results.length :: results

/-- R109: a reply with its check. -/
def mkReply (status : ResultCode) (tag attn : Byte) (results : List Byte) : Reply :=
  { status := status, tag := tag, attn := attn, results := results,
    check := frameCheck (replyBody status tag attn results) }

/-- R109: a reply frame as the bytes the port unit sends. -/
def replyBytes (r : Reply) : List Byte := replyBody r.status r.tag r.attn r.results ++ bytes2 r.check

/-- What an owning block answers a command with: its result code and result bytes. -/
structure Answer where
  code    : ResultCode
  results : List Byte := []
  deriving DecidableEq, Repr

/-! ### Records, entries and outcomes in replies (R191) -/

/-- The 18 bytes INSPECT gives for a slot that is not FREE; absent fields are zero (R187). -/
def recordBytes (h : Half) (c : Claimed) (l : Lease) (remaining : Nat) (cause engaged : Byte) : List Byte :=
  bytes2 h ++ num1 (portNumber c.holder) ++ [modeByte c.mode] ++ num2 c.range.first ++ num2 c.range.count ++
    num2 l.term ++ num2 remaining ++ num1 l.renewals ++ bytes2 c.label ++ [boolByte l.warned, cause, engaged]

/-- The lease fields of a RESERVED slot: all absent, sent as zero. -/
def absentLease : Lease := ⟨0, 0, false⟩

/-- INSPECT's results (R182, R191). -/
def inspectBytes (s : State) (i : SlotId) : List Byte :=
  let x := slotAt s i
  let head := num1 i.val ++ [contentByte x.content, x.gen]
  let h := slotHandle s i
  match x.content with
  | .free => head
  | .reserved c => head ++ recordBytes h c absentLease 0 0 0
  | .held c l r => head ++ recordBytes h c l r 0 (boolByte (engaged s i))
  | .lapsed c l e => head ++ recordBytes h c l 0 (endCauseByte e) 0

/-- The three bytes of a LIST item's range: first in the upper 12 bits, count − 1 in the lower 12. -/
def packedRange (r : Range) : List Byte := bytes3 (BitVec.ofNat 12 r.first ++ BitVec.ofNat 12 (r.count - 1))

/-- One 12-byte LIST item. -/
def listItem (gen : Byte) (i : SlotId) (c : Claimed) (l : Lease) (remaining : Nat) : List Byte :=
  [gen, (if c.mode = .exclusive then 0x80#8 else 0x00#8) ||| BitVec.ofNat 8 i.val] ++ packedRange c.range ++
    num2 l.term ++ num2 remaining ++ num1 l.renewals ++ bytes2 c.label

/-- The LIST item of a slot, with its warned bit and its mark bit (R191). -/
def listEntry (s : State) (i : SlotId) : List Byte × Bool × Bool :=
  let x := slotAt s i
  match x.content with
  | .free => ([], false, false)
  | .reserved c => (listItem x.gen i c absentLease 0, false, false)
  | .held c l r => (listItem x.gen i c l r, l.warned, engaged s i)
  | .lapsed c l e => (listItem x.gen i c l 0, l.warned, e == .revoked)

/-- A word whose bit i is the i-th of a list. -/
def bitWord (bits : List Bool) : List Byte :=
  num2 (bits.foldr (fun b n => (if b then 1 else 0) + 2 * n) 0)

/-- LIST's results for the slots returned and the more indication (R191). -/
def listBytes (s : State) (items : List SlotId) (more : Bool) : List Byte :=
  let entries := items.map (listEntry s)
  [(if more then 0x80#8 else 0x00#8) ||| BitVec.ofNat 8 items.length] ++ bitWord (entries.map fun e => e.2.1) ++
    bitWord (entries.map fun e => e.2.2) ++ entries.flatMap fun e => e.1

/-- One 10-byte PROBE item (R191). -/
def probeItem (h : Half) (c : Claimed) : List Byte :=
  bytes2 h ++ num1 (portNumber c.holder) ++ [modeByte c.mode] ++ num2 c.range.first ++ num2 c.range.count ++
    bytes2 c.label

/-- One 16-byte WAITLIST item (R191); an UPGRADE entry's term and label are zero. -/
def waitItem (e : WaitEntry) : List Byte :=
  bytes2 e.ticket ++ num1 (portNumber e.port) ++ [waitKindByte e.waitKind, modeByte e.mode] ++
    num2 e.range.first ++ num2 e.range.count ++
    (match e.kind with
     | .claim term label => num2 term ++ bytes2 label
     | .upgrade => [0, 0, 0, 0]) ++
    num2 e.waitRemaining ++ [e.tag]

/-- The 18 bytes of an outcome: tag, kind, result, handle, mode, first, count, term, job kind, pages done, stop cause,
sum value (R191); the fields Table 37 gives as absent are zero. -/
def outcomeBytes (o : OutcomeRecord) : List Byte :=
  match o.body with
  | .granted h m r t =>
    [o.tag, 0x01, 0x01] ++ bytes2 h ++ [modeByte m] ++ num2 r.first ++ num2 r.count ++ num2 t ++ [0, 0, 0, 0, 0, 0]
  | .upgraded h r t =>
    [o.tag, 0x02, 0x05] ++ bytes2 h ++ [modeByte .exclusive] ++ num2 r.first ++ num2 r.count ++ num2 t ++
      [0, 0, 0, 0, 0, 0]
  | .ended k how h =>
    [o.tag, waitKindByte k, waitEndByte how] ++ bytes2 h ++ [0, 0, 0, 0, 0, 0, 0, 0, 0, 0, 0, 0, 0]
  | .jobDone k n sum =>
    [o.tag, 0x03, 0x07, 0, 0, 0, 0, 0, 0, 0, 0, 0, jobKindByte k] ++ num2 n ++ [0] ++ bytes2 (sum.getD 0)
  | .jobStopped k n cause sum =>
    [o.tag, 0x03, 0x08, 0, 0, 0, 0, 0, 0, 0, 0, 0, jobKindByte k] ++ num2 n ++ [stopCauseByte cause] ++
      bytes2 (sum.getD 0)

end Sys2Proof.Machine
end

