-- ==== Sys2Proof/Machine/Signal.lean ====
section
/-! DEFINITION. The signalling of a port (R106): the bits and bytes that clock edges carry in both directions, and the
row of the operation table that the bits of a selection come to. -/

namespace Sys2Proof.Machine

/-! ### Data in -/

/-- R106: data-in is sampled on each rising edge of clock, one bit each time. -/
def sampled : List ClockEdge → List Bool
  | [] => []
  | .rise bit :: edges => bit :: sampled edges
  | .fall :: edges => sampled edges

/-- R106: the byte that eight bits carry, the most significant first. -/
def byteOfBits (bits : List Bool) : Byte := BitVec.ofNat 8 (bits.foldl (fun n bit => 2 * n + bit.toNat) 0)

/-- R106: the bits of a byte in the order in which they are sent. -/
def bitsOfByte (b : Byte) : List Bool := (List.range 8).map b.getMsbD

/-- R106: the bytes taken from the bits sampled since select fell, eight bits each; the bits of a byte that is not
complete are discarded. -/
def bytesTaken : List Bool → List Byte
  | b7 :: b6 :: b5 :: b4 :: b3 :: b2 :: b1 :: b0 :: bits => byteOfBits [b7, b6, b5, b4, b3, b2, b1, b0] :: bytesTaken bits
  | _ => []

/-- R106: the bytes taken over the clock edges of a selection. -/
def bytesOfEdges (edges : List ClockEdge) : List Byte := bytesTaken (sampled edges)

/-! ### Data out -/

/-- R106: the bytes sent over clock edges that start at a byte boundary. For each byte clocked in one is clocked out,
and a byte whose eight bits have not all been clocked is not sent. -/
def bytesSent (edges : List ClockEdge) : Nat := (sampled edges).length / 8

/-- R106: a bit of what a port sends since select fell: the bytes of a stream, the most significant bit first, and then
the fill byte 0xFF. -/
def streamBit (stream : List Byte) (k : Nat) : Bool := (stream.getD (k / 8) 0xFF).getMsbD (k % 8)

/-- R106: the level of data-out after clock edges, from its level after `rises` rising edges: each falling edge changes
it to the bit that the next rising edge carries (log entry 21). -/
def dataLine (stream : List Byte) : Nat → Option Bool → List ClockEdge → Option Bool
  | _, level, [] => level
  | rises, level, .rise _ :: edges => dataLine stream (rises + 1) level edges
  | rises, _, .fall :: edges => dataLine stream rises (some (streamBit stream rises)) edges

/-! ### What a selection carries -/

/-- The row of the operation table in which a frame of a command completes. -/
def rowOf (c : Command) (f : Frame) : Instr :=
  match c with
  | .open_ => .openSession f
  | .close => .close f
  | .status => .status f
  | .replay => .replay f
  | .ackErrors => .ackErrors f
  | .claim => .claim f
  | .renew => .renew f
  | .release => .release f
  | .downgrade => .downgrade f
  | .upgrade => .upgrade f
  | .trim => .trim f
  | .cancel => .cancel f
  | .probe => .probe f
  | .list => .list f
  | .read => .arbiterRequestArrives [⟨.read, f⟩]
  | .write => .arbiterRequestArrives [⟨.write, f⟩]
  | .fill => .fill f
  | .copy => .copy f
  | .sum => .sum f
  | .stopJob => .stopJob f
  | .jobState => .jobState f
  | .collect => .collect f
  | .setNotice => .setNotice f
  | .clearNotices => .clearNotices f
  | .configSet => .configSet f
  | .configGet => .configGet f
  | .revoke => .revoke f
  | .evict => .evict f
  | .inspect => .inspect f
  | .waitlist => .waitlist f
  | .restart => .restart f

/-- The row in which a frame with a CODE byte completes (R115). -/
def rowOfCode (code : Byte) (f : Frame) : Instr :=
  match commandOfCode code with
  | some c => rowOf c f
  | none => .unknownCommand code f

/-- R106, R108, R113: the row in which the clock edges of a port's selection end its frame, if they end one. -/
def rowOfEdges (p : Port) (edges : List ClockEdge) : Option Instr :=
  match receive p (bytesOfEdges edges) with
  | .partialFrame => none
  | .oversize code tag len => some (.oversizeFrame p code tag len)
  | .complete code f => some (rowOfCode code f)

end Sys2Proof.Machine
end

