-- ==== Sys2Proof/WellFormed.lean ====
section
/-! DEFINITION. Which terms of `Instr` stand for something a host or the board can do. -/

namespace Sys2Proof

open Machine

/-- R108: the LEN of a complete frame is at most 72. -/
def Frame.wf (f : Frame) : Bool := decide (f.args.length ≤ Config.maxLen)

/-- R107, R150: frames that complete together do so on different ports. -/
def distinctPorts (arrivals : List Arrival) : Bool :=
  let ports := arrivals.map fun a => a.frame.port
  decide (ports.dedup = ports)

/-- The command frame a row carries, with its CODE byte. -/
def Instr.frame? : Instr → Option Frame
  | .unknownCommand _ f => some f
  | .openSession f | .close f | .status f | .replay f | .ackErrors f | .claim f | .renew f | .release f
  | .downgrade f | .upgrade f | .trim f | .cancel f | .probe f | .list f | .fill f | .copy f | .sum f | .stopJob f
  | .jobState f | .collect f | .setNotice f | .clearNotices f | .configSet f | .configGet f | .revoke f | .evict f
  | .inspect f | .waitlist f | .restart f => some f
  | .powerUp | .startupClearPage | .resetNAssert | .resetNRelease | .restartTakesHold | .leaseTick | .lapse _
  | .waitExpiry _ | .selectionBegin _ | .deselectionReceiving _ _ | .deselectionAnswering _ | .deselectionSpent _
  | .oversizeFrame _ _ _ _ | .read _ | .write _ | .pageStep | .replyLastByteSent _ | .selectSeenHigh _
  | .arbiterRequestArrives _ => none

/-- Well-formed: a frame's LEN is at most 72 (R108); an unknown command's CODE names no command (R115); an oversize
LEN is above 72 (R113); the clock edges before a deselection in RECEIVING end no frame (R117);
frames that complete together are at least one, on different ports (R150). -/
def Instr.wf (i : Instr) : Bool :=
  match i with
  | .unknownCommand code f => f.wf && (commandOfCode code).isNone
  | .oversizeFrame _ _ _ len => decide (Config.maxLen < len.toNat)
  | .deselectionReceiving p edges => (rowOfEdges p edges).isNone
  | .arbiterRequestArrives arrivals =>
    !arrivals.isEmpty && (arrivals.all fun a => a.frame.wf) && distinctPorts arrivals
  | i => match i.frame? with
    | some f => f.wf
    | none => true

end Sys2Proof
end

