-- ==== Sys2Proof/Decode.lean ====
section
/-! DEFINITION. The commands that a word of the operation table spells. -/

namespace Sys2Proof

/-- No row of the operation table gives bits, so no word spells a command (log entry 16). How the bytes of a frame
spell a command is `Machine.receive` and `Machine.commandOfCode`. -/
def decodeTableWord (_nbits _w : Nat) : Option Instr := none

end Sys2Proof
end

