-- ==== Sys2Proof/Machine/Flags.lean ====
section
/-! DEFINITION. Notice flags, the NOTICE line, sticky errors and the ATTN byte. -/

namespace Sys2Proof.Machine

/-- R135: the five notice flags of a port. OUTCOME_READY is set exactly while an outcome is held. -/
def noticeFlags (s : State) (p : Port) : NoticeSet :=
  let n := (s.port p).notices
  { outcomeReady := !(s.session p).held.isEmpty, leaseLow := n.leaseLow, leaseLost := n.leaseLost,
    revoked := n.revoked, contended := n.contended }

/-- The flags of both sets. -/
def NoticeSet.inter (a b : NoticeSet) : NoticeSet :=
  ⟨a.outcomeReady && b.outcomeReady, a.leaseLow && b.leaseLow, a.leaseLost && b.leaseLost, a.revoked && b.revoked,
   a.contended && b.contended⟩

/-- Some flag of the set. -/
def NoticeSet.any (a : NoticeSet) : Bool := a.outcomeReady || a.leaseLow || a.leaseLost || a.revoked || a.contended

/-- R110, R137: at least one notice flag is set that the mask enables. -/
def noticeActive (s : State) (p : Port) : Bool := ((noticeFlags s p).inter (s.session p).mask).any

/-- R137, R124: the NOTICE line a port should drive: asserted while notice active, released while RESET_N is low. -/
def noticeDue (s : State) (p : Port) : Bool := noticeActive s p && !s.resetLow

/-- R137: at the end of a happening each port's NOTICE line follows its flags and its mask. -/
def settleNotices (s : State) : State :=
  { s with ports :=
      ⟨{ s.ports.p0 with noticeLine := noticeDue s .p0 }, { s.ports.p1 with noticeLine := noticeDue s .p1 },
       { s.ports.p2 with noticeLine := noticeDue s .p2 }, { s.ports.p3 with noticeLine := noticeDue s .p3 }⟩ }

/-- R78: LEASE_LOW is set at a port. -/
def raiseLeaseLow (s : State) (p : Port) : State :=
  s.modPort p fun u => { u with notices := { u.notices with leaseLow := true } }

/-- R79: LEASE_LOST is set at a port. -/
def raiseLeaseLost (s : State) (p : Port) : State :=
  s.modPort p fun u => { u with notices := { u.notices with leaseLost := true } }

/-- R179: REVOKED is set at a port. -/
def raiseRevoked (s : State) (p : Port) : State :=
  s.modPort p fun u => { u with notices := { u.notices with revoked := true } }

/-- R59, R63: CONTENDED is set at a port. -/
def raiseContended (s : State) (p : Port) : State :=
  s.modPort p fun u => { u with notices := { u.notices with contended := true } }

/-- The port's transport errors changed, but not while start-up clearing is in progress (R123). -/
def setError (s : State) (p : Port) (f : StickyErrors → StickyErrors) : State :=
  if clearing s then s else s.modPort p fun u => { u with errors := f u.errors }

/-- R121: CHECK_FAILED is set. -/
def setCheckFailed (s : State) (p : Port) : State := setError s p fun e => { e with checkFailed := true }

/-- R121: TRUNCATED is set. -/
def setTruncated (s : State) (p : Port) : State := setError s p fun e => { e with truncated := true }

/-- R121: REPLY_CUT is set. -/
def setReplyCut (s : State) (p : Port) : State := setError s p fun e => { e with replyCut := true }

/-- R121: OVERSIZE is set. -/
def setOversize (s : State) (p : Port) : State := setError s p fun e => { e with oversize := true }

/-- Some sticky error is set (R110). -/
def StickyErrors.any (e : StickyErrors) : Bool := e.checkFailed || e.truncated || e.replyCut || e.oversize

/-- R110, R188: the ATTN byte of a reply formed now. Bits 4 and 3 are the session state. -/
def attnByte (s : State) (p : Port) : Byte :=
  let x := s.session p
  flagByte [!x.held.isEmpty, noticeActive s p, (s.port p).errors.any] |||
    (sessionStateByte x.state <<< 3) ||| (if x.evicted then 0x20#8 else 0x00#8)

end Sys2Proof.Machine
end

