-- ==== Sys2Proof/Machine/WaitList.lean ====
section
/-! DEFINITION. The wait list: conflict and blockers, the waits-for relation, queueing, the grant scan, and every way an
entry leaves the list (Chapter 3). -/

namespace Sys2Proof.Machine

/-! ### Conflict and blockers -/

/-- R15, R51: a request of port `p` and a record or entry of port `q` conflict. -/
def conflicts (p : Port) (m : Mode) (r : Range) (q : Port) (m' : Mode) (r' : Range) : Bool :=
  !(p == q) && overlaps r r' && !bothShared m m'

/-- R15, R26: the HELD record in a slot conflicts with a request of port `p`. RESERVED and LAPSED slots take no part
(R16). -/
def heldConflict (s : State) (p : Port) (m : Mode) (r : Range) (i : SlotId) : Bool :=
  match (slotAt s i).content.heldRecord with
  | some c => conflicts p m r c.holder c.mode c.range
  | none => false

/-- R27, R51: a wait entry conflicts with a request of port `p`. An UPGRADE entry's mode is EXCLUSIVE (R49). -/
def entryConflict (p : Port) (m : Mode) (r : Range) (e : WaitEntry) : Bool :=
  conflicts p m r e.port e.mode e.range

/-- R26: the slots of a request's holder blockers, lowest first. -/
def holderBlockers (s : State) (p : Port) (m : Mode) (r : Range) : List SlotId :=
  allSlots.filter (heldConflict s p m r)

/-- R27: a request's waiter blockers, oldest first. -/
def waiterBlockers (s : State) (p : Port) (m : Mode) (r : Range) : List WaitEntry :=
  s.waitList.filter (entryConflict p m r)

/-- A HELD record of port `q` conflicts with a request. -/
def heldByBlocks (s : State) (p : Port) (m : Mode) (r : Range) (q : Port) : Bool :=
  (holderBlockers s p m r).any fun i => ownedBy s q i

/-- R57, step 1: port `q` is in the blocker set of a new request. -/
def inBlockerSet (s : State) (p : Port) (m : Mode) (r : Range) (q : Port) : Bool :=
  heldByBlocks s p m r q || (waiterBlockers s p m r).any fun e => e.port == q

/-- R52: port `q` is a blocker of an entry, given the entries older than it. -/
def entryBlockedBy (s : State) (older : List WaitEntry) (e : WaitEntry) (q : Port) : Bool :=
  heldByBlocks s e.port e.mode e.range q ||
    older.any fun o => o.port == q && entryConflict e.port e.mode e.range o

/-- R53 over the entries from some position on, given the older ones. -/
def waitsForFrom (s : State) (a b : Port) : List WaitEntry → List WaitEntry → Bool
  | _, [] => false
  | older, e :: es => (e.port == a && entryBlockedBy s older e b) || waitsForFrom s a b (older ++ [e]) es

/-- R53: port `a` waits for port `b`. -/
def waitsFor (s : State) (a b : Port) : Bool := waitsForFrom s a b [] s.waitList

/-- R53: a chain of at most `n` steps of the waits-for relation leads from `b` to `a`. -/
def leadsWithin (s : State) : Nat → Port → Port → Bool
  | 0, _, _ => false
  | n + 1, b, a => waitsFor s b a || allPorts.any fun c => waitsFor s b c && leadsWithin s n c a

/-- R53: port `b` leads to port `a`; among four ports a chain of four steps is enough. -/
def leadsTo (s : State) (b a : Port) : Bool := leadsWithin s 4 b a

/-- R57: the lowest-numbered port of the blocker set that leads to the request's port. -/
def deadlockPort (s : State) (p : Port) (m : Mode) (r : Range) : Option Port :=
  allPorts.find? fun q => inBlockerSet s p m r q && leadsTo s q p

/-! ### Queueing (R54 to R59) -/

/-- The entries of a port in the list. -/
def portWaits (s : State) (p : Port) : Nat := (s.waitList.filter fun e => e.port == p).length

/-- R54, Table 19: the queueing checks, in order; the answer of the first that fails. -/
def queueRefusal (s : State) (p : Port) (m : Mode) (r : Range) : Option Answer :=
  if Config.portWaitsMax ≤ portWaits s p then some { code := .portWaitsFull }
  else if Config.waitListMax ≤ s.waitList.length then some { code := .waitlistFull }
  else if Config.outcomePlaces ≤ placesUsed s p then some { code := .outcomesFull }
  else (deadlockPort s p m r).map fun q => { code := .deadlock, results := num1 (portNumber q) }

/-- R59: CONTENDED is set at each port whose HELD record conflicts with a request. -/
def contendHolders (s : State) (p : Port) (m : Mode) (r : Range) : State :=
  (allPorts.filter (heldByBlocks s p m r)).foldl raiseContended s

/-- R58: an entry joins the list at its tail with one outcome place reserved, and the conflicting holders are told. -/
def appendEntry (s : State) (e : WaitEntry) : State :=
  let s := { s with waitList := s.waitList ++ [e] }
  contendHolders (reservePlace s e.port (.entry e.ticket)) e.port e.mode e.range

/-- R29: the answer CONFLICT, naming the first blocker. -/
def conflictAnswer (s : State) (p : Port) (m : Mode) (r : Range) : Answer :=
  match holderBlockers s p m r, waiterBlockers s p m r with
  | i :: _, _ =>
    let holder := match (slotAt s i).content.claimed with
      | some c => portNumber c.holder
      | none => 0
    { code := .conflict, results := [0x01] ++ num1 holder ++ bytes2 (slotHandle s i) }
  | [], e :: _ => { code := .conflict, results := [0x02] ++ num1 (portNumber e.port) ++ [0, 0] }
  | [], [] => { code := .conflict }

/-- A request has a blocker (R28, R38). -/
def blocked (s : State) (p : Port) (m : Mode) (r : Range) : Bool :=
  !(holderBlockers s p m r).isEmpty || !(waiterBlockers s p m r).isEmpty

/-! ### The grant scan (R60 to R64) -/

/-- R61, R62: what a scan writes into the range table for a granted entry. -/
def grantedContent (e : WaitEntry) (c : Content) : Content :=
  match e.kind, c with
  | .claim term _, .reserved r => .held r ⟨term, 0, false⟩ term
  | .upgrade, .held r l n => .held { r with mode := .exclusive } l n
  | _, c => c

/-- R61, R62: the outcome of a granted entry, from the record it made. -/
def grantOutcome (e : WaitEntry) (c : Content) : OutcomeRecord :=
  match e.kind, c with
  | .upgrade, .held r l _ => { tag := e.tag, body := .upgraded e.ticket r.range l.term }
  | _, .held r l _ => { tag := e.tag, body := .granted e.ticket r.mode r.range l.term }
  | .claim term _, _ => { tag := e.tag, body := .granted e.ticket e.mode e.range term }
  | .upgrade, _ => { tag := e.tag, body := .upgraded e.ticket e.range 0 }

/-- R61, R62: a scan grants an entry: the record, and the outcome in its reserved place. -/
def grantEntry (s : State) (e : WaitEntry) : State :=
  match handleSlot e.ticket with
  | none => s
  | some i =>
    let s := setContent s i (grantedContent e (slotAt s i).content)
    fillPlace s e.port (.entry e.ticket) (grantOutcome e (slotAt s i).content)

/-- R60: the scan's test of an entry: no HELD record of another port and no older entry still in the list conflicts. -/
def grantable (s : State) (older : List WaitEntry) (e : WaitEntry) : Bool :=
  !allSlots.any (heldConflict s e.port e.mode e.range) && !older.any (entryConflict e.port e.mode e.range)

/-- What one pass of the scan has come to: the state, the entries left in the list, the entries granted. -/
structure Pass where
  state   : State
  stay    : List WaitEntry
  granted : List WaitEntry

/-- R60: the pass over the entries, oldest first. -/
def scanPass : Pass → List WaitEntry → Pass
  | x, [] => x
  | x, e :: es =>
    if grantable x.state x.stay e then
      scanPass { x with state := grantEntry x.state e, granted := x.granted ++ [e] } es
    else scanPass { x with stay := x.stay ++ [e] } es

/-- R63: CONTENDED for the record of a granted entry, if an entry of another port still waits on its pages. -/
def contendGranted (s : State) (e : WaitEntry) : State :=
  match handleSlot e.ticket with
  | none => s
  | some i =>
    match (slotAt s i).content.heldRecord with
    | some c => if s.waitList.any (entryConflict c.holder c.mode c.range) then raiseContended s c.holder else s
    | none => s

/-- R60 to R64: one grant scan, the last part of the happening that runs it. -/
def grantScan (s : State) : State :=
  let x := scanPass { state := s, stay := [], granted := [] } s.waitList
  x.granted.foldl contendGranted { x.state with waitList := x.stay }

/-! ### The other ways an entry leaves the list -/

/-- An entry leaves the list with an outcome that says how, in the place reserved for it (R65, R66, R68, R69). -/
def endEntry (s : State) (e : WaitEntry) (how : WaitEnd) : State :=
  fillPlace { s with waitList := s.waitList.erase e } e.port (.entry e.ticket)
    { tag := e.tag, body := .ended e.waitKind how e.ticket }

/-- The RESERVED slot of a CLAIM entry is freed; an UPGRADE entry's record stays as it is (R65, R66, R68). -/
def freeClaimSlot (s : State) (e : WaitEntry) : State :=
  match e.kind, handleSlot e.ticket with
  | .claim _ _, some i => freeSlot s i
  | _, _ => s

/-- An entry ends and, for a CLAIM, its slot is freed (R65, R66, R68). -/
def dropEntry (s : State) (e : WaitEntry) (how : WaitEnd) : State := freeClaimSlot (endEntry s e how) e

/-- R69: the waiting upgrade of the record with a handle, if there is one, ends RECORD_ENDED. -/
def endUpgradeOf (s : State) (h : Half) : State :=
  match s.waitList.find? fun e => e.isUpgrade && e.ticket == h with
  | some e => endEntry s e .recordEnded
  | none => s

end Sys2Proof.Machine
end

