-- ==== Sys2Proof/Machine/Locks.lean ====
section
/-! DEFINITION. What the lock manager does with CLAIM, RENEW, RELEASE, DOWNGRADE, UPGRADE, TRIM, CANCEL, PROBE and LIST
once a port's session has admitted them (Chapters 1 to 3). -/

namespace Sys2Proof.Machine

/-- An answer with nothing changed (R23). -/
def refuse (s : State) (code : ResultCode) : State × Answer := (s, { code := code })

/-! ### CLAIM (R24 to R30) -/

/-- R17: a range overlaps a HELD record or a waiting CLAIM of the port. -/
def overlapsSelf (s : State) (p : Port) (r : Range) : Bool :=
  (allSlots.any fun i =>
    match (slotAt s i).content.heldRecord with
    | some c => c.holder == p && overlaps r c.range
    | none => false) ||
  s.waitList.any fun e => e.port == p && !e.isUpgrade && overlaps r e.range

/-- R24: the resolved term of a CLAIM. -/
def resolvedTerm (s : State) (term : Nat) : Nat := if term = 0 then s.params.defaultTerm else term

/-- R28: a CLAIM is granted at once in a FREE slot. -/
def claimGrant (s : State) (p : Port) (m : Mode) (r : Range) (term : Nat) (label : Half) (i : SlotId) :
    State × Answer :=
  let s := allocate s p i (.held ⟨p, m, r, label⟩ ⟨term, 0, false⟩ term)
  (s, { code := .ok, results := bytes2 (slotHandle s i) ++ num2 term })

/-- R30, R58: a CLAIM is queued in a FREE slot, which becomes RESERVED. -/
def claimQueue (s : State) (p : Port) (tag : Byte) (m : Mode) (r : Range) (term wait : Nat) (label : Half)
    (i : SlotId) : State × Answer :=
  let s := allocate s p i (.reserved ⟨p, m, r, label⟩)
  let h := slotHandle s i
  let s := appendEntry s
    { ticket := h, port := p, kind := .claim term label, mode := m, range := r, waitRemaining := wait, tag := tag }
  (s, { code := .pending, results := bytes2 h })

/-- R25, step 9: conflict determination: grant, refusal or hand-off to the queueing. -/
def claimDecide (s : State) (p : Port) (tag : Byte) (m : Mode) (r : Range) (term wait : Nat) (label : Half)
    (i : SlotId) : State × Answer :=
  if !blocked s p m r then claimGrant s p m r term label i
  else if wait = 0 then (s, conflictAnswer s p m r)
  else match queueRefusal s p m r with
    | some a => (s, a)
    | none => claimQueue s p tag m r term wait label i

/-- R25, Table 15: CLAIM, its checks in order. -/
def takeClaim (p : Port) (tag : Byte) (args : List Byte) (s : State) : State × Answer :=
  let a := claimArgs args
  let r : Range := ⟨a.first.toNat, a.count.toNat⟩
  match modeOfByte a.mode with
  | none => refuse s .badMode
  | some m =>
    if !rangeOk r then refuse s .badRange
    else if s.params.maxTerm < a.term.toNat then refuse s .badTerm
    else if s.params.maxWait < a.wait.toNat then refuse s .badWait
    else if overlapsSelf s p r then refuse s .overlapSelf
    else if s.params.quota.get p ≤ (s.session p).usage then refuse s .quotaExceeded
    else match lowestFree s with
      | none => refuse s .tableFull
      | some i => claimDecide s p tag m r (resolvedTerm s a.term.toNat) a.wait.toNat a.label i

/-! ### RENEW (R31 to R33) -/

/-- R32: a RENEW of a record is contested. -/
def contested (s : State) (c : Claimed) (l : Lease) : Bool :=
  decide (0 < s.params.renewLimit) && decide (s.params.renewLimit ≤ l.renewals) &&
    s.waitList.any (entryConflict c.holder c.mode c.range)

/-- R31: the resolved term of a RENEW. -/
def renewTerm (s : State) (l : Lease) (term : Nat) : Nat :=
  if term = 0 then min l.term s.params.maxTerm else term

/-- R33: renewals after one more; 255 stays 255. -/
def oneMoreRenewal (n : Nat) : Nat := if n < 255 then n + 1 else 255

/-- R31 to R33: RENEW. -/
def takeRenew (p : Port) (args : List Byte) (s : State) : State × Answer :=
  let term := argNum args 2
  if s.params.maxTerm < term then refuse s .badTerm
  else match resolve s p (argHalf args 0) with
    | none => refuse s .staleHandle
    | some i =>
      match (slotAt s i).content with
      | .free => refuse s .staleHandle
      | .reserved _ => refuse s .waiting
      | .lapsed _ _ _ => refuse s .lapsed
      | .held c l _ =>
        if contested s c l then refuse s .contested
        else
          let t := renewTerm s l term
          (setContent s i (.held c ⟨t, oneMoreRenewal l.renewals, false⟩ t), { code := .ok, results := num2 t })

/-! ### RELEASE (R34, R35) -/

/-- R34, R35: RELEASE. -/
def takeRelease (p : Port) (args : List Byte) (s : State) : State × Answer :=
  match resolve s p (argHalf args 0) with
  | none => refuse s .staleHandle
  | some i =>
    match (slotAt s i).content with
    | .free => refuse s .staleHandle
    | .reserved _ => refuse s .waiting
    | .held _ _ _ =>
      if engaged s i then refuse s .engaged
      else (grantScan (freeSlot s i), { code := .ok, results := [0x02, 0x00] })
    | .lapsed _ _ cause => (freeSlot s i, { code := .ok, results := [0x03, endCauseByte cause] })

/-! ### DOWNGRADE (R36) -/

/-- R36: DOWNGRADE. -/
def takeDowngrade (p : Port) (args : List Byte) (s : State) : State × Answer :=
  match resolve s p (argHalf args 0) with
  | none => refuse s .staleHandle
  | some i =>
    match (slotAt s i).content with
    | .free => refuse s .staleHandle
    | .reserved _ => refuse s .waiting
    | .lapsed _ _ _ => refuse s .lapsed
    | .held c l n =>
      if engaged s i then refuse s .engaged
      else if c.mode = .shared then refuse s .alreadyShared
      else (grantScan (setContent s i (.held { c with mode := .shared } l n)), { code := .ok })

/-! ### UPGRADE (R37 to R39) -/

/-- R38, R39: an UPGRADE that has passed its checks: grant, refusal or hand-off to the queueing. -/
def upgradeDecide (s : State) (p : Port) (tag : Byte) (i : SlotId) (c : Claimed) (l : Lease) (n wait : Nat) :
    State × Answer :=
  let h := slotHandle s i
  if !blocked s p .exclusive c.range then
    (setContent s i (.held { c with mode := .exclusive } l n), { code := .ok, results := bytes2 h })
  else if wait = 0 then (s, conflictAnswer s p .exclusive c.range)
  else match queueRefusal s p .exclusive c.range with
    | some a => (s, a)
    | none =>
      (appendEntry s
        { ticket := h, port := p, kind := .upgrade, mode := .exclusive, range := c.range, waitRemaining := wait,
          tag := tag },
       { code := .pending, results := bytes2 h })

/-- R37 to R39: UPGRADE. -/
def takeUpgrade (p : Port) (tag : Byte) (args : List Byte) (s : State) : State × Answer :=
  let wait := argNum args 2
  if s.params.maxWait < wait then refuse s .badWait
  else match resolve s p (argHalf args 0) with
    | none => refuse s .staleHandle
    | some i =>
      match (slotAt s i).content with
      | .free => refuse s .staleHandle
      | .reserved _ => refuse s .waiting
      | .lapsed _ _ _ => refuse s .lapsed
      | .held c l n =>
        if c.mode = .exclusive then refuse s .alreadyExclusive
        else if upgradeWaits s (slotHandle s i) then refuse s .alreadyWaiting
        else upgradeDecide s p tag i c l n wait

/-! ### TRIM (R41, R42) -/

/-- R41, R42: TRIM. -/
def takeTrim (p : Port) (args : List Byte) (s : State) : State × Answer :=
  let a := spanArgs args
  let r : Range := ⟨a.first.toNat, a.count.toNat⟩
  if !rangeOk r then refuse s .badRange
  else match resolve s p a.handle with
    | none => refuse s .staleHandle
    | some i =>
      match (slotAt s i).content with
      | .free => refuse s .staleHandle
      | .reserved _ => refuse s .waiting
      | .lapsed _ _ _ => refuse s .lapsed
      | .held c l n =>
        if !insideRange r c.range then refuse s .badRange
        else if engaged s i then refuse s .engaged
        else (grantScan (setContent s i (.held { c with range := r } l n)), { code := .ok })

/-! ### CANCEL (R66) -/

/-- R66: CANCEL. The ticket is compared whole and not resolved. -/
def takeCancel (p : Port) (args : List Byte) (s : State) : State × Answer :=
  match s.waitList.find? fun e => e.port == p && e.ticket == argHalf args 0 with
  | none => refuse s .notWaiting
  | some e =>
    (grantScan (dropEntry s e .cancelled),
     { code := .ok, results := [waitKindByte e.waitKind] ++ bytes2 e.ticket })

/-! ### PROBE and LIST (R20, R21) -/

/-- The HELD records that overlap a range, in slot order (R20). -/
def heldOver (s : State) (r : Range) : List SlotId :=
  allSlots.filter fun i =>
    match (slotAt s i).content.heldRecord with
    | some c => overlaps r c.range
    | none => false

/-- The wait entries that overlap a range (R20). -/
def waitingOver (s : State) (r : Range) : Nat := (s.waitList.filter fun e => overlaps r e.range).length

/-- One PROBE item of a slot. -/
def probeEntry (s : State) (i : SlotId) : List Byte :=
  match (slotAt s i).content.heldRecord with
  | some c => probeItem (slotHandle s i) c
  | none => []

/-- R20: PROBE. -/
def takeProbe (args : List Byte) (s : State) : State × Answer :=
  let r := argRange args 0 2
  if !rangeOk r then refuse s .badRange
  else
    let found := heldOver s r
    let items := found.take Config.maxItems
    (s, { code := .ok,
          results := num1 items.length ++ num1 (found.length - items.length) ++ num1 (waitingOver s r) ++
            items.flatMap (probeEntry s) })

/-- The port's own slots numbered from a start slot upward (R21). -/
def ownedFrom (s : State) (p : Port) (start : Nat) : List SlotId :=
  allSlots.filter fun i => decide (start ≤ i.val) && ownedBy s p i

/-- R21: LIST. -/
def takeList (p : Port) (args : List Byte) (s : State) : State × Answer :=
  let start := (argByte args 0).toNat
  if 127 < start then refuse s .badValue
  else
    let found := ownedFrom s p start
    (s, { code := .ok,
          results := listBytes s (found.take Config.maxItems) (decide (Config.maxItems < found.length)) })

end Sys2Proof.Machine
end

