-- ==== Sys2Proof/Machine/ArrayAccess.lean ====
section
/-! DEFINITION. The array arbiter, the checks and transfers of READ and WRITE, and start-up clearing (Chapter 8). -/

namespace Sys2Proof.Machine

/-! ### The arbiter (R150) -/

/-- The user is in the set. -/
def UserSet.has (x : UserSet) : User → Bool
  | .port .p0 => x.p0
  | .port .p1 => x.p1
  | .port .p2 => x.p2
  | .port .p3 => x.p3
  | .engine => x.engine

/-- The set with a user put in or taken out. -/
def UserSet.put (x : UserSet) (u : User) (b : Bool) : UserSet :=
  match u with
  | .port .p0 => { x with p0 := b }
  | .port .p1 => { x with p1 := b }
  | .port .p2 => { x with p2 := b }
  | .port .p3 => { x with p3 := b }
  | .engine => { x with engine := b }

/-- The five users in the cyclic order P0, P1, P2, P3, engine, from the one after a given user on. -/
def usersAfter : User → List User
  | .port .p0 => [.port .p1, .port .p2, .port .p3, .engine, .port .p0]
  | .port .p1 => [.port .p2, .port .p3, .engine, .port .p0, .port .p1]
  | .port .p2 => [.port .p3, .engine, .port .p0, .port .p1, .port .p2]
  | .port .p3 => [.engine, .port .p0, .port .p1, .port .p2, .port .p3]
  | .engine => [.port .p0, .port .p1, .port .p2, .port .p3, .engine]

/-- R150: the waiting user to be served next. -/
def nextServed (a : Arbiter) : Option User := (usersAfter a.lastServed).find? a.waiting.has

/-- R150: the arbiter serves the next waiting user; with none waiting the array is not busy. -/
def serveNext (a : Arbiter) : Arbiter :=
  match nextServed a with
  | some u => { waiting := a.waiting.put u false, serving := some u, lastServed := u }
  | none => { a with serving := none }

/-- R150, R152: the array is busy: a service is in progress, or start-up clearing holds it. -/
def arrayBusy (s : State) : Bool := s.arbiter.serving.isSome || clearing s

/-- The arbiter with requests of users added to its waiting set. -/
def joinWaiting (a : Arbiter) (us : List User) : Arbiter :=
  { a with waiting := us.foldl (fun w u => w.put u true) a.waiting }

/-- R150: requests of one or more users arrive together. -/
def arrive (s : State) (us : List User) : State :=
  let a := joinWaiting s.arbiter us
  if us.isEmpty then s
  else if arrayBusy s || someWaiting s.arbiter then { s with arbiter := a }
  else { s with arbiter := serveNext a }
where
  /-- Some request waits. -/
  someWaiting (a : Arbiter) : Bool := (usersAfter .engine).any a.waiting.has

/-- R150: a service ends. -/
def endService (s : State) : State := { s with arbiter := serveNext s.arbiter }

/-! ### READ and WRITE (R142 to R146) -/

/-- R144, Table 41: the setting requires coverage of the access. -/
def coverageRequired (e : Enforce) (a : Access) : Bool :=
  match e, a with
  | .strict, _ => true
  | .writes, .write => true
  | .writes, .read => false
  | .off, _ => false

/-- R145: a HELD record of the port covers the page in a mode that allows the access. -/
def pageCovered (s : State) (p : Port) (a : Access) (page : Nat) : Bool :=
  allSlots.any fun i =>
    match (slotAt s i).content.heldRecord with
    | some c => c.holder == p && coversPage c.range page && (a == .read || c.mode == .exclusive)
    | none => false

/-- R141: the pages an access touches, in ascending order. -/
def touchedPages (address length : Nat) : List Nat :=
  let first := address / Config.pageBytes
  let last := (address + length - 1) / Config.pageBytes
  List.range' first (last + 1 - first)

/-- R145: the first touched page that is not covered as required. -/
def firstUncovered (s : State) (p : Port) (a : Access) (address length : Nat) : Option Nat :=
  if coverageRequired s.params.enforce a then
    (touchedPages address length).find? fun page => !pageCovered s p a page
  else none

/-- R143, R146: READ or WRITE of an attached port, as the arbiter serves it. -/
def takeAccess (a : Access) (p : Port) (args : List Byte) (s : State) : State × Answer :=
  let x := accessArgs args
  let address := x.address.toNat
  let length := x.length.toNat
  if length = 0 || 64 < length then refuse s .badRange
  else if Config.arrayBytes ≤ address || Config.arrayBytes < address + length then refuse s .badRange
  else match firstUncovered s p a address length with
    | some page => (s, { code := .accessDenied, results := num2 page })
    | none =>
      match a with
      | .read => (s, { code := .ok, results := readBytes s.array address length })
      | .write => ({ s with array := writeBytes s.array address (x.data.take length) }, { code := .ok })

/-! ### Start-up clearing (R152) -/

/-- R152, R154, R75: the end of start-up clearing: the arbiter as after a reset, the clock at its first tick. -/
def endClearing (s : State) : State :=
  { s with arbiter := .reset, clock := { s.clock with periodCount := 0, baseCount := 0 } }

/-- R152: the next page is written with zeros. -/
def clearPage (s : State) : State :=
  let s' := { s with array := writePage s.array s.clearNext (filledPage 0), clearNext := s.clearNext + 1 }
  if clearing s' then s' else endClearing s'

/-- STARTUP_CLEAR_PAGE (R152, R153): while RESET_N is low too; once the clearing has ended there is no page to clear. -/
def execStartupClearPage (s : State) : Host.Outcome State Fault Refusal :=
  .next (if clearing s then clearPage s else s)

end Sys2Proof.Machine
end

