-- ==== Sys2Proof/Machine/Engine.lean ====
section
/-! DEFINITION. The block engine: admission of FILL, COPY and SUM, the choice of the next job, page steps, and the end of
a job (Chapter 9). -/

namespace Sys2Proof.Machine

/-! ### The choice of the next job (R163) -/

/-- The four ports in cyclic order from a given one on. -/
def portsFrom (p : Port) : List Port := [p, nextPort p, nextPort (nextPort p), nextPort (nextPort (nextPort p))]

/-- R163: with no request in flight and a job active, the engine chooses a job and places its next page step with the
arbiter. -/
def chooseJob (s : State) : State :=
  match s.engine.inFlight, (portsFrom s.engine.turn).find? fun p => (s.job p).isSome with
  | none, some p => arrive { s with engine := { s.engine with inFlight := some p, turn := nextPort p } } [.engine]
  | _, _ => s

/-! ### Admission (R160, R161) -/

/-- A record a job names, with the job's range on its side; src sides come before dst sides. -/
structure Side where
  handle : Half
  range  : Range
  isDst  : Bool
  deriving DecidableEq, Repr

/-- What a side's handle resolves to for the port; FREE when it does not resolve (R7). -/
def sideContent (s : State) (p : Port) (x : Side) : Content :=
  match resolve s p x.handle with
  | some i => (slotAt s i).content
  | none => .free

/-- R160, step 5: the refusal of a named record that is not HELD. -/
def notHeldCode (s : State) (p : Port) (x : Side) : Option ResultCode :=
  match sideContent s p x with
  | .reserved _ => some .waiting
  | .lapsed _ _ _ => some .lapsed
  | _ => none

/-- R160, step 6: a dst record is EXCLUSIVE. -/
def sideModeOk (s : State) (p : Port) (x : Side) : Bool :=
  match (sideContent s p x).heldRecord with
  | some c => !x.isDst || c.mode == .exclusive
  | none => false

/-- R160, step 7: a side's range lies inside its record. -/
def sideInside (s : State) (p : Port) (x : Side) : Bool :=
  match (sideContent s p x).heldRecord with
  | some c => insideRange x.range c.range
  | none => false

/-- R160, Table 46: the admission checks after the session's, in order; the code of the first that fails. -/
def admissionRefusal (s : State) (p : Port) (sides : List Side) : Option ResultCode :=
  if sides.any fun x => !rangeOk x.range then some .badRange
  else if (s.job p).isSome then some .jobBusy
  else if sides.any fun x => sideContent s p x == .free then some .staleHandle
  else match sides.findSome? (notHeldCode s p) with
    | some code => some code
    | none =>
      if sides.any fun x => !sideModeOk s p x then some .badMode
      else if sides.any fun x => !sideInside s p x then some .badRange
      else if Config.outcomePlaces ≤ placesUsed s p then some .outcomesFull
      else none

/-- R160, R161: a job is refused, or admitted with its outcome place reserved and the engine's choice made. -/
def admitJob (s : State) (p : Port) (sides : List Side) (j : Job) : State × Answer :=
  match admissionRefusal s p sides with
  | some code => refuse s code
  | none =>
    (chooseJob (reservePlace (s.setJob p (some j)) p .job), { code := .pending, results := num1 (portNumber p) })

/-- R158: the direction of a COPY, fixed at admission. -/
def copyDirection (src dst : Range) : Direction :=
  if overlaps src dst && decide (src.first < dst.first) then .downward else .upward

/-- R160: FILL. -/
def takeFill (p : Port) (tag : Byte) (args : List Byte) (s : State) : State × Answer :=
  let a := fillArgs args
  let dst : Range := ⟨a.first.toNat, a.count.toNat⟩
  admitJob s p [⟨a.dst, dst, true⟩]
    { tag := tag, work := .fill a.dst dst.first a.pattern, count := dst.count, pagesDone := 0, stop := .none }

/-- R160: COPY. -/
def takeCopy (p : Port) (tag : Byte) (args : List Byte) (s : State) : State × Answer :=
  let a := copyArgs args
  let src : Range := ⟨a.srcFirst.toNat, a.count.toNat⟩
  let dst : Range := ⟨a.dstFirst.toNat, a.count.toNat⟩
  admitJob s p [⟨a.src, src, false⟩, ⟨a.dst, dst, true⟩]
    { tag := tag, work := .copy a.src a.dst src.first dst.first (copyDirection src dst), count := src.count,
      pagesDone := 0, stop := .none }

/-- R160: SUM. -/
def takeSum (p : Port) (tag : Byte) (args : List Byte) (s : State) : State × Answer :=
  let a := spanArgs args
  let src : Range := ⟨a.first.toNat, a.count.toNat⟩
  admitJob s p [⟨a.handle, src, false⟩]
    { tag := tag, work := .sum a.handle src.first checkStart, count := src.count, pagesDone := 0, stop := .none }

/-- R166: STOP_JOB. -/
def takeStopJob (p : Port) (s : State) : State × Answer :=
  match s.job p with
  | none => refuse s .noJob
  | some j =>
    (s.setJob p (some { j with stop := .host }),
     { code := .ok, results := [jobKindByte j.work.kind] ++ num2 j.count ++ num2 j.pagesDone })

/-- R167: JOB_STATE. -/
def takeJobState (p : Port) (s : State) : State × Answer :=
  match s.job p with
  | none => refuse s .noJob
  | some j =>
    (s, { code := .ok,
          results := [jobKindByte j.work.kind] ++ num2 j.count ++ num2 j.pagesDone ++
            [directionByte j.work.direction, stopRequestByte j.stop] })

/-! ### Page steps (R157 to R159, R164, R165) -/

/-- The records a job names, src first (R164, step 2). -/
def jobSides (j : Job) : List Side :=
  match j.work with
  | .fill dst f _ => [⟨dst, ⟨f, j.count⟩, true⟩]
  | .copy src dst f g _ => [⟨src, ⟨f, j.count⟩, false⟩, ⟨dst, ⟨g, j.count⟩, true⟩]
  | .sum src f _ => [⟨src, ⟨f, j.count⟩, false⟩]

/-- R165, Table 47: the stop cause a record check gives, if the record fails it. DESIGN CHOICE, unsafe (log entry 22): a
handle that resolves to a RESERVED slot, whose generation has come round to it, fails with HOST. -/
def sideFailure (s : State) (p : Port) (x : Side) : Option StopCause :=
  match sideContent s p x with
  | .held c _ _ => if insideRange x.range c.range && (!x.isDst || c.mode == .exclusive) then none else some .host
  | .lapsed _ _ .expired => some .expired
  | .lapsed _ _ .revoked => some .revoked
  | .free => some .host
  | .reserved _ => some .host

/-- What a service finds at steps 1 to 3 of R164. -/
inductive StepFinding where
  /-- Step 1: the stop request is CLOSED. -/
  | closed
  /-- Steps 2 and 3: the job ends STOPPED with this cause. -/
  | stopped (cause : StopCause)
  /-- Step 4: the page is transferred. -/
  | transfer
  deriving DecidableEq, Repr

/-- R164, steps 1 to 3. -/
def stepFinding (s : State) (p : Port) (j : Job) : StepFinding :=
  if j.stop = .closed then .closed
  else match (jobSides j).findSome? (sideFailure s p) with
    | some cause => .stopped cause
    | none => if j.stop = .host then .stopped .host else .transfer

/-- The page a job's next step takes on a side whose first page is given (R157 to R159). -/
def stepPage (j : Job) (first : Nat) : Nat :=
  match j.work.direction with
  | .upward => first + j.pagesDone
  | .downward => first + j.count - 1 - j.pagesDone

/-- The pages a job's next step reads or writes. -/
def stepPages (j : Job) : List Nat := (jobSides j).map fun x => stepPage j x.range.first

/-- R157 to R159: the array after a job's next step. -/
def stepArray (m : Memory) (j : Job) : Memory :=
  match j.work with
  | .fill _ f b => writePage m (stepPage j f) (filledPage b)
  | .copy _ _ f g _ => writePage m (stepPage j g) (readPage m (stepPage j f))
  | .sum _ _ _ => m

/-- R159, R164: the job after its next step. -/
def stepJob (m : Memory) (j : Job) : Job :=
  { j with
    pagesDone := j.pagesDone + 1
    work := match j.work with
      | .sum src f c => .sum src f (checkBytes c (readPage m (stepPage j f)))
      | w => w }

/-- The sum value of a SUM's outcome (R131, R159). -/
def sumValue : Work → Option Half
  | .sum _ _ c => some c
  | _ => none

/-- R168: a job of an ATTACHED port leaves the table and its outcome fills its reservation. -/
def endJob (s : State) (p : Port) (j : Job) (body : OutcomeBody) : State :=
  fillPlace (s.setJob p none) p .job { tag := j.tag, body := body }

/-- R99, R169: the end of a CLOSING port's job: no outcome, and the session becomes DETACHED. -/
def reportJobEnded (s : State) (p : Port) : State :=
  (s.setJob p none).modSession p fun x => { x with state := .detached }

/-- R164: the service of the page step of a port's job, without the engine's next choice. -/
def servePageStep (s : State) (p : Port) (j : Job) : State :=
  match stepFinding s p j with
  | .closed => reportJobEnded s p
  | .stopped cause => endJob s p j (.jobStopped j.work.kind j.pagesDone cause (sumValue j.work))
  | .transfer =>
    let j' := stepJob s.array j
    let s := { s with array := stepArray s.array j }
    if j'.pagesDone = j'.count then endJob s p j' (.jobDone j'.work.kind j'.pagesDone (sumValue j'.work))
    else s.setJob p (some j')

/-- The step would transfer a page that does not exist (log entry 19). -/
def stepOutside (s : State) (p : Port) (j : Job) : Bool :=
  stepFinding s p j == .transfer && (stepPages j).any fun n => decide (Config.pageCount ≤ n)

/-- R163, R164: the end of a service of an engine request: the next choice, and the arbiter's. -/
def endEngineService (s : State) : State :=
  endService (chooseJob { s with engine := { s.engine with inFlight := none } })

/-- The job whose page step the arbiter is serving. -/
def servedJob (s : State) : Option (Port × Job) :=
  match s.arbiter.serving, s.engine.inFlight with
  | some .engine, some p => (s.job p).map fun j => (p, j)
  | _, _ => none

/-- PAGE_STEP (R151, R164): the service of the engine's request. While the arbiter serves no engine request there is
no step (log entry 6). -/
def execPageStep (s : State) : Host.Outcome State Fault Refusal :=
  match servedJob s with
  | none => .next s
  | some (p, j) =>
    if stepOutside s p j then .fault .outsideArray
    else .next (settleNotices (endEngineService (servePageStep s p j)))

end Sys2Proof.Machine
end

