-- ==== Sys2Proof/Machine/Lease.lean ====
section
/-! DEFINITION. Lease time: one tick at the lock manager, the lapse of a record, wait expiry, and the lease clock
(Chapter 4, R65). -/

namespace Sys2Proof.Machine

/-! ### The steps of a tick (R76) -/

/-- R77: the remaining of a HELD record is lowered by 1. -/
def countdownSlot (x : Slot) : Slot :=
  match x.content with
  | .held c l n => { x with content := .held c l (n - 1) }
  | _ => x

/-- R77: step 1 of a tick. -/
def countdown (s : State) : State :=
  { s with table := ⟨s.table.val.map countdownSlot, by rw [List.length_map]; exact s.table.property⟩ }

/-- R78: a HELD record is to be warned: its holder's threshold is above 0, equals its remaining, and it is not warned. -/
def warnDue (s : State) (i : SlotId) : Bool :=
  match (slotAt s i).content with
  | .held c l n =>
    decide (0 < (s.session c.holder).warnThreshold) && decide (n = (s.session c.holder).warnThreshold) && !l.warned
  | _ => false

/-- R78: one record warned: marked, and LEASE_LOW at its holder. -/
def warnSlot (s : State) (i : SlotId) : State :=
  if warnDue s i then
    match (slotAt s i).content with
    | .held c l n => raiseLeaseLow (setContent s i (.held c { l with warned := true } n)) c.holder
    | _ => s
  else s

/-- R78: step 2 of a tick. -/
def warnings (s : State) : State := allSlots.foldl warnSlot s

/-- R79, R69: a HELD record whose remaining is 0 becomes LAPSED with end cause EXPIRED; LEASE_LOST is set at its
holder, and a waiting upgrade of it ends RECORD_ENDED. -/
def lapseSlot (s : State) (i : SlotId) : State :=
  match (slotAt s i).content with
  | .held c l 0 => endUpgradeOf (raiseLeaseLost (setContent s i (.lapsed c l .expired)) c.holder) (slotHandle s i)
  | _ => s

/-- A HELD record with remaining 0: it lapses at step 3 (R79). -/
def lapseDue (s : State) (i : SlotId) : Bool :=
  match (slotAt s i).content with
  | .held _ _ 0 => true
  | _ => false

/-- R79: step 3 of a tick, in ascending slot order. -/
def lapses (s : State) : State := allSlots.foldl lapseSlot s

/-- R65: the wait remaining of every entry in the list is lowered by 1. -/
def countWaits (s : State) : State :=
  { s with waitList := s.waitList.map fun e => { e with waitRemaining := e.waitRemaining - 1 } }

/-- The entries whose wait remaining is 0, oldest first (R65). -/
def expiredEntries (s : State) : List WaitEntry := s.waitList.filter fun e => decide (e.waitRemaining = 0)

/-- R65: an entry times out: it leaves the list with a TIMED_OUT outcome, and a CLAIM's RESERVED slot is freed. -/
def expireEntry (s : State) (e : WaitEntry) : State := dropEntry s e .timedOut

/-- R65, R80: step 4 of a tick. -/
def waitExpiries (s : State) : State :=
  let s := countWaits s
  (expiredEntries s).foldl expireEntry s

/-- R76: what the lock manager does at a lease tick. -/
def tickLocks (s : State) : State :=
  let s2 := warnings (countdown s)
  let s3 := lapses s2
  let s4 := waitExpiries s3
  if allSlots.any (lapseDue s2) || !(expiredEntries (countWaits s3)).isEmpty then grantScan s4 else s4

/-! ### The lease clock (R72 to R75) -/

/-- R75, R124: the clock runs: RESET_N is high and start-up clearing has ended. -/
def clockRuns (s : State) : Bool := !s.resetLow && !clearing s

/-- R72: at the end of a tick a pending length comes into use and the next tick begins at base count 0. -/
def nextTick (c : Clock) : Clock :=
  { periodCount := 0, baseCount := 0, lengthInUse := c.pendingLength.getD c.lengthInUse, pendingLength := none }

/-- R72: the tick in progress ends: it is delivered to the lock manager, and the next one begins. -/
def endTick (s : State) : State :=
  let s := tickLocks s
  settleNotices { s with clock := nextTick s.clock }

/-- R72: one period of CLKIN: the period count, the base count at 1,600 of them, and the end of the tick when the base
count reaches the length in use. -/
def clkinPeriod (s : State) : State :=
  let c := s.clock
  if c.periodCount + 1 < Config.periodsPerUnit then { s with clock := { c with periodCount := c.periodCount + 1 } }
  else
    let s := { s with clock := { c with periodCount := 0, baseCount := c.baseCount + 1 } }
    if c.baseCount + 1 < c.lengthInUse then s else endTick s

/-- R105 (log entry 3): what happens while no command waits: one period of CLKIN passes, if the clock runs. -/
def idle (s : State) : State := if clockRuns s then clkinPeriod s else s

/-! ### The rows -/

/-- LEASE_TICK (R72, R76). While the clock does not run there is no tick in progress to end (R75). -/
def execLeaseTick (s : State) : Host.Outcome State Fault Refusal :=
  .next (if clockRuns s then endTick s else s)

/-- LAPSE of one slot (R79, R69): the part of a tick's step 3 that concerns it (log entry 4). -/
def execLapse (i : SlotId) (s : State) : Host.Outcome State Fault Refusal :=
  .next (if lapseDue s i then settleNotices (lapseSlot s i) else s)

/-- WAIT_EXPIRY of the entry with a ticket (R65): the part of a tick's step 4 that concerns it (log entry 4). -/
def execWaitExpiry (ticket : Half) (s : State) : Host.Outcome State Fault Refusal :=
  .next
    (match (expiredEntries s).find? fun e => e.ticket == ticket with
     | some e => settleNotices (expireEntry s e)
     | none => s)

end Sys2Proof.Machine
end

