-- ==== Sys2Proof/Machine/Sessions.lean ====
section
/-! DEFINITION. Sessions, the outcome list and the notices as a port's own commands reach them: admission, OPEN, CLOSE
and teardown, STATUS, ACK_ERRORS, COLLECT, SET_NOTICE and CLEAR_NOTICES (Chapters 5 to 7). -/

namespace Sys2Proof.Machine

/-! ### Admission (R90) -/

/-- R90, Table 30: the answer of the session context, if it does not admit the command. -/
def admission (s : State) (p : Port) (c : Command) : Option ResultCode :=
  let x := s.session p
  match c with
  | .status | .replay | .ackErrors => none
  | .open_ =>
    match x.state with
    | .detached => none
    | .attached => some .alreadyAttached
    | .closing => some .closing
  | _ =>
    match x.state with
    | .attached => none
    | .closing => some .closing
    | .detached => some (if x.evicted then .evicted else .notAttached)

/-! ### OPEN (R93, R94) -/

/-- R94: the reply of an OPEN. -/
def openResults (s : State) (p : Port) : List Byte :=
  num1 (portNumber p) ++ [boolByte (p == .p0)] ++ num1 (s.params.quota.get p) ++ num1 s.params.tickLength ++
    num2 s.params.maxTerm ++ num2 s.params.defaultTerm ++ num2 s.params.maxWait ++
    [boolByte (s.session p).evicted]

/-- R93, R94: OPEN. -/
def takeOpen (p : Port) (args : List Byte) (s : State) : State × Answer :=
  match boolOfByte (argByte args 0), noticeOfByte (argByte args 1) with
  | none, _ => refuse s .badValue
  | _, none => refuse s .badValue
  | some checking, some mask =>
    (s.modSession p fun x =>
      { x with state := .attached, checking := checking, mask := mask, warnThreshold := (argByte args 2).toNat,
               evicted := false },
     { code := .ok, results := openResults s p })

/-! ### CLOSE and teardown (R95 to R98) -/

/-- R96, item 1: every slot of the port is freed, in ascending slot order. -/
def freeSlotsOf (s : State) (p : Port) : State :=
  allSlots.foldl (fun s i => if ownedBy s p i then freeSlot s i else s) s

/-- R96, item 2: every wait entry of the port is removed without an outcome. -/
def removeEntriesOf (s : State) (p : Port) : State :=
  { s with waitList := s.waitList.filter fun e => !(e.port == p) }

/-- R97, R98: what the teardown leaves in the session context: the lists emptied, the settings put back, and DETACHED
or, with an active job, CLOSING. -/
def tornSession (hasJob : Bool) (x : Session) : Session :=
  { x with state := if hasJob then .closing else .detached, checking := true, mask := .none, warnThreshold := 0,
           reserved := [], held := [] }

/-- R98: the stop request of the port's job becomes CLOSED. -/
def closeJob (s : State) (p : Port) : State :=
  match s.job p with
  | some j => s.setJob p (some { j with stop := .closed })
  | none => s

/-- R96 to R98: the teardown of a port's session, with its one grant scan at the end. -/
def teardown (s : State) (p : Port) : State :=
  let s := removeEntriesOf (freeSlotsOf s p) p
  let s := s.modSession p (tornSession (s.job p).isSome)
  let s := s.modPort p fun u => { u with notices := .none }
  grantScan (closeJob s p)

/-- R95: CLOSE. -/
def takeClose (p : Port) (s : State) : State × Answer :=
  let s := teardown s p
  (s, { code := .ok, results := [sessionStateByte (s.session p).state] })

/-! ### STATUS and ACK_ERRORS (R104, R122) -/

/-- R104, Table 31: STATUS. -/
def takeStatus (p : Port) (s : State) : State × Answer :=
  let x := s.session p
  (s, { code := .ok,
        results := [sessionStateByte x.state, boolByte x.evicted, boolByte x.checking, noticeByte (noticeFlags s p),
            noticeByte x.mask] ++ num1 x.warnThreshold ++ num1 x.held.length ++ num1 x.reserved.length ++
          [errorByte (s.port p).errors] ++ num1 x.usage ++ num1 (s.params.quota.get p) ++ num1 (portWaits s p) ++
          [boolByte (s.job p).isSome] })

/-- R122: ACK_ERRORS. -/
def takeAckErrors (p : Port) (s : State) : State × Answer :=
  (s.modPort p fun u => { u with errors := .none },
   { code := .ok, results := [errorByte (s.port p).errors] })

/-! ### COLLECT (R133) -/

/-- R133: COLLECT. -/
def takeCollect (p : Port) (s : State) : State × Answer :=
  match (s.session p).held with
  | [] => refuse s .noOutcome
  | o :: rest =>
    (s.modSession p fun x => { x with held := rest },
     { code := .ok, results := num1 rest.length ++ outcomeBytes o })

/-! ### SET_NOTICE and CLEAR_NOTICES (R138, R139) -/

/-- R138: SET_NOTICE. -/
def takeSetNotice (p : Port) (args : List Byte) (s : State) : State × Answer :=
  match noticeOfByte (argByte args 0) with
  | none => refuse s .badValue
  | some mask =>
    (s.modSession p fun x => { x with mask := mask, warnThreshold := (argByte args 1).toNat },
     { code := .ok, results := [noticeByte (noticeFlags s p), noticeByte mask] })

/-- R139: the sticky flags that a set does not name. -/
def StickyNotices.without (n : StickyNotices) (m : NoticeSet) : StickyNotices :=
  ⟨n.leaseLow && !m.leaseLow, n.leaseLost && !m.leaseLost, n.revoked && !m.revoked, n.contended && !m.contended⟩

/-- R139: the named sticky flags that are set. -/
def clearedFlags (n : StickyNotices) (m : NoticeSet) : NoticeSet :=
  ⟨false, n.leaseLow && m.leaseLow, n.leaseLost && m.leaseLost, n.revoked && m.revoked, n.contended && m.contended⟩

/-- R139: CLEAR_NOTICES. -/
def takeClearNotices (p : Port) (args : List Byte) (s : State) : State × Answer :=
  match noticeOfByte (argByte args 0) with
  | none => refuse s .badValue
  | some m =>
    let t := s.modPort p fun u => { u with notices := u.notices.without m }
    (t, { code := .ok,
          results := [noticeByte (clearedFlags (s.port p).notices m), noticeByte (noticeFlags t p)] })

end Sys2Proof.Machine
end

