-- ==== Sys2Proof/Machine/Supervision.lean ====
section
/-! DEFINITION. Supervision: the configuration set, REVOKE, EVICT, INSPECT and WAITLIST (Chapter 10). RESTART's reset is
in Reset.lean. -/

namespace Sys2Proof.Machine

/-! ### CONFIG_SET and CONFIG_GET (R174 to R177) -/

/-- The parameters of Table 50. -/
inductive Param where
  | tickLength | maxTerm | defaultTerm | maxWait | renewLimit | enforce
  | quota (p : Port)
  deriving DecidableEq, Repr

/-- Table 54. -/
def paramOfByte (b : Byte) : Option Param :=
  match b.toNat with
  | 0x01 => some .tickLength
  | 0x02 => some .maxTerm
  | 0x03 => some .defaultTerm
  | 0x04 => some .maxWait
  | 0x05 => some .renewLimit
  | 0x06 => some .enforce
  | 0x10 => some (.quota .p0)
  | 0x11 => some (.quota .p1)
  | 0x12 => some (.quota .p2)
  | 0x13 => some (.quota .p3)
  | _ => none

/-- The value the configuration set holds for a parameter. -/
def paramValue (x : Params) : Param → Nat
  | .tickLength => x.tickLength
  | .maxTerm => x.maxTerm
  | .defaultTerm => x.defaultTerm
  | .maxWait => x.maxWait
  | .renewLimit => x.renewLimit
  | .enforce => enforceNumber x.enforce
  | .quota p => x.quota.get p

/-- R174, R175 steps 3 and 4: a value lies in the parameter's range, MAX_TERM at least DEFAULT_TERM and DEFAULT_TERM at
most MAX_TERM. -/
def paramRangeOk (x : Params) (v : Nat) : Param → Bool
  | .tickLength => decide (1 ≤ v) && decide (v ≤ 250)
  | .maxTerm => decide (1 ≤ v) && decide (v ≤ 65535) && decide (x.defaultTerm ≤ v)
  | .defaultTerm => decide (1 ≤ v) && decide (v ≤ x.maxTerm)
  | .maxWait => decide (1 ≤ v) && decide (v ≤ 65535)
  | .renewLimit => decide (v ≤ 255)
  | .enforce => decide (v ≤ 2)
  | .quota _ => decide (v ≤ 128)

/-- The configuration set with a parameter's value replaced (R176). -/
def setParam (x : Params) (v : Nat) : Param → Params
  | .tickLength => { x with tickLength := v }
  | .maxTerm => { x with maxTerm := v }
  | .defaultTerm => { x with defaultTerm := v }
  | .maxWait => { x with maxWait := v }
  | .renewLimit => { x with renewLimit := v }
  | .enforce => { x with enforce := (enforceOfNumber v).getD x.enforce }
  | .quota p => { x with quota := x.quota.set p v }

/-- R175, step 5: a new quota is below the port's present usage. -/
def quotaInUse (s : State) (v : Nat) : Param → Bool
  | .quota p => decide (v < (s.session p).usage)
  | _ => false

/-- R74, R176: what a new value does to the lease clock: a TICK_LENGTH becomes its pending length. -/
def setParamClock (c : Clock) (v : Nat) : Param → Clock
  | .tickLength => { c with pendingLength := some v }
  | _ => c

/-- R175, R176: CONFIG_SET. -/
def takeConfigSet (args : List Byte) (s : State) : State × Answer :=
  let v := argNum args 1
  match paramOfByte (argByte args 0) with
  | none => refuse s .badValue
  | some x =>
    if !paramRangeOk s.params v x then refuse s .badValue
    else if quotaInUse s v x then refuse s .quotaInUse
    else
      ({ s with params := setParam s.params v x, clock := setParamClock s.clock v x },
       { code := .ok, results := [argByte args 0] ++ num2 v })

/-- R177: CONFIG_GET. -/
def takeConfigGet (args : List Byte) (s : State) : State × Answer :=
  match paramOfByte (argByte args 0) with
  | none => refuse s .badValue
  | some x => (s, { code := .ok, results := [argByte args 0] ++ num2 (paramValue s.params x) })

/-! ### REVOKE (R178, R179, R68) -/

/-- R179, steps 1 to 3: a HELD record is revoked. -/
def revokeSlot (s : State) (i : SlotId) (c : Claimed) (l : Lease) : State :=
  endUpgradeOf (raiseRevoked (setContent s i (.lapsed c l .revoked)) c.holder) (slotHandle s i)

/-- R68: the waiting claim of a RESERVED slot is withdrawn: its entry ends WITHDRAWN and its slot is freed. -/
def withdrawSlot (s : State) (i : SlotId) : State :=
  match s.waitList.find? fun e => !e.isUpgrade && e.ticket == slotHandle s i with
  | some e => freeSlot (endEntry s e .withdrawn) i
  | none => freeSlot s i

/-- R178, Table 51: REVOKE. -/
def takeRevoke (args : List Byte) (s : State) : State × Answer :=
  match resolveAny s (argHalf args 0) with
  | none => refuse s .staleHandle
  | some i =>
    match (slotAt s i).content with
    | .free => refuse s .staleHandle
    | .lapsed _ _ _ => refuse s .lapsed
    | .held c l _ =>
      (grantScan (revokeSlot s i c l), { code := .ok, results := [0x02] ++ num1 (portNumber c.holder) })
    | .reserved c =>
      (grantScan (withdrawSlot s i), { code := .ok, results := [0x01] ++ num1 (portNumber c.holder) })

/-! ### EVICT (R101, R181) -/

/-- R101: the target's evicted indication is set. -/
def setEvicted (s : State) (t : Port) : State := s.modSession t fun x => { x with evicted := true }

/-- R181: EVICT. -/
def takeEvict (args : List Byte) (s : State) : State × Answer :=
  let done (s : State) (t : Port) : State × Answer :=
    (s, { code := .ok, results := num1 (portNumber t) ++ [sessionStateByte (s.session t).state] })
  match portOfNumber (argByte args 0).toNat with
  | none => refuse s .badValue
  | some .p0 => refuse s .badValue
  | some t =>
    match (s.session t).state with
    | .detached => refuse s .notAttached
    | .attached => done (setEvicted (teardown s t) t) t
    | .closing => done (setEvicted s t) t

/-! ### INSPECT and WAITLIST (R182, R183) -/

/-- R182: INSPECT. -/
def takeInspect (args : List Byte) (s : State) : State × Answer :=
  let n := (argByte args 0).toNat
  if lt : n < 128 then (s, { code := .ok, results := inspectBytes s ⟨n, lt⟩ }) else refuse s .badValue

/-- R183: WAITLIST. -/
def takeWaitlist (args : List Byte) (s : State) : State × Answer :=
  let start := (argByte args 0).toNat
  if 11 < start then refuse s .badValue
  else
    let items := (s.waitList.drop start).take Config.maxItems
    (s, { code := .ok,
          results := num1 s.waitList.length ++ num1 items.length ++ items.flatMap waitItem })

end Sys2Proof.Machine
end

