-- ==== Sys2Proof/Machine/Reset.lean ====
section
/-! DEFINITION. Power-up, pin reset and RESTART (R22, R71, R75, R105, R124, R125, R153 to R155, R172, R185, R186). -/

namespace Sys2Proof.Machine

/-- R22: a slot at pin reset and RESTART: freed if it is not FREE, kept if it is. -/
def resetSlot (x : Slot) : Slot :=
  match x.content with
  | .free => x
  | _ => { gen := nextGen x.gen, content := .free }

/-- R22: the range table at pin reset and RESTART. -/
def resetTable (t : Table) : Table := ⟨t.val.map resetSlot, by rw [List.length_map]; exact t.property⟩

/-- R105, R124: a port unit after pin reset and RESTART; the select line stays as it was last seen. -/
def resetPort (u : PortUnit) : PortUnit := { PortUnit.reset with seenHigh := u.seenHigh }

/-- R124, R125: a port unit when a reset reaches it: IDLE, its selection abandoned, its command not taken discarded. -/
def abandonPort (u : PortUnit) : PortUnit := { u with sel := .idle, answer := none, request := none, deferred := [] }

/-- The command of an access. -/
def accessCommand : Access → Command
  | .read => .read
  | .write => .write

/-- R155: the array after the service in progress, which a reset waits for. -/
def arrayAfterService (s : State) : Memory :=
  match s.arbiter.serving with
  | none => s.array
  | some (.port p) =>
    match (s.port p).request with
    | none => s.array
    | some r =>
      match admission s p (accessCommand r.access) with
      | some _ => s.array
      | none => (takeAccess r.access p r.args s).1.array
  | some .engine =>
    match servedJob s with
    | none => s.array
    | some (p, j) => if stepFinding s p j = .transfer then stepArray s.array j else s.array

/-- The blocks that pin reset and RESTART reset alike, with the configuration and the clock that the reset leaves. -/
def resetBlocks (s : State) (params : Params) (clock : Clock) : State :=
  { s with
    table := resetTable s.table
    waitList := []
    clock := clock
    arbiter := .reset
    engine := .reset
    params := params
    sessions := .all .reset
    ports := s.ports.map resetPort
    restartPending := false }

/-- R75: the clock at RESTART: a fresh tick at the TICK_LENGTH held by supervision. -/
def restartClock (x : Params) : Clock :=
  { periodCount := 0, baseCount := 0, lengthInUse := x.tickLength, pendingLength := none }

/-- R184, R185: a RESTART takes hold; the service in progress completes first (R155). -/
def restartTakesHold (s : State) : State :=
  resetBlocks { s with array := arrayAfterService s } s.params (restartClock s.params)

/-- R124, R155: RESET_N goes low. -/
def assertReset (s : State) : State :=
  { s with
    array := arrayAfterService s
    arbiter := .reset
    engine := { s.engine with inFlight := none }
    ports := s.ports.map abandonPort
    resetLow := true }

/-- R22, R71, R75, R105, R124, R172, R186: RESET_N is released. -/
def releaseReset (s : State) : State := { resetBlocks s .reset .reset with resetLow := false }

/-- The port's select line is high (R107). -/
def lineHigh (s : State) (p : Port) : State := s.modPort p fun u => { u with seenHigh := true }

/-- POWER_UP (R22, R71, R75, R105, R152, R172, R186): everything as right after reset, but for what no rule gives: the
array's bytes are free, and the RESET_N pin is as the board drives it (log entries 1 and 2). -/
def execPowerUp (s : State) : Host.Outcome State Fault Refusal :=
  .next { State.reset with
    array := cellsOf (Config.powerUpByte s.powerUps)
    resetLow := s.resetLow
    powerUps := s.powerUps + 1
    pending := s.pending }

/-- RESET_N_ASSERT (R124, R155). RESET_N that is low already does not go low. -/
def execResetNAssert (s : State) : Host.Outcome State Fault Refusal :=
  .next (if s.resetLow then s else settleNotices (assertReset s))

/-- RESET_N_RELEASE (R124). RESET_N that is high already is not released. -/
def execResetNRelease (s : State) : Host.Outcome State Fault Refusal :=
  .next (if s.resetLow then settleNotices (releaseReset s) else s)

/-- RESTART_TAKES_HOLD (R184, R185): the deselection of P0 at which a pending RESTART takes hold. With none pending, or
while RESET_N is low, there is nothing to take hold (log entry 10). -/
def execRestartTakesHold (s : State) : Host.Outcome State Fault Refusal :=
  .next (if s.restartPending && !s.resetLow then settleNotices (restartTakesHold (lineHigh s .p0)) else s)

end Sys2Proof.Machine
end

