-- ==== Sys2Proof/Machine/Transport.lean ====
section
/-! DEFINITION. The port unit: selections, the judgement of frames, replies, the last reply, and the frames that wait
for a reply (Chapter 6); and the service of READ and WRITE (R142). -/

namespace Sys2Proof.Machine

/-! ### Replies (R109, R118, R119) -/

/-- A formed reply: kept as the last reply if it is one that is kept, and sent if its selection still stands. A kept
reply whose selection has ended sets REPLY_CUT (R118, log entry 9). -/
def sendReply (s : State) (p : Port) (r : Reply) (kept cut : Bool) : State :=
  let s := if kept then s.modPort p fun u => { u with lastReply := some r } else s
  if cut then (if kept then setReplyCut s p else s)
  else s.modPort p fun u => { u with answer := some { reply := r, kept := kept } }

/-- R109, R110: a reply formed from an answer, with the ATTN of this moment. -/
def answerFrame (s : State) (p : Port) (tag : Byte) (a : Answer) (kept cut : Bool) : State :=
  sendReply s p (mkReply a.code tag (attnByte s p) a.results) kept cut

/-! ### Judgement (R112 to R115, R123) -/

/-- What the port unit's judgement of a frame comes to (Table 34). -/
inductive Verdict where
  | starting
  | oversize
  | badCheck
  /-- Steps 4 to 6. -/
  | refused (code : ResultCode)
  /-- The frame goes to admission. -/
  | passes (c : Command)
  deriving DecidableEq, Repr

/-- R112, Table 34, steps 1 to 6, in order. -/
def judge (s : State) (p : Port) (code : Byte) (f : Frame) : Verdict :=
  if clearing s then .starting
  else if Config.maxLen < f.args.length then .oversize
  else if (s.session p).checking && !checkMatches code f then .badCheck
  else match commandOfCode code with
    | none => .refused .unknownCommand
    | some c =>
      if isSupervision c && !(p == .p0) then .refused .notSupervisor
      else if !lengthOk c f.args then .refused .badLength
      else .passes c

/-! ### Commands at their owning blocks -/

/-- R184: RESTART as it is taken: it marks a restart pending. -/
def takeRestart (s : State) : State × Answer := ({ s with restartPending := true }, { code := .ok })

/-- The owning block's act on an admitted command. REPLAY is taken by the port unit itself (R120). -/
def ownerTakes (c : Command) (p : Port) (tag : Byte) (args : List Byte) (s : State) : State × Answer :=
  match c with
  | .open_ => takeOpen p args s
  | .close => takeClose p s
  | .status => takeStatus p s
  | .replay => refuse s .nothing
  | .ackErrors => takeAckErrors p s
  | .claim => takeClaim p tag args s
  | .renew => takeRenew p args s
  | .release => takeRelease p args s
  | .downgrade => takeDowngrade p args s
  | .upgrade => takeUpgrade p tag args s
  | .trim => takeTrim p args s
  | .cancel => takeCancel p args s
  | .probe => takeProbe args s
  | .list => takeList p args s
  | .read => takeAccess .read p args s
  | .write => takeAccess .write p args s
  | .fill => takeFill p tag args s
  | .copy => takeCopy p tag args s
  | .sum => takeSum p tag args s
  | .stopJob => takeStopJob p s
  | .jobState => takeJobState p s
  | .collect => takeCollect p s
  | .setNotice => takeSetNotice p args s
  | .clearNotices => takeClearNotices p args s
  | .configSet => takeConfigSet args s
  | .configGet => takeConfigGet args s
  | .revoke => takeRevoke args s
  | .evict => takeEvict args s
  | .inspect => takeInspect args s
  | .waitlist => takeWaitlist args s
  | .restart => takeRestart s

/-- R90, R91: a command is admitted and taken, or answered by the session context, as one happening. -/
def takeCommand (c : Command) (p : Port) (tag : Byte) (args : List Byte) (s : State) : State × Answer :=
  match admission s p c with
  | some code => refuse s code
  | none => ownerTakes c p tag args s

/-- A command taken and its reply formed and kept (R119). -/
def runCommand (s : State) (p : Port) (c : Command) (tag : Byte) (args : List Byte) (cut : Bool) : State :=
  let x := takeCommand c p tag args s
  answerFrame x.1 p tag x.2 true cut

/-- R120: REPLAY: the kept last reply as it was formed, or NOTHING; neither is kept. -/
def runReplay (s : State) (p : Port) (tag : Byte) (cut : Bool) : State :=
  match (s.port p).lastReply with
  | some r => sendReply s p r false cut
  | none => answerFrame s p tag { code := .nothing } false cut

/-- R184: RESTART: taken at once if P0 was already deselected, and otherwise pending. -/
def runRestart (s : State) (p : Port) (tag : Byte) (args : List Byte) (cut : Bool) : State :=
  let s := runCommand s p .restart tag args cut
  if cut && s.restartPending then restartTakesHold s else s

/-- R142: a READ or WRITE becomes the request of its port. Its reply will be one that is kept, so a deselection before
it sets REPLY_CUT (R118). -/
def register (s : State) (p : Port) (a : Access) (f : Frame) (cut : Bool) : State :=
  let s := s.modPort p fun u => { u with request := some { access := a, tag := f.tag, args := f.args, cut := cut } }
  if cut then setReplyCut s p else s

/-- A command that passed its judgement is handed on (R108): to the arbiter (R142), or to its owner at once. The users
are those whose requests now reach the arbiter. -/
def handOn (s : State) (p : Port) (c : Command) (f : Frame) (cut : Bool) : State × List User :=
  match c with
  | .read => (register s p .read f cut, [.port p])
  | .write => (register s p .write f cut, [.port p])
  | .replay => (runReplay s p f.tag cut, [])
  | .restart => (runRestart s p f.tag f.args cut, [])
  | c => (runCommand s p c f.tag f.args cut, [])

/-- R112: a frame is judged, and answered or handed on. The reply to a frame whose CODE is REPLAY is never kept
(R119). -/
def takeFrame (s : State) (p : Port) (code : Byte) (f : Frame) (cut : Bool) : State × List User :=
  match judge s p code f with
  | .starting => (sendReply s p (mkReply .starting f.tag 0 []) false cut, [])
  | .oversize => (answerFrame (setOversize s p) p f.tag { code := .badLength } false cut, [])
  | .badCheck => (answerFrame (setCheckFailed s p) p f.tag { code := .checkFailed } false cut, [])
  | .refused r => (answerFrame s p f.tag { code := r } (!(code == commandCode .replay)) cut, [])
  | .passes c => handOn s p c f cut

/-! ### Frames that complete (R107, R108, R118) -/

/-- R107, R116, R124: the port unit is taking the bytes of a frame. -/
def receiving (s : State) (p : Port) : Bool := (s.port p).sel == .receiving && !s.resetLow

/-- R118: the port's previous command is handed on, or waits to be, and its reply is not formed. -/
def replyOutstanding (s : State) (p : Port) : Bool := (s.port p).request.isSome || !(s.port p).deferred.isEmpty

/-- R108, R118: a frame completes: the port unit enters ANSWERING, and judges the frame at once or when the reply of
the previous command is formed. Bytes sent while the port unit is not in RECEIVING are ignored. -/
def frameEnds (s : State) (p : Port) (code : Byte) (f : Frame) : State × List User :=
  if receiving s p then
    let s := s.modPort p fun u => { u with sel := .answering, answer := none }
    if replyOutstanding s p && decide (f.args.length ≤ Config.maxLen) then
      (s.modPort p fun u => { u with deferred := u.deferred ++ [{ code := code, frame := f, cut := false }] }, [])
    else takeFrame s p code f false
  else (s, [])

/-- A command frame completes at its port, as one happening. -/
def frameCompletes (code : Byte) (f : Frame) (s : State) : State :=
  if receiving s f.port then
    let x := frameEnds s f.port code f
    settleNotices (arrive x.1 x.2)
  else s

/-- R118: the waiting frames of a port are judged, oldest first, until one of them is handed on to the arbiter (log
entry 8). -/
def drainDeferred : Nat → Port → State → State
  | 0, _, s => s
  | n + 1, p, s =>
    match (s.port p).deferred with
    | [] => s
    | d :: ds =>
      if (s.port p).request.isSome then s
      else
        let x := takeFrame (s.modPort p fun u => { u with deferred := ds }) p d.code d.frame d.cut
        drainDeferred n p (arrive x.1 x.2)

/-! ### READ and WRITE (R142) -/

/-- The request the arbiter is serving for a port, if it is an access of the given sort. -/
def servedRequest (s : State) (p : Port) (a : Access) : Option Request :=
  if s.arbiter.serving = some (.port p) then (s.port p).request.filter fun r => r.access == a else none

/-- R142, R150: the service of a port's request: admission, checks and transfer as one happening, the reply, the
arbiter's next choice, and then the frames that waited for the reply. -/
def serveRequest (s : State) (p : Port) (r : Request) : State :=
  let x := takeCommand (accessCommand r.access) p r.tag r.args (s.modPort p fun u => { u with request := none })
  let t := endService (answerFrame x.1 p r.tag x.2 true r.cut)
  drainDeferred (t.port p).deferred.length p t

/-- The service of a port's request, if the arbiter is serving one of that sort (log entry 6). -/
def serveAccess (a : Access) (p : Port) (s : State) : State :=
  match servedRequest s p a with
  | some r => settleNotices (serveRequest s p r)
  | none => s

/-- READ (R142 to R146). -/
def execRead (p : Port) (s : State) : Host.Outcome State Fault Refusal := .next (serveAccess .read p s)

/-- WRITE (R142 to R146). -/
def execWrite (p : Port) (s : State) : Host.Outcome State Fault Refusal := .next (serveAccess .write p s)

/-- One of the frames that complete together. -/
def arrivalEnds (x : State × List User) (a : Arrival) : State × List User :=
  let y := frameEnds x.1 a.frame.port (commandCode (accessCommand a.access)) a.frame
  (y.1, x.2 ++ y.2)

/-- ARBITER_REQUEST_ARRIVES (R142, R150): READ and WRITE frames complete together, and the requests of those that pass
their judgement reach the arbiter together. -/
def execArbiterRequestArrives (arrivals : List Arrival) (s : State) : Host.Outcome State Fault Refusal :=
  .next
    (if arrivals.any fun a => receiving s a.frame.port then
      let x := arrivals.foldl arrivalEnds (s, [])
      settleNotices (arrive x.1 x.2)
    else s)

/-! ### Selections (R107, R116 to R118) -/

/-- SELECTION_BEGIN (R107): select falls. Only a port unit in IDLE that has seen the line high begins a selection;
while RESET_N is low the fall is only remembered as the line's level (R124, log entry 7). -/
def execSelectionBegin (p : Port) (s : State) : Host.Outcome State Fault Refusal :=
  .next
    (if s.resetLow then s.modPort p fun u => { u with seenHigh := false }
     else if (s.port p).sel = .idle ∧ (s.port p).seenHigh = true then
       s.modPort p fun u => { u with sel := .receiving, seenHigh := false, answer := none }
     else s)

/-- The port unit returns to IDLE at a deselection. -/
def toIdle (s : State) (p : Port) : State := s.modPort p fun u => { u with sel := .idle, seenHigh := true, answer := none }

/-- What a rise of select does to a port unit that is not in the state a deselection row names: in IDLE, or while
RESET_N is low, the line is high; in another state the row does not come about (Table 33, log entry 6). -/
def riseElsewhere (s : State) (p : Port) : State :=
  if s.resetLow || (s.port p).sel == .idle then lineHigh s p else s

/-- DESELECTION_RECEIVING (R106, R117): the bytes received are discarded; TRUNCATED is set if at least one was
complete. -/
def execDeselectionReceiving (p : Port) (edges : List ClockEdge) (s : State) : Host.Outcome State Fault Refusal :=
  .next
    (if receiving s p then
      let s := if (bytesOfEdges edges).isEmpty then s else setTruncated s p
      toIdle s p
    else riseElsewhere s p)

/-- A deferred frame whose selection has ended. -/
def Deferred.cutOff (d : Deferred) : Deferred := { d with cut := true }

/-- The list with its last frame cut off. -/
def cutLast : List Deferred → List Deferred
  | [] => []
  | [d] => [d.cutOff]
  | d :: ds => d :: cutLast ds

/-- R118: what a deselection in ANSWERING leaves: REPLY_CUT for a reply that is kept; a command whose reply is not
formed is remembered as cut. -/
def cutReply (s : State) (p : Port) : State :=
  let u := s.port p
  match u.answer with
  | some a => if a.kept then setReplyCut s p else s
  | none =>
    if !u.deferred.isEmpty then s.modPort p fun u => { u with deferred := cutLast u.deferred }
    else match u.request with
      | some r => setReplyCut (s.modPort p fun u => { u with request := some { r with cut := true } }) p
      | none => s

/-- R184: a deselection of P0 at which a pending RESTART takes hold. -/
def restartHeldBy (s : State) (p : Port) : Bool := s.restartPending && p == .p0

/-- DESELECTION_ANSWERING (R118, R184). -/
def execDeselectionAnswering (p : Port) (s : State) : Host.Outcome State Fault Refusal :=
  .next
    (if (s.port p).sel = .answering ∧ s.resetLow = false then
      if restartHeldBy s p then settleNotices (restartTakesHold (lineHigh s p))
      else toIdle (cutReply s p) p
    else riseElsewhere s p)

/-- DESELECTION_SPENT (R116, R184). -/
def execDeselectionSpent (p : Port) (s : State) : Host.Outcome State Fault Refusal :=
  .next
    (if (s.port p).sel = .spent ∧ s.resetLow = false then
      if restartHeldBy s p then settleNotices (restartTakesHold (lineHigh s p)) else toIdle s p
    else riseElsewhere s p)

/-- R106, R109: every byte of the reply that a port unit sends has been sent over clock edges. -/
def replySent (u : PortUnit) (edges : List ClockEdge) : Bool :=
  match u.answer with
  | some a => decide ((replyBytes a.reply).length ≤ bytesSent edges)
  | none => false

/-- REPLY_LAST_BYTE_SENT (R106, R109): ANSWERING ends in SPENT when the last bit of the reply's last byte is clocked.
While a bit is missing that byte has not been sent. The reply stays
known, since data-out carries its last bit until clock falls again. -/
def execReplyLastByteSent (x : ClockedReply) (s : State) : Host.Outcome State Fault Refusal :=
  .next
    (if (s.port x.port).sel = .answering ∧ replySent (s.port x.port) x.edges = true ∧ s.resetLow = false then
      s.modPort x.port fun u => { u with sel := .spent }
    else s)

/-- SELECT_SEEN_HIGH (R107, R124): the select line of a port unit in IDLE is high. -/
def execSelectSeenHigh (p : Port) (s : State) : Host.Outcome State Fault Refusal :=
  .next (if (s.port p).sel = .idle then lineHigh s p else s)

/-- OVERSIZE_FRAME (R113, R123): a LEN byte above 72 ends the frame at once. A LEN of at most 72 does not. -/
def execOversizeFrame (p : Port) (tag len : Byte) (s : State) : Host.Outcome State Fault Refusal :=
  .next
    (if receiving s p && decide (Config.maxLen < len.toNat) then
      let s := s.modPort p fun u => { u with sel := .answering, answer := none }
      if clearing s then sendReply s p (mkReply .starting tag 0 []) false false
      else answerFrame (setOversize s p) p tag { code := .badLength } false false
    else s)

/-- What a port's data-out line carries (R106, R109, Table 33). -/
inductive DataOut where
  | highImpedance
  /-- The fill byte 0xFF. -/
  | fill
  | reply (bytes : List Byte)
  /-- The fill byte again, after the bytes of a reply. -/
  | spent (bytes : List Byte)
  deriving DecidableEq, Repr

/-- R106, R107, R109: data-out of a port: high-impedance in IDLE and while RESET_N is low, the reply while one is being
sent, fill before and after it. -/
def dataOut (s : State) (p : Port) : DataOut :=
  if s.resetLow then .highImpedance
  else match (s.port p).sel, (s.port p).answer with
    | .idle, _ => .highImpedance
    | .answering, some a => .reply (replyBytes a.reply)
    | .spent, some a => .spent (replyBytes a.reply)
    | _, _ => .fill

/-- R106, R109: the bytes a port sends over the clock edges of a selection, `fill` fill bytes before the reply, among
them every byte begun when the reply was formed; nothing where data-out is high-impedance. -/
def sentStream (s : State) (p : Port) (fill : Nat) : Option (List Byte) :=
  match dataOut s p with
  | .highImpedance => none
  | .fill => some []
  | .reply bytes | .spent bytes => some (List.replicate fill 0xFF ++ bytes)

/-- R106: the level of a port's data-out after the clock edges of a selection, from the fall of select on: driven from
the first falling edge, high-impedance before. -/
def dataOutLevel (s : State) (p : Port) (fill : Nat) (edges : List ClockEdge) : Option Bool :=
  (sentStream s p fill).bind fun stream => dataLine stream 0 none edges

end Sys2Proof.Machine
end

