-- ==== Sys2Proof/Machine/Commands.lean ====
section
/-! DEFINITION. The rows of the table that are command frames: each is the happening in which its frame completes, is
judged (R112), admitted (R90) and taken by its owning block, and its reply is formed (R109, R119). What the owning block
does is the `take…` definition of the command. -/

namespace Sys2Proof.Machine

/-- OPEN (R93, R94): `takeOpen`. -/
def execOpen (f : Frame) (s : State) : Host.Outcome State Fault Refusal :=
  .next (frameCompletes (commandCode .open_) f s)

/-- CLOSE (R95): `takeClose`. -/
def execClose (f : Frame) (s : State) : Host.Outcome State Fault Refusal :=
  .next (frameCompletes (commandCode .close) f s)

/-- STATUS (R104): `takeStatus`. -/
def execStatus (f : Frame) (s : State) : Host.Outcome State Fault Refusal :=
  .next (frameCompletes (commandCode .status) f s)

/-- ACK_ERRORS (R122): `takeAckErrors`. -/
def execAckErrors (f : Frame) (s : State) : Host.Outcome State Fault Refusal :=
  .next (frameCompletes (commandCode .ackErrors) f s)

/-- CLAIM (R24 to R30): `takeClaim`. -/
def execClaim (f : Frame) (s : State) : Host.Outcome State Fault Refusal :=
  .next (frameCompletes (commandCode .claim) f s)

/-- RENEW (R31 to R33): `takeRenew`. -/
def execRenew (f : Frame) (s : State) : Host.Outcome State Fault Refusal :=
  .next (frameCompletes (commandCode .renew) f s)

/-- RELEASE (R34, R35): `takeRelease`. -/
def execRelease (f : Frame) (s : State) : Host.Outcome State Fault Refusal :=
  .next (frameCompletes (commandCode .release) f s)

/-- DOWNGRADE (R36): `takeDowngrade`. -/
def execDowngrade (f : Frame) (s : State) : Host.Outcome State Fault Refusal :=
  .next (frameCompletes (commandCode .downgrade) f s)

/-- UPGRADE (R37 to R39): `takeUpgrade`. -/
def execUpgrade (f : Frame) (s : State) : Host.Outcome State Fault Refusal :=
  .next (frameCompletes (commandCode .upgrade) f s)

/-- TRIM (R41, R42): `takeTrim`. -/
def execTrim (f : Frame) (s : State) : Host.Outcome State Fault Refusal :=
  .next (frameCompletes (commandCode .trim) f s)

/-- CANCEL (R66): `takeCancel`. -/
def execCancel (f : Frame) (s : State) : Host.Outcome State Fault Refusal :=
  .next (frameCompletes (commandCode .cancel) f s)

/-- PROBE (R20): `takeProbe`. -/
def execProbe (f : Frame) (s : State) : Host.Outcome State Fault Refusal :=
  .next (frameCompletes (commandCode .probe) f s)

/-- LIST (R21): `takeList`. -/
def execList (f : Frame) (s : State) : Host.Outcome State Fault Refusal :=
  .next (frameCompletes (commandCode .list) f s)

/-- FILL (R157, R160, R161): `takeFill`. -/
def execFill (f : Frame) (s : State) : Host.Outcome State Fault Refusal :=
  .next (frameCompletes (commandCode .fill) f s)

/-- COPY (R158, R160, R161): `takeCopy`. -/
def execCopy (f : Frame) (s : State) : Host.Outcome State Fault Refusal :=
  .next (frameCompletes (commandCode .copy) f s)

/-- SUM (R159, R160, R161): `takeSum`. -/
def execSum (f : Frame) (s : State) : Host.Outcome State Fault Refusal :=
  .next (frameCompletes (commandCode .sum) f s)

/-- STOP_JOB (R166): `takeStopJob`. -/
def execStopJob (f : Frame) (s : State) : Host.Outcome State Fault Refusal :=
  .next (frameCompletes (commandCode .stopJob) f s)

/-- JOB_STATE (R167): `takeJobState`. -/
def execJobState (f : Frame) (s : State) : Host.Outcome State Fault Refusal :=
  .next (frameCompletes (commandCode .jobState) f s)

/-- COLLECT (R133): `takeCollect`. -/
def execCollect (f : Frame) (s : State) : Host.Outcome State Fault Refusal :=
  .next (frameCompletes (commandCode .collect) f s)

/-- SET_NOTICE (R138): `takeSetNotice`. -/
def execSetNotice (f : Frame) (s : State) : Host.Outcome State Fault Refusal :=
  .next (frameCompletes (commandCode .setNotice) f s)

/-- CLEAR_NOTICES (R139): `takeClearNotices`. -/
def execClearNotices (f : Frame) (s : State) : Host.Outcome State Fault Refusal :=
  .next (frameCompletes (commandCode .clearNotices) f s)

/-- CONFIG_SET (R175, R176): `takeConfigSet`. -/
def execConfigSet (f : Frame) (s : State) : Host.Outcome State Fault Refusal :=
  .next (frameCompletes (commandCode .configSet) f s)

/-- CONFIG_GET (R177): `takeConfigGet`. -/
def execConfigGet (f : Frame) (s : State) : Host.Outcome State Fault Refusal :=
  .next (frameCompletes (commandCode .configGet) f s)

/-- REVOKE (R178, R179, R68): `takeRevoke`. -/
def execRevoke (f : Frame) (s : State) : Host.Outcome State Fault Refusal :=
  .next (frameCompletes (commandCode .revoke) f s)

/-- EVICT (R181, R101): `takeEvict`. -/
def execEvict (f : Frame) (s : State) : Host.Outcome State Fault Refusal :=
  .next (frameCompletes (commandCode .evict) f s)

/-- INSPECT (R182): `takeInspect`. -/
def execInspect (f : Frame) (s : State) : Host.Outcome State Fault Refusal :=
  .next (frameCompletes (commandCode .inspect) f s)

/-- WAITLIST (R183): `takeWaitlist`. -/
def execWaitlist (f : Frame) (s : State) : Host.Outcome State Fault Refusal :=
  .next (frameCompletes (commandCode .waitlist) f s)

/-- REPLAY (R120): `runReplay`. -/
def execReplay (f : Frame) (s : State) : Host.Outcome State Fault Refusal :=
  .next (frameCompletes (commandCode .replay) f s)

/-- RESTART (R184): `runRestart`. -/
def execRestart (f : Frame) (s : State) : Host.Outcome State Fault Refusal :=
  .next (frameCompletes (commandCode .restart) f s)

/-- UNKNOWN_COMMAND (R112, R115): a complete frame with a CODE that names no command. -/
def execUnknownCommand (code : Byte) (f : Frame) (s : State) : Host.Outcome State Fault Refusal :=
  .next (frameCompletes code f s)

end Sys2Proof.Machine
end

