-- ==== Sys2Proof/Machine/Dispatch.lean ====
section
/-! DEFINITION. The meaning of every row of the operation table, one arm each. -/

namespace Sys2Proof.Machine

def exec (i : Instr) (s : State) : Host.Outcome State Fault Refusal :=
  match i with
  | .powerUp => Sys2Proof.Machine.execPowerUp s
  | .startupClearPage => Sys2Proof.Machine.execStartupClearPage s
  | .resetNAssert => Sys2Proof.Machine.execResetNAssert s
  | .resetNRelease => Sys2Proof.Machine.execResetNRelease s
  | .restartTakesHold => Sys2Proof.Machine.execRestartTakesHold s
  | .leaseTick => Sys2Proof.Machine.execLeaseTick s
  | .lapse slot => Sys2Proof.Machine.execLapse slot s
  | .waitExpiry ticket => Sys2Proof.Machine.execWaitExpiry ticket s
  | .selectionBegin p => Sys2Proof.Machine.execSelectionBegin p s
  | .deselectionReceiving p edges => Sys2Proof.Machine.execDeselectionReceiving p edges s
  | .deselectionAnswering p => Sys2Proof.Machine.execDeselectionAnswering p s
  | .deselectionSpent p => Sys2Proof.Machine.execDeselectionSpent p s
  | .oversizeFrame p _ tag len => Sys2Proof.Machine.execOversizeFrame p tag len s
  | .unknownCommand code f => Sys2Proof.Machine.execUnknownCommand code f s
  | .openSession f => Sys2Proof.Machine.execOpen f s
  | .close f => Sys2Proof.Machine.execClose f s
  | .status f => Sys2Proof.Machine.execStatus f s
  | .replay f => Sys2Proof.Machine.execReplay f s
  | .ackErrors f => Sys2Proof.Machine.execAckErrors f s
  | .claim f => Sys2Proof.Machine.execClaim f s
  | .renew f => Sys2Proof.Machine.execRenew f s
  | .release f => Sys2Proof.Machine.execRelease f s
  | .downgrade f => Sys2Proof.Machine.execDowngrade f s
  | .upgrade f => Sys2Proof.Machine.execUpgrade f s
  | .trim f => Sys2Proof.Machine.execTrim f s
  | .cancel f => Sys2Proof.Machine.execCancel f s
  | .probe f => Sys2Proof.Machine.execProbe f s
  | .list f => Sys2Proof.Machine.execList f s
  | .read p => Sys2Proof.Machine.execRead p s
  | .write p => Sys2Proof.Machine.execWrite p s
  | .fill f => Sys2Proof.Machine.execFill f s
  | .copy f => Sys2Proof.Machine.execCopy f s
  | .sum f => Sys2Proof.Machine.execSum f s
  | .pageStep => Sys2Proof.Machine.execPageStep s
  | .stopJob f => Sys2Proof.Machine.execStopJob f s
  | .jobState f => Sys2Proof.Machine.execJobState f s
  | .collect f => Sys2Proof.Machine.execCollect f s
  | .setNotice f => Sys2Proof.Machine.execSetNotice f s
  | .clearNotices f => Sys2Proof.Machine.execClearNotices f s
  | .configSet f => Sys2Proof.Machine.execConfigSet f s
  | .configGet f => Sys2Proof.Machine.execConfigGet f s
  | .revoke f => Sys2Proof.Machine.execRevoke f s
  | .evict f => Sys2Proof.Machine.execEvict f s
  | .inspect f => Sys2Proof.Machine.execInspect f s
  | .waitlist f => Sys2Proof.Machine.execWaitlist f s
  | .restart f => Sys2Proof.Machine.execRestart f s
  | .replyLastByteSent x => Sys2Proof.Machine.execReplyLastByteSent x s
  | .selectSeenHigh p => Sys2Proof.Machine.execSelectSeenHigh p s
  | .arbiterRequestArrives arrivals => Sys2Proof.Machine.execArbiterRequestArrives arrivals s

end Sys2Proof.Machine
end

