-- ==== Sys2Proof/Safety.lean ====
section
/-! DEFINITION. The invariants of the part, and the words in which statements about its commands are written. -/

namespace Sys2Proof.Machine

/-! ### Pages and conflict, in the manual's words -/

/-- R1, R2: a range contains a page. -/
def Covers (r : Range) (page : Nat) : Prop := r.first ≤ page ∧ page < r.first + r.count

/-- R2: the first page of each range is no greater than the last page of the other. -/
def Overlap (a b : Range) : Prop := a.first < b.first + b.count ∧ b.first < a.first + a.count

/-- R1: a range that a command may carry. -/
def WellFormed (r : Range) : Prop := r.first ≤ 4095 ∧ 1 ≤ r.count ∧ r.count ≤ 4096 ∧ r.first + r.count ≤ 4096

/-- R41, R160: a range lies inside another. -/
def Inside (inner outer : Range) : Prop :=
  outer.first ≤ inner.first ∧ inner.first + inner.count ≤ outer.first + outer.count

/-- R15, R51: a request or record of one port and one of another conflict. -/
def Conflict (p : Port) (m : Mode) (r : Range) (q : Port) (m' : Mode) (r' : Range) : Prop :=
  p ≠ q ∧ Overlap r r' ∧ ¬ (m = .shared ∧ m' = .shared)

/-- The slot is HELD with this record (R4). -/
def Held (s : State) (i : SlotId) (c : Claimed) : Prop := ∃ l n, (slotAt s i).content = .held c l n

/-- R26: a HELD record stands in the way of a request. -/
def HolderBlocks (s : State) (p : Port) (m : Mode) (r : Range) : Prop :=
  ∃ i c, Held s i c ∧ Conflict p m r c.holder c.mode c.range

/-- R27: a wait entry stands in the way of a request. -/
def WaiterBlocks (s : State) (p : Port) (m : Mode) (r : Range) : Prop :=
  ∃ e ∈ s.waitList, Conflict p m r e.port e.mode e.range

/-- R43: the HELD record in a slot is named by its holder's job, or an UPGRADE entry for it waits. -/
def Engaged (s : State) (i : SlotId) : Prop :=
  ∃ c, Held s i c ∧
    ((∃ j, s.job c.holder = some j ∧ (j.work.src = some (slotHandle s i) ∨ j.work.dst = some (slotHandle s i))) ∨
      ∃ e ∈ s.waitList, e.kind = .upgrade ∧ e.ticket = slotHandle s i)

/-- R52: a port is a blocker of a wait entry, given the entries older than it: a HELD record or an older entry of that
port conflicts with the entry. -/
def BlockerOf (s : State) (older : List WaitEntry) (e : WaitEntry) (b : Port) : Prop :=
  (∃ i c, Held s i c ∧ c.holder = b ∧ Conflict e.port e.mode e.range c.holder c.mode c.range) ∨
    ∃ o ∈ older, o.port = b ∧ Conflict e.port e.mode e.range o.port o.mode o.range

/-- R53: one port waits for another. -/
def Waits (s : State) (a b : Port) : Prop :=
  ∃ older e younger, s.waitList = older ++ e :: younger ∧ e.port = a ∧ BlockerOf s older e b

/-- R53: a chain of one or more steps of the waits-for relation leads from one port to another. -/
def LeadsTo (s : State) (a b : Port) : Prop := Relation.TransGen (Waits s) a b

/-- R57, step 1: a port is in the blocker set of a new request. -/
def InBlockerSet (s : State) (p : Port) (m : Mode) (r : Range) (q : Port) : Prop :=
  (∃ i c, Held s i c ∧ c.holder = q ∧ Conflict p m r c.holder c.mode c.range) ∨
    ∃ e ∈ s.waitList, e.port = q ∧ Conflict p m r e.port e.mode e.range

/-- R145: a page is covered for an access of a port, by a HELD record of the port, EXCLUSIVE for a WRITE. -/
def CoveredFor (s : State) (p : Port) (a : Access) (page : Nat) : Prop :=
  ∃ i c, Held s i c ∧ c.holder = p ∧ Covers c.range page ∧ (a = .write → c.mode = .exclusive)

/-- R143: an access of 1 to 64 bytes that does not run past the array. -/
def InArray (x : AccessArgs) : Prop :=
  1 ≤ x.length.toNat ∧ x.length.toNat ≤ 64 ∧ x.address.toNat + x.length.toNat ≤ 262144

/-- R141: an access touches a page. -/
def Touches (x : AccessArgs) (page : Nat) : Prop :=
  x.address.toNat / 64 ≤ page ∧ page ≤ (x.address.toNat + x.length.toNat - 1) / 64

/-- R144, Table 41: ENFORCE requires coverage of the access. -/
def MustCover (s : State) (a : Access) : Prop := s.params.enforce = .strict ∨ s.params.enforce = .writes ∧ a = .write

/-- R144, R145: every page an access touches is covered as ENFORCE requires. -/
def CoveredAsRequired (s : State) (p : Port) (a : Access) (x : AccessArgs) : Prop :=
  MustCover s a → ∀ page, Touches x page → CoveredFor s p a page

/-- R146: the bytes of a WRITE are stored at its address and after it, and every other byte stays. -/
def Written (x : AccessArgs) (before after : Memory) : Prop :=
  ∀ a, readByte after a =
    if x.address.toNat ≤ a ∧ a < x.address.toNat + x.data.length then x.data.getD (a - x.address.toNat) 0
    else readByte before a

/-- R165: a record that a job names passes its check. -/
def SidePasses (s : State) (p : Port) (x : Side) : Prop :=
  ∃ i d, resolve s p x.handle = some i ∧ Held s i d ∧ Inside x.range d.range ∧ (x.isDst = true → d.mode = .exclusive)

/-- R165, Table 47: a record that a job names fails its check, with the stop cause that this gives. A handle that resolves
to a RESERVED slot is left out: the manual gives no stop cause there (log entry 22). -/
def SideFails (s : State) (p : Port) (x : Side) (cause : StopCause) : Prop :=
  (∃ i c l e, resolve s p x.handle = some i ∧ (slotAt s i).content = .lapsed c l e ∧
    cause = if e = .expired then .expired else .revoked) ∨
  (resolve s p x.handle = none ∧ cause = .host) ∨
  (∃ i d, resolve s p x.handle = some i ∧ Held s i d ∧
    ¬ (Inside x.range d.range ∧ (x.isDst = true → d.mode = .exclusive)) ∧ cause = .host)

/-- R157 to R159: the page that a job's next step takes on a side, from the first page of that side. -/
def pageOf (j : Job) (first : Nat) : Nat :=
  match j.work with
  | .copy _ _ _ _ .downward => first + j.count - 1 - j.pagesDone
  | _ => first + j.pagesDone

/-- R157 to R159: the array after a page step that transfers: a FILL writes its pattern over a page, a COPY a source page
over a destination page, a SUM nothing. Every other byte stays. -/
def PageMoved (j : Job) (before after : Memory) : Prop :=
  match j.work with
  | .fill _ f b => ∀ a, readByte after a = if a / 64 = pageOf j f then b else readByte before a
  | .copy _ _ f g _ => ∀ a, readByte after a =
      if a / 64 = pageOf j g then readByte before (64 * pageOf j f + a % 64) else readByte before a
  | .sum _ _ _ => after = before

/-- R155: the array after the service that was in progress when a reset came: a WRITE that its checks allow has stored
its bytes, a page step that transfers has written its page, and any other service has changed nothing. -/
structure ServiceDone (s : State) (after : Memory) : Prop where
  idle   : s.arbiter.serving = none → after = s.array
  access : ∀ p a tag x cut, s.arbiter.serving = some (.port p) →
    (s.port p).request = some ⟨a, tag, accessBytes x, cut⟩ →
    (a = .write → (s.session p).state = .attached → InArray x → CoveredAsRequired s p a x →
      x.data.length = x.length.toNat → Written x s.array after) ∧
    (¬ (a = .write ∧ (s.session p).state = .attached ∧ InArray x ∧ CoveredAsRequired s p a x) → after = s.array)
  step   : ∀ p j, s.arbiter.serving = some .engine → s.engine.inFlight = some p → s.job p = some j →
    j.pagesDone < j.count → (∀ x ∈ jobSides j, x.range.first + x.range.count ≤ 4096) →
    (j.stop = .none → (∀ x ∈ jobSides j, SidePasses s p x) → PageMoved j s.array after) ∧
    ((j.stop ≠ .none ∨ ∃ x ∈ jobSides j, ¬ SidePasses s p x) → after = s.array)

/-! ### Invariants -/

/-- R137: each NOTICE line is asserted exactly while a flag is set and enabled, and released while RESET_N is low. -/
def LinesAgree (s : State) : Prop := ∀ p, (s.port p).noticeLine = noticeDue s p

/-- R5: no slot's generation is 0. -/
def GenerationsOk (s : State) : Prop := ∀ i, (slotAt s i).gen ≠ 0

/-- R174, R175: every parameter lies in its range, and DEFAULT_TERM is at most MAX_TERM. -/
structure ParamsOk (x : Params) : Prop where
  tickLength  : 1 ≤ x.tickLength ∧ x.tickLength ≤ 250
  maxTerm     : x.maxTerm ≤ 65535
  defaultTerm : 1 ≤ x.defaultTerm ∧ x.defaultTerm ≤ x.maxTerm
  maxWait     : 1 ≤ x.maxWait ∧ x.maxWait ≤ 65535
  renewLimit  : x.renewLimit ≤ 255
  quota       : ∀ p, x.quota.get p ≤ 128

/-- R72, R74: the counts of the lease clock lie below what they count to, and its lengths are 1 to 250. -/
structure ClockOk (c : Clock) : Prop where
  periodCount : c.periodCount < 1600
  baseCount   : c.baseCount < c.lengthInUse
  lengthInUse : c.lengthInUse ≤ 250
  pending     : ∀ n, c.pendingLength = some n → 1 ≤ n ∧ n ≤ 250

/-- The configuration set and the lease clock are in their ranges. -/
def ConfigurationOk (s : State) : Prop := ParamsOk s.params ∧ ClockOk s.clock

/-- R79, R10, Table 18: every HELD record has 1 ≤ remaining ≤ term ≤ 65,535 and at most 255 renewals, and every wait
entry a wait remaining of 1 to 65,535 and, if it is a CLAIM, a term of 1 to 65,535. -/
structure LeasesOk (s : State) : Prop where
  held    : ∀ i c l n, (slotAt s i).content = .held c l n → 1 ≤ n ∧ n ≤ l.term ∧ l.term ≤ 65535 ∧ l.renewals ≤ 255
  entries : ∀ e ∈ s.waitList, 1 ≤ e.waitRemaining ∧ e.waitRemaining ≤ 65535
  terms   : ∀ e ∈ s.waitList, ∀ term label, e.kind = .claim term label → 1 ≤ term ∧ term ≤ 65535

/-- R1: every range that a record or a wait entry holds is well-formed. -/
structure RangesOk (s : State) : Prop where
  records : ∀ i c, (slotAt s i).content.claimed = some c → WellFormed c.range
  entries : ∀ e ∈ s.waitList, WellFormed e.range

/-- R156, R160: every active job has pages left to do, all of them pages of the array. -/
def JobsOk (s : State) : Prop :=
  ∀ p j, s.job p = some j → j.pagesDone < j.count ∧ ∀ x ∈ jobSides j, x.range.first + x.range.count ≤ 4096

/-- R48: at most 12 wait entries, and at most 4 of one port. -/
def WaitListOk (s : State) : Prop := s.waitList.length ≤ 12 ∧ ∀ p, portWaits s p ≤ 4

/-- R18, R19: the usage of a port is the number of its slots that are not FREE, and is at most its quota. -/
def UsageOk (s : State) : Prop :=
  ∀ p, (s.session p).usage = (allSlots.filter (ownedBy s p)).length ∧ (s.session p).usage ≤ s.params.quota.get p

/-- R50: the wait list and the range table stand in step. -/
structure InStep (s : State) : Prop where
  /-- Each CLAIM entry has the RESERVED slot its ticket names, with its holder, mode, range and label. -/
  claims   : ∀ e ∈ s.waitList, ∀ term label, e.kind = .claim term label →
    ∃ i, e.ticket = slotHandle s i ∧ (slotAt s i).content = .reserved ⟨e.port, e.mode, e.range, label⟩
  /-- Each UPGRADE entry has mode EXCLUSIVE and the HELD SHARED record its ticket names, of its port and range. -/
  upgrades : ∀ e ∈ s.waitList, e.kind = .upgrade → e.mode = .exclusive ∧
    ∃ i c, e.ticket = slotHandle s i ∧ Held s i c ∧ c.holder = e.port ∧ c.mode = .shared ∧ c.range = e.range
  /-- Each RESERVED slot has its CLAIM entry. -/
  slots    : ∀ i c, (slotAt s i).content = .reserved c →
    ∃ e ∈ s.waitList, e.ticket = slotHandle s i ∧ e.isUpgrade = false
  /-- No two entries share a ticket. -/
  tickets  : (s.waitList.map WaitEntry.ticket).Nodup

/-- R15: no page is covered by two HELD records of different ports unless both are SHARED. -/
def NoConflictHeld (s : State) : Prop :=
  ∀ i j c d, Held s i c → Held s j d → ¬ Conflict c.holder c.mode c.range d.holder d.mode d.range

/-- R17: no page is covered by two HELD records of one port, by a HELD record and a waiting CLAIM of one port, or by two
waiting CLAIMs of one port. -/
structure NoSelfOverlap (s : State) : Prop where
  records : ∀ i j c d, i ≠ j → Held s i c → Held s j d → c.holder = d.holder → ¬ Overlap c.range d.range
  mixed   : ∀ i c, ∀ e ∈ s.waitList, Held s i c → e.isUpgrade = false → c.holder = e.port → ¬ Overlap c.range e.range
  claims  : s.waitList.Pairwise fun e e' =>
    e.isUpgrade = false → e'.isUpgrade = false → e.port = e'.port → ¬ Overlap e.range e'.range

/-- R57: the waits-for relation among the ports has no cycle. -/
def NoCycle (s : State) : Prop := ∀ p, ¬ LeadsTo s p p

/-- R15, R17 and R50 together: the locks and the requests that wait are sound. -/
def LocksOk (s : State) : Prop := InStep s ∧ NoConflictHeld s ∧ NoSelfOverlap s

/-- The places that a port's work in progress has reserved (R126): one for each wait entry, known by its ticket, and one
for the active job of an ATTACHED port. -/
def workPlaces (s : State) (p : Port) : List Reservation :=
  ((s.waitList.filter fun e => e.port == p).map fun e => Reservation.entry e.ticket) ++
    (if (s.job p).isSome && (s.session p).state == .attached then [.job] else [])

/-- R100, R126: what each port owns by its session state, and its reservations are those of its work in progress, 8
places in all. -/
structure PortsOk (s : State) : Prop where
  places   : ∀ p, (s.session p).reserved.Perm (workPlaces s p)
  atMost8  : ∀ p, placesUsed s p ≤ 8
  detached : ∀ p, (s.session p).state = .detached →
    s.job p = none ∧ (s.session p).held = [] ∧ portWaits s p = 0 ∧ ∀ i, ownedBy s p i = false
  closing  : ∀ p, (s.session p).state = .closing →
    (∃ j, s.job p = some j ∧ j.stop = .closed) ∧ (s.session p).held = [] ∧ portWaits s p = 0 ∧
      ∀ i, ownedBy s p i = false
  attached : ∀ p, (s.session p).state = .attached → ∀ j, s.job p = some j → j.stop ≠ .closed

/-! ### What a command needs -/

/-- A frame completes at a port unit that judges it now (R107, R112, R118): the port unit is in RECEIVING, RESET_N is
high, and no previous command of the port waits for its reply. -/
structure Completes (f : Frame) (s : State) : Prop where
  receiving : (s.port f.port).sel = .receiving
  resetHigh : s.resetLow = false
  noRequest : (s.port f.port).request = none
  noWaiting : (s.port f.port).deferred = []

/-- A frame of a command completes and passes steps 1 to 5 of its judgement (R112): start-up clearing has ended, its
check matches if it must, and the port has the command's role. Step 6, its length, follows from the arguments. -/
structure Passes (c : Command) (f : Frame) (s : State) : Prop extends Completes f s where
  cleared : clearing s = false
  checked : (s.session f.port).checking = false ∨ checkMatches (commandCode c) f = true
  role    : isSupervision c = false ∨ f.port = .p0

/-- A frame passes its judgement at a port whose session is ATTACHED, so that its command is admitted (R90). -/
structure Admitted (c : Command) (f : Frame) (s : State) : Prop extends Passes c f s where
  attached : (s.session f.port).state = .attached

/-- R160: the records that a FILL, COPY or SUM frame names, src before dst, each with the range on its side. -/
def NamesSides (c : Command) (f : Frame) (sides : List Side) : Prop :=
  (∃ a, c = .fill ∧ f.args = fillBytes a ∧ sides = [⟨a.dst, ⟨a.first.toNat, a.count.toNat⟩, true⟩]) ∨
  (∃ a, c = .copy ∧ f.args = copyBytes a ∧ sides =
    [⟨a.src, ⟨a.srcFirst.toNat, a.count.toNat⟩, false⟩, ⟨a.dst, ⟨a.dstFirst.toNat, a.count.toNat⟩, true⟩]) ∨
  (∃ a, c = .sum ∧ f.args = spanBytes a ∧ sides = [⟨a.handle, ⟨a.first.toNat, a.count.toNat⟩, false⟩])

/-- The HELD record that a side's handle resolves to for a port (R7). -/
def SideHeld (s : State) (p : Port) (x : Side) (d : Claimed) : Prop := ∃ i, resolve s p x.handle = some i ∧ Held s i d

/-! ### What a command leaves -/

/-- Everything but the range table, the wait list, the session contexts and the port units. -/
def board (s : State) :=
  (s.clock, s.array, s.clearNext, s.arbiter, s.engine, s.params, s.restartPending, s.resetLow, s.powerUps, s.pending)

/-- A port unit whose reply has been formed and kept and is being sent (R109, R119), with its NOTICE line. -/
def PortUnit.replied (u : PortUnit) (r : Reply) (line : Bool) : PortUnit :=
  { u with sel := .answering, answer := some { reply := r, kept := true }, lastReply := some r, noticeLine := line }

/-- A port unit whose READ or WRITE has been served (R118, R119): the reply is kept, and sent, or, if the selection of
the command has ended, REPLY_CUT is set. -/
def PortUnit.served (u : PortUnit) (r : Reply) (cut : Bool) : PortUnit :=
  if cut then { u with request := none, lastReply := some r, errors := { u.errors with replyCut := true } }
  else { u with request := none, lastReply := some r, answer := some { reply := r, kept := true } }

/-- In `t` the port has formed, kept and begun to send its reply, with the ATTN of this moment (R109, R110, R119), and
its NOTICE line follows its flags (R137). `u` is the port unit before, with the flags that the command has changed. -/
def Replied (p : Port) (tag : Byte) (code : ResultCode) (results : List Byte) (u : PortUnit) (t : State) : Prop :=
  t.port p = u.replied (mkReply code tag (attnByte t p) results) (noticeDue t p)

/-- The session contexts and port units of the other ports are as they were. -/
def OthersKept (p : Port) (s t : State) : Prop := ∀ q, q ≠ p → t.session q = s.session q ∧ t.port q = s.port q

/-- Nothing outside a port's own session context and port unit has changed. -/
def OnlyPort (p : Port) (s t : State) : Prop :=
  t.table = s.table ∧ t.waitList = s.waitList ∧ board t = board s ∧ OthersKept p s t

/-- A command was answered with a code and results, and nothing has changed but the port unit that answers. -/
def Answers (c : Command) (f : Frame) (s : State) (code : ResultCode) (results : List Byte) : Prop :=
  ∃ t, exec (rowOf c f) s = .next t ∧ OnlyPort f.port s t ∧ t.sessions = s.sessions ∧
    Replied f.port f.tag code results (s.port f.port) t

/-- Every slot but one is as it was. -/
def OtherSlotsKept (i : SlotId) (s t : State) : Prop := ∀ j, j ≠ i → slotAt t j = slotAt s j

/-- What a grant scan may make of a slot (R61, R62): the generation stays; a FREE or LAPSED slot, and a slot that no
entry's ticket names, stays as it is; a RESERVED slot may become HELD with its record as it was and a full lease; a HELD
record may become EXCLUSIVE and is otherwise as it was. -/
structure ScannedSlot (s t : State) (i : SlotId) : Prop where
  gen      : (slotAt t i).gen = (slotAt s i).gen
  free     : (slotAt s i).content = .free → (slotAt t i).content = .free
  lapsed   : ∀ c l x, (slotAt s i).content = .lapsed c l x → (slotAt t i).content = .lapsed c l x
  unnamed  : (∀ e ∈ s.waitList, handleSlot e.ticket ≠ some i) → slotAt t i = slotAt s i
  reserved : ∀ c, (slotAt s i).content = .reserved c → (slotAt t i).content = .reserved c ∨
    ∃ m term, (slotAt t i).content = .held { c with mode := m } ⟨term, 0, false⟩ term
  held     : ∀ c l n, (slotAt s i).content = .held c l n →
    ∃ m, (slotAt t i).content = .held { c with mode := m } l n ∧ (m = c.mode ∨ m = .exclusive)

/-- What a grant scan may make of a session context: outcomes join the tail of the held outcomes, and nothing but the
outcome list changes (R61, R62, R64). -/
def ScannedSession (x y : Session) : Prop :=
  x.held <+: y.held ∧ { y with reserved := x.reserved, held := x.held } = x

/-- What a grant scan may make of a port unit: CONTENDED may be set (R63), and the NOTICE line follows (R137). -/
def ScannedPort (u v : PortUnit) : Prop :=
  (u.notices.contended = true → v.notices.contended = true) ∧
    { v with notices := { v.notices with contended := u.notices.contended }, noticeLine := u.noticeLine } = u

/-- What a happening's grant scan may have changed from `s` to `t`, but for the port unit that answers the happening's
command (R60 to R64). -/
structure Scanned (but : Option Port) (s t : State) : Prop where
  slots    : ∀ i, ScannedSlot s t i
  entries  : t.waitList.Sublist s.waitList
  sessions : ∀ q, ScannedSession (s.session q) (t.session q)
  ports    : ∀ q, but ≠ some q → ScannedPort (s.port q) (t.port q)
  board    : board t = board s

/-- R60: at the end of a scan each entry in the list conflicts with a HELD record of another port or with an older
entry of another port. -/
def EachEntryBlocked (s : State) : Prop :=
  ∀ older e younger, s.waitList = older ++ e :: younger →
    (∃ i c, Held s i c ∧ Conflict e.port e.mode e.range c.holder c.mode c.range) ∨
      ∃ o ∈ older, Conflict e.port e.mode e.range o.port o.mode o.range

/-- R61, R62: a slot whose entry a scan has granted: a CLAIM's becomes HELD with the entry's holder, mode, range, label
and term and a full lease, an UPGRADE's record EXCLUSIVE and otherwise as it was. -/
def GrantedSlot (e : WaitEntry) (x y : Slot) : Prop :=
  y.gen = x.gen ∧
  (∀ term label, e.kind = .claim term label →
    y.content = .held ⟨e.port, e.mode, e.range, label⟩ ⟨term, 0, false⟩ term) ∧
  (e.kind = .upgrade → ∃ c l n, x.content = .held c l n ∧ y.content = .held { c with mode := .exclusive } l n)

/-- R61, R62: the outcome of an entry that a scan grants. -/
def GrantOutcome (s : State) (e : WaitEntry) (o : OutcomeRecord) : Prop :=
  o.tag = e.tag ∧
  (∀ term label, e.kind = .claim term label → o.body = .granted e.ticket e.mode e.range term) ∧
  (e.kind = .upgrade → ∃ i c l n, e.ticket = slotHandle s i ∧ (slotAt s i).content = .held c l n ∧
    o.body = .upgraded e.ticket c.range l.term)

/-- The outcome places of entries are no longer reserved (R128). -/
def placesWithout (reserved : List Reservation) (entries : List WaitEntry) : List Reservation :=
  entries.foldl (fun r e => r.erase (.entry e.ticket)) reserved

/-- R60 to R64: the whole of one grant scan. It grants exactly the entries that no HELD record and no older entry of
another port blocks, and so lets none overtake an older one it conflicts with; their outcomes join the held outcomes of
their ports in the order of the entries; CONTENDED is set at the port of a granted entry that conflicts with an entry
still in the list. -/
structure Scans (granted : List WaitEntry) (s t : State) : Prop where
  order     : granted.Sublist s.waitList
  chosen    : ∀ older e younger, s.waitList = older ++ e :: younger →
    (e ∈ granted ↔ ∀ b, ¬ BlockerOf s older e b)
  entries   : t.waitList = s.waitList.filter fun e => decide (e ∉ granted)
  slots     : ∀ e ∈ granted, ∀ i, e.ticket = slotHandle s i → GrantedSlot e (slotAt s i) (slotAt t i)
  others    : ∀ i, (∀ e ∈ granted, e.ticket ≠ slotHandle s i) → slotAt t i = slotAt s i
  sessions  : ∀ p, ∃ new, List.Forall₂ (GrantOutcome s) (granted.filter fun e => e.port == p) new ∧
    t.session p = { s.session p with
      reserved := placesWithout (s.session p).reserved (granted.filter fun e => e.port == p)
      held := (s.session p).held ++ new }
  contended : ∀ p, (t.port p).notices.contended = true ↔ (s.port p).notices.contended = true ∨
    ∃ e ∈ granted, e.port = p ∧ ∃ o ∈ t.waitList, Conflict e.port e.mode e.range o.port o.mode o.range

/-- A happening has come to `m` before the grant scan that ends it, and to `t` after it. -/
def ScannedFrom (m t : State) : Prop := ∃ granted, Scans granted m t

/-- A HELD record with at most one tick left (R79). -/
def lastTick (s : State) (i : SlotId) : Bool :=
  match (slotAt s i).content with
  | .held _ _ n => decide (n ≤ 1)
  | _ => false

/-- R79: the UPGRADE entries of a port whose records lapse at this tick, in slot order. -/
def recordEnds (s : State) (p : Port) : List WaitEntry :=
  (allSlots.filter (lastTick s)).flatMap fun i =>
    s.waitList.filter fun e => e.port == p && e.isUpgrade && e.ticket == slotHandle s i

/-- R65, R80: the other entries of a port with at most one tick left to wait, oldest first. -/
def timeOuts (s : State) (p : Port) : List WaitEntry :=
  s.waitList.filter fun e => e.port == p && decide (e.waitRemaining ≤ 1) && !(recordEnds s p).contains e

/-- R77 to R80, Table 25: what steps 1 to 4 of a tick leave, before its scan. -/
structure TickBeforeScan (s m : State) : Prop where
  running  : ∀ i c l n, (slotAt s i).content = .held c l n → 2 ≤ n →
    slotAt m i = { gen := (slotAt s i).gen, content := .held c { l with
      warned := l.warned || decide (0 < (s.session c.holder).warnThreshold ∧
        n - 1 = (s.session c.holder).warnThreshold) } (n - 1) }
  lapsing  : ∀ i c l n, (slotAt s i).content = .held c l n → n ≤ 1 →
    slotAt m i = { gen := (slotAt s i).gen, content := .lapsed c l .expired }
  reserved : ∀ i c, (slotAt s i).content = .reserved c → ∀ e ∈ s.waitList, e.ticket = slotHandle s i →
    slotAt m i = if 2 ≤ e.waitRemaining then slotAt s i else { gen := nextGen (slotAt s i).gen, content := .free }
  free     : ∀ i, (slotAt s i).content = .free → slotAt m i = slotAt s i
  lapsed   : ∀ i c l x, (slotAt s i).content = .lapsed c l x → slotAt m i = slotAt s i
  entries  : m.waitList =
    (s.waitList.filter fun e => decide (2 ≤ e.waitRemaining) && !(recordEnds s e.port).contains e).map
      fun e => { e with waitRemaining := e.waitRemaining - 1 }
  sessions : ∀ p, m.session p = { s.session p with
    reserved := placesWithout (s.session p).reserved (recordEnds s p ++ timeOuts s p)
    held := (s.session p).held ++
      ((recordEnds s p).map fun e => { tag := e.tag, body := .ended .upgrade .recordEnded e.ticket }) ++
      (timeOuts s p).map fun e => { tag := e.tag, body := .ended e.waitKind .timedOut e.ticket }
    usage := (s.session p).usage - ((timeOuts s p).filter fun e => !e.isUpgrade).length }
  leaseLow : ∀ p, (m.port p).notices.leaseLow = true ↔ (s.port p).notices.leaseLow = true ∨
    ∃ i c l n, (slotAt s i).content = .held c l n ∧ c.holder = p ∧ l.warned = false ∧
      0 < (s.session p).warnThreshold ∧ n - 1 = (s.session p).warnThreshold
  leaseLost : ∀ p, (m.port p).notices.leaseLost = true ↔ (s.port p).notices.leaseLost = true ∨
    ∃ i c l n, (slotAt s i).content = .held c l n ∧ c.holder = p ∧ n ≤ 1
  contended : ∀ p, (m.port p).notices.contended = (s.port p).notices.contended

/-- R150: the arbiter's choice at the end of a service: of the users that wait, the first in the cyclic order after the
last served; with none waiting the array is no longer busy. -/
structure ServesNext (a b : Arbiter) : Prop where
  next : ∀ before u after, usersAfter a.lastServed = before ++ u :: after → a.waiting.has u = true →
    (∀ v ∈ before, a.waiting.has v = false) →
    b.serving = some u ∧ b.lastServed = u ∧ ∀ v, b.waiting.has v = (a.waiting.has v && decide (v ≠ u))
  none : (∀ u, a.waiting.has u = false) → b = { a with serving := none }

/-- R150, R163: the arbiter after the service of an engine request: the engine's next request, if it has placed one,
waits with the others. -/
def ArbiterAfterStep (s t : State) : Prop :=
  ServesNext
    { s.arbiter with
      waiting := if t.engine.inFlight = none then s.arbiter.waiting else s.arbiter.waiting.put .engine true }
    t.arbiter

/-- R163: the engine has chosen from a turn pointer on: the first port with an active job, in cyclic order, and the
pointer moves past it; with no job it has no request in flight and the pointer stays. -/
def EngineChose (turn : Port) (t : State) : Prop :=
  ((∀ q, t.job q = none) → t.engine.inFlight = none ∧ t.engine.turn = turn) ∧
    ∀ before q after, portsFrom turn = before ++ q :: after → t.job q ≠ none → (∀ o ∈ before, t.job o = none) →
      t.engine.inFlight = some q ∧ t.engine.turn = nextPort q

/-- R96 to R98: the teardown of a port's session, as one happening with its grant scan. -/
structure TornDown (p : Port) (s t : State) : Prop where
  slots    : ∀ i, ownedBy s p i = true → slotAt t i = { gen := nextGen (slotAt s i).gen, content := .free }
  others   : ∀ i, ownedBy s p i = false → ScannedSlot s t i
  entries  : t.waitList.Sublist (s.waitList.filter fun e => !(e.port == p))
  blocked  : EachEntryBlocked t
  job      : t.engine = { s.engine with
    jobs := s.engine.jobs.set p ((s.job p).map fun j => { j with stop := .closed }) }
  session  : ∃ usage evicted, t.session p =
    { Session.reset with state := if (s.job p).isSome then .closing else .detached, usage := usage,
                         evicted := evicted } ∧
    usage + (allSlots.filter (ownedBy s p)).length = max (s.session p).usage (allSlots.filter (ownedBy s p)).length
  notices  : (t.port p).notices = .none
  sessions : ∀ q, q ≠ p → ScannedSession (s.session q) (t.session q)
  scan     : InStep s → ∃ m granted, Scans granted m { t with sessions := t.sessions.set p (m.session p) } ∧
    (∀ i, slotAt m i =
      if ownedBy s p i = true then { gen := nextGen (slotAt s i).gen, content := .free } else slotAt s i) ∧
    m.waitList = (s.waitList.filter fun e => !(e.port == p)) ∧
    (∀ q, q ≠ p → m.session q = s.session q ∧ m.port q = s.port q) ∧ (m.port p).notices = .none
  board    : board { t with engine := s.engine } = board s

/-- What the part is after a pin reset or RESTART, but for the clock, the configuration and the select lines (R22, R71,
R105, R124, R125, R154, R172, R185). -/
structure AfterReset (s t : State) : Prop where
  slots    : ∀ i, slotAt t i =
    if (slotAt s i).content = .free then slotAt s i else { gen := nextGen (slotAt s i).gen, content := .free }
  waitList : t.waitList = []
  sessions : ∀ p, t.session p = Session.reset
  ports    : ∀ p, t.port p = { PortUnit.reset with seenHigh := (t.port p).seenHigh }
  arbiter  : t.arbiter = Arbiter.reset
  engine   : t.engine = Engine.reset
  restart  : t.restartPending = false
  resetN   : t.resetLow = false
  clearing : t.clearNext = s.clearNext
  queue    : t.pending = s.pending ∧ t.powerUps = s.powerUps

end Sys2Proof.Machine
end

