-- ==== Sys2Proof/Certificates/Slice0/Obligations.lean ====
section
/-! DEFINITION. The statements about the part that are to be proved. -/

open Sys2Proof Sys2Proof.Machine

/-! ### The queue of commands -/

/-- The model's queue (log entry 3): a step takes the command at the front, with the rest of the queue left. -/
def Obligations.StepTakesFront : Prop :=
  ∀ (c : Instr) (rest : List Instr) (s : State), step { s with pending := c :: rest } = exec c { s with pending := rest }

/-- Section 4.1, on an empty queue (log entry 3): one period of CLKIN passes, and the tick in progress ends exactly when
the base count reaches the length in use. While the clock does not run nothing happens. -/
def Obligations.EmptyQueueCountsClkin : Prop :=
  ∀ s : State, s.pending = [] →
    (clockRuns s = false → step s = .next s) ∧
    (clockRuns s = true → s.clock.periodCount + 1 < 1600 →
      step s = .next { s with clock := { s.clock with periodCount := s.clock.periodCount + 1 } }) ∧
    (clockRuns s = true → 1600 ≤ s.clock.periodCount + 1 → s.clock.baseCount + 1 < s.clock.lengthInUse →
      step s = .next { s with clock := { s.clock with periodCount := 0, baseCount := s.clock.baseCount + 1 } }) ∧
    (clockRuns s = true → 1600 ≤ s.clock.periodCount + 1 → s.clock.lengthInUse ≤ s.clock.baseCount + 1 →
      step s = exec .leaseTick
        { s with clock := { s.clock with periodCount := 0, baseCount := s.clock.baseCount + 1 } })

/-! ### Bytes and fields -/

/-- Sections 6.1 and 6.3.1: the bytes of a command frame of LEN n are n + 5, no shorter start of them is a frame, and the
port unit reads back from them, whatever follows, exactly the frame they carry. So too over the clock edges of a
selection, each byte the next eight bits sampled since select fell, the most significant first: the edges that carry a
frame end it in the row of its CODE, and while a bit is missing they end none and the bits of the incomplete byte are
discarded. Data-out is high-impedance while the port unit is in IDLE and before the first falling edge; a rising edge
leaves it, and a falling edge changes it to the bit of the next rising edge (log entry 21): of the fill byte 0xFF, then
of the reply's bytes, the most significant first, then of the fill byte. So the level is that of fill alone while no bit
of the reply has come up, and in SPENT it is that of the reply sent, with fill after it. -/
def Obligations.FrameRoundTrip : Prop :=
  (∀ (code : Byte) (f : Frame) (more : List Byte), f.args.length ≤ 72 →
    (frameBytes code f).length = f.args.length + 5 ∧
    receive f.port (frameBytes code f ++ more) = .complete code f ∧
    ∀ k, k < f.args.length + 5 → receive f.port ((frameBytes code f).take k) = .partialFrame) ∧
  (∀ (code : Byte) (f : Frame) (edges : List ClockEdge), f.args.length ≤ 72 →
    let bits := (frameBytes code f).flatMap bitsOfByte
    (∀ more, sampled edges = bits ++ more → rowOfEdges f.port edges = some (rowOfCode code f)) ∧
    (∀ k, k < 8 * (f.args.length + 5) → sampled edges = bits.take k →
      bytesOfEdges edges = (frameBytes code f).take (k / 8) ∧ rowOfEdges f.port edges = none)) ∧
  ∀ (s : State) (p : Port) (fill : Nat) (edges : List ClockEdge),
    let k := (sampled edges).length
    let fallen := dataOutLevel s p fill (edges ++ [.fall])
    (dataOut s p = .highImpedance → dataOutLevel s p fill edges = none) ∧
    (.fall ∉ edges → dataOutLevel s p fill edges = none) ∧
    (∀ bit, dataOutLevel s p fill (edges ++ [.rise bit]) = dataOutLevel s p fill edges) ∧
    (dataOut s p = .fill → fallen = some true) ∧
    (∀ bytes, dataOut s p = .reply bytes ∨ dataOut s p = .spent bytes →
      (k < 8 * fill → dataOutLevel s p fill edges = dataLine [] 0 none edges ∧ fallen = some true) ∧
      (8 * fill ≤ k → k < 8 * (fill + bytes.length) →
        fallen = some ((bytes.getD (k / 8 - fill) 0).getMsbD (k % 8))) ∧
      (8 * (fill + bytes.length) ≤ k → fallen = some true))

/-- R6, R7: a handle resolves for a port exactly when its high byte is the generation of the slot its low byte names
and that slot holds a record of the port, and then to that slot. -/
def Obligations.HandleResolution : Prop :=
  ∀ (s : State) (p : Port) (h : Half) (i : SlotId),
    resolve s p h = some i ↔
      h = handleOf (slotAt s i).gen i ∧ ∃ c, (slotAt s i).content.claimed = some c ∧ c.holder = p

/-- R2: two ranges of at least one page overlap when they have a page in common, and this is so exactly when the first
page of each is no greater than the last page of the other. -/
def Obligations.OverlapIsCommonPage : Prop :=
  ∀ a b : Range, 1 ≤ a.count → 1 ≤ b.count →
    (overlaps a b = true ↔ ∃ n, Covers a n ∧ Covers b n) ∧
    (overlaps a b = true ↔ a.first ≤ b.first + b.count - 1 ∧ b.first ≤ a.first + a.count - 1)

/-! ### What every step keeps -/

/-- Every invariant holds right after reset. -/
def Obligations.ResetMeetsInvariants : Prop :=
  Memory.wf State.reset.array = true ∧ LinesAgree State.reset ∧ GenerationsOk State.reset ∧
    ConfigurationOk State.reset ∧ LeasesOk State.reset ∧ RangesOk State.reset ∧ JobsOk State.reset ∧
    WaitListOk State.reset ∧ UsageOk State.reset ∧ LocksOk State.reset ∧ PortsOk State.reset ∧
    EachEntryBlocked State.reset ∧ NoCycle State.reset

/-- The cells of the array keep their canonical form in every step: addresses rising, below 262,144, no byte 0. -/
def Obligations.MemoryFormKept : Prop :=
  ∀ s t : State, Memory.wf s.array = true → step s = .next t → Memory.wf t.array = true

/-- Section 7.8: after every step each NOTICE line agrees with the port's flags and mask. -/
def Obligations.NoticeLinesKept : Prop := ∀ s t : State, LinesAgree s → step s = .next t → LinesAgree t

/-- Sections 1.3, 3.1, 4.1, 10.2 and 10.3: no step makes a generation 0; the wait list never comes to hold more than 12
entries, nor more than 4 of one port; every parameter and every count and length of the lease clock stays in its
range. -/
def Obligations.CountsKept : Prop :=
  ∀ s t : State, step s = .next t →
    (GenerationsOk s → GenerationsOk t) ∧ (WaitListOk s → WaitListOk t) ∧ (ConfigurationOk s → ConfigurationOk t)

/-- Section 4.4: after every step every HELD record has 1 ≤ remaining ≤ term ≤ 65,535, and the counts of every wait
entry are in their ranges. -/
def Obligations.LeaseBoundsKept : Prop :=
  ∀ s t : State, ParamsOk s.params → LeasesOk s → step s = .next t → LeasesOk t

/-- Sections 1.1, 9.1 and 9.2: the ranges of records, entries and jobs stay pages of the array, and so no step from such
a state ends in a fault or a refusal. -/
def Obligations.RangesKeptNoFault : Prop :=
  ∀ s : State, RangesOk s → JobsOk s → ∃ t, step s = .next t ∧ RangesOk t ∧ JobsOk t

/-- Sections 1.6, 3.1, 3.2 and 3.3: after every step no page is under two HELD records that conflict, no port's own
records and waiting claims overlap, and the wait list and the range table are in step; and then, if the waits-for
relation among the ports had no cycle, it has none. -/
def Obligations.LocksKept : Prop :=
  ∀ s t : State, LocksOk s → step s = .next t → LocksOk t ∧ (NoCycle s → NoCycle t)

/-- Sections 1.7, 5.6 and 7.1: each port's usage stays the number of its slots that are not FREE, and at most its
quota; a DETACHED port owns nothing, a CLOSING port exactly one job, and each reservation of an outcome list is that of
one wait entry or of the active job, 8 places in all. -/
def Obligations.OwnershipKept : Prop :=
  ∀ s t : State, step s = .next t →
    (UsageOk s → UsageOk t) ∧ (LocksOk s → PortsOk s → PortsOk t)

/-- Section 3.4: at the end of every step each entry in the wait list conflicts with a HELD record of another port or
with an older entry of another port. -/
def Obligations.EntriesStayBlocked : Prop :=
  ∀ s t : State, LocksOk s → LeasesOk s → EachEntryBlocked s → step s = .next t → EachEntryBlocked t

/-! ### Power, clearing and reset -/

/-- Sections 1.9 (R22), 3.9, 4.3, 5.9, 8.6, 9.6 and 10.7: what power-up leaves, and what start-up clearing then does: it
writes zero to every byte of the next page and advances by one page; with page 4095 it ends, the arbiter is left as
section 8.7 says and the lease clock is at the start of its first tick. Of a power-up the bytes of the array are free
(log entry 2: the model's choice of a free value), and the RESET_N pin and the queue stay as they are (log entry 1). A
clearing row after the end does nothing (log entry 6). -/
def Obligations.PowerUpAndClearing : Prop :=
  (∀ s : State, ∃ t, exec .powerUp s = .next t ∧
    (∀ i, slotAt t i = { gen := 1, content := .free }) ∧ t.waitList = [] ∧
    t.clock = { periodCount := 0, baseCount := 0, lengthInUse := 10, pendingLength := none } ∧
    t.clearNext = 0 ∧ t.arbiter.waiting = .none ∧ t.arbiter.serving = none ∧
    (∀ p, t.job p = none) ∧ t.engine.turn = .p0 ∧ t.engine.inFlight = none ∧
    t.params = { tickLength := 10, maxTerm := 10000, defaultTerm := 1000, maxWait := 5000, renewLimit := 0,
                 enforce := .strict, quota := .all 32 } ∧
    (∀ p, t.session p = Session.reset) ∧ (∀ p, t.port p = PortUnit.reset) ∧ t.restartPending = false ∧
    (∀ a, a < 262144 → readByte t.array a = Config.powerUpByte s.powerUps a) ∧
    t.powerUps = s.powerUps + 1 ∧ t.resetLow = s.resetLow ∧ t.pending = s.pending) ∧
  (∀ s : State, Memory.wf s.array = true →
    (4096 ≤ s.clearNext → exec .startupClearPage s = .next s) ∧
    (s.clearNext < 4096 → ∃ t, exec .startupClearPage s = .next t ∧ t.clearNext = s.clearNext + 1 ∧
      (∀ a, readByte t.array a = if a / 64 = s.clearNext then 0 else readByte s.array a) ∧
      (s.clearNext < 4095 → t.arbiter = s.arbiter ∧ t.clock = s.clock) ∧
      (s.clearNext = 4095 → t.arbiter = { waiting := .none, serving := none, lastServed := .engine } ∧
        t.clock = { s.clock with periodCount := 0, baseCount := 0 }) ∧
      t.table = s.table ∧ t.waitList = s.waitList ∧ t.sessions = s.sessions ∧ t.ports = s.ports ∧
      board { t with array := s.array, clearNext := s.clearNext, arbiter := s.arbiter, clock := s.clock } = board s))

/-- Sections 1.9 (R22), 3.9, 4.3, 5.9, 6.9, 8.7, 9.6 and 10.7: a pin reset, with what the model lets each of its two rows
do (log entry 11) and the select line's level followed through both (log entry 7). RESET_N going low leaves every port
unit in IDLE with nothing being sent and no command waiting, every NOTICE line released, the arbiter emptied and the
clock stopped; the READ, WRITE or page step being served, if there is one, has completed, so that a WRITE whose checks
pass has stored every one of its bytes, a page step that transfers its whole page, and any other service nothing. Its
release frees every slot that is not FREE with the generation advanced, puts the configuration at its defaults, begins a
fresh tick, and keeps the array. -/
def Obligations.PinReset : Prop :=
  (∀ s : State, s.resetLow = false → Memory.wf s.array = true →
    ∃ t, exec .resetNAssert s = .next t ∧ t.resetLow = true ∧ clockRuns t = false ∧
      (∀ p, t.port p = { s.port p with sel := .idle, answer := none, request := none, deferred := []
                                       noticeLine := false } ∧ dataOut t p = .highImpedance) ∧
      t.arbiter = { waiting := .none, serving := none, lastServed := .engine } ∧ t.engine.inFlight = none ∧
      ServiceDone s t.array ∧
      t.table = s.table ∧ t.waitList = s.waitList ∧ t.sessions = s.sessions ∧ t.clock = s.clock ∧
      t.clearNext = s.clearNext ∧ t.engine.jobs = s.engine.jobs ∧ t.engine.turn = s.engine.turn ∧
      t.params = s.params ∧ t.restartPending = s.restartPending ∧ t.powerUps = s.powerUps ∧ t.pending = s.pending) ∧
  (∀ s : State, s.resetLow = true →
    ∃ t, exec .resetNRelease s = .next t ∧ AfterReset s t ∧ t.params = Params.reset ∧
      t.clock = { periodCount := 0, baseCount := 0, lengthInUse := 10, pendingLength := none } ∧
      t.array = s.array ∧ ∀ p, (t.port p).seenHigh = (s.port p).seenHigh)

/-- Sections 1.9 (R22), 3.9, 4.3, 5.9, 6.9, 8.7, 9.6 and 10.7: a RESTART is answered OK with LEN 0 and marks a restart
pending, and changes nothing else. It takes hold at the deselection of P0, which is the row RESTART_TAKES_HOLD (log
entry 10): the configuration is kept, a fresh tick begins at the TICK_LENGTH held, and the array is kept but for the
READ, WRITE or page step being served, which has completed. What was last seen of the other ports' select lines stays
(log entry 7). -/
def Obligations.RestartTaken : Prop :=
  (∀ (s : State) (f : Frame), Admitted .restart f s → f.args = [] → LinesAgree s →
    ∃ t, exec (.restart f) s = .next t ∧ t.restartPending = true ∧ t.sessions = s.sessions ∧
      OnlyPort f.port s { t with restartPending := s.restartPending } ∧
      Replied f.port f.tag .ok [] (s.port f.port) t) ∧
  (∀ s : State, s.restartPending = true → s.resetLow = false →
    ((s.port .p0).sel = .answering → exec (.deselectionAnswering .p0) s = exec .restartTakesHold s) ∧
    ((s.port .p0).sel = .spent → exec (.deselectionSpent .p0) s = exec .restartTakesHold s) ∧
    ∃ t, exec .restartTakesHold s = .next t ∧ AfterReset s t ∧ t.params = s.params ∧
      t.clock = { periodCount := 0, baseCount := 0, lengthInUse := s.params.tickLength, pendingLength := none } ∧
      (Memory.wf s.array = true → ServiceDone s t.array) ∧ (s.arbiter.serving = none → t.array = s.array) ∧
      (t.port .p0).seenHigh = true ∧ ∀ p, p ≠ .p0 → (t.port p).seenHigh = (s.port p).seenHigh)

/-! ### Lease time -/

/-- Section 4.4, Table 25: one lease tick while the clock runs. Steps 1 to 4: a HELD record counts down, is warned exactly
when its remaining comes to its holder's threshold, and lapses at 0 with LEASE_LOST at its holder and a waiting upgrade
of it ended RECORD_ENDED; every other entry loses one tick and stays, or comes to 0 and ends TIMED_OUT, a CLAIM's
RESERVED slot freed; the outcomes of step 3 come first, in slot order, and then those of step 4, oldest first. Step 5: a
grant scan exactly when a record has lapsed or an entry has timed out. A pending length comes into use. Nothing else
changes. -/
def Obligations.LeaseTick : Prop :=
  ∀ s : State, clockRuns s = true → InStep s →
    ∃ t m, exec .leaseTick s = .next t ∧ TickBeforeScan s m ∧
      ((∃ i, lastTick s i = true) ∨ (∃ p, timeOuts s p ≠ []) → ScannedFrom m t) ∧
      (¬ ((∃ i, lastTick s i = true) ∨ ∃ p, timeOuts s p ≠ []) →
        (∀ i, slotAt t i = slotAt m i) ∧ t.waitList = m.waitList ∧
        ∀ p, t.session p = m.session p ∧ (t.port p).notices.contended = (m.port p).notices.contended) ∧
      (∀ p, { t.port p with
        notices := { (t.port p).notices with contended := (s.port p).notices.contended }
        noticeLine := (s.port p).noticeLine } =
          { s.port p with
            notices := { (s.port p).notices with
              leaseLow := (m.port p).notices.leaseLow, leaseLost := (m.port p).notices.leaseLost } }) ∧
      t.clock = { periodCount := 0, baseCount := 0,
                  lengthInUse := s.clock.pendingLength.getD s.clock.lengthInUse, pendingLength := none } ∧
      board { t with clock := s.clock } = board s

/-- Sections 4.4 (step 3) and 3.5, each for one object (log entry 4). A HELD record with remaining 0 becomes LAPSED with
end cause EXPIRED, LEASE_LOST is set at its holder, and a waiting upgrade of it ends RECORD_ENDED in its reserved place.
An entry whose wait remaining is 0 leaves the list with a TIMED_OUT outcome in its reserved place; a CLAIM's RESERVED
slot is freed and its holder's usage falls by 1; an UPGRADE's record stays. -/
def Obligations.LapseAndWaitExpiry : Prop :=
  (∀ (s : State) (i : SlotId) (c : Claimed) (l : Lease), (slotAt s i).content = .held c l 0 →
    ∃ t, exec (.lapse i) s = .next t ∧
      slotAt t i = { gen := (slotAt s i).gen, content := .lapsed c l .expired } ∧ OtherSlotsKept i s t ∧
      (∀ q, t.port q = { s.port q with
        notices := if q = c.holder then { (s.port q).notices with leaseLost := true } else (s.port q).notices
        noticeLine := noticeDue t q }) ∧
      ((∀ e ∈ s.waitList, e.kind = .upgrade → e.ticket ≠ slotHandle s i) →
        t.waitList = s.waitList ∧ t.sessions = s.sessions) ∧
      (∀ older e younger, s.waitList = older ++ e :: younger → e.kind = .upgrade → e.ticket = slotHandle s i →
        (∀ o ∈ older, o.kind = .upgrade → o.ticket ≠ slotHandle s i) →
        t.waitList = older ++ younger ∧ (∀ q, q ≠ e.port → t.session q = s.session q) ∧
        t.session e.port =
          { s.session e.port with
            reserved := (s.session e.port).reserved.erase (.entry e.ticket)
            held := (s.session e.port).held ++ [{ tag := e.tag, body := .ended .upgrade .recordEnded e.ticket }] }) ∧
      board t = board s) ∧
  (∀ (s : State) (e : WaitEntry), InStep s → e ∈ s.waitList → e.waitRemaining = 0 →
    ∃ t, exec (.waitExpiry e.ticket) s = .next t ∧ t.waitList = s.waitList.erase e ∧
      (e.kind = .upgrade → t.table = s.table) ∧
      (∀ term label, e.kind = .claim term label → ∀ i, e.ticket = slotHandle s i →
        slotAt t i = { gen := nextGen (slotAt s i).gen, content := .free } ∧ OtherSlotsKept i s t) ∧
      t.session e.port =
        { s.session e.port with
          reserved := (s.session e.port).reserved.erase (.entry e.ticket)
          held := (s.session e.port).held ++ [{ tag := e.tag, body := .ended e.waitKind .timedOut e.ticket }]
          usage := if e.kind = .upgrade then (s.session e.port).usage else (s.session e.port).usage - 1 } ∧
      (∀ q, q ≠ e.port → t.session q = s.session q) ∧
      (∀ q, t.port q = { s.port q with noticeLine := noticeDue t q }) ∧ board t = board s)

/-! ### The grant scan -/

/-- Section 3.4: one grant scan, over a wait list of any length. The oldest entry is granted when no HELD record of
another port conflicts with it; an entry that conflicts with an older one that stays, or with a HELD record, is not; and
every other entry is granted. A CLAIM's RESERVED slot becomes HELD with the entry's holder, mode, range, label and term
and a full lease, and its outcome is GRANTED; an UPGRADE's record becomes EXCLUSIVE with its lease as it stands, and its
outcome is UPGRADED; the outcomes fill the entries' reserved places, oldest first. CONTENDED is set at the port of a
granted entry with which an entry still in the list conflicts. Nothing else changes. -/
def Obligations.ScanGrantsOldest : Prop :=
  ∀ s : State, InStep s →
    let t := grantScan s
    ∃ granted, Scans granted s t ∧
      (∀ e rest, s.waitList = e :: rest →
        (e ∈ granted ↔ ∀ j c, Held s j c → ¬ Conflict e.port e.mode e.range c.holder c.mode c.range)) ∧
      (∀ older e younger, s.waitList = older ++ e :: younger →
        (∃ o ∈ t.waitList, o ∈ older ∧ Conflict e.port e.mode e.range o.port o.mode o.range) → e ∈ t.waitList) ∧
      EachEntryBlocked t ∧ board t = board s ∧
      ∀ p, { t.port p with
        notices := { (t.port p).notices with contended := (s.port p).notices.contended } } = s.port p

/-! ### Selections and frames that name no command -/

/-- R106, R107, R109: a fall of select begins a selection in IDLE once the line has been seen high; a high line in IDLE
is remembered; the clock edges that carry the last bit of the reply end ANSWERING in SPENT, and with fewer the last byte
has not been sent; over that change data-out keeps its level, whatever clock edges came before it; a deselection in SPENT
ends in IDLE with nothing recorded. Nothing else of the part changes. -/
def Obligations.SelectionStates : Prop :=
  ∀ (s : State) (p : Port), s.resetLow = false →
    ((s.port p).sel = .idle →
      exec (.selectSeenHigh p) s = .next (s.modPort p fun u => { u with seenHigh := true })) ∧
    ((s.port p).sel = .idle → (s.port p).seenHigh = true →
      exec (.selectionBegin p) s =
        .next (s.modPort p fun u => { u with sel := .receiving, seenHigh := false, answer := none })) ∧
    ((s.port p).sel = .idle → (s.port p).seenHigh = false → exec (.selectionBegin p) s = .next s) ∧
    (∀ a edges, (s.port p).sel = .answering → (s.port p).answer = some a →
      (8 * (a.reply.results.length + 6) ≤ (sampled edges).length →
        exec (.replyLastByteSent ⟨p, edges⟩) s =
          .next (s.modPort p fun u => { u with sel := .spent })) ∧
      (∀ fill clocked,
        dataOutLevel (s.modPort p fun u => { u with sel := .spent }) p fill clocked =
          dataOutLevel s p fill clocked) ∧
      ((sampled edges).length < 8 * (a.reply.results.length + 6) →
        exec (.replyLastByteSent ⟨p, edges⟩) s = .next s)) ∧
    ((s.port p).sel = .spent → (s.restartPending = false ∨ p ≠ .p0) →
      exec (.deselectionSpent p) s =
        .next (s.modPort p fun u => { u with sel := .idle, seenHigh := true, answer := none }))

/-- R106, R117: a deselection in RECEIVING discards the bits and bytes received, returns to IDLE, forms no reply, leaves
the last reply, and sets TRUNCATED if at least one complete byte, eight bits, had been taken (and start-up clearing has
ended). -/
def Obligations.DeselectionInReceiving : Prop :=
  ∀ (s : State) (p : Port) (edges : List ClockEdge), (s.port p).sel = .receiving → s.resetLow = false →
    ∃ t, exec (.deselectionReceiving p edges) s = .next t ∧
      t.port p = { s.port p with
        sel := .idle, seenHigh := true, answer := none
        errors := { (s.port p).errors with
          truncated := (s.port p).errors.truncated || (decide (8 ≤ (sampled edges).length) && !clearing s) } } ∧
      t.session p = s.session p ∧ OnlyPort p s t

/-- Section 6.6: a deselection in ANSWERING returns to IDLE and does not recall the command. REPLY_CUT is set when the
reply cut is one that is kept, already formed or still to be formed for a READ or WRITE at the arbiter, which goes on. Of
a frame that still waits for its judgement the deselection is remembered, and the flag waits with it (log entry 9). -/
def Obligations.DeselectionInAnswering : Prop :=
  ∀ (s : State) (p : Port), (s.port p).sel = .answering → s.resetLow = false → clearing s = false →
    (s.restartPending = false ∨ p ≠ .p0) →
    ∃ t, exec (.deselectionAnswering p) s = .next t ∧ t.session p = s.session p ∧ OnlyPort p s t ∧
      (t.port p).sel = .idle ∧ (t.port p).answer = none ∧ (t.port p).lastReply = (s.port p).lastReply ∧
      (∀ r, (s.port p).answer = some { reply := r, kept := true } →
        (t.port p).errors = { (s.port p).errors with replyCut := true }) ∧
      (∀ r, (s.port p).answer = some { reply := r, kept := false } → (t.port p).errors = (s.port p).errors) ∧
      (∀ r, (s.port p).answer = none → (s.port p).deferred = [] → (s.port p).request = some r →
        (t.port p).request = some { r with cut := true } ∧
        (t.port p).errors = { (s.port p).errors with replyCut := true }) ∧
      (∀ ds d, (s.port p).answer = none → (s.port p).deferred = ds ++ [d] →
        t.port p = { s.port p with
          sel := .idle, seenHigh := true, answer := none, deferred := ds ++ [{ d with cut := true }] })

/-- Sections 6.4 and 6.9: a LEN above 72 ends the frame: OVERSIZE is set and BAD_LENGTH is answered, or STARTING with
no flag during start-up clearing; the reply is not kept. A complete frame whose CODE names no command is answered
UNKNOWN_COMMAND in every session state, and that reply is kept. Nothing else changes. -/
def Obligations.FramesThatNameNoCommand : Prop :=
  (∀ (s : State) (p : Port) (code tag len : Byte), (s.port p).sel = .receiving → s.resetLow = false →
    72 < len.toNat →
    ∃ t, exec (.oversizeFrame p code tag len) s = .next t ∧ t.session p = s.session p ∧ OnlyPort p s t ∧
      t.port p = { s.port p with
        sel := .answering
        errors := { (s.port p).errors with oversize := (s.port p).errors.oversize || !clearing s }
        answer := some
          { reply := if clearing s then mkReply .starting tag 0 [] else mkReply .badLength tag (attnByte t p) []
            kept := false } }) ∧
  (∀ (s : State) (code : Byte) (f : Frame), Completes f s → clearing s = false → f.args.length ≤ 72 →
    ((s.session f.port).checking = false ∨ checkMatches code f = true) → commandOfCode code = none → LinesAgree s →
    ∃ t, exec (.unknownCommand code f) s = .next t ∧ OnlyPort f.port s t ∧ t.sessions = s.sessions ∧
      Replied f.port f.tag .unknownCommand [] (s.port f.port) t)

/-- Sections 6.4, 6.6 and 6.9: a frame, of any of the 31 commands or of none, that completes while an earlier command of
its port has no reply yet waits, last in line behind any number of others (a FIFO of any length is the model's choice,
log entry 8), and changes nothing else. Otherwise the judgement answers it: STARTING during start-up clearing and
CHECK_FAILED with its flag, neither kept; NOT_SUPERVISOR, then BAD_LENGTH, kept (a REPLAY frame's answer is never kept).
When the arbiter has served a port's READ or WRITE and the frames before it have been judged, the last frame that waits
goes on waiting if one of those is a READ or WRITE handed on, and is otherwise judged and taken in the same step (log
entry 8) as a frame that completes at that moment; one whose selection has ended is so taken and then deselected
(log entry 9), with the port's present selection left as it is. -/
def Obligations.JudgementAnswers : Prop :=
  (∀ (s : State) (code : Byte) (f : Frame), (s.port f.port).sel = .receiving → s.resetLow = false → LinesAgree s →
    ((s.port f.port).request ≠ none ∨ (s.port f.port).deferred ≠ []) → f.args.length ≤ 72 →
    exec (rowOfCode code f) s = .next (s.modPort f.port fun u =>
      { u with
        sel := .answering, answer := none
        deferred := u.deferred ++ [{ code := code, frame := f, cut := false }] })) ∧
  (∀ (s : State) (code : Byte) (f : Frame), Completes f s → f.args.length ≤ 72 → LinesAgree s →
    (clearing s = true → ∃ t, exec (rowOfCode code f) s = .next t ∧ OnlyPort f.port s t ∧ t.sessions = s.sessions ∧
      t.port f.port = { s.port f.port with
        sel := .answering, answer := some { reply := mkReply .starting f.tag 0 [], kept := false } }) ∧
    (clearing s = false → (s.session f.port).checking = true → checkMatches code f = false →
      ∃ t, exec (rowOfCode code f) s = .next t ∧ OnlyPort f.port s t ∧ t.sessions = s.sessions ∧
        t.port f.port = { s.port f.port with
          sel := .answering, errors := { (s.port f.port).errors with checkFailed := true }
          answer := some { reply := mkReply .checkFailed f.tag (attnByte t f.port) [], kept := false } }) ∧
    ∀ c, code = commandCode c → clearing s = false →
      ((s.session f.port).checking = false ∨ checkMatches code f = true) →
      (isSupervision c = true → f.port ≠ .p0 → Answers c f s .notSupervisor []) ∧
      ((isSupervision c = false ∨ f.port = .p0) → lengthOk c f.args = false → c ≠ .replay →
        Answers c f s .badLength [])) ∧
  ∀ (s : State) (p : Port) (r : Request) (ds : List Deferred) (d : Deferred) (m : State),
    s.arbiter.serving = some (.port p) → (s.port p).request = some r → r.cut = true →
    (s.port p).deferred = ds ++ [d] → (∀ o ∈ ds, o.cut = true ∧ o.code ≠ commandCode .restart) →
    (∀ o ∈ ds ++ [d], o.frame.port = p ∧ o.frame.args.length ≤ 72) →
    clearing s = false → s.resetLow = false → (s.restartPending = false ∨ p ≠ .p0) →
    let row : Instr := match r.access with | .read => .read p | .write => .write p
    exec row (s.modPort p fun u => { u with deferred := ds }) = .next m →
    (m.port p).lastReply ≠ none ∧
    ((m.port p).request ≠ none →
      exec row s = .next (m.modPort p fun u => { u with deferred := u.deferred ++ [d] })) ∧
    ((m.port p).request = none → (s.port p).sel = .answering → (s.port p).answer = none → d.cut = false →
      exec row s = exec (rowOfCode d.code d.frame) (m.modPort p fun u => { u with sel := .receiving })) ∧
    ((m.port p).request = none → d.cut = true → d.code ≠ commandCode .restart →
      ∃ n n', exec (rowOfCode d.code d.frame) (m.modPort p fun u => { u with sel := .receiving }) = .next n ∧
        exec (.deselectionAnswering p) n = .next n' ∧
        exec row s = .next (n'.modPort p fun u =>
          { u with sel := (s.port p).sel, seenHigh := (s.port p).seenHigh, answer := (s.port p).answer }))

/-! ### Sessions and transport -/

/-- Section 5.3, Table 30: the answer of the session context to a command that it does not admit; nothing changes. -/
def Obligations.AdmissionAnswers : Prop :=
  ∀ (s : State) (c : Command) (f : Frame), Passes c f s → lengthOk c f.args = true → LinesAgree s →
    c ≠ .status → c ≠ .replay → c ≠ .ackErrors → c ≠ .read → c ≠ .write →
    ((s.session f.port).state = .closing → Answers c f s .closing []) ∧
    (c = .open_ → (s.session f.port).state = .attached → Answers c f s .alreadyAttached []) ∧
    (c ≠ .open_ → (s.session f.port).state = .detached →
      Answers c f s (if (s.session f.port).evicted then .evicted else .notAttached) [])

/-- Section 5.5: an OPEN in DETACHED with a checking value or a mask that is not defined is refused BAD_VALUE with
nothing changed; with both defined it is taken: it attaches the session with its settings, clears the evicted indication,
and its reply carries the part's limits and the indication as it was. -/
def Obligations.OpenTaken : Prop :=
  (∀ (s : State) (f : Frame) (x y z : Byte), Passes .open_ f s → LinesAgree s →
    (s.session f.port).state = .detached → f.args = [x, y, z] → (2 ≤ x.toNat ∨ 32 ≤ y.toNat) →
    Answers .open_ f s .badValue []) ∧
  ∀ (s : State) (f : Frame) (checking : Bool) (mask : NoticeSet) (threshold : Byte),
    Passes .open_ f s → LinesAgree s → (s.session f.port).state = .detached →
    f.args = [boolByte checking, noticeByte mask, threshold] →
    ∃ t, exec (.openSession f) s = .next t ∧ OnlyPort f.port s t ∧
      t.session f.port = { s.session f.port with
        state := .attached, checking := checking, mask := mask, warnThreshold := threshold.toNat
        evicted := false } ∧
      Replied f.port f.tag .ok
        ([BitVec.ofNat 8 (portNumber f.port), boolByte (f.port == .p0), BitVec.ofNat 8 (s.params.quota.get f.port),
          BitVec.ofNat 8 s.params.tickLength] ++ num2 s.params.maxTerm ++ num2 s.params.defaultTerm ++
          num2 s.params.maxWait ++ [boolByte (s.session f.port).evicted]) (s.port f.port) t

/-- Section 5.6: an admitted CLOSE is always taken: it tears the port's session down, and its reply carries the state
that the teardown left. -/
def Obligations.CloseTaken : Prop :=
  ∀ (s : State) (f : Frame), Admitted .close f s → f.args = [] → LinesAgree s →
    ∃ t, exec (.close f) s = .next t ∧ TornDown f.port s t ∧ (t.session f.port).evicted = (s.session f.port).evicted ∧
      Replied f.port f.tag .ok [if (s.job f.port).isSome then 0x02 else 0x00]
        { s.port f.port with notices := .none } t ∧
      ∀ q, q ≠ f.port → ScannedPort (s.port q) (t.port q)

/-- R104: STATUS reports the items of Table 31 in every session state, and changes nothing but the last reply. -/
def Obligations.StatusReported : Prop :=
  ∀ (s : State) (f : Frame), Passes .status f s → f.args = [] → LinesAgree s →
    Answers .status f s .ok
      [sessionStateByte (s.session f.port).state, boolByte (s.session f.port).evicted,
       boolByte (s.session f.port).checking, noticeByte (noticeFlags s f.port),
       noticeByte (s.session f.port).mask, BitVec.ofNat 8 (s.session f.port).warnThreshold,
       BitVec.ofNat 8 (s.session f.port).held.length, BitVec.ofNat 8 (s.session f.port).reserved.length,
       errorByte (s.port f.port).errors, BitVec.ofNat 8 (s.session f.port).usage,
       BitVec.ofNat 8 (s.params.quota.get f.port),
       BitVec.ofNat 8 (s.waitList.filter fun e => e.port == f.port).length, boolByte (s.job f.port).isSome]

/-- R120: REPLAY sends the kept last reply as it was formed, or answers NOTHING with its own tag; neither is kept, and
nothing else changes. A REPLAY frame answered by its judgement is not kept either. -/
def Obligations.ReplaySendsCopy : Prop :=
  ∀ (s : State) (f : Frame),
    (Passes .replay f s → f.args = [] → LinesAgree s →
      ∃ t, exec (.replay f) s = .next t ∧ OnlyPort f.port s t ∧ t.sessions = s.sessions ∧
        t.port f.port = { s.port f.port with
          sel := .answering
          answer := some
            { reply := match (s.port f.port).lastReply with
                | some r => r
                | none => mkReply .nothing f.tag (attnByte t f.port) []
              kept := false } }) ∧
    (Completes f s → f.args.length ≤ 72 →
      ∃ t a, exec (.replay f) s = .next t ∧ (t.port f.port).lastReply = (s.port f.port).lastReply ∧
        (t.port f.port).answer = some a ∧ a.kept = false)

/-- Section 6.8: ACK_ERRORS puts the sticky errors that are set into its reply and clears them; the reply is kept and
shows no sticky error. -/
def Obligations.AckErrorsClears : Prop :=
  ∀ (s : State) (f : Frame), Passes .ackErrors f s → f.args = [] → LinesAgree s →
    ∃ t, exec (.ackErrors f) s = .next t ∧ OnlyPort f.port s t ∧ t.sessions = s.sessions ∧
      (t.port f.port).errors = .none ∧
      Replied f.port f.tag .ok [errorByte (s.port f.port).errors] { s.port f.port with errors := .none } t

/-! ### The lock manager -/

/-- Section 2.2, Table 15: the first check of a CLAIM that fails refuses it, steps 2 to 8 in order, and a blocked CLAIM
with wait limit 0 is refused CONFLICT naming the holder blocker in the lowest slot, or else the oldest waiter blocker;
nothing changes. -/
def Obligations.ClaimRefusedInOrder : Prop :=
  ∀ (s : State) (f : Frame) (a : ClaimArgs), Admitted .claim f s → f.args = claimBytes a → LinesAgree s →
    let r : Range := ⟨a.first.toNat, a.count.toNat⟩
    let p := f.port
    let badMode := 1 < a.mode.toNat
    let badTerm := s.params.maxTerm < a.term.toNat
    let badWait := s.params.maxWait < a.wait.toNat
    let overlap := (∃ i c, Held s i c ∧ c.holder = p ∧ Overlap r c.range) ∨
      ∃ e ∈ s.waitList, e.port = p ∧ e.isUpgrade = false ∧ Overlap r e.range
    let overQuota := s.params.quota.get p ≤ (s.session p).usage
    let full := ∀ i, (slotAt s i).content ≠ .free
    (badMode → Answers .claim f s .badMode []) ∧
    (¬ badMode → ¬ WellFormed r → Answers .claim f s .badRange []) ∧
    (¬ badMode → WellFormed r → badTerm → Answers .claim f s .badTerm []) ∧
    (¬ badMode → WellFormed r → ¬ badTerm → badWait → Answers .claim f s .badWait []) ∧
    (¬ badMode → WellFormed r → ¬ badTerm → ¬ badWait → overlap → Answers .claim f s .overlapSelf []) ∧
    (¬ badMode → WellFormed r → ¬ badTerm → ¬ badWait → ¬ overlap → overQuota →
      Answers .claim f s .quotaExceeded []) ∧
    (¬ badMode → WellFormed r → ¬ badTerm → ¬ badWait → ¬ overlap → ¬ overQuota → full →
      Answers .claim f s .tableFull []) ∧
    (¬ badMode → WellFormed r → ¬ badTerm → a.wait = 0 → ¬ overlap → ¬ overQuota → ¬ full →
      ∀ m, a.mode = modeByte m →
        (∀ i c, Held s i c → Conflict p m r c.holder c.mode c.range →
          (∀ j d, j < i → Held s j d → ¬ Conflict p m r d.holder d.mode d.range) →
          Answers .claim f s .conflict
            ([0x01, BitVec.ofNat 8 (portNumber c.holder)] ++ bytes2 (handleOf (slotAt s i).gen i))) ∧
        (¬ HolderBlocks s p m r → ∀ older e younger, s.waitList = older ++ e :: younger →
          Conflict p m r e.port e.mode e.range →
          (∀ o ∈ older, ¬ Conflict p m r o.port o.mode o.range) →
          Answers .claim f s .conflict [0x02, BitVec.ofNat 8 (portNumber e.port), 0, 0]))

/-- R28: a CLAIM that passes its checks and has no blocker is granted at once in the lowest-numbered FREE slot; its
reply carries the handle and the resolved term; no scan runs and no notice flag is raised. -/
def Obligations.ClaimGrantedAtOnce : Prop :=
  ∀ (s : State) (f : Frame) (a : ClaimArgs) (m : Mode) (i : SlotId),
    Admitted .claim f s → f.args = claimBytes a → LinesAgree s → a.mode = modeByte m →
    WellFormed ⟨a.first.toNat, a.count.toNat⟩ → a.term.toNat ≤ s.params.maxTerm → a.wait.toNat ≤ s.params.maxWait →
    (∀ j c, Held s j c → c.holder = f.port → ¬ Overlap ⟨a.first.toNat, a.count.toNat⟩ c.range) →
    (∀ e ∈ s.waitList, e.port = f.port → e.isUpgrade = false → ¬ Overlap ⟨a.first.toNat, a.count.toNat⟩ e.range) →
    (s.session f.port).usage < s.params.quota.get f.port →
    (slotAt s i).content = .free → (∀ j, j < i → (slotAt s j).content ≠ .free) →
    ¬ HolderBlocks s f.port m ⟨a.first.toNat, a.count.toNat⟩ →
    ¬ WaiterBlocks s f.port m ⟨a.first.toNat, a.count.toNat⟩ →
    let term := if a.term = 0 then s.params.defaultTerm else a.term.toNat
    ∃ t, exec (.claim f) s = .next t ∧
      slotAt t i =
        { gen := (slotAt s i).gen
          content := .held ⟨f.port, m, ⟨a.first.toNat, a.count.toNat⟩, a.label⟩ ⟨term, 0, false⟩ term } ∧
      OtherSlotsKept i s t ∧ t.waitList = s.waitList ∧
      t.session f.port = { s.session f.port with usage := (s.session f.port).usage + 1 } ∧
      OthersKept f.port s t ∧ board t = board s ∧
      Replied f.port f.tag .ok (bytes2 (handleOf (slotAt s i).gen i) ++ num2 term) (s.port f.port) t

/-- Sections 2.2.4 and 3.3: a blocked CLAIM with a wait limit that passes the queueing checks is queued: the
lowest-numbered FREE slot becomes RESERVED, the entry joins the tail, one outcome place is reserved, and CONTENDED is
set at each port whose HELD record conflicts with it. -/
def Obligations.ClaimQueued : Prop :=
  ∀ (s : State) (f : Frame) (a : ClaimArgs) (m : Mode) (i : SlotId),
    Admitted .claim f s → f.args = claimBytes a → LinesAgree s → a.mode = modeByte m →
    WellFormed ⟨a.first.toNat, a.count.toNat⟩ → a.term.toNat ≤ s.params.maxTerm → a.wait.toNat ≤ s.params.maxWait →
    (∀ j c, Held s j c → c.holder = f.port → ¬ Overlap ⟨a.first.toNat, a.count.toNat⟩ c.range) →
    (∀ e ∈ s.waitList, e.port = f.port → e.isUpgrade = false → ¬ Overlap ⟨a.first.toNat, a.count.toNat⟩ e.range) →
    (s.session f.port).usage < s.params.quota.get f.port →
    (slotAt s i).content = .free → (∀ j, j < i → (slotAt s j).content ≠ .free) →
    (HolderBlocks s f.port m ⟨a.first.toNat, a.count.toNat⟩ ∨
      WaiterBlocks s f.port m ⟨a.first.toNat, a.count.toNat⟩) → a.wait ≠ 0 →
    portWaits s f.port < 4 → s.waitList.length < 12 → placesUsed s f.port < 8 →
    (∀ q, InBlockerSet s f.port m ⟨a.first.toNat, a.count.toNat⟩ q → ¬ LeadsTo s q f.port) →
    let h := handleOf (slotAt s i).gen i
    ∃ t, exec (.claim f) s = .next t ∧
      slotAt t i =
        { gen := (slotAt s i).gen, content := .reserved ⟨f.port, m, ⟨a.first.toNat, a.count.toNat⟩, a.label⟩ } ∧
      OtherSlotsKept i s t ∧
      t.waitList = s.waitList ++
        [{ ticket := h, port := f.port
           kind := .claim (if a.term = 0 then s.params.defaultTerm else a.term.toNat) a.label
           mode := m, range := ⟨a.first.toNat, a.count.toNat⟩, waitRemaining := a.wait.toNat, tag := f.tag }] ∧
      t.session f.port = { s.session f.port with
        usage := (s.session f.port).usage + 1, reserved := (s.session f.port).reserved ++ [.entry h] } ∧
      (∀ q, q ≠ f.port → t.session q = s.session q ∧ ScannedPort (s.port q) (t.port q) ∧
        ((t.port q).notices.contended = true ↔ (s.port q).notices.contended = true ∨
          ∃ j c, Held s j c ∧ c.holder = q ∧
            Conflict f.port m ⟨a.first.toNat, a.count.toNat⟩ c.holder c.mode c.range)) ∧
      board t = board s ∧ Replied f.port f.tag .pending (bytes2 h) (s.port f.port) t

/-- Section 3.3, Table 19: a blocked CLAIM with a wait limit that reaches the queueing is refused by the first of the
four checks that fails, DEADLOCK naming the lowest-numbered port of its blocker set that leads to it; nothing
changes. -/
def Obligations.QueueingRefusals : Prop :=
  ∀ (s : State) (f : Frame) (a : ClaimArgs) (m : Mode),
    Admitted .claim f s → f.args = claimBytes a → LinesAgree s → a.mode = modeByte m →
    WellFormed ⟨a.first.toNat, a.count.toNat⟩ → a.term.toNat ≤ s.params.maxTerm → a.wait.toNat ≤ s.params.maxWait →
    (∀ j c, Held s j c → c.holder = f.port → ¬ Overlap ⟨a.first.toNat, a.count.toNat⟩ c.range) →
    (∀ e ∈ s.waitList, e.port = f.port → e.isUpgrade = false → ¬ Overlap ⟨a.first.toNat, a.count.toNat⟩ e.range) →
    (s.session f.port).usage < s.params.quota.get f.port → (∃ i, (slotAt s i).content = .free) →
    (HolderBlocks s f.port m ⟨a.first.toNat, a.count.toNat⟩ ∨
      WaiterBlocks s f.port m ⟨a.first.toNat, a.count.toNat⟩) → a.wait ≠ 0 →
    (4 ≤ portWaits s f.port → Answers .claim f s .portWaitsFull []) ∧
    (portWaits s f.port < 4 → 12 ≤ s.waitList.length → Answers .claim f s .waitlistFull []) ∧
    (portWaits s f.port < 4 → s.waitList.length < 12 → 8 ≤ placesUsed s f.port →
      Answers .claim f s .outcomesFull []) ∧
    (portWaits s f.port < 4 → s.waitList.length < 12 → placesUsed s f.port < 8 →
      ∀ q, InBlockerSet s f.port m ⟨a.first.toNat, a.count.toNat⟩ q → LeadsTo s q f.port →
        (∀ o, portNumber o < portNumber q →
          InBlockerSet s f.port m ⟨a.first.toNat, a.count.toNat⟩ o → ¬ LeadsTo s o f.port) →
        Answers .claim f s .deadlock [BitVec.ofNat 8 (portNumber q)])

/-- Sections 2.1 (Table 14), 2.3, 2.6, 2.7 and 2.8: RENEW with a term above MAX_TERM is refused BAD_TERM, UPGRADE with a
wait limit above MAX_WAIT BAD_WAIT, and TRIM with a range that is not well-formed BAD_RANGE. Otherwise RENEW, RELEASE,
DOWNGRADE, UPGRADE and TRIM of a handle that does not resolve are answered STALE_HANDLE, of a RESERVED slot WAITING, and,
but for RELEASE, of a LAPSED one LAPSED; RELEASE, DOWNGRADE and TRIM of an engaged record are refused ENGAGED. Nothing
changes. -/
def Obligations.HandleAnswers : Prop :=
  (∀ (s : State) (f : Frame) (h x y : Half), LinesAgree s →
    (Admitted .renew f s → f.args = bytes2 h ++ bytes2 x → s.params.maxTerm < x.toNat →
      Answers .renew f s .badTerm []) ∧
    (Admitted .upgrade f s → f.args = bytes2 h ++ bytes2 x → s.params.maxWait < x.toNat →
      Answers .upgrade f s .badWait []) ∧
    (Admitted .trim f s → f.args = bytes2 h ++ bytes2 x ++ bytes2 y → ¬ WellFormed ⟨x.toNat, y.toNat⟩ →
      Answers .trim f s .badRange [])) ∧
  ∀ (s : State) (c : Command) (f : Frame) (h x y : Half), Admitted c f s → LinesAgree s →
    ((c = .renew ∧ f.args = bytes2 h ++ bytes2 x ∧ x.toNat ≤ s.params.maxTerm) ∨
      ((c = .release ∨ c = .downgrade) ∧ f.args = bytes2 h) ∨
      (c = .upgrade ∧ f.args = bytes2 h ++ bytes2 x ∧ x.toNat ≤ s.params.maxWait) ∨
      (c = .trim ∧ f.args = bytes2 h ++ bytes2 x ++ bytes2 y ∧ WellFormed ⟨x.toNat, y.toNat⟩)) →
    (resolve s f.port h = none → Answers c f s .staleHandle []) ∧
    (∀ i d, resolve s f.port h = some i → (slotAt s i).content = .reserved d → Answers c f s .waiting []) ∧
    (∀ i d l e, resolve s f.port h = some i → (slotAt s i).content = .lapsed d l e → c ≠ .release →
      Answers c f s .lapsed []) ∧
    (∀ i d, resolve s f.port h = some i → Held s i d → Engaged s i →
      (c = .release ∨ c = .downgrade ∨ c = .trim ∧ Inside ⟨x.toNat, y.toNat⟩ d.range) →
      Answers c f s .engaged [])

/-- R32, R33: a RENEW is contested when RENEW_LIMIT is above 0, the record's renewals are at least RENEW_LIMIT and an
entry of another port conflicts with it, and is then refused CONTESTED with nothing changed. Otherwise it starts the
record's lease over and counts one renewal; mode, range, label and the engaged condition stay, no scan runs and no
notice flag changes; the reply carries the resolved term. -/
def Obligations.RenewTaken : Prop :=
  ∀ (s : State) (f : Frame) (h x : Half) (i : SlotId) (c : Claimed) (l : Lease) (n : Nat),
    Admitted .renew f s → f.args = bytes2 h ++ bytes2 x → LinesAgree s → x.toNat ≤ s.params.maxTerm →
    resolve s f.port h = some i → (slotAt s i).content = .held c l n →
    let contested := 0 < s.params.renewLimit ∧ s.params.renewLimit ≤ l.renewals ∧
      ∃ e ∈ s.waitList, Conflict c.holder c.mode c.range e.port e.mode e.range
    let term := if x = 0 then min l.term s.params.maxTerm else x.toNat
    (contested → Answers .renew f s .contested []) ∧
    (¬ contested → ∃ t, exec (.renew f) s = .next t ∧
      slotAt t i =
        { gen := (slotAt s i).gen, content := .held c ⟨term, min 255 (l.renewals + 1), false⟩ term } ∧
      (Engaged t i ↔ Engaged s i) ∧ OtherSlotsKept i s t ∧ t.waitList = s.waitList ∧ t.sessions = s.sessions ∧
      OthersKept f.port s t ∧ board t = board s ∧ Replied f.port f.tag .ok (num2 term) (s.port f.port) t)

/-- Section 2.4: a RELEASE of a HELD record that is not engaged frees its slot with the generation advanced, the usage of
the port falls by 1, and a grant scan runs as the last part. -/
def Obligations.ReleaseOfHeld : Prop :=
  ∀ (s : State) (f : Frame) (h : Half) (i : SlotId) (c : Claimed),
    Admitted .release f s → f.args = bytes2 h → LinesAgree s →
    resolve s f.port h = some i → Held s i c → ¬ Engaged s i →
    ∃ t, exec (.release f) s = .next t ∧
      slotAt t i = { gen := nextGen (slotAt s i).gen, content := .free } ∧
      (∀ j, j ≠ i → ScannedSlot s t j) ∧ t.waitList.Sublist s.waitList ∧ EachEntryBlocked t ∧
      ScannedSession { s.session f.port with usage := (s.session f.port).usage - 1 } (t.session f.port) ∧
      (∀ q, q ≠ f.port → ScannedSession (s.session q) (t.session q) ∧ ScannedPort (s.port q) (t.port q)) ∧
      board t = board s ∧
      (InStep s → ScannedFrom
        ((setSlot s i { gen := nextGen (slotAt s i).gen, content := .free }).modSession f.port fun x =>
          { x with usage := x.usage - 1 }) t) ∧
      ∃ u, ScannedPort (s.port f.port) u ∧ Replied f.port f.tag .ok [0x02, 0x00] u t

/-- R35: a RELEASE of a LAPSED record frees it, runs no scan, and its reply carries the prior state LAPSED and the end
cause; the same handle is stale from then on. -/
def Obligations.ReleaseOfLapsed : Prop :=
  ∀ (s : State) (f : Frame) (h : Half) (i : SlotId) (c : Claimed) (l : Lease) (e : EndCause),
    Admitted .release f s → f.args = bytes2 h → LinesAgree s →
    resolve s f.port h = some i → (slotAt s i).content = .lapsed c l e →
    ∃ t, exec (.release f) s = .next t ∧
      slotAt t i = { gen := nextGen (slotAt s i).gen, content := .free } ∧ OtherSlotsKept i s t ∧
      t.waitList = s.waitList ∧ resolve t f.port h = none ∧
      t.session f.port = { s.session f.port with usage := (s.session f.port).usage - 1 } ∧
      OthersKept f.port s t ∧ board t = board s ∧
      Replied f.port f.tag .ok [0x03, if e = .expired then 0x01 else 0x02] (s.port f.port) t

/-- Section 2.5: a DOWNGRADE of an EXCLUSIVE record that is not engaged makes it SHARED with everything else of it kept,
and a grant scan runs as the last part; a SHARED one is refused ALREADY_SHARED. -/
def Obligations.DowngradeTaken : Prop :=
  ∀ (s : State) (f : Frame) (h : Half) (i : SlotId) (c : Claimed) (l : Lease) (n : Nat),
    Admitted .downgrade f s → f.args = bytes2 h → LinesAgree s →
    resolve s f.port h = some i → (slotAt s i).content = .held c l n → ¬ Engaged s i →
    (c.mode = .shared → Answers .downgrade f s .alreadyShared []) ∧
    (c.mode = .exclusive → ∃ t u, exec (.downgrade f) s = .next t ∧
      Scanned (some f.port) (setContent s i (.held { c with mode := .shared } l n)) t ∧ EachEntryBlocked t ∧
      (InStep s → ScannedFrom (setContent s i (.held { c with mode := .shared } l n)) t) ∧
      ((∀ e ∈ s.waitList, handleSlot e.ticket ≠ some i) →
        slotAt t i = { gen := (slotAt s i).gen, content := .held { c with mode := .shared } l n }) ∧
      ScannedPort (s.port f.port) u ∧ Replied f.port f.tag .ok [] u t)

/-- R38: an UPGRADE with no blocker is granted at once: the record becomes EXCLUSIVE with its lease as it stands, the
reply carries the handle, no scan runs and no notice flag is raised. -/
def Obligations.UpgradeGrantedAtOnce : Prop :=
  ∀ (s : State) (f : Frame) (h x : Half) (i : SlotId) (c : Claimed) (l : Lease) (n : Nat),
    Admitted .upgrade f s → f.args = bytes2 h ++ bytes2 x → LinesAgree s → x.toNat ≤ s.params.maxWait →
    resolve s f.port h = some i → (slotAt s i).content = .held c l n → c.mode = .shared →
    (∀ e ∈ s.waitList, e.kind = .upgrade → e.ticket ≠ h) →
    ¬ HolderBlocks s f.port .exclusive c.range → ¬ WaiterBlocks s f.port .exclusive c.range →
    ∃ t, exec (.upgrade f) s = .next t ∧
      slotAt t i = { gen := (slotAt s i).gen, content := .held { c with mode := .exclusive } l n } ∧
      OtherSlotsKept i s t ∧ t.waitList = s.waitList ∧ t.sessions = s.sessions ∧ OthersKept f.port s t ∧
      board t = board s ∧ (∀ page, Covers c.range page → CoveredFor t f.port .write page) ∧
      Replied f.port f.tag .ok (bytes2 h) (s.port f.port) t

/-- Sections 2.6 and 3.3: an UPGRADE of an EXCLUSIVE record is refused ALREADY_EXCLUSIVE, of one whose upgrade waits
ALREADY_WAITING. A blocked one with wait limit 0 is refused CONFLICT naming the holder blocker in the lowest slot, or
else the oldest waiter blocker, and one with a wait limit by the first queueing check that fails; nothing changes. One
that passes them is queued: its entry joins the tail with mode EXCLUSIVE and the record's range, no slot is allocated,
one outcome place is reserved, CONTENDED is set at each port whose HELD record overlaps, and the record is engaged. -/
def Obligations.UpgradeBlocked : Prop :=
  ∀ (s : State) (f : Frame) (h x : Half) (i : SlotId) (c : Claimed),
    Admitted .upgrade f s → f.args = bytes2 h ++ bytes2 x → LinesAgree s → x.toNat ≤ s.params.maxWait →
    resolve s f.port h = some i → Held s i c →
    let p := f.port
    let upgradeWaits := ∃ e ∈ s.waitList, e.kind = .upgrade ∧ e.ticket = h
    let room := portWaits s p < 4 ∧ s.waitList.length < 12 ∧ placesUsed s p < 8
    (c.mode = .exclusive → Answers .upgrade f s .alreadyExclusive []) ∧
    (c.mode = .shared → upgradeWaits → Answers .upgrade f s .alreadyWaiting []) ∧
    (c.mode = .shared → ¬ upgradeWaits → x = 0 →
      (∀ j d, Held s j d → Conflict p .exclusive c.range d.holder d.mode d.range →
        (∀ k d', k < j → Held s k d' → ¬ Conflict p .exclusive c.range d'.holder d'.mode d'.range) →
        Answers .upgrade f s .conflict
          ([0x01, BitVec.ofNat 8 (portNumber d.holder)] ++ bytes2 (handleOf (slotAt s j).gen j))) ∧
      (¬ HolderBlocks s p .exclusive c.range → ∀ older e younger, s.waitList = older ++ e :: younger →
        Conflict p .exclusive c.range e.port e.mode e.range →
        (∀ o ∈ older, ¬ Conflict p .exclusive c.range o.port o.mode o.range) →
        Answers .upgrade f s .conflict [0x02, BitVec.ofNat 8 (portNumber e.port), 0, 0])) ∧
    (c.mode = .shared → ¬ upgradeWaits → x ≠ 0 →
      (HolderBlocks s p .exclusive c.range ∨ WaiterBlocks s p .exclusive c.range) →
      (4 ≤ portWaits s p → Answers .upgrade f s .portWaitsFull []) ∧
      (portWaits s p < 4 → 12 ≤ s.waitList.length → Answers .upgrade f s .waitlistFull []) ∧
      (portWaits s p < 4 → s.waitList.length < 12 → 8 ≤ placesUsed s p → Answers .upgrade f s .outcomesFull []) ∧
      (room → ∀ q, InBlockerSet s p .exclusive c.range q → LeadsTo s q p →
        (∀ o, portNumber o < portNumber q → InBlockerSet s p .exclusive c.range o → ¬ LeadsTo s o p) →
        Answers .upgrade f s .deadlock [BitVec.ofNat 8 (portNumber q)]) ∧
      (room → (∀ q, InBlockerSet s p .exclusive c.range q → ¬ LeadsTo s q p) →
        ∃ t, exec (.upgrade f) s = .next t ∧ t.table = s.table ∧
          t.waitList = s.waitList ++
            [{ ticket := h, port := p, kind := .upgrade, mode := .exclusive, range := c.range
               waitRemaining := x.toNat, tag := f.tag }] ∧
          t.session p = { s.session p with reserved := (s.session p).reserved ++ [.entry h] } ∧
          (∀ q, q ≠ p → t.session q = s.session q ∧ ScannedPort (s.port q) (t.port q) ∧
            ((t.port q).notices.contended = true ↔ (s.port q).notices.contended = true ∨
              ∃ j d, Held s j d ∧ d.holder = q ∧ Overlap c.range d.range)) ∧
          Engaged t i ∧ board t = board s ∧ Replied p f.tag .pending (bytes2 h) (s.port p) t))

/-- R42: a TRIM that passes its checks sets the record's range to the new one, with everything else of it kept, and a
grant scan runs as the last part. -/
def Obligations.TrimTaken : Prop :=
  ∀ (s : State) (f : Frame) (h x y : Half) (i : SlotId) (c : Claimed) (l : Lease) (n : Nat),
    Admitted .trim f s → f.args = bytes2 h ++ bytes2 x ++ bytes2 y → LinesAgree s →
    WellFormed ⟨x.toNat, y.toNat⟩ → resolve s f.port h = some i → (slotAt s i).content = .held c l n →
    (¬ Inside ⟨x.toNat, y.toNat⟩ c.range → Answers .trim f s .badRange []) ∧
    (Inside ⟨x.toNat, y.toNat⟩ c.range → ¬ Engaged s i → ∃ t u, exec (.trim f) s = .next t ∧
      Scanned (some f.port) (setContent s i (.held { c with range := ⟨x.toNat, y.toNat⟩ } l n)) t ∧
      EachEntryBlocked t ∧
      (InStep s → ScannedFrom (setContent s i (.held { c with range := ⟨x.toNat, y.toNat⟩ } l n)) t) ∧
      ((∀ e ∈ s.waitList, handleSlot e.ticket ≠ some i) →
        slotAt t i =
          { gen := (slotAt s i).gen, content := .held { c with range := ⟨x.toNat, y.toNat⟩ } l n }) ∧
      ScannedPort (s.port f.port) u ∧ Replied f.port f.tag .ok [] u t)

/-- Section 3.6: a CANCEL of a ticket that an entry of the port carries ends that entry CANCELLED with the tag of the
command that queued it, frees a CLAIM's RESERVED slot, leaves an UPGRADE's record, and runs a grant scan; of any other
ticket it is refused NOT_WAITING. -/
def Obligations.CancelTaken : Prop :=
  ∀ (s : State) (f : Frame) (h : Half), Admitted .cancel f s → f.args = bytes2 h → LinesAgree s → InStep s →
    ((∀ e ∈ s.waitList, e.port = f.port → e.ticket ≠ h) → Answers .cancel f s .notWaiting []) ∧
    (∀ e ∈ s.waitList, e.port = f.port → e.ticket = h →
      let ended : Session :=
        { s.session f.port with
          reserved := (s.session f.port).reserved.erase (.entry h)
          held := (s.session f.port).held ++ [{ tag := e.tag, body := .ended e.waitKind .cancelled h }]
          usage := if e.isUpgrade then (s.session f.port).usage else (s.session f.port).usage - 1 }
      let before : State := { s with waitList := s.waitList.erase e }.modSession f.port fun _ => ended
      ∃ t u, exec (.cancel f) s = .next t ∧ t.waitList.Sublist (s.waitList.erase e) ∧ EachEntryBlocked t ∧
        (∀ i, h = slotHandle s i →
          (e.isUpgrade = true → slotAt t i = slotAt s i ∧ ScannedFrom before t) ∧
          (e.isUpgrade = false →
            slotAt t i = { gen := nextGen (slotAt s i).gen, content := .free } ∧
            ScannedFrom (setSlot before i { gen := nextGen (slotAt s i).gen, content := .free }) t) ∧
          ∀ j, j ≠ i → ScannedSlot s t j) ∧
        ScannedSession ended (t.session f.port) ∧
        (∀ q, q ≠ f.port → ScannedSession (s.session q) (t.session q) ∧ ScannedPort (s.port q) (t.port q)) ∧
        board t = board s ∧ ScannedPort (s.port f.port) u ∧
        Replied f.port f.tag .ok ([if e.isUpgrade then 0x02 else 0x01] ++ bytes2 h) u t)

/-- Section 1.8 and section 11.5: PROBE and LIST answer OK with the first 16 records they find in slot order, say what
they left out, and change nothing; PROBE also counts the wait entries that overlap. -/
def Obligations.ProbeAndList : Prop :=
  ∀ (s : State) (f : Frame), LinesAgree s →
    (∀ x y : Half, Admitted .probe f s → f.args = bytes2 x ++ bytes2 y → ¬ WellFormed ⟨x.toNat, y.toNat⟩ →
      Answers .probe f s .badRange []) ∧
    (∀ x y : Half, Admitted .probe f s → f.args = bytes2 x ++ bytes2 y → WellFormed ⟨x.toNat, y.toNat⟩ →
      ∃ found : List (SlotId × Claimed), (found.map Prod.fst).Pairwise (· < ·) ∧
        (∀ i c, (i, c) ∈ found ↔ Held s i c ∧ Overlap ⟨x.toNat, y.toNat⟩ c.range) ∧
        Answers .probe f s .ok
          ([BitVec.ofNat 8 (min 16 found.length), BitVec.ofNat 8 (found.length - 16),
            BitVec.ofNat 8 (s.waitList.filter fun e => overlaps ⟨x.toNat, y.toNat⟩ e.range).length] ++
            (found.take 16).flatMap fun x => bytes2 (handleOf (slotAt s x.1).gen x.1) ++
              [BitVec.ofNat 8 (portNumber x.2.holder), modeByte x.2.mode] ++ num2 x.2.range.first ++
              num2 x.2.range.count ++ bytes2 x.2.label)) ∧
    (∀ start : Byte, Admitted .list f s → f.args = [start] →
      (127 < start.toNat → Answers .list f s .badValue []) ∧
      (start.toNat ≤ 127 → ∃ found : List SlotId, found.Pairwise (· < ·) ∧
        (∀ i, i ∈ found ↔ start.toNat ≤ i.val ∧ ∃ c, (slotAt s i).content.claimed = some c ∧ c.holder = f.port) ∧
        Answers .list f s .ok
          ([(if 16 < found.length then 0x80 else 0x00) ||| BitVec.ofNat 8 (min 16 found.length)] ++
            bitWord ((found.take 16).map fun i => (listEntry s i).2.1) ++
            bitWord ((found.take 16).map fun i => (listEntry s i).2.2) ++
            (found.take 16).flatMap fun i => (listEntry s i).1)))

/-! ### The shared array -/

/-- Section 8.5: requests of ports that arrive together at an array that is not busy, with none waiting, reach the
arbiter as the requests of their ports: the first in cyclic order after the last served is served at once and recorded
as last served, and the others wait; at a busy array all of them wait. -/
def Obligations.RequestsArrive : Prop :=
  ∀ (s : State) (arrivals : List Arrival), arrivals ≠ [] → (arrivals.map fun a => a.frame.port).Nodup → LinesAgree s →
    (∀ a ∈ arrivals, Passes (accessCommand a.access) a.frame s ∧
      lengthOk (accessCommand a.access) a.frame.args = true ∧ a.frame.args.length ≤ 72) →
    ∃ t, exec (.arbiterRequestArrives arrivals) s = .next t ∧
      (∀ a ∈ arrivals, t.port a.frame.port = { s.port a.frame.port with
        sel := .answering, answer := none
        request := some { access := a.access, tag := a.frame.tag, args := a.frame.args, cut := false } }) ∧
      (∀ q, q ∉ (arrivals.map fun a => a.frame.port) → t.port q = s.port q) ∧
      (s.arbiter.serving ≠ none → t.arbiter.serving = s.arbiter.serving ∧
        t.arbiter.lastServed = s.arbiter.lastServed ∧
        ∀ u, t.arbiter.waiting.has u = true ↔
          s.arbiter.waiting.has u = true ∨ ∃ a ∈ arrivals, u = .port a.frame.port) ∧
      (s.arbiter.serving = none → s.arbiter.waiting = .none →
        ∃ before first after, usersAfter s.arbiter.lastServed = before ++ .port first :: after ∧
          (∀ a ∈ arrivals, .port a.frame.port ∉ before) ∧ first ∈ (arrivals.map fun a => a.frame.port) ∧
          t.arbiter.serving = some (.port first) ∧ t.arbiter.lastServed = .port first ∧
          ∀ u, t.arbiter.waiting.has u = true ↔ ∃ a ∈ arrivals, u = .port a.frame.port ∧ a.frame.port ≠ first) ∧
      t.table = s.table ∧ t.waitList = s.waitList ∧ t.sessions = s.sessions ∧
      board { t with arbiter := s.arbiter } = board s

/-- Sections 8.2, 8.3 and 6.6: when the arbiter serves a port's READ of 1 to 64 bytes inside the array, at an ATTACHED
port whose touched pages are covered as ENFORCE requires, the reply carries those bytes, is kept, and is sent unless its
selection has ended, when REPLY_CUT is set instead; nothing else is changed; the arbiter then serves its next. -/
def Obligations.ReadServed : Prop :=
  ∀ (s : State) (p : Port) (tag length : Byte) (address : BitVec 24) (data : List Byte) (cut : Bool),
    s.arbiter.serving = some (.port p) →
    (s.port p).request = some ⟨.read, tag, accessBytes ⟨address, length, data⟩, cut⟩ → (s.port p).deferred = [] →
    LinesAgree s → clearing s = false → (s.session p).state = .attached → 1 ≤ length.toNat → length.toNat ≤ 64 →
    address.toNat + length.toNat ≤ 262144 →
    (s.params.enforce = .strict → ∀ page, address.toNat / 64 ≤ page →
      page ≤ (address.toNat + length.toNat - 1) / 64 → CoveredFor s p .read page) →
    ∃ t bytes, exec (.read p) s = .next t ∧ bytes.length = length.toNat ∧
      (∀ k, k < length.toNat → bytes.getD k 0 = readByte s.array (address.toNat + k)) ∧
      t.port p = (s.port p).served (mkReply .ok tag (attnByte s p) bytes) cut ∧
      ServesNext s.arbiter t.arbiter ∧ t.table = s.table ∧ t.waitList = s.waitList ∧ t.sessions = s.sessions ∧
      (∀ q, q ≠ p → t.port q = s.port q) ∧ board { t with arbiter := s.arbiter } = board s

/-- Sections 8.2, 8.3 and 6.6: when the arbiter serves a port's WRITE of 1 to 64 bytes inside the array, at an ATTACHED
port whose touched pages are covered as ENFORCE requires, its bytes are stored at the address and after it, every other
byte stays, and the reply is OK with no results; it is kept, and sent unless its selection has ended, when REPLY_CUT is
set instead; the arbiter then serves its next. -/
def Obligations.WriteServed : Prop :=
  ∀ (s : State) (p : Port) (tag : Byte) (x : AccessArgs) (cut : Bool),
    s.arbiter.serving = some (.port p) → (s.port p).request = some ⟨.write, tag, accessBytes x, cut⟩ →
    (s.port p).deferred = [] → LinesAgree s → clearing s = false → Memory.wf s.array = true →
    (s.session p).state = .attached → x.data.length = x.length.toNat → 1 ≤ x.data.length → x.data.length ≤ 64 →
    x.address.toNat + x.data.length ≤ 262144 →
    (s.params.enforce ≠ .off → ∀ page, x.address.toNat / 64 ≤ page →
      page ≤ (x.address.toNat + x.data.length - 1) / 64 → CoveredFor s p .write page) →
    ∃ t, exec (.write p) s = .next t ∧
      (∀ a, readByte t.array a =
        if x.address.toNat ≤ a ∧ a < x.address.toNat + x.data.length then x.data.getD (a - x.address.toNat) 0
        else readByte s.array a) ∧
      t.port p = (s.port p).served (mkReply .ok tag (attnByte s p) []) cut ∧
      ServesNext s.arbiter t.arbiter ∧ t.table = s.table ∧ t.waitList = s.waitList ∧ t.sessions = s.sessions ∧
      (∀ q, q ≠ p → t.port q = s.port q) ∧ board { t with arbiter := s.arbiter, array := s.array } = board s

/-- R143, with R145 for step 4: a READ or WRITE is refused by the first check of Table 40 that fails: by the session
context when it is not ATTACHED, BAD_RANGE for a length that is not 1 to 64 or an access that runs past the array, and
ACCESS_DENIED, naming the first touched page that is not covered as ENFORCE requires. A refused access changes no byte of
the array, no record, no flag and no count, and uses its arbiter turn. -/
def Obligations.AccessRefused : Prop :=
  ∀ (s : State) (p : Port) (tag : Byte) (a : Access) (x : AccessArgs) (cut : Bool),
    s.arbiter.serving = some (.port p) → (s.port p).request = some ⟨a, tag, accessBytes x, cut⟩ →
    (s.port p).deferred = [] → LinesAgree s → clearing s = false →
    let refusedWith (code : ResultCode) (results : List Byte) : Prop :=
      ∃ t, exec (match a with | .read => .read p | .write => .write p) s = .next t ∧
        t.port p = (s.port p).served (mkReply code tag (attnByte s p) results) cut ∧
        ServesNext s.arbiter t.arbiter ∧ t.table = s.table ∧ t.waitList = s.waitList ∧ t.sessions = s.sessions ∧
        (∀ q, q ≠ p → t.port q = s.port q) ∧ board { t with arbiter := s.arbiter } = board s
    let attached := (s.session p).state = .attached
    let inside := 1 ≤ x.length.toNat ∧ x.length.toNat ≤ 64 ∧ x.address.toNat + x.length.toNat ≤ 262144
    ((s.session p).state = .closing → refusedWith .closing []) ∧
    ((s.session p).state = .detached →
      refusedWith (if (s.session p).evicted then .evicted else .notAttached) []) ∧
    (attached → ¬ inside → refusedWith .badRange []) ∧
    (attached → inside → (s.params.enforce = .strict ∨ s.params.enforce = .writes ∧ a = .write) →
      ∀ page, x.address.toNat / 64 ≤ page → page ≤ (x.address.toNat + x.length.toNat - 1) / 64 →
        ¬ CoveredFor s p a page →
        (∀ lower, x.address.toNat / 64 ≤ lower → lower < page → CoveredFor s p a lower) →
        refusedWith .accessDenied (num2 page))

/-! ### The block engine -/

/-- Section 9.2: a FILL, COPY or SUM whose ranges are well-formed and inside HELD records of the port, the destination's
EXCLUSIVE, with no active job and a free outcome place, is admitted: the job enters the table, one place is reserved, and
the reply is PENDING with the port's number. A COPY's direction is DOWNWARD exactly when its ranges overlap with the
destination above the source. If no request is in flight, the engine places this job's first step. -/
def Obligations.JobAdmitted : Prop :=
  ∀ (s : State) (c : Command) (f : Frame) (job : Job), Admitted c f s → LinesAgree s →
    s.job f.port = none → placesUsed s f.port < 8 →
    (let holds (h : Half) (r : Range) (exclusive : Bool) : Prop :=
      WellFormed r ∧ ∃ i d, resolve s f.port h = some i ∧ Held s i d ∧ Inside r d.range ∧
        (exclusive = true → d.mode = .exclusive)
    (∃ a, c = .fill ∧ f.args = fillBytes a ∧ holds a.dst ⟨a.first.toNat, a.count.toNat⟩ true ∧
      job = { tag := f.tag, work := .fill a.dst a.first.toNat a.pattern, count := a.count.toNat, pagesDone := 0
              stop := .none }) ∨
    (∃ a, c = .copy ∧ f.args = copyBytes a ∧ holds a.src ⟨a.srcFirst.toNat, a.count.toNat⟩ false ∧
      holds a.dst ⟨a.dstFirst.toNat, a.count.toNat⟩ true ∧
      job = { tag := f.tag, count := a.count.toNat, pagesDone := 0, stop := .none
              work := .copy a.src a.dst a.srcFirst.toNat a.dstFirst.toNat
                (if a.srcFirst.toNat < a.dstFirst.toNat ∧ a.dstFirst.toNat < a.srcFirst.toNat + a.count.toNat
                 then .downward else .upward) }) ∨
    (∃ a, c = .sum ∧ f.args = spanBytes a ∧ holds a.handle ⟨a.first.toNat, a.count.toNat⟩ false ∧
      job = { tag := f.tag, work := .sum a.handle a.first.toNat 0xFFFF, count := a.count.toNat, pagesDone := 0
              stop := .none })) →
    ∃ t, exec (rowOf c f) s = .next t ∧ t.job f.port = some job ∧ (∀ q, q ≠ f.port → t.job q = s.job q) ∧
      t.session f.port = { s.session f.port with reserved := (s.session f.port).reserved ++ [.job] } ∧
      OthersKept f.port s t ∧ t.table = s.table ∧ t.waitList = s.waitList ∧
      (s.engine.inFlight ≠ none → t.engine.inFlight = s.engine.inFlight ∧ t.engine.turn = s.engine.turn ∧
        t.arbiter = s.arbiter) ∧
      (s.engine.inFlight = none → (∀ q, s.job q = none) →
        t.engine.inFlight = some f.port ∧ t.engine.turn = nextPort f.port ∧
        (t.arbiter.serving = some .engine ∧ t.arbiter.lastServed = .engine ∨
          t.arbiter.serving = s.arbiter.serving ∧ t.arbiter.waiting = { s.arbiter.waiting with engine := true })) ∧
      board { t with arbiter := s.arbiter, engine := s.engine } = board s ∧
      Replied f.port f.tag .pending [BitVec.ofNat 8 (portNumber f.port)] (s.port f.port) t

/-- R160: a FILL, COPY or SUM of an ATTACHED port is refused by the first check of Table 46 that fails, steps 2 to 8 in
order, and nothing changes. -/
def Obligations.JobRefusedInOrder : Prop :=
  ∀ (s : State) (c : Command) (f : Frame) (sides : List Side), Admitted c f s → LinesAgree s → NamesSides c f sides →
    let p := f.port
    let ranges := ∀ x ∈ sides, WellFormed x.range
    let idle := s.job p = none
    let resolved := ∀ x ∈ sides, resolve s p x.handle ≠ none
    let held := ∀ x ∈ sides, ∃ d, SideHeld s p x d
    let modes := ∀ x ∈ sides, x.isDst = true → ∃ d, SideHeld s p x d ∧ d.mode = .exclusive
    let inside := ∀ x ∈ sides, ∃ d, SideHeld s p x d ∧ Inside x.range d.range
    (¬ ranges → Answers c f s .badRange []) ∧
    (ranges → ¬ idle → Answers c f s .jobBusy []) ∧
    (ranges → idle → ¬ resolved → Answers c f s .staleHandle []) ∧
    (ranges → idle → resolved → ∀ before x after i, sides = before ++ x :: after →
      (∀ y ∈ before, ∃ d, SideHeld s p y d) → resolve s p x.handle = some i →
      (∀ d, (slotAt s i).content = .reserved d → Answers c f s .waiting []) ∧
      (∀ d l e, (slotAt s i).content = .lapsed d l e → Answers c f s .lapsed [])) ∧
    (ranges → idle → held → ¬ modes → Answers c f s .badMode []) ∧
    (ranges → idle → held → modes → ¬ inside → Answers c f s .badRange []) ∧
    (ranges → idle → held → modes → inside → 8 ≤ placesUsed s p → Answers c f s .outcomesFull [])

/-- Sections 8.5, 9.1 and 9.3: a page step of a job that is not to stop, each of whose records passes its check,
transfers one page: a FILL writes its pattern over it, a COPY writes a source page to its destination, a SUM takes one
page into its running sum and writes nothing. Pages done rises by 1; at the count the job ends DONE with its outcome.
Every byte outside the page written stays. The engine then chooses its next job in turn, and the arbiter its next
user. -/
def Obligations.PageStepTransfers : Prop :=
  ∀ (s : State) (p : Port) (j : Job),
    s.arbiter.serving = some .engine → s.engine.inFlight = some p → s.job p = some j → j.stop = .none →
    Memory.wf s.array = true → LinesAgree s → j.pagesDone < j.count →
    (∀ x ∈ jobSides j, x.range.first + x.range.count ≤ 4096 ∧ SidePasses s p x) →
    let work := match j.work with
      | .sum src f c => .sum src f (checkBytes c (readBytes s.array (64 * pageOf j f) 64))
      | w => w
    ∃ t, exec .pageStep s = .next t ∧ t.table = s.table ∧ t.waitList = s.waitList ∧ PageMoved j s.array t.array ∧
      (j.pagesDone + 1 < j.count → t.job p = some { j with work := work, pagesDone := j.pagesDone + 1 } ∧
        t.sessions = s.sessions) ∧
      (j.pagesDone + 1 = j.count → t.job p = none ∧
        t.session p = { s.session p with
          reserved := (s.session p).reserved.erase .job
          held := (s.session p).held ++
            [{ tag := j.tag, body := .jobDone j.work.kind j.count (sumValue work) }] }) ∧
      (∀ q, q ≠ p → t.job q = s.job q ∧ t.session q = s.session q) ∧
      (∀ q, t.port q = { s.port q with noticeLine := noticeDue t q }) ∧ EngineChose s.engine.turn t ∧
      ArbiterAfterStep s t ∧
      board { t with array := s.array, arbiter := s.arbiter, engine := s.engine } = board s

/-- Sections 8.5, 9.3, 9.5 and 9.7: a page step whose job is to stop transfers nothing and ends it. CLOSED comes first and
makes the session DETACHED without an outcome; then the first named record, src before dst, that fails its check: LAPSED,
with its end cause, or not resolving, or HELD and not covering the job's range in the mode it needs, with HOST; then the
host's request. The outcome of a STOPPED job carries its pages done and its cause. The engine then chooses its next job
in turn, and the arbiter its next user. -/
def Obligations.PageStepStops : Prop :=
  ∀ (s : State) (p : Port) (j : Job),
    s.arbiter.serving = some .engine → s.engine.inFlight = some p → s.job p = some j →
    let ends (session : Session) : Prop :=
      ∃ t, exec .pageStep s = .next t ∧ t.job p = none ∧ t.session p = session ∧ t.array = s.array ∧
        t.table = s.table ∧ t.waitList = s.waitList ∧ (∀ q, q ≠ p → t.job q = s.job q ∧ t.session q = s.session q) ∧
        (∀ q, t.port q = { s.port q with noticeLine := noticeDue t q }) ∧ EngineChose s.engine.turn t ∧
        ArbiterAfterStep s t ∧ board { t with arbiter := s.arbiter, engine := s.engine } = board s
    let stopped (cause : StopCause) : Session :=
      { s.session p with
        reserved := (s.session p).reserved.erase .job
        held := (s.session p).held ++
          [{ tag := j.tag, body := .jobStopped j.work.kind j.pagesDone cause (sumValue j.work) }] }
    (j.stop = .closed → ends { s.session p with state := .detached }) ∧
    (j.stop ≠ .closed → ∀ before x after cause, jobSides j = before ++ x :: after →
      (∀ y ∈ before, SidePasses s p y) → SideFails s p x cause → ends (stopped cause)) ∧
    (j.stop = .host → (∀ x ∈ jobSides j, SidePasses s p x) → ends (stopped .host))

/-- R166, R167: STOP_JOB sets the active job's stop request to HOST and reports its kind, count and pages done;
JOB_STATE reports these with its direction and stop request and changes nothing; with no active job both are refused
NO_JOB and nothing changes. -/
def Obligations.StopJobAndJobState : Prop :=
  ∀ (s : State) (f : Frame), f.args = [] → LinesAgree s →
    (∀ c, (c = .stopJob ∨ c = .jobState) → Admitted c f s → s.job f.port = none → Answers c f s .noJob []) ∧
    (∀ j, Admitted .stopJob f s → s.job f.port = some j →
      ∃ t, exec (.stopJob f) s = .next t ∧ t.job f.port = some { j with stop := .host } ∧
        (∀ q, q ≠ f.port → t.job q = s.job q) ∧ t.engine.turn = s.engine.turn ∧
        t.engine.inFlight = s.engine.inFlight ∧ OnlyPort f.port s { t with engine := s.engine } ∧
        t.sessions = s.sessions ∧
        Replied f.port f.tag .ok ([jobKindByte j.work.kind] ++ num2 j.count ++ num2 j.pagesDone) (s.port f.port) t) ∧
    (∀ j, Admitted .jobState f s → s.job f.port = some j → j.stop ≠ .closed →
      Answers .jobState f s .ok ([jobKindByte j.work.kind] ++ num2 j.count ++ num2 j.pagesDone ++
        [directionByte j.work.direction, if j.stop = .host then 0x01 else 0x00]))

/-! ### Outcomes and notices -/

/-- R133: COLLECT removes the oldest held outcome and its reply carries the number that remain and the outcome's fields;
with none held it is refused NO_OUTCOME and nothing changes. -/
def Obligations.CollectTakesOldest : Prop :=
  ∀ (s : State) (f : Frame), Admitted .collect f s → f.args = [] → LinesAgree s →
    ((s.session f.port).held = [] → Answers .collect f s .noOutcome []) ∧
    (∀ o rest, (s.session f.port).held = o :: rest →
      ∃ t, exec (.collect f) s = .next t ∧ OnlyPort f.port s t ∧
        t.session f.port = { s.session f.port with held := rest } ∧
        (noticeFlags t f.port).outcomeReady = !rest.isEmpty ∧
        Replied f.port f.tag .ok (BitVec.ofNat 8 rest.length :: outcomeBytes o) (s.port f.port) t)

/-- R138, R139: SET_NOTICE replaces the mask and the warn threshold and changes no flag; CLEAR_NOTICES clears the sticky
flags its set names, leaves OUTCOME_READY as the outcome list makes it, and reports the flags cleared and the flags still
set. Both bring the NOTICE line into agreement; of a set that names a flag outside the five both are refused BAD_VALUE
and nothing changes. -/
def Obligations.NoticeCommands : Prop :=
  (∀ (s : State) (f : Frame) (x y : Byte), Admitted .setNotice f s → f.args = [x, y] → LinesAgree s →
    (32 ≤ x.toNat → Answers .setNotice f s .badValue []) ∧
    (∀ mask, x = noticeByte mask →
      ∃ t, exec (.setNotice f) s = .next t ∧ OnlyPort f.port s t ∧
        t.session f.port = { s.session f.port with mask := mask, warnThreshold := y.toNat } ∧
        Replied f.port f.tag .ok [noticeByte (noticeFlags s f.port), x] (s.port f.port) t)) ∧
  (∀ (s : State) (f : Frame) (x : Byte), Admitted .clearNotices f s → f.args = [x] → LinesAgree s →
    (32 ≤ x.toNat → Answers .clearNotices f s .badValue []) ∧
    (∀ set : NoticeSet, x = noticeByte set →
      let n := (s.port f.port).notices
      let after : StickyNotices := ⟨n.leaseLow && !set.leaseLow, n.leaseLost && !set.leaseLost,
        n.revoked && !set.revoked, n.contended && !set.contended⟩
      let cleared : NoticeSet := ⟨false, n.leaseLow && set.leaseLow, n.leaseLost && set.leaseLost,
        n.revoked && set.revoked, n.contended && set.contended⟩
      let still : NoticeSet := ⟨!(s.session f.port).held.isEmpty, after.leaseLow, after.leaseLost, after.revoked,
        after.contended⟩
      ∃ t, exec (.clearNotices f) s = .next t ∧ OnlyPort f.port s t ∧ t.sessions = s.sessions ∧
        (t.port f.port).notices = after ∧
        Replied f.port f.tag .ok [noticeByte cleared, noticeByte still]
          { s.port f.port with notices := after } t))

/-! ### Supervision -/

/-- R175, R176, R177: CONFIG_SET of a parameter and a value in its range replaces the value, a TICK_LENGTH also becoming
the clock's pending length, and its reply carries the identifier and the value; out of range, or a quota below the
port's usage, it is refused and nothing changes. CONFIG_GET reports the value held and changes nothing. Both refuse an
identifier that names no parameter BAD_VALUE. -/
def Obligations.ConfigSetAndGet : Prop :=
  (∀ (s : State) (f : Frame) (id : Byte) (v : Half), LinesAgree s →
    (paramOfByte id = ([(0x01, .tickLength), (0x02, .maxTerm), (0x03, .defaultTerm), (0x04, .maxWait),
      (0x05, .renewLimit), (0x06, .enforce), (0x10, .quota .p0), (0x11, .quota .p1), (0x12, .quota .p2),
      (0x13, .quota .p3)] : List (Byte × Param)).lookup id) ∧
    (paramOfByte id = none →
      (Admitted .configSet f s → f.args = id :: bytes2 v → Answers .configSet f s .badValue []) ∧
      (Admitted .configGet f s → f.args = [id] → Answers .configGet f s .badValue []))) ∧
  ∀ (s : State) (f : Frame) (id : Byte) (v : Half) (x : Param), paramOfByte id = some x → LinesAgree s →
    (Admitted .configSet f s → f.args = id :: bytes2 v →
      (paramRangeOk s.params v.toNat x = false → Answers .configSet f s .badValue []) ∧
      (∀ q, paramRangeOk s.params v.toNat x = true → x = .quota q → v.toNat < (s.session q).usage →
        Answers .configSet f s .quotaInUse []) ∧
      (paramRangeOk s.params v.toNat x = true → (∀ q, x = .quota q → (s.session q).usage ≤ v.toNat) →
        ∃ t, exec (.configSet f) s = .next t ∧ paramValue t.params x = v.toNat ∧
          (∀ y, y ≠ x → paramValue t.params y = paramValue s.params y) ∧
          t.clock = (if x = .tickLength then { s.clock with pendingLength := some v.toNat } else s.clock) ∧
          t.table = s.table ∧ t.waitList = s.waitList ∧ t.sessions = s.sessions ∧ OthersKept f.port s t ∧
          board { t with params := s.params, clock := s.clock } = board s ∧
          Replied f.port f.tag .ok (id :: bytes2 v) (s.port f.port) t)) ∧
    (Admitted .configGet f s → f.args = [id] →
      Answers .configGet f s .ok (id :: num2 (paramValue s.params x)))

/-- Sections 10.4 and 3.7: REVOKE of a HELD record of any port makes it LAPSED with end cause REVOKED, sets REVOKED at its
holder, ends a waiting upgrade of it RECORD_ENDED, and runs a grant scan; of a RESERVED slot it withdraws the waiting
claim; of a LAPSED one it is refused LAPSED, and of a handle that does not resolve STALE_HANDLE. -/
def Obligations.RevokeTaken : Prop :=
  ∀ (s : State) (f : Frame) (h : Half), Admitted .revoke f s → f.args = bytes2 h → LinesAgree s → InStep s →
    (resolveAny s h = none → Answers .revoke f s .staleHandle []) ∧
    (∀ i c l e, resolveAny s h = some i → (slotAt s i).content = .lapsed c l e →
      Answers .revoke f s .lapsed []) ∧
    (∀ i c l n, resolveAny s h = some i → (slotAt s i).content = .held c l n →
      let marked (q : Port) : PortUnit :=
        { s.port q with
          notices := { (s.port q).notices with revoked := (s.port q).notices.revoked || q == c.holder } }
      let ends := s.waitList.filter fun e => e.ticket == h
      ∃ t u, exec (.revoke f) s = .next t ∧
        slotAt t i = { gen := (slotAt s i).gen, content := .lapsed c l .revoked } ∧
        (∀ j, j ≠ i → ScannedSlot s t j) ∧ EachEntryBlocked t ∧
        t.waitList.Sublist (s.waitList.filter fun e => !(e.ticket == h)) ∧
        (∀ e ∈ s.waitList, e.ticket = h →
          { tag := e.tag, body := .ended .upgrade .recordEnded h } ∈ (t.session c.holder).held) ∧
        (∀ q, q ≠ c.holder → ScannedSession (s.session q) (t.session q)) ∧
        (t.session c.holder).usage = (s.session c.holder).usage ∧
        ScannedFrom
          ((setSlot { s with waitList := s.waitList.filter fun e => !(e.ticket == h) } i
            { gen := (slotAt s i).gen, content := .lapsed c l .revoked }).modSession c.holder fun x =>
              { x with
                reserved := placesWithout x.reserved ends
                held := x.held ++ ends.map fun e => { tag := e.tag, body := .ended .upgrade .recordEnded h } }) t ∧
        (∀ q, q ≠ f.port → ScannedPort (marked q) (t.port q)) ∧ ScannedPort (marked f.port) u ∧
        board t = board s ∧ Replied f.port f.tag .ok [0x02, BitVec.ofNat 8 (portNumber c.holder)] u t) ∧
    (∀ i c, resolveAny s h = some i → (slotAt s i).content = .reserved c →
      let ends := s.waitList.filter fun e => e.ticket == h
      ∃ t u, exec (.revoke f) s = .next t ∧
        slotAt t i = { gen := nextGen (slotAt s i).gen, content := .free } ∧
        (∀ j, j ≠ i → ScannedSlot s t j) ∧ EachEntryBlocked t ∧
        t.waitList.Sublist (s.waitList.filter fun e => !(e.ticket == h)) ∧
        (∀ e ∈ s.waitList, e.ticket = h →
          { tag := e.tag, body := .ended .claim .withdrawn h } ∈ (t.session c.holder).held) ∧
        (∀ q, q ≠ c.holder → ScannedSession (s.session q) (t.session q)) ∧
        (t.session c.holder).usage = (s.session c.holder).usage - 1 ∧
        ScannedFrom
          ((setSlot { s with waitList := s.waitList.filter fun e => !(e.ticket == h) } i
            { gen := nextGen (slotAt s i).gen, content := .free }).modSession c.holder fun x =>
              { x with
                reserved := placesWithout x.reserved ends
                held := x.held ++ ends.map fun e => { tag := e.tag, body := .ended .claim .withdrawn h }
                usage := x.usage - 1 }) t ∧
        (∀ q, q ≠ f.port → ScannedPort (s.port q) (t.port q)) ∧ ScannedPort (s.port f.port) u ∧
        board t = board s ∧ Replied f.port f.tag .ok [0x01, BitVec.ofNat 8 (portNumber c.holder)] u t)

/-- Sections 10.5 and 5.7: EVICT of P1, P2 or P3 tears an ATTACHED target down and sets its evicted indication, and of a
CLOSING one only sets the indication; a DETACHED target is refused NOT_ATTACHED, and any other port number BAD_VALUE,
with nothing changed. -/
def Obligations.EvictTaken : Prop :=
  ∀ (s : State) (f : Frame) (b : Byte), Admitted .evict f s → f.args = [b] → LinesAgree s →
    ((b.toNat = 0 ∨ 4 ≤ b.toNat) → Answers .evict f s .badValue []) ∧
    (∀ target, target ≠ .p0 → b.toNat = portNumber target →
      ((s.session target).state = .detached → Answers .evict f s .notAttached []) ∧
      ((s.session target).state = .closing →
        ∃ t, exec (.evict f) s = .next t ∧ t.session target = { s.session target with evicted := true } ∧
          (∀ q, q ≠ target → t.session q = s.session q) ∧ (∀ q, q ≠ f.port → t.port q = s.port q) ∧
          t.table = s.table ∧ t.waitList = s.waitList ∧ board t = board s ∧
          Replied f.port f.tag .ok [b, 0x02] (s.port f.port) t) ∧
      ((s.session target).state = .attached →
        ∃ t u, exec (.evict f) s = .next t ∧ TornDown target s t ∧ (t.session target).evicted = true ∧
          t.port target = { s.port target with notices := .none, noticeLine := false } ∧
          (∀ q, q ≠ f.port → q ≠ target → ScannedPort (s.port q) (t.port q)) ∧ ScannedPort (s.port f.port) u ∧
          Replied f.port f.tag .ok [b, if (s.job target).isSome then 0x02 else 0x00] u t))

/-- R182, R183: INSPECT reports a slot as it stands and WAITLIST the entries from a position to the tail; a slot above 127
and a position above 11 are refused BAD_VALUE; neither changes anything. -/
def Obligations.InspectAndWaitlist : Prop :=
  ∀ (s : State) (f : Frame) (b : Byte), f.args = [b] → LinesAgree s →
    (Admitted .inspect f s →
      (127 < b.toNat → Answers .inspect f s .badValue []) ∧
      (∀ i : SlotId, i.val = b.toNat →
        ((slotAt s i).content = .free → Answers .inspect f s .ok [b, 0x00, (slotAt s i).gen]) ∧
        (∀ c, (slotAt s i).content = .reserved c →
          Answers .inspect f s .ok ([b, 0x01, (slotAt s i).gen] ++ bytes2 (handleOf (slotAt s i).gen i) ++
            [BitVec.ofNat 8 (portNumber c.holder), modeByte c.mode] ++ num2 c.range.first ++ num2 c.range.count ++
            [0, 0, 0, 0, 0] ++ bytes2 c.label ++ [0, 0, 0])) ∧
        (∀ c l n, (slotAt s i).content = .held c l n →
          ∃ e : Bool, (e = true ↔ Engaged s i) ∧
          Answers .inspect f s .ok ([b, 0x02, (slotAt s i).gen] ++ bytes2 (handleOf (slotAt s i).gen i) ++
            [BitVec.ofNat 8 (portNumber c.holder), modeByte c.mode] ++ num2 c.range.first ++ num2 c.range.count ++
            num2 l.term ++ num2 n ++ [BitVec.ofNat 8 l.renewals] ++ bytes2 c.label ++
            [boolByte l.warned, 0, boolByte e])) ∧
        (∀ c l x, (slotAt s i).content = .lapsed c l x →
          Answers .inspect f s .ok ([b, 0x03, (slotAt s i).gen] ++ bytes2 (handleOf (slotAt s i).gen i) ++
            [BitVec.ofNat 8 (portNumber c.holder), modeByte c.mode] ++ num2 c.range.first ++ num2 c.range.count ++
            num2 l.term ++ [0, 0, BitVec.ofNat 8 l.renewals] ++ bytes2 c.label ++
            [boolByte l.warned, if x = .expired then 0x01 else 0x02, 0])))) ∧
    (Admitted .waitlist f s →
      (11 < b.toNat → Answers .waitlist f s .badValue []) ∧
      (b.toNat ≤ 11 → WaitListOk s →
        Answers .waitlist f s .ok
          ([BitVec.ofNat 8 s.waitList.length, BitVec.ofNat 8 (s.waitList.length - b.toNat)] ++
            (s.waitList.drop b.toNat).flatMap waitItem)))
end

