-- ==== Sys2Proof/Laws/State.lean ====
section
/-! SUPPORT. One lemma per field per update of the state, and what reading a port, a session, a job or a slot gives after
each update. -/

namespace Sys2Proof.Machine

/-! ### One value per port -/

@[simp] theorem PerPort.get_all {α : Type} (x : α) (p : Port) : (PerPort.all x).get p = x := by cases p <;> rfl

@[simp] theorem PerPort.get_set_same {α : Type} (x : PerPort α) (p : Port) (v : α) : (x.set p v).get p = v := by
  cases p <;> rfl

@[simp] theorem PerPort.get_set_other {α : Type} (x : PerPort α) {p q : Port} (v : α) (h : q ≠ p) :
    (x.set p v).get q = x.get q := by
  cases p <;> cases q <;> first | rfl | exact absurd rfl h

theorem PerPort.get_set {α : Type} (x : PerPort α) (p q : Port) (v : α) :
    (x.set p v).get q = if q = p then v else x.get q := by
  by_cases h : q = p
  · subst h; simp
  · simp [h]

@[simp] theorem PerPort.get_map {α β : Type} (f : α → β) (x : PerPort α) (p : Port) :
    (x.map f).get p = f (x.get p) := by cases p <;> rfl

theorem PerPort.ext_get {α : Type} {x y : PerPort α} (h : ∀ p, x.get p = y.get p) : x = y := by
  cases x; cases y
  have h0 := h .p0; have h1 := h .p1; have h2 := h .p2; have h3 := h .p3
  simp only [PerPort.get] at h0 h1 h2 h3
  subst h0 h1 h2 h3; rfl

/-! ### One port unit changed -/

@[simp] theorem State.modPort_table (s : State) (p : Port) (g : PortUnit → PortUnit) :
    (s.modPort p g).table = s.table := rfl

@[simp] theorem State.modPort_waitList (s : State) (p : Port) (g : PortUnit → PortUnit) :
    (s.modPort p g).waitList = s.waitList := rfl

@[simp] theorem State.modPort_clock (s : State) (p : Port) (g : PortUnit → PortUnit) :
    (s.modPort p g).clock = s.clock := rfl

@[simp] theorem State.modPort_array (s : State) (p : Port) (g : PortUnit → PortUnit) :
    (s.modPort p g).array = s.array := rfl

@[simp] theorem State.modPort_clearNext (s : State) (p : Port) (g : PortUnit → PortUnit) :
    (s.modPort p g).clearNext = s.clearNext := rfl

@[simp] theorem State.modPort_arbiter (s : State) (p : Port) (g : PortUnit → PortUnit) :
    (s.modPort p g).arbiter = s.arbiter := rfl

@[simp] theorem State.modPort_engine (s : State) (p : Port) (g : PortUnit → PortUnit) :
    (s.modPort p g).engine = s.engine := rfl

@[simp] theorem State.modPort_params (s : State) (p : Port) (g : PortUnit → PortUnit) :
    (s.modPort p g).params = s.params := rfl

@[simp] theorem State.modPort_sessions (s : State) (p : Port) (g : PortUnit → PortUnit) :
    (s.modPort p g).sessions = s.sessions := rfl

@[simp] theorem State.modPort_restartPending (s : State) (p : Port) (g : PortUnit → PortUnit) :
    (s.modPort p g).restartPending = s.restartPending := rfl

@[simp] theorem State.modPort_resetLow (s : State) (p : Port) (g : PortUnit → PortUnit) :
    (s.modPort p g).resetLow = s.resetLow := rfl

@[simp] theorem State.modPort_powerUps (s : State) (p : Port) (g : PortUnit → PortUnit) :
    (s.modPort p g).powerUps = s.powerUps := rfl

@[simp] theorem State.modPort_pending (s : State) (p : Port) (g : PortUnit → PortUnit) :
    (s.modPort p g).pending = s.pending := rfl

/-! ### One session context changed -/

@[simp] theorem State.modSession_table (s : State) (p : Port) (g : Session → Session) :
    (s.modSession p g).table = s.table := rfl

@[simp] theorem State.modSession_waitList (s : State) (p : Port) (g : Session → Session) :
    (s.modSession p g).waitList = s.waitList := rfl

@[simp] theorem State.modSession_clock (s : State) (p : Port) (g : Session → Session) :
    (s.modSession p g).clock = s.clock := rfl

@[simp] theorem State.modSession_array (s : State) (p : Port) (g : Session → Session) :
    (s.modSession p g).array = s.array := rfl

@[simp] theorem State.modSession_clearNext (s : State) (p : Port) (g : Session → Session) :
    (s.modSession p g).clearNext = s.clearNext := rfl

@[simp] theorem State.modSession_arbiter (s : State) (p : Port) (g : Session → Session) :
    (s.modSession p g).arbiter = s.arbiter := rfl

@[simp] theorem State.modSession_engine (s : State) (p : Port) (g : Session → Session) :
    (s.modSession p g).engine = s.engine := rfl

@[simp] theorem State.modSession_params (s : State) (p : Port) (g : Session → Session) :
    (s.modSession p g).params = s.params := rfl

@[simp] theorem State.modSession_ports (s : State) (p : Port) (g : Session → Session) :
    (s.modSession p g).ports = s.ports := rfl

@[simp] theorem State.modSession_restartPending (s : State) (p : Port) (g : Session → Session) :
    (s.modSession p g).restartPending = s.restartPending := rfl

@[simp] theorem State.modSession_resetLow (s : State) (p : Port) (g : Session → Session) :
    (s.modSession p g).resetLow = s.resetLow := rfl

@[simp] theorem State.modSession_powerUps (s : State) (p : Port) (g : Session → Session) :
    (s.modSession p g).powerUps = s.powerUps := rfl

@[simp] theorem State.modSession_pending (s : State) (p : Port) (g : Session → Session) :
    (s.modSession p g).pending = s.pending := rfl

/-! ### One place of the job table replaced -/

@[simp] theorem State.setJob_table (s : State) (p : Port) (j : Option Job) :
    (s.setJob p j).table = s.table := rfl

@[simp] theorem State.setJob_waitList (s : State) (p : Port) (j : Option Job) :
    (s.setJob p j).waitList = s.waitList := rfl

@[simp] theorem State.setJob_clock (s : State) (p : Port) (j : Option Job) :
    (s.setJob p j).clock = s.clock := rfl

@[simp] theorem State.setJob_array (s : State) (p : Port) (j : Option Job) :
    (s.setJob p j).array = s.array := rfl

@[simp] theorem State.setJob_clearNext (s : State) (p : Port) (j : Option Job) :
    (s.setJob p j).clearNext = s.clearNext := rfl

@[simp] theorem State.setJob_arbiter (s : State) (p : Port) (j : Option Job) :
    (s.setJob p j).arbiter = s.arbiter := rfl

@[simp] theorem State.setJob_params (s : State) (p : Port) (j : Option Job) :
    (s.setJob p j).params = s.params := rfl

@[simp] theorem State.setJob_sessions (s : State) (p : Port) (j : Option Job) :
    (s.setJob p j).sessions = s.sessions := rfl

@[simp] theorem State.setJob_ports (s : State) (p : Port) (j : Option Job) :
    (s.setJob p j).ports = s.ports := rfl

@[simp] theorem State.setJob_restartPending (s : State) (p : Port) (j : Option Job) :
    (s.setJob p j).restartPending = s.restartPending := rfl

@[simp] theorem State.setJob_resetLow (s : State) (p : Port) (j : Option Job) :
    (s.setJob p j).resetLow = s.resetLow := rfl

@[simp] theorem State.setJob_powerUps (s : State) (p : Port) (j : Option Job) :
    (s.setJob p j).powerUps = s.powerUps := rfl

@[simp] theorem State.setJob_pending (s : State) (p : Port) (j : Option Job) :
    (s.setJob p j).pending = s.pending := rfl

/-! ### One slot replaced -/

@[simp] theorem setSlot_waitList (s : State) (i : SlotId) (x : Slot) :
    (setSlot s i x).waitList = s.waitList := rfl

@[simp] theorem setSlot_clock (s : State) (i : SlotId) (x : Slot) :
    (setSlot s i x).clock = s.clock := rfl

@[simp] theorem setSlot_array (s : State) (i : SlotId) (x : Slot) :
    (setSlot s i x).array = s.array := rfl

@[simp] theorem setSlot_clearNext (s : State) (i : SlotId) (x : Slot) :
    (setSlot s i x).clearNext = s.clearNext := rfl

@[simp] theorem setSlot_arbiter (s : State) (i : SlotId) (x : Slot) :
    (setSlot s i x).arbiter = s.arbiter := rfl

@[simp] theorem setSlot_engine (s : State) (i : SlotId) (x : Slot) :
    (setSlot s i x).engine = s.engine := rfl

@[simp] theorem setSlot_params (s : State) (i : SlotId) (x : Slot) :
    (setSlot s i x).params = s.params := rfl

@[simp] theorem setSlot_sessions (s : State) (i : SlotId) (x : Slot) :
    (setSlot s i x).sessions = s.sessions := rfl

@[simp] theorem setSlot_ports (s : State) (i : SlotId) (x : Slot) :
    (setSlot s i x).ports = s.ports := rfl

@[simp] theorem setSlot_restartPending (s : State) (i : SlotId) (x : Slot) :
    (setSlot s i x).restartPending = s.restartPending := rfl

@[simp] theorem setSlot_resetLow (s : State) (i : SlotId) (x : Slot) :
    (setSlot s i x).resetLow = s.resetLow := rfl

@[simp] theorem setSlot_powerUps (s : State) (i : SlotId) (x : Slot) :
    (setSlot s i x).powerUps = s.powerUps := rfl

@[simp] theorem setSlot_pending (s : State) (i : SlotId) (x : Slot) :
    (setSlot s i x).pending = s.pending := rfl

/-! ### The content of one slot replaced -/

@[simp] theorem setContent_waitList (s : State) (i : SlotId) (c : Content) :
    (setContent s i c).waitList = s.waitList := rfl

@[simp] theorem setContent_clock (s : State) (i : SlotId) (c : Content) :
    (setContent s i c).clock = s.clock := rfl

@[simp] theorem setContent_array (s : State) (i : SlotId) (c : Content) :
    (setContent s i c).array = s.array := rfl

@[simp] theorem setContent_clearNext (s : State) (i : SlotId) (c : Content) :
    (setContent s i c).clearNext = s.clearNext := rfl

@[simp] theorem setContent_arbiter (s : State) (i : SlotId) (c : Content) :
    (setContent s i c).arbiter = s.arbiter := rfl

@[simp] theorem setContent_engine (s : State) (i : SlotId) (c : Content) :
    (setContent s i c).engine = s.engine := rfl

@[simp] theorem setContent_params (s : State) (i : SlotId) (c : Content) :
    (setContent s i c).params = s.params := rfl

@[simp] theorem setContent_sessions (s : State) (i : SlotId) (c : Content) :
    (setContent s i c).sessions = s.sessions := rfl

@[simp] theorem setContent_ports (s : State) (i : SlotId) (c : Content) :
    (setContent s i c).ports = s.ports := rfl

@[simp] theorem setContent_restartPending (s : State) (i : SlotId) (c : Content) :
    (setContent s i c).restartPending = s.restartPending := rfl

@[simp] theorem setContent_resetLow (s : State) (i : SlotId) (c : Content) :
    (setContent s i c).resetLow = s.resetLow := rfl

@[simp] theorem setContent_powerUps (s : State) (i : SlotId) (c : Content) :
    (setContent s i c).powerUps = s.powerUps := rfl

@[simp] theorem setContent_pending (s : State) (i : SlotId) (c : Content) :
    (setContent s i c).pending = s.pending := rfl

/-! ### The NOTICE lines settled -/

@[simp] theorem settleNotices_table (s : State) :
    (settleNotices s).table = s.table := rfl

@[simp] theorem settleNotices_waitList (s : State) :
    (settleNotices s).waitList = s.waitList := rfl

@[simp] theorem settleNotices_clock (s : State) :
    (settleNotices s).clock = s.clock := rfl

@[simp] theorem settleNotices_array (s : State) :
    (settleNotices s).array = s.array := rfl

@[simp] theorem settleNotices_clearNext (s : State) :
    (settleNotices s).clearNext = s.clearNext := rfl

@[simp] theorem settleNotices_arbiter (s : State) :
    (settleNotices s).arbiter = s.arbiter := rfl

@[simp] theorem settleNotices_engine (s : State) :
    (settleNotices s).engine = s.engine := rfl

@[simp] theorem settleNotices_params (s : State) :
    (settleNotices s).params = s.params := rfl

@[simp] theorem settleNotices_sessions (s : State) :
    (settleNotices s).sessions = s.sessions := rfl

@[simp] theorem settleNotices_restartPending (s : State) :
    (settleNotices s).restartPending = s.restartPending := rfl

@[simp] theorem settleNotices_resetLow (s : State) :
    (settleNotices s).resetLow = s.resetLow := rfl

@[simp] theorem settleNotices_powerUps (s : State) :
    (settleNotices s).powerUps = s.powerUps := rfl

@[simp] theorem settleNotices_pending (s : State) :
    (settleNotices s).pending = s.pending := rfl

/-! ### Ports, sessions and jobs after an update -/

@[simp] theorem State.port_modPort_same (s : State) (p : Port) (g : PortUnit → PortUnit) :
    (s.modPort p g).port p = g (s.port p) := by simp [State.port, State.modPort]

@[simp] theorem State.port_modPort_other (s : State) {p q : Port} (g : PortUnit → PortUnit) (h : q ≠ p) :
    (s.modPort p g).port q = s.port q := by simp [State.port, State.modPort, h]

theorem State.port_modPort (s : State) (p q : Port) (g : PortUnit → PortUnit) :
    (s.modPort p g).port q = if q = p then g (s.port p) else s.port q := by
  by_cases h : q = p
  · subst h; simp
  · simp [h]

@[simp] theorem State.session_modSession_same (s : State) (p : Port) (g : Session → Session) :
    (s.modSession p g).session p = g (s.session p) := by simp [State.session, State.modSession]

@[simp] theorem State.session_modSession_other (s : State) {p q : Port} (g : Session → Session) (h : q ≠ p) :
    (s.modSession p g).session q = s.session q := by simp [State.session, State.modSession, h]

theorem State.session_modSession (s : State) (p q : Port) (g : Session → Session) :
    (s.modSession p g).session q = if q = p then g (s.session p) else s.session q := by
  by_cases h : q = p
  · subst h; simp
  · simp [h]

@[simp] theorem State.job_setJob_same (s : State) (p : Port) (j : Option Job) : (s.setJob p j).job p = j := by
  simp [State.job, State.setJob]

@[simp] theorem State.job_setJob_other (s : State) {p q : Port} (j : Option Job) (h : q ≠ p) :
    (s.setJob p j).job q = s.job q := by simp [State.job, State.setJob, h]

@[simp] theorem State.session_modPort (s : State) (p q : Port) (g : PortUnit → PortUnit) :
    (s.modPort p g).session q = s.session q := rfl

@[simp] theorem State.job_modPort (s : State) (p q : Port) (g : PortUnit → PortUnit) :
    (s.modPort p g).job q = s.job q := rfl

@[simp] theorem State.port_modSession (s : State) (p q : Port) (g : Session → Session) :
    (s.modSession p g).port q = s.port q := rfl

@[simp] theorem State.job_modSession (s : State) (p q : Port) (g : Session → Session) :
    (s.modSession p g).job q = s.job q := rfl

@[simp] theorem State.port_setJob (s : State) (p q : Port) (j : Option Job) : (s.setJob p j).port q = s.port q := rfl

@[simp] theorem State.session_setJob (s : State) (p q : Port) (j : Option Job) :
    (s.setJob p j).session q = s.session q := rfl

@[simp] theorem State.port_setSlot (s : State) (i : SlotId) (x : Slot) (q : Port) :
    (setSlot s i x).port q = s.port q := rfl

@[simp] theorem State.session_setSlot (s : State) (i : SlotId) (x : Slot) (q : Port) :
    (setSlot s i x).session q = s.session q := rfl

@[simp] theorem State.job_setSlot (s : State) (i : SlotId) (x : Slot) (q : Port) :
    (setSlot s i x).job q = s.job q := rfl

@[simp] theorem State.port_setContent (s : State) (i : SlotId) (c : Content) (q : Port) :
    (setContent s i c).port q = s.port q := rfl

@[simp] theorem State.session_setContent (s : State) (i : SlotId) (c : Content) (q : Port) :
    (setContent s i c).session q = s.session q := rfl

@[simp] theorem State.job_setContent (s : State) (i : SlotId) (c : Content) (q : Port) :
    (setContent s i c).job q = s.job q := rfl

@[simp] theorem State.session_settleNotices (s : State) (q : Port) : (settleNotices s).session q = s.session q := rfl

@[simp] theorem State.job_settleNotices (s : State) (q : Port) : (settleNotices s).job q = s.job q := rfl

/-- What settling the NOTICE lines does, whole: only the line of each port changes, to what R137 gives. -/
@[simp] theorem State.port_settleNotices (s : State) (q : Port) :
    (settleNotices s).port q = { s.port q with noticeLine := noticeDue s q } := by cases q <;> rfl

/-! ### Slots after an update -/

theorem slotAt_eq_of_table {s t : State} (h : t.table = s.table) (i : SlotId) : slotAt t i = slotAt s i := by
  simp only [slotAt, h]

@[simp] theorem slotAt_modPort (s : State) (p : Port) (g : PortUnit → PortUnit) (i : SlotId) :
    slotAt (s.modPort p g) i = slotAt s i := rfl

@[simp] theorem slotAt_modSession (s : State) (p : Port) (g : Session → Session) (i : SlotId) :
    slotAt (s.modSession p g) i = slotAt s i := rfl

@[simp] theorem slotAt_setJob (s : State) (p : Port) (j : Option Job) (i : SlotId) :
    slotAt (s.setJob p j) i = slotAt s i := rfl

@[simp] theorem slotAt_settleNotices (s : State) (i : SlotId) : slotAt (settleNotices s) i = slotAt s i := rfl

@[simp] theorem slotAt_setSlot_same (s : State) (i : SlotId) (x : Slot) : slotAt (setSlot s i x) i = x := by
  simp [slotAt, setSlot]

@[simp] theorem slotAt_setSlot_other (s : State) {i j : SlotId} (x : Slot) (h : j ≠ i) :
    slotAt (setSlot s i x) j = slotAt s j := by
  have hv : i.val ≠ j.val := fun e => h (Fin.ext e.symm)
  simp [slotAt, setSlot, hv]

theorem slotAt_setSlot (s : State) (i j : SlotId) (x : Slot) :
    slotAt (setSlot s i x) j = if j = i then x else slotAt s j := by
  by_cases h : j = i
  · subst h; simp
  · simp [h]

@[simp] theorem slotAt_setContent_same (s : State) (i : SlotId) (c : Content) :
    slotAt (setContent s i c) i = { slotAt s i with content := c } := by simp [setContent]

@[simp] theorem slotAt_setContent_other (s : State) {i j : SlotId} (c : Content) (h : j ≠ i) :
    slotAt (setContent s i c) j = slotAt s j := by simp [setContent, h]

theorem table_ext {s t : State} (h : ∀ i, slotAt t i = slotAt s i) : t.table = s.table := by
  apply Subtype.ext
  apply List.ext_getElem
  · rw [s.table.property, t.table.property]
  · intro n h1 h2
    have hn : n < 128 := by rw [← s.table.property]; exact h2
    have := h ⟨n, hn⟩
    simpa [slotAt] using this

end Sys2Proof.Machine
end

