-- ==== Sys2Proof/Laws/Handles.lean ====
section
/-! SUPPORT. Handles (R6 to R8) and the fields of frames (R187, Table 57): what is read back from what is written. -/

namespace Sys2Proof.Machine

/-! ### Fields of two and three bytes -/

theorem toNat_append8 {w : Nat} (x : BitVec w) (y : Byte) : (x ++ y).toNat = x.toNat * 256 + y.toNat := by
  rw [BitVec.toNat_append, ← Nat.shiftLeft_add_eq_or_of_lt y.isLt, Nat.shiftLeft_eq]

theorem toNat_ofBytes2 (hi lo : Byte) : (ofBytes2 hi lo).toNat = hi.toNat * 256 + lo.toNat := toNat_append8 hi lo

theorem toNat_ofBytes3 (hi mid lo : Byte) :
    (ofBytes3 hi mid lo).toNat = (hi.toNat * 256 + mid.toNat) * 256 + lo.toNat := by
  rw [← toNat_append8 hi mid]
  exact toNat_append8 (hi ++ mid) lo

theorem toNat_byteOf {w : Nat} (x : BitVec w) (k : Nat) : (x.extractLsb' k 8).toNat = x.toNat / 2 ^ k % 256 := by
  simp [BitVec.extractLsb'_toNat, Nat.shiftRight_eq_div_pow]

@[simp] theorem ofBytes2_bytes2 (x : Half) : ofBytes2 (x.extractLsb' 8 8) (x.extractLsb' 0 8) = x := by
  apply BitVec.eq_of_toNat_eq
  rw [toNat_ofBytes2, toNat_byteOf, toNat_byteOf]
  have := x.isLt
  omega

@[simp] theorem ofBytes3_bytes3 (x : BitVec 24) :
    ofBytes3 (x.extractLsb' 16 8) (x.extractLsb' 8 8) (x.extractLsb' 0 8) = x := by
  apply BitVec.eq_of_toNat_eq
  rw [toNat_ofBytes3, toNat_byteOf, toNat_byteOf, toNat_byteOf]
  have := x.isLt
  omega

/-! ### Handles -/

theorem toNat_handleOf (g : Byte) (i : SlotId) : (handleOf g i).toNat = g.toNat * 256 + i.val := by
  have h : (BitVec.ofNat 8 i.val).toNat = i.val := by
    rw [BitVec.toNat_ofNat]
    have := i.isLt
    omega
  rw [← h]; exact toNat_append8 g _

@[simp] theorem handleGen_handleOf (g : Byte) (i : SlotId) : handleGen (handleOf g i) = g := by
  apply BitVec.eq_of_toNat_eq
  rw [handleGen, toNat_byteOf, toNat_handleOf]
  have := i.isLt
  have := g.isLt
  omega

theorem handleLow_handleOf (g : Byte) (i : SlotId) : ((handleOf g i).extractLsb' 0 8).toNat = i.val := by
  rw [toNat_byteOf, toNat_handleOf]
  have := i.isLt
  omega

@[simp] theorem handleSlot_handleOf (g : Byte) (i : SlotId) : handleSlot (handleOf g i) = some i := by
  have h := handleLow_handleOf g i
  have hi : ((handleOf g i).extractLsb' 0 8).toNat < 128 := by rw [h]; exact i.isLt
  simp only [handleSlot, dif_pos hi]
  exact congrArg some (Fin.ext h)

@[simp] theorem handleSlot_slotHandle (s : State) (i : SlotId) : handleSlot (slotHandle s i) = some i :=
  handleSlot_handleOf _ _

@[simp] theorem slotHandle_modSession (s : State) (p : Port) (g : Session → Session) (i : SlotId) :
    slotHandle (s.modSession p g) i = slotHandle s i := rfl

@[simp] theorem slotHandle_modPort (s : State) (p : Port) (g : PortUnit → PortUnit) (i : SlotId) :
    slotHandle (s.modPort p g) i = slotHandle s i := rfl

/-- A handle does not change with the record (R5, R6). -/
@[simp] theorem slotHandle_setContent (s : State) (i j : SlotId) (c : Content) :
    slotHandle (setContent s i c) j = slotHandle s j := by
  by_cases h : j = i
  · subst h; simp [slotHandle]
  · simp [slotHandle, h]

/-- A handle is the one of the slot its low byte names, with its high byte as the generation. -/
theorem eq_handleOf {h : Half} {i : SlotId} (hs : handleSlot h = some i) : h = handleOf (handleGen h) i := by
  by_cases hlt : (h.extractLsb' 0 8).toNat < 128
  · simp only [handleSlot, dif_pos hlt, Option.some.injEq] at hs
    apply BitVec.eq_of_toNat_eq
    rw [toNat_handleOf, handleGen, toNat_byteOf, ← congrArg Fin.val hs]
    simp only [toNat_byteOf]
    have := h.isLt
    omega
  · simp only [handleSlot, dif_neg hlt, reduceCtorEq] at hs

theorem handleOf_inj {g g' : Byte} {i j : SlotId} (h : handleOf g i = handleOf g' j) : g = g' ∧ i = j := by
  have h1 := congrArg handleGen h
  have h2 := congrArg handleSlot h
  simp at h1 h2
  exact ⟨h1, h2⟩

/-- R7, cases 1 to 3: the handle resolves to the record of any holder. -/
theorem resolveAny_iff {s : State} {h : Half} {i : SlotId} :
    resolveAny s h = some i ↔ h = slotHandle s i ∧ (slotAt s i).content ≠ .free := by
  unfold resolveAny
  cases hs : handleSlot h with
  | none =>
    simp only [reduceCtorEq, false_iff]
    rintro ⟨rfl, -⟩
    simp at hs
  | some j =>
    have hj := eq_handleOf hs
    by_cases hf : isFree s j || !(handleGen h == (slotAt s j).gen)
    · simp only [hf, if_true, reduceCtorEq, false_iff]
      rintro ⟨rfl, hn⟩
      simp only [handleSlot_slotHandle, Option.some.injEq] at hs
      subst hs
      simp [isFree, slotHandle, hn] at hf
    · simp only [hf, Bool.false_eq_true, if_false, Option.some.injEq]
      simp only [isFree, Bool.or_eq_true, beq_iff_eq, Bool.not_eq_true', beq_eq_false_iff_ne, ne_eq, not_or,
        Decidable.not_not] at hf
      constructor
      · rintro rfl
        refine ⟨?_, hf.1⟩
        rw [slotHandle, ← hf.2]; exact hj
      · rintro ⟨rfl, -⟩
        simp only [handleSlot_slotHandle, Option.some.injEq] at hs
        exact hs.symm

theorem ownedBy_iff {s : State} {p : Port} {i : SlotId} :
    ownedBy s p i = true ↔ ∃ c, (slotAt s i).content.claimed = some c ∧ c.holder = p := by
  unfold ownedBy
  cases (slotAt s i).content.claimed <;> simp

theorem claimed_eq_none {x : Content} : x.claimed = none ↔ x = .free := by
  cases x <;> simp [Content.claimed]

/-- R7: the handle resolves for a port. -/
theorem resolve_some {s : State} {p : Port} {h : Half} {i : SlotId} :
    resolve s p h = some i ↔ resolveAny s h = some i ∧ ownedBy s p i = true := by
  unfold resolve
  cases hr : resolveAny s h with
  | none => simp
  | some j =>
    by_cases ho : ownedBy s p j = true
    · simp only [ho, if_true, Option.some.injEq]
      exact ⟨fun h => ⟨h, h ▸ ho⟩, fun h => h.1⟩
    · simp only [ho]
      simp only [Bool.false_eq_true, if_false, reduceCtorEq, Option.some.injEq, false_iff, not_and]
      rintro rfl; exact ho

theorem resolve_handle {s : State} {p : Port} {h : Half} {i : SlotId} (hr : resolve s p h = some i) :
    h = slotHandle s i := (resolveAny_iff.1 (resolve_some.1 hr).1).1

theorem resolve_owner {s : State} {p : Port} {h : Half} {i : SlotId} (hr : resolve s p h = some i) {c : Claimed}
    (hc : (slotAt s i).content.claimed = some c) : c.holder = p := by
  obtain ⟨d, hd, rfl⟩ := ownedBy_iff.1 (resolve_some.1 hr).2
  rw [hc] at hd; cases hd; rfl

end Sys2Proof.Machine
end

