-- ==== Sys2Proof/Laws/Scan.lean ====
section
/-! SUPPORT. What one grant scan can do, said once (R60 to R64). -/

namespace Sys2Proof.Machine

/-! ### The tests in Bool and in words -/

@[simp] theorem overlaps_iff (a b : Range) : overlaps a b = true ↔ Overlap a b := by
  simp [overlaps, Overlap]

@[simp] theorem bothShared_iff (a b : Mode) : bothShared a b = true ↔ a = .shared ∧ b = .shared := by
  simp [bothShared]

@[simp] theorem conflicts_iff (p : Port) (m : Mode) (r : Range) (q : Port) (m' : Mode) (r' : Range) :
    conflicts p m r q m' r' = true ↔ Conflict p m r q m' r' := by
  have h : (bothShared m m' = false) ↔ ¬ (m = .shared ∧ m' = .shared) := by
    rw [← bothShared_iff, Bool.not_eq_true]
  simp only [conflicts, Bool.and_eq_true, Bool.not_eq_true', beq_eq_false_iff_ne, overlaps_iff, h, Conflict]
  tauto

theorem mem_allSlots (i : SlotId) : i ∈ allSlots := List.mem_finRange i

theorem heldRecord_eq_some {x : Content} {c : Claimed} :
    x.heldRecord = some c ↔ ∃ l n, x = .held c l n := by
  cases x <;> simp [Content.heldRecord]

theorem held_iff {s : State} {i : SlotId} {c : Claimed} :
    Held s i c ↔ (slotAt s i).content.heldRecord = some c := heldRecord_eq_some.symm

theorem heldConflict_iff {s : State} {p : Port} {m : Mode} {r : Range} {i : SlotId} :
    heldConflict s p m r i = true ↔ ∃ c, Held s i c ∧ Conflict p m r c.holder c.mode c.range := by
  simp only [heldConflict, held_iff]
  cases h : (slotAt s i).content.heldRecord with
  | none => simp
  | some c => simp

@[simp] theorem entryConflict_iff (p : Port) (m : Mode) (r : Range) (e : WaitEntry) :
    entryConflict p m r e = true ↔ Conflict p m r e.port e.mode e.range := by simp [entryConflict]

theorem holderBlocks_iff {s : State} {p : Port} {m : Mode} {r : Range} :
    HolderBlocks s p m r ↔ ∃ i, heldConflict s p m r i = true := by
  simp only [HolderBlocks, heldConflict_iff]

/-- R60: the scan's test of an entry, in words. -/
theorem grantable_iff {s : State} {older : List WaitEntry} {e : WaitEntry} :
    grantable s older e = true ↔
      (∀ i c, Held s i c → ¬ Conflict e.port e.mode e.range c.holder c.mode c.range) ∧
        ∀ o ∈ older, ¬ Conflict e.port e.mode e.range o.port o.mode o.range := by
  have h1 : (allSlots.any (heldConflict s e.port e.mode e.range) = false) ↔
      ∀ i c, Held s i c → ¬ Conflict e.port e.mode e.range c.holder c.mode c.range := by
    rw [← Bool.not_eq_true, List.any_eq_true]
    constructor
    · intro h i c hc hx
      exact h ⟨i, mem_allSlots i, heldConflict_iff.2 ⟨c, hc, hx⟩⟩
    · rintro h ⟨i, -, hi⟩
      obtain ⟨c, hc, hx⟩ := heldConflict_iff.1 hi
      exact h i c hc hx
  have h2 : (older.any (entryConflict e.port e.mode e.range) = false) ↔
      ∀ o ∈ older, ¬ Conflict e.port e.mode e.range o.port o.mode o.range := by
    rw [← Bool.not_eq_true, List.any_eq_true]
    simp only [entryConflict_iff]
    push Not
    rfl
  simp only [grantable, Bool.and_eq_true, Bool.not_eq_true', h1, h2]

/-! ### What a grant makes of a slot -/

/-- A slot after no or some grants. -/
structure Grown (x y : Slot) : Prop where
  gen      : y.gen = x.gen
  free     : x.content = .free → y.content = .free
  lapsed   : ∀ c l e, x.content = .lapsed c l e → y.content = .lapsed c l e
  reserved : ∀ c, x.content = .reserved c → y.content = .reserved c ∨
    ∃ m term, y.content = .held { c with mode := m } ⟨term, 0, false⟩ term
  held     : ∀ c l n, x.content = .held c l n →
    ∃ m, y.content = .held { c with mode := m } l n ∧ (m = c.mode ∨ m = .exclusive)

theorem Grown.refl (x : Slot) : Grown x x :=
  ⟨rfl, id, fun _ _ _ h => h, fun _ h => .inl h, fun c _ _ h => ⟨c.mode, h, .inl rfl⟩⟩

theorem Grown.trans {x y z : Slot} (h : Grown x y) (k : Grown y z) : Grown x z := by
  refine ⟨k.gen.trans h.gen, fun hx => k.free (h.free hx), fun c l e hx => k.lapsed _ _ _ (h.lapsed _ _ _ hx), ?_, ?_⟩
  · intro c hx
    rcases h.reserved c hx with hy | ⟨m, t, hy⟩
    · exact k.reserved c hy
    · obtain ⟨m', hz, -⟩ := k.held _ _ _ hy
      exact .inr ⟨m', t, hz⟩
  · intro c l n hx
    obtain ⟨m, hy, hm⟩ := h.held c l n hx
    obtain ⟨m', hz, hm'⟩ := k.held _ _ _ hy
    refine ⟨m', hz, ?_⟩
    rcases hm' with rfl | rfl
    · exact hm
    · exact .inr rfl

theorem grown_granted (e : WaitEntry) (x : Slot) : Grown x { x with content := grantedContent e x.content } := by
  obtain ⟨g, c⟩ := x
  cases hk : e.kind with
  | claim term label =>
    cases c with
    | reserved c =>
      refine ⟨rfl, nofun, nofun, fun c' h => .inr ⟨c.mode, term, ?_⟩, nofun⟩
      cases h
      simp [grantedContent, hk]
    | free => simpa [grantedContent, hk] using Grown.refl _
    | held c l n => simpa [grantedContent, hk] using Grown.refl _
    | lapsed c l x => simpa [grantedContent, hk] using Grown.refl _
  | upgrade =>
    cases c with
    | held c l n =>
      refine ⟨rfl, nofun, nofun, nofun, fun c' l' n' h => ⟨.exclusive, ?_, .inr rfl⟩⟩
      cases h
      simp [grantedContent, hk]
    | free => simpa [grantedContent, hk] using Grown.refl _
    | reserved c => simpa [grantedContent, hk] using Grown.refl _
    | lapsed c l x => simpa [grantedContent, hk] using Grown.refl _

/-- A HELD conflict outlasts grants: a record's mode only strengthens. -/
theorem heldConflict_of_grown {s t : State} {p : Port} {m : Mode} {r : Range} {i : SlotId}
    (h : Grown (slotAt s i) (slotAt t i)) (hc : heldConflict s p m r i = true) : heldConflict t p m r i = true := by
  obtain ⟨c, ⟨l, n, hx⟩, h1, h2, h3⟩ := heldConflict_iff.1 hc
  obtain ⟨m', hy, hm⟩ := h.held _ _ _ hx
  refine heldConflict_iff.2 ⟨_, ⟨_, _, hy⟩, h1, h2, ?_⟩
  rcases hm with rfl | rfl
  · exact h3
  · simp

/-! ### One grant -/

/-- What one grant may have changed. -/
structure GrantStep (e : WaitEntry) (s t : State) : Prop where
  slots    : ∀ i, Grown (slotAt s i) (slotAt t i)
  others   : ∀ i, handleSlot e.ticket ≠ some i → slotAt t i = slotAt s i
  ports    : t.ports = s.ports
  waitList : t.waitList = s.waitList
  sessions : ∀ q, ScannedSession (s.session q) (t.session q)
  alone    : ∀ q, q ≠ e.port → t.session q = s.session q
  board    : board t = board s

theorem scannedSession_refl (x : Session) : ScannedSession x x := ⟨List.prefix_refl _, rfl⟩

theorem scannedSession_trans {x y z : Session} (h : ScannedSession x y) (k : ScannedSession y z) :
    ScannedSession x z := by
  refine ⟨h.1.trans k.1, ?_⟩
  have h2 := h.2
  rw [← k.2] at h2
  exact h2

theorem grantStep (s : State) (e : WaitEntry) : GrantStep e s (grantEntry s e) := by
  unfold grantEntry
  cases hh : handleSlot e.ticket with
  | none =>
    exact ⟨fun _ => Grown.refl _, fun _ _ => rfl, rfl, rfl, fun _ => scannedSession_refl _, fun _ _ => rfl, rfl⟩
  | some i =>
    simp only [fillPlace]
    refine ⟨?_, ?_, rfl, rfl, ?_, ?_, rfl⟩
    · intro j
      by_cases hj : j = i
      · subst hj
        simpa using grown_granted e (slotAt s j)
      · simpa [hj] using Grown.refl (slotAt s j)
    · intro j hj
      have : j ≠ i := fun h => hj (by rw [h, hh])
      simp [this]
    · intro q
      rw [State.session_modSession]
      split
      · next h => subst h; exact ⟨by simp, rfl⟩
      · exact scannedSession_refl _
    · intro q hq
      rw [State.session_modSession, if_neg hq]
      rfl

/-! ### The pass -/

/-- Every entry of a list is blocked, by a HELD record in `s` or by an older one of the list. -/
def AllBlocked (s : State) (l : List WaitEntry) : Prop :=
  ∀ older e younger, l = older ++ e :: younger →
    (∃ i, heldConflict s e.port e.mode e.range i = true) ∨
      ∃ o ∈ older, Conflict e.port e.mode e.range o.port o.mode o.range

/-- What holds of a pass that began in `s`, with the entries `es` still to be reached. -/
structure PassOk (s : State) (x : Pass) (es : List WaitEntry) : Prop where
  slots    : ∀ i, Grown (slotAt s i) (slotAt x.state i)
  unnamed  : ∀ i, (∀ e ∈ s.waitList, handleSlot e.ticket ≠ some i) → slotAt x.state i = slotAt s i
  ports    : x.state.ports = s.ports
  sessions : ∀ q, ScannedSession (s.session q) (x.state.session q)
  board    : board x.state = board s
  entries  : (x.stay ++ es).Sublist s.waitList
  granted  : ∀ e ∈ x.granted, e ∈ s.waitList
  blocked  : AllBlocked x.state x.stay

theorem scanPass_ok {s : State} {x : Pass} {es : List WaitEntry} (h : PassOk s x es) :
    PassOk s (scanPass x es) [] := by
  induction es generalizing x with
  | nil => exact h
  | cons e es ih =>
    have he : e ∈ s.waitList := h.entries.subset (by simp)
    unfold scanPass
    split
    · next hg =>
      have g := grantStep x.state e
      refine ih ⟨fun i => (h.slots i).trans (g.slots i), ?_, g.ports.trans h.ports,
        fun q => scannedSession_trans (h.sessions q) (g.sessions q), g.board.trans h.board, ?_, ?_, ?_⟩
      · intro i hi
        exact (g.others i (hi e he)).trans (h.unnamed i hi)
      · refine List.Sublist.trans ?_ h.entries
        exact List.Sublist.append_left (List.sublist_cons_self e es) _
      · intro o ho
        rcases List.mem_append.1 ho with ho | ho
        · exact h.granted o ho
        · rw [List.mem_singleton.1 ho]; exact he
      · intro older o younger hl
        rcases h.blocked older o younger hl with ⟨i, hi⟩ | hb
        · exact .inl ⟨i, heldConflict_of_grown (g.slots i) hi⟩
        · exact .inr hb
    · next hg =>
      refine ih ⟨h.slots, h.unnamed, h.ports, h.sessions, h.board, by simpa using h.entries, h.granted, ?_⟩
      intro older o younger hl
      have hl' : x.stay ++ [e] = older ++ o :: younger := hl
      rcases List.eq_nil_or_concat younger with rfl | ⟨ys, y, rfl⟩
      · have := List.append_inj' hl' rfl
        obtain ⟨rfl, ho⟩ := this
        cases ho
        by_contra hcon
        push Not at hcon
        refine hg (grantable_iff.2 ⟨?_, hcon.2⟩)
        intro i c hc hx
        exact hcon.1 i (heldConflict_iff.2 ⟨c, hc, hx⟩)
      · have hl2 : x.stay ++ [e] = (older ++ o :: ys) ++ [y] := by simpa using hl'
        have := List.append_inj' hl2 rfl
        exact h.blocked older o ys this.1

theorem passOk_start (s : State) : PassOk s ⟨s, [], []⟩ s.waitList :=
  ⟨fun _ => Grown.refl _, fun _ _ => rfl, rfl, fun _ => scannedSession_refl _, rfl, by simp, by simp, by
    intro older e younger h
    simp at h⟩

/-! ### CONTENDED after the scan -/

/-- What setting CONTENDED may have changed. -/
structure ContendStep (s t : State) : Prop where
  table    : t.table = s.table
  waitList : t.waitList = s.waitList
  sessions : t.sessions = s.sessions
  ports    : ∀ q, ScannedPort (s.port q) (t.port q)
  board    : board t = board s

theorem scannedPort_refl (u : PortUnit) : ScannedPort u u := ⟨id, rfl⟩

theorem scannedPort_trans {u v w : PortUnit} (h : ScannedPort u v) (k : ScannedPort v w) : ScannedPort u w := by
  refine ⟨fun hu => k.1 (h.1 hu), ?_⟩
  have h2 := h.2
  rw [← k.2] at h2
  exact h2

theorem contendStep_refl (s : State) : ContendStep s s := ⟨rfl, rfl, rfl, fun _ => scannedPort_refl _, rfl⟩

theorem contendStep_trans {s t u : State} (h : ContendStep s t) (k : ContendStep t u) : ContendStep s u :=
  ⟨k.table.trans h.table, k.waitList.trans h.waitList, k.sessions.trans h.sessions,
    fun q => scannedPort_trans (h.ports q) (k.ports q), k.board.trans h.board⟩

theorem contendStep_raise (s : State) (p : Port) : ContendStep s (raiseContended s p) := by
  refine ⟨rfl, rfl, rfl, ?_, rfl⟩
  intro q
  simp only [raiseContended, State.port_modPort]
  split
  · next h => subst h; exact ⟨fun _ => rfl, rfl⟩
  · exact scannedPort_refl _

theorem contendStep_granted (s : State) (e : WaitEntry) : ContendStep s (contendGranted s e) := by
  unfold contendGranted
  split
  · exact contendStep_refl s
  · split
    · split
      · exact contendStep_raise s _
      · exact contendStep_refl s
    · exact contendStep_refl s

theorem contendStep_foldl (l : List WaitEntry) (s : State) : ContendStep s (l.foldl contendGranted s) := by
  induction l generalizing s with
  | nil => exact contendStep_refl s
  | cons e l ih => exact contendStep_trans (contendStep_granted s e) (ih _)

/-! ### The scan -/

theorem heldConflict_congr {s t : State} (h : t.table = s.table) (p : Port) (m : Mode) (r : Range) (i : SlotId) :
    heldConflict t p m r i = heldConflict s p m r i := by
  simp only [heldConflict, slotAt_eq_of_table h]

/-- R60 to R64: everything a grant scan can do. -/
theorem grantScan_scanned (s : State) : Scanned none s (grantScan s) := by
  have h := scanPass_ok (passOk_start s)
  have c := contendStep_foldl (scanPass ⟨s, [], []⟩ s.waitList).granted
    { (scanPass ⟨s, [], []⟩ s.waitList).state with waitList := (scanPass ⟨s, [], []⟩ s.waitList).stay }
  change ContendStep _ (grantScan s) at c
  have hs : ∀ i, slotAt (grantScan s) i = slotAt (scanPass ⟨s, [], []⟩ s.waitList).state i :=
    fun i => slotAt_eq_of_table c.table i
  refine ⟨?_, ?_, ?_, ?_, ?_⟩
  · intro i
    have g := h.slots i
    rw [← hs i] at g
    exact ⟨g.gen, g.free, g.lapsed, fun hi => (hs i).trans (h.unnamed i hi), g.reserved, g.held⟩
  · rw [c.waitList]
    simpa using h.entries
  · intro q
    have : (grantScan s).session q = (scanPass ⟨s, [], []⟩ s.waitList).state.session q := by
      simp only [State.session, c.sessions]
    rw [this]; exact h.sessions q
  · intro q _
    have hp : (scanPass ⟨s, [], []⟩ s.waitList).state.port q = s.port q := by simp only [State.port, h.ports]
    have := c.ports q
    simp only [State.port] at this hp ⊢
    rwa [hp] at this
  · exact c.board.trans h.board

/-- R60: what a scan leaves in the list is blocked. -/
theorem grantScan_blocked (s : State) : EachEntryBlocked (grantScan s) := by
  have h := scanPass_ok (passOk_start s)
  have c := contendStep_foldl (scanPass ⟨s, [], []⟩ s.waitList).granted
    { (scanPass ⟨s, [], []⟩ s.waitList).state with waitList := (scanPass ⟨s, [], []⟩ s.waitList).stay }
  change ContendStep _ (grantScan s) at c
  intro older e younger hl
  rw [c.waitList] at hl
  rcases h.blocked older e younger hl with ⟨i, hi⟩ | hb
  · left
    have ht : (grantScan s).table = (scanPass ⟨s, [], []⟩ s.waitList).state.table := c.table
    rw [← heldConflict_congr ht] at hi
    obtain ⟨d, hd, hx⟩ := heldConflict_iff.1 hi
    exact ⟨i, d, hd, hx⟩
  · exact .inr hb

@[simp] theorem board_grantScan (s : State) : board (grantScan s) = board s := (grantScan_scanned s).board

end Sys2Proof.Machine
end

