-- ==== Sys2Proof/Laws/Transport.lean ====
section
/-! SUPPORT. What the port unit does with a frame that completes: what it judges, what it hands on, and what the reply of
a command leaves, said once for all commands. -/

namespace Sys2Proof.Machine

/-- The port unit enters ANSWERING (R107). -/
def beginAnswer (s : State) (p : Port) : State := s.modPort p fun u => { u with sel := .answering, answer := none }

/-- The end of a command's happening: the reply is formed from the owner's answer, kept and sent, and the NOTICE lines
follow. -/
def replying (s : State) (p : Port) (tag : Byte) (a : Answer) : State :=
  settleNotices (answerFrame s p tag a true false)

/-! ### What the updates leave of the board -/

@[simp] theorem board_modPort (s : State) (p : Port) (g : PortUnit → PortUnit) : board (s.modPort p g) = board s := rfl
@[simp] theorem board_modSession (s : State) (p : Port) (g : Session → Session) :
    board (s.modSession p g) = board s := rfl
@[simp] theorem board_setSlot (s : State) (i : SlotId) (x : Slot) : board (setSlot s i x) = board s := rfl
@[simp] theorem board_setContent (s : State) (i : SlotId) (c : Content) : board (setContent s i c) = board s := rfl
@[simp] theorem board_settleNotices (s : State) : board (settleNotices s) = board s := rfl
@[simp] theorem board_withWaitList (s : State) (l : List WaitEntry) : board { s with waitList := l } = board s := rfl

/-! ### The arbiter (R150) -/

@[simp] theorem has_put (x : UserSet) (u v : User) (b : Bool) : (x.put u b).has v = if v = u then b else x.has v := by
  rcases u with (_ | _ | _ | _) | _ <;> rcases v with (_ | _ | _ | _) | _ <;> rfl

theorem mem_usersAfter (a u : User) : u ∈ usersAfter a := by
  rcases a with (_ | _ | _ | _) | _ <;> rcases u with (_ | _ | _ | _) | _ <;> decide

/-- R150: what the end of a service does to the arbiter, said once. -/
theorem servesNext_serveNext (a : Arbiter) : ServesNext a (serveNext a) := by
  constructor
  · intro before u after he hu hb
    have hn : nextServed a = some u := by
      rw [nextServed, List.find?_eq_some_iff_append]
      exact ⟨hu, before, after, he, fun v hv => by simp [hb v hv]⟩
    simp only [serveNext, hn, has_put, true_and]
    intro v
    by_cases h : v = u <;> simp [h]
  · intro h
    have hn : nextServed a = none := by simp [nextServed, List.find?_eq_none, h]
    simp only [serveNext, hn]

/-! ### Judgement -/

theorem commandOfCode_commandCode (c : Command) : commandOfCode (commandCode c) = some c := by cases c <;> decide

theorem commandCode_of_commandOfCode {b : Byte} {c : Command} (h : commandOfCode b = some c) : commandCode c = b := by
  have := List.find?_some h
  simpa using this

theorem length_of_lengthOk {c : Command} {args : List Byte} (hc : c ≠ .write) (h : lengthOk c args = true) :
    args.length ≤ 72 := by
  cases c <;> simp only [lengthOk, decide_eq_true_eq, ne_eq, not_true_eq_false] at h hc <;> omega

/-- R112: a frame that meets the tests of the judgement passes it. -/
theorem judge_passes {c : Command} {f : Frame} {s : State} (h : Passes c f s) (hl : lengthOk c f.args = true)
    (h72 : f.args.length ≤ 72) : judge s f.port (commandCode c) f = .passes c := by
  have h1 : ¬ (72 < f.args.length) := by omega
  have h2 : ((s.session f.port).checking && !checkMatches (commandCode c) f) = false := by
    rcases h.checked with h | h <;> simp [h]
  have h3 : (isSupervision c && !(f.port == .p0)) = false := by
    rcases h.role with h | h <;> simp [h]
  simp [judge, h.cleared, h1, h2, h3, hl, commandOfCode_commandCode]

theorem judge_beginAnswer (s : State) (p q : Port) (code : Byte) (f : Frame) :
    judge (beginAnswer s q) p code f = judge s p code f := rfl

/-! ### Frames that complete -/

theorem receives_of_completes {f : Frame} {s : State} (h : Completes f s) : receiving s f.port = true := by
  simp [receiving, h.receiving, h.resetHigh]

theorem notOutstanding_of_completes {f : Frame} {s : State} (h : Completes f s) :
    replyOutstanding (beginAnswer s f.port) f.port = false := by
  simp [replyOutstanding, beginAnswer, h.noRequest, h.noWaiting]

/-- What `frameEnds` does when no reply is outstanding. -/
theorem frameEnds_eq {f : Frame} {s : State} (h : Completes f s) (code : Byte) :
    frameEnds s f.port code f = takeFrame (beginAnswer s f.port) f.port code f false := by
  have h1 := notOutstanding_of_completes h
  simp only [beginAnswer] at h1
  simp [frameEnds, receives_of_completes h, h1, beginAnswer]

/-- What `frameCompletes` does when no reply is outstanding. -/
theorem frameCompletes_eq {f : Frame} {s : State} (h : Completes f s) (code : Byte) :
    frameCompletes code f s =
      settleNotices (arrive (takeFrame (beginAnswer s f.port) f.port code f false).1
        (takeFrame (beginAnswer s f.port) f.port code f false).2) := by
  simp [frameCompletes, receives_of_completes h, frameEnds_eq h]

/-- Every row that carries a frame is the completion of that frame. -/
theorem exec_rowOf {f : Frame} {s : State} (c : Command) (h : Completes f s) :
    exec (rowOf c f) s = .next (frameCompletes (commandCode c) f s) := by
  cases c <;> first
    | rfl
    | simp [rowOf, exec, execArbiterRequestArrives, receives_of_completes h, frameCompletes, arrivalEnds, accessCommand]

@[simp] theorem arrive_nil (s : State) : arrive s [] = s := by simp [arrive]

/-- A command of the 28 that are taken at once by their owner: what its row does, given what admission and the owner
do with it. -/
theorem exec_command {c : Command} {f : Frame} {s s1 : State} {a : Answer} (h : Passes c f s)
    (hl : lengthOk c f.args = true) (hc : c ≠ .read ∧ c ≠ .write ∧ c ≠ .replay)
    (ht : takeCommand c f.port f.tag f.args (beginAnswer s f.port) = (s1, a)) :
    exec (rowOf c f) s = .next (replying s1 f.port f.tag a) := by
  rw [exec_rowOf c h.toCompletes, frameCompletes_eq h.toCompletes]
  have h72 := length_of_lengthOk hc.2.1 hl
  have hj := judge_passes h hl h72
  rw [← judge_beginAnswer s f.port f.port] at hj
  have ht' : takeFrame (beginAnswer s f.port) f.port (commandCode c) f false =
      (runCommand (beginAnswer s f.port) f.port c f.tag f.args false, []) := by
    simp only [takeFrame, hj]
    cases c <;> first
      | rfl
      | simp at hc
  simp only [ht', arrive_nil, replying, runCommand, ht]

/-- An ATTACHED session admits every command but OPEN (R90). -/
theorem admission_attached {s : State} {p : Port} {c : Command} (h : (s.session p).state = .attached)
    (hc : c ≠ .open_) : admission s p c = none := by
  cases c <;> simp_all [admission]

/-- An admitted command is taken by its owner. -/
theorem takeCommand_attached {s : State} {p : Port} {c : Command} (h : (s.session p).state = .attached)
    (hc : c ≠ .open_) (tag : Byte) (args : List Byte) : takeCommand c p tag args s = ownerTakes c p tag args s := by
  simp [takeCommand, admission_attached h hc]

/-- What the row of an admitted command does, given what its owner does. -/
theorem exec_admitted {c : Command} {f : Frame} {s s1 : State} {a : Answer} (h : Admitted c f s)
    (hl : lengthOk c f.args = true)
    (hc : c ≠ .read ∧ c ≠ .write ∧ c ≠ .replay ∧ c ≠ .open_)
    (ht : ownerTakes c f.port f.tag f.args (beginAnswer s f.port) = (s1, a)) :
    exec (rowOf c f) s = .next (replying s1 f.port f.tag a) := by
  refine exec_command h.toPasses hl ⟨hc.1, hc.2.1, hc.2.2.1⟩ ?_
  rw [takeCommand_attached (s := beginAnswer s f.port) h.attached hc.2.2.2, ht]

/-- The row of a command, with what admission and the owner do written out. -/
theorem exec_takes {c : Command} {f : Frame} {s : State} (h : Passes c f s) (hl : lengthOk c f.args = true)
    (hc : c ≠ .read ∧ c ≠ .write ∧ c ≠ .replay) :
    exec (rowOf c f) s = .next (replying (takeCommand c f.port f.tag f.args (beginAnswer s f.port)).1 f.port f.tag
      (takeCommand c f.port f.tag f.args (beginAnswer s f.port)).2) := exec_command h hl hc rfl

/-- The row of an admitted command, with what its owner does written out. -/
theorem exec_owner {c : Command} {f : Frame} {s : State} (h : Admitted c f s) (hl : lengthOk c f.args = true)
    (hc : c ≠ .read ∧ c ≠ .write ∧ c ≠ .replay ∧ c ≠ .open_) :
    exec (rowOf c f) s = .next (replying (ownerTakes c f.port f.tag f.args (beginAnswer s f.port)).1 f.port f.tag
      (ownerTakes c f.port f.tag f.args (beginAnswer s f.port)).2) := exec_admitted h hl hc rfl

/-! ### What the end of a command's happening leaves -/

section Replying

variable (s : State) (p q : Port) (tag : Byte) (a : Answer)

@[simp] theorem replying_table : (replying s p tag a).table = s.table := rfl
@[simp] theorem replying_waitList : (replying s p tag a).waitList = s.waitList := rfl
@[simp] theorem replying_sessions : (replying s p tag a).sessions = s.sessions := rfl
@[simp] theorem replying_session : (replying s p tag a).session q = s.session q := rfl
@[simp] theorem replying_engine : (replying s p tag a).engine = s.engine := rfl
@[simp] theorem replying_job : (replying s p tag a).job q = s.job q := rfl
@[simp] theorem replying_array : (replying s p tag a).array = s.array := rfl
@[simp] theorem replying_arbiter : (replying s p tag a).arbiter = s.arbiter := rfl
@[simp] theorem replying_clock : (replying s p tag a).clock = s.clock := rfl
@[simp] theorem replying_params : (replying s p tag a).params = s.params := rfl
@[simp] theorem replying_resetLow : (replying s p tag a).resetLow = s.resetLow := rfl
@[simp] theorem replying_restartPending : (replying s p tag a).restartPending = s.restartPending := rfl
@[simp] theorem replying_clearNext : (replying s p tag a).clearNext = s.clearNext := rfl
@[simp] theorem replying_powerUps : (replying s p tag a).powerUps = s.powerUps := rfl
@[simp] theorem replying_pending : (replying s p tag a).pending = s.pending := rfl
@[simp] theorem replying_board : board (replying s p tag a) = board s := rfl
@[simp] theorem replying_slotAt (i : SlotId) : slotAt (replying s p tag a) i = slotAt s i := rfl

/-- The port unit after a change that leaves its notice flags and errors alone. -/
theorem noticeFlags_congr {s t : State} {p : Port} (h1 : (t.session p).held = (s.session p).held)
    (h2 : (t.port p).notices = (s.port p).notices) : noticeFlags t p = noticeFlags s p := by
  simp [noticeFlags, h1, h2]

theorem noticeDue_congr {s t : State} {p : Port} (h1 : t.session p = s.session p)
    (h2 : (t.port p).notices = (s.port p).notices) (h3 : t.resetLow = s.resetLow) : noticeDue t p = noticeDue s p := by
  simp [noticeDue, noticeActive, noticeFlags_congr (by rw [h1]) h2, h1, h3]

theorem attnByte_congr {s t : State} {p : Port} (h1 : t.session p = s.session p)
    (h2 : (t.port p).notices = (s.port p).notices) (h3 : (t.port p).errors = (s.port p).errors) :
    attnByte t p = attnByte s p := by
  simp [attnByte, noticeActive, noticeFlags_congr (by rw [h1]) h2, h1, h3]

theorem port_answerFrame_same :
    (answerFrame s p tag a true false).port p =
      { s.port p with
        answer := some ⟨mkReply a.code tag (attnByte s p) a.results, true⟩
        lastReply := some (mkReply a.code tag (attnByte s p) a.results) } := by
  simp [answerFrame, sendReply]

theorem port_answerFrame_other {q : Port} (h : q ≠ p) :
    (answerFrame s p tag a true false).port q = s.port q := by
  simp [answerFrame, sendReply, h]

theorem notices_answerFrame : ((answerFrame s p tag a true false).port q).notices = (s.port q).notices := by
  by_cases h : q = p
  · subst h; rw [port_answerFrame_same]
  · rw [port_answerFrame_other s p tag a h]

theorem noticeDue_answerFrame : noticeDue (answerFrame s p tag a true false) q = noticeDue s q :=
  noticeDue_congr rfl (notices_answerFrame s p q tag a) rfl

@[simp] theorem notices_replying : ((replying s p tag a).port q).notices = (s.port q).notices := by
  rw [replying, State.port_settleNotices]; exact notices_answerFrame s p q tag a

@[simp] theorem noticeDue_replying : noticeDue (replying s p tag a) q = noticeDue s q :=
  noticeDue_congr rfl (notices_replying s p q tag a) rfl

@[simp] theorem noticeFlags_replying : noticeFlags (replying s p tag a) q = noticeFlags s q :=
  noticeFlags_congr rfl (notices_replying s p q tag a)

/-- The port unit that answers, whole. -/
theorem port_replying_same :
    (replying s p tag a).port p =
      { s.port p with
        answer := some ⟨mkReply a.code tag (attnByte s p) a.results, true⟩
        lastReply := some (mkReply a.code tag (attnByte s p) a.results)
        noticeLine := noticeDue s p } := by
  rw [replying, State.port_settleNotices, port_answerFrame_same, noticeDue_answerFrame]

/-- Every other port unit, whole. -/
theorem port_replying_other {q : Port} (h : q ≠ p) :
    (replying s p tag a).port q = { s.port q with noticeLine := noticeDue s q } := by
  rw [replying, State.port_settleNotices, port_answerFrame_other s p tag a h, noticeDue_answerFrame]

@[simp] theorem attnByte_replying : attnByte (replying s p tag a) p = attnByte s p := by
  refine attnByte_congr rfl (notices_replying s p p tag a) ?_
  rw [port_replying_same]

end Replying

/-- The reply of a command, from the port unit as the owner left it. -/
theorem replied_replying {s : State} {p : Port} {u : PortUnit} (tag : Byte) (a : Answer)
    (h : s.port p = { u with sel := .answering, answer := none }) :
    Replied p tag a.code a.results u (replying s p tag a) := by
  simp [Replied, port_replying_same, h, PortUnit.replied]

/-- A port other than the one that answers is as it was, if the owner left it and its line agreed. -/
theorem othersKept_replying {s s1 : State} {p : Port} (tag : Byte) (a : Answer) (hl : LinesAgree s)
    (hr : s1.resetLow = s.resetLow)
    (h : ∀ q, q ≠ p → s1.session q = s.session q ∧ s1.port q = s.port q) :
    OthersKept p s (replying s1 p tag a) := by
  intro q hq
  obtain ⟨h1, h2⟩ := h q hq
  refine ⟨h1, ?_⟩
  rw [port_replying_other s1 p tag a hq, noticeDue_congr h1 (by rw [h2]) hr, h2, ← hl q]

@[simp] theorem session_beginAnswer (s : State) (p q : Port) : (beginAnswer s p).session q = s.session q := rfl
@[simp] theorem sessions_beginAnswer (s : State) (p : Port) : (beginAnswer s p).sessions = s.sessions := rfl
@[simp] theorem table_beginAnswer (s : State) (p : Port) : (beginAnswer s p).table = s.table := rfl
@[simp] theorem waitList_beginAnswer (s : State) (p : Port) : (beginAnswer s p).waitList = s.waitList := rfl
@[simp] theorem job_beginAnswer (s : State) (p q : Port) : (beginAnswer s p).job q = s.job q := rfl
@[simp] theorem engine_beginAnswer (s : State) (p : Port) : (beginAnswer s p).engine = s.engine := rfl
@[simp] theorem params_beginAnswer (s : State) (p : Port) : (beginAnswer s p).params = s.params := rfl
@[simp] theorem clock_beginAnswer (s : State) (p : Port) : (beginAnswer s p).clock = s.clock := rfl
@[simp] theorem resetLow_beginAnswer (s : State) (p : Port) : (beginAnswer s p).resetLow = s.resetLow := rfl
@[simp] theorem clearNext_beginAnswer (s : State) (p : Port) : (beginAnswer s p).clearNext = s.clearNext := rfl
@[simp] theorem restartPending_beginAnswer (s : State) (p : Port) :
    (beginAnswer s p).restartPending = s.restartPending := rfl
@[simp] theorem powerUps_beginAnswer (s : State) (p : Port) : (beginAnswer s p).powerUps = s.powerUps := rfl
@[simp] theorem pending_beginAnswer (s : State) (p : Port) : (beginAnswer s p).pending = s.pending := rfl
@[simp] theorem array_beginAnswer (s : State) (p : Port) : (beginAnswer s p).array = s.array := rfl
@[simp] theorem arbiter_beginAnswer (s : State) (p : Port) : (beginAnswer s p).arbiter = s.arbiter := rfl
@[simp] theorem board_beginAnswer (s : State) (p : Port) : board (beginAnswer s p) = board s := rfl
@[simp] theorem slotAt_beginAnswer (s : State) (p : Port) (i : SlotId) : slotAt (beginAnswer s p) i = slotAt s i := rfl
@[simp] theorem port_beginAnswer_same (s : State) (p : Port) :
    (beginAnswer s p).port p = { s.port p with sel := .answering, answer := none } := by simp [beginAnswer]
theorem port_beginAnswer_other (s : State) {p q : Port} (h : q ≠ p) : (beginAnswer s p).port q = s.port q := by
  simp [beginAnswer, h]
@[simp] theorem notices_beginAnswer (s : State) (p q : Port) :
    ((beginAnswer s p).port q).notices = (s.port q).notices := by
  by_cases h : q = p
  · subst h; simp
  · rw [port_beginAnswer_other s h]
@[simp] theorem noticeFlags_beginAnswer (s : State) (p q : Port) :
    noticeFlags (beginAnswer s p) q = noticeFlags s q := noticeFlags_congr rfl (notices_beginAnswer s p q)

/-- A command that is answered with nothing changed. -/
theorem answers_of_take {c : Command} {f : Frame} {s : State} {a : Answer} (h : Passes c f s) (hl : LinesAgree s)
    (hlen : lengthOk c f.args = true) (hc : c ≠ .read ∧ c ≠ .write ∧ c ≠ .replay)
    (ht : takeCommand c f.port f.tag f.args (beginAnswer s f.port) = (beginAnswer s f.port, a)) :
    Answers c f s a.code a.results := by
  refine ⟨_, exec_command h hlen hc ht, ⟨rfl, rfl, rfl, ?_⟩, rfl, ?_⟩
  · exact othersKept_replying _ _ hl rfl fun q hq => ⟨rfl, port_beginAnswer_other s hq⟩
  · exact replied_replying _ _ (port_beginAnswer_same s f.port)

/-- A command that its owner answers with nothing changed. -/
theorem answers_of_owner {c : Command} {f : Frame} {s : State} {a : Answer} (h : Admitted c f s) (hl : LinesAgree s)
    (hlen : lengthOk c f.args = true)
    (hc : c ≠ .read ∧ c ≠ .write ∧ c ≠ .replay ∧ c ≠ .open_)
    (ht : ownerTakes c f.port f.tag f.args (beginAnswer s f.port) = (beginAnswer s f.port, a)) :
    Answers c f s a.code a.results := by
  refine answers_of_take h.toPasses hl hlen ⟨hc.1, hc.2.1, hc.2.2.1⟩ ?_
  rw [takeCommand_attached (s := beginAnswer s f.port) h.attached hc.2.2.2, ht]

/-- The session context's answer to a command that it does not admit (R90). -/
theorem answers_of_admission {c : Command} {f : Frame} {s : State} {code : ResultCode} (h : Passes c f s)
    (hl : LinesAgree s) (hlen : lengthOk c f.args = true)
    (hc : c ≠ .read ∧ c ≠ .write ∧ c ≠ .replay) (ha : admission s f.port c = some code) :
    Answers c f s code [] := by
  refine answers_of_take (a := { code := code }) h hl hlen hc ?_
  have : admission (beginAnswer s f.port) f.port c = some code := ha
  simp [takeCommand, this, refuse]

end Sys2Proof.Machine
end

