-- ==== Sys2Proof/Laws/Locks.lean ====
section
/-! SUPPORT. The lock manager's tests in words, the arguments of its commands, and what a command that ends in a grant
scan leaves (R1, R13, R17, R43, R60). -/

namespace Sys2Proof.Machine

/-! ### Tests -/

@[simp] theorem rangeOk_iff (r : Range) : rangeOk r = true ↔ WellFormed r := by
  simp only [rangeOk, WellFormed, Bool.and_eq_true, decide_eq_true_eq]
  tauto

@[simp] theorem insideRange_iff (a b : Range) : insideRange a b = true ↔ Inside a b := by
  simp [insideRange, Inside]

theorem isUpgrade_iff {e : WaitEntry} : e.isUpgrade = true ↔ e.kind = .upgrade := by
  cases h : e.kind <;> simp [WaitEntry.isUpgrade, h]

theorem upgradeWaits_iff {s : State} {h : Half} :
    upgradeWaits s h = true ↔ ∃ e ∈ s.waitList, e.kind = .upgrade ∧ e.ticket = h := by
  simp [upgradeWaits, isUpgrade_iff]

/-- R43: the engaged condition, in words. -/
theorem engaged_iff {s : State} {i : SlotId} : engaged s i = true ↔ Engaged s i := by
  unfold engaged Engaged Held
  cases hc : (slotAt s i).content with
  | held c l n =>
    have hj : jobNames s c.holder (slotHandle s i) = true ↔
        ∃ j, s.job c.holder = some j ∧ (j.work.src = some (slotHandle s i) ∨ j.work.dst = some (slotHandle s i)) := by
      unfold jobNames
      cases s.job c.holder <;> simp
    simp only [Bool.or_eq_true, hj, upgradeWaits_iff]
    constructor
    · intro h; exact ⟨c, ⟨l, n, rfl⟩, h⟩
    · rintro ⟨d, ⟨l', n', hd⟩, h⟩
      cases hd; exact h
  | free => simp
  | reserved c => simp
  | lapsed c l e => simp

/-- R17: the test of OVERLAP_SELF, in words. -/
theorem overlapsSelf_iff {s : State} {p : Port} {r : Range} :
    overlapsSelf s p r = true ↔ (∃ i c, Held s i c ∧ c.holder = p ∧ Overlap r c.range) ∨
      ∃ e ∈ s.waitList, e.port = p ∧ e.isUpgrade = false ∧ Overlap r e.range := by
  have h1 : (allSlots.any fun i => match (slotAt s i).content.heldRecord with
      | some c => c.holder == p && overlaps r c.range
      | none => false) = true ↔ ∃ i c, Held s i c ∧ c.holder = p ∧ Overlap r c.range := by
    rw [List.any_eq_true]
    constructor
    · rintro ⟨i, -, h⟩
      cases hc : (slotAt s i).content.heldRecord with
      | none => simp [hc] at h
      | some c => exact ⟨i, c, held_iff.2 hc, by simpa [hc] using h⟩
    · rintro ⟨i, c, hc, h⟩
      exact ⟨i, mem_allSlots i, by simpa [held_iff.1 hc] using h⟩
  rw [overlapsSelf, Bool.or_eq_true]
  refine or_congr h1 ?_
  simp [and_assoc]

theorem holderBlockers_isEmpty {s : State} {p : Port} {m : Mode} {r : Range} :
    (holderBlockers s p m r).isEmpty = false ↔ HolderBlocks s p m r := by
  rw [holderBlocks_iff, holderBlockers, ← Bool.not_eq_true, List.isEmpty_iff, List.filter_eq_nil_iff]
  simp [mem_allSlots]

theorem waiterBlockers_isEmpty {s : State} {p : Port} {m : Mode} {r : Range} :
    (waiterBlockers s p m r).isEmpty = false ↔ WaiterBlocks s p m r := by
  rw [WaiterBlocks, waiterBlockers, ← Bool.not_eq_true, List.isEmpty_iff, List.filter_eq_nil_iff]
  simp

/-- R28, R38: a request has a blocker. -/
theorem blocked_iff {s : State} {p : Port} {m : Mode} {r : Range} :
    blocked s p m r = true ↔ HolderBlocks s p m r ∨ WaiterBlocks s p m r := by
  rw [← holderBlockers_isEmpty, ← waiterBlockers_isEmpty]
  simp [blocked]

theorem isFree_iff {s : State} {i : SlotId} : isFree s i = true ↔ (slotAt s i).content = .free := by simp [isFree]

/-- R13: the lowest-numbered FREE slot. -/
theorem lowestFree_iff {s : State} {i : SlotId} :
    lowestFree s = some i ↔ (slotAt s i).content = .free ∧ ∀ j, j < i → (slotAt s j).content ≠ .free := by
  have hs : allSlots.Pairwise (· < ·) := List.pairwise_lt_finRange 128
  rw [lowestFree, List.find?_eq_some_iff_append]
  constructor
  · rintro ⟨hi, as, bs, he, ha⟩
    refine ⟨isFree_iff.1 hi, fun j hj hf => ?_⟩
    have hm := mem_allSlots j
    rw [he] at hm hs
    rcases List.mem_append.1 hm with h | h
    · have := ha j h
      simp [isFree_iff.2 hf] at this
    · rcases List.mem_cons.1 h with rfl | h
      · exact lt_irrefl _ hj
      · exact lt_asymm hj (List.rel_of_pairwise_cons (List.pairwise_append.1 hs).2.1 h)
  · rintro ⟨hi, hl⟩
    refine ⟨isFree_iff.2 hi, ?_⟩
    obtain ⟨as, bs, he⟩ := List.append_of_mem (mem_allSlots i)
    refine ⟨as, bs, he, fun j hj => ?_⟩
    rw [he] at hs
    have := (List.pairwise_append.1 hs).2.2 j hj i (by simp)
    simpa [isFree] using hl j this

theorem lowestFree_none {s : State} : lowestFree s = none ↔ ∀ i, (slotAt s i).content ≠ .free := by
  simp [lowestFree, List.find?_eq_none, isFree, mem_allSlots]

/-! ### The waits-for relation (R52, R53, R57) -/

theorem heldByBlocks_iff {s : State} {p : Port} {m : Mode} {r : Range} {q : Port} :
    heldByBlocks s p m r q = true ↔
      ∃ i c, Held s i c ∧ c.holder = q ∧ Conflict p m r c.holder c.mode c.range := by
  simp only [heldByBlocks, holderBlockers, List.any_filter, List.any_eq_true, Bool.and_eq_true, heldConflict_iff]
  constructor
  · rintro ⟨i, -, ⟨c, hc, hx⟩, ho⟩
    refine ⟨i, c, hc, ?_, hx⟩
    obtain ⟨l, n, hl⟩ := hc
    simpa [ownedBy, Content.claimed, hl] using ho
  · rintro ⟨i, c, hc, ho, hx⟩
    refine ⟨i, mem_allSlots i, ⟨c, hc, hx⟩, ?_⟩
    obtain ⟨l, n, hl⟩ := hc
    simpa [ownedBy, Content.claimed, hl] using ho

/-- R57, step 1: the blocker set of a request, in words. -/
theorem inBlockerSet_iff {s : State} {p : Port} {m : Mode} {r : Range} {q : Port} :
    inBlockerSet s p m r q = true ↔ InBlockerSet s p m r q := by
  rw [inBlockerSet, Bool.or_eq_true, heldByBlocks_iff, InBlockerSet]
  simp [waiterBlockers, and_comm]

/-- R52: the blockers of an entry, in words. -/
theorem entryBlockedBy_iff {s : State} {older : List WaitEntry} {e : WaitEntry} {b : Port} :
    entryBlockedBy s older e b = true ↔ BlockerOf s older e b := by
  rw [entryBlockedBy, Bool.or_eq_true, heldByBlocks_iff, BlockerOf]
  simp

theorem waitsForFrom_iff {s : State} {a b : Port} (es : List WaitEntry) :
    ∀ before, waitsForFrom s a b before es = true ↔
      ∃ l e younger, es = l ++ e :: younger ∧ e.port = a ∧ BlockerOf s (before ++ l) e b := by
  induction es with
  | nil => simp [waitsForFrom]
  | cons x xs ih =>
    intro before
    simp only [waitsForFrom, Bool.or_eq_true, Bool.and_eq_true, beq_iff_eq, entryBlockedBy_iff, ih]
    constructor
    · rintro (⟨h1, h2⟩ | ⟨l, e, y, rfl, h1, h2⟩)
      · exact ⟨[], x, xs, rfl, h1, by simpa using h2⟩
      · exact ⟨x :: l, e, y, rfl, h1, by simpa using h2⟩
    · rintro ⟨l, e, y, he, h1, h2⟩
      cases l with
      | nil => obtain ⟨rfl, rfl⟩ := List.cons.inj he; exact .inl ⟨h1, by simpa using h2⟩
      | cons z zs =>
        obtain ⟨rfl, rfl⟩ := List.cons.inj he
        exact .inr ⟨zs, e, y, rfl, h1, by simpa using h2⟩

/-- R53: the waits-for relation, in words. -/
theorem waitsFor_iff {s : State} {a b : Port} : waitsFor s a b = true ↔ Waits s a b := by
  simp [waitsFor, waitsForFrom_iff, Waits]

theorem forall_port {P : Port → Prop} : (∀ p, P p) ↔ P .p0 ∧ P .p1 ∧ P .p2 ∧ P .p3 :=
  ⟨fun h => ⟨h _, h _, h _, h _⟩, fun ⟨h0, h1, h2, h3⟩ p => by cases p <;> assumption⟩

theorem leadsWithin_succ {s : State} {n : Nat} {b a : Port} :
    leadsWithin s (n + 1) b a = true ↔ Waits s b a ∨ ∃ c, Waits s b c ∧ leadsWithin s n c a = true := by
  have hm : ∀ c : Port, c ∈ allPorts := by rintro (_ | _ | _ | _) <;> decide
  simp [leadsWithin, waitsFor_iff, hm]

theorem leadsWithin_mono {s : State} {a : Port} : ∀ {n : Nat} {b : Port}, leadsWithin s n b a = true →
    leadsWithin s (n + 1) b a = true
  | 0, _, h => by simp [leadsWithin] at h
  | n + 1, b, h => by
    rcases leadsWithin_succ.1 h with h | ⟨c, h1, h2⟩
    · exact leadsWithin_succ.2 (.inl h)
    · exact leadsWithin_succ.2 (.inr ⟨c, h1, leadsWithin_mono h2⟩)

/-- The number of ports from which a chain of at most `n` steps leads to `a`. -/
def reachCount (s : State) (a : Port) (n : Nat) : Nat :=
  (leadsWithin s n .p0 a).toNat + (leadsWithin s n .p1 a).toNat + (leadsWithin s n .p2 a).toNat +
    (leadsWithin s n .p3 a).toNat

theorem leadsWithin_stable {s : State} {a : Port} (n : Nat) :
    (∀ b, leadsWithin s (n + 1) b a = true → leadsWithin s n b a = true) ∨ n < reachCount s a (n + 1) := by
  have grow : ∀ n, (∀ b, leadsWithin s (n + 1) b a = true → leadsWithin s n b a = true) ∨
      reachCount s a n < reachCount s a (n + 1) := by
    intro n
    have m : ∀ b, leadsWithin s n b a = true → leadsWithin s (n + 1) b a = true := fun b => leadsWithin_mono
    rw [forall_port] at m ⊢
    rw [reachCount, reachCount]
    revert m
    generalize leadsWithin s n .p0 a = x0, leadsWithin s n .p1 a = x1, leadsWithin s n .p2 a = x2,
      leadsWithin s n .p3 a = x3, leadsWithin s (n + 1) .p0 a = y0, leadsWithin s (n + 1) .p1 a = y1,
      leadsWithin s (n + 1) .p2 a = y2, leadsWithin s (n + 1) .p3 a = y3
    clear * -
    revert x0 x1 x2 x3 y0 y1 y2 y3
    decide
  induction n with
  | zero => rcases grow 0 with h | h; exacts [.inl h, .inr (by omega)]
  | succ n ih =>
    rcases ih with h | h
    · left
      intro b hb
      rcases leadsWithin_succ.1 hb with hw | ⟨c, h1, h2⟩
      · exact leadsWithin_succ.2 (.inl hw)
      · exact leadsWithin_succ.2 (.inr ⟨c, h1, h c h2⟩)
    · rcases grow (n + 1) with h' | h'; exacts [.inl h', .inr (by omega)]

/-- R53: one port leads to another, in words. -/
theorem leadsTo_iff {s : State} {b a : Port} : leadsTo s b a = true ↔ LeadsTo s b a := by
  have sound : ∀ n b, leadsWithin s n b a = true → LeadsTo s b a := by
    intro n
    induction n with
    | zero => simp [leadsWithin]
    | succ n ih =>
      intro b h
      rcases leadsWithin_succ.1 h with h | ⟨c, h1, h2⟩
      exacts [.single h, .head h1 (ih c h2)]
  have stable : ∀ b, leadsWithin s 5 b a = true → leadsWithin s 4 b a = true := by
    rcases leadsWithin_stable (s := s) (a := a) 4 with h | h
    · exact h
    · simp only [reachCount] at h
      have := fun x : Bool => Bool.toNat_le x
      have h0 := this (leadsWithin s 5 .p0 a)
      have h1 := this (leadsWithin s 5 .p1 a)
      have h2 := this (leadsWithin s 5 .p2 a)
      have h3 := this (leadsWithin s 5 .p3 a)
      simp only [Nat.reduceAdd] at h
      omega
  constructor
  · exact sound 4 b
  · intro h
    induction h using Relation.TransGen.head_induction_on with
    | single h => exact leadsWithin_succ.2 (.inl h)
    | head h _ ih => exact stable _ (leadsWithin_succ.2 (.inr ⟨_, h, ih⟩))

/-! ### Arguments (Table 57) -/

@[simp] theorem argHalf_head (h : Half) (l : List Byte) : argHalf (bytes2 h ++ l) 0 = h := by
  simp [argHalf, argByte, bytes2]
@[simp] theorem argHalf_bytes2 (h : Half) : argHalf (bytes2 h) 0 = h := by simp [argHalf, argByte, bytes2]
@[simp] theorem argHalf_second (h x : Half) : argHalf (bytes2 h ++ bytes2 x) 2 = x := by
  simp [argHalf, argByte, bytes2]
@[simp] theorem argNum_second (h x : Half) : argNum (bytes2 h ++ bytes2 x) 2 = x.toNat := by simp [argNum]
@[simp] theorem argNum_first (h x : Half) : argNum (bytes2 h ++ bytes2 x) 0 = h.toNat := by simp [argNum]
@[simp] theorem spanArgs_bytes (h x y : Half) : spanArgs (bytes2 h ++ bytes2 x ++ bytes2 y) = ⟨h, x, y⟩ := by
  simp [spanArgs, argHalf, argByte, bytes2]
@[simp] theorem length_bytes2 (h : Half) : (bytes2 h).length = 2 := rfl

theorem num2_toNat (h : Half) : num2 h.toNat = bytes2 h := by simp [num2]

@[simp] theorem claimArgs_claimBytes (a : ClaimArgs) : claimArgs (claimBytes a) = a := by
  simp [claimArgs, claimBytes, bytes2, argByte, argHalf]
@[simp] theorem accessArgs_accessBytes (a : AccessArgs) : accessArgs (accessBytes a) = a := by
  simp [accessArgs, accessBytes, bytes3, argByte]
@[simp] theorem copyArgs_copyBytes (a : CopyArgs) : copyArgs (copyBytes a) = a := by
  simp [copyArgs, copyBytes, bytes2, argByte, argHalf]
@[simp] theorem fillArgs_fillBytes (a : FillArgs) : fillArgs (fillBytes a) = a := by
  simp [fillArgs, fillBytes, bytes2, argByte, argHalf]
@[simp] theorem spanArgs_spanBytes (a : SpanArgs) : spanArgs (spanBytes a) = a := by
  simp [spanArgs, spanBytes, bytes2, argByte, argHalf]

@[simp] theorem modeOfByte_modeByte (m : Mode) : modeOfByte (modeByte m) = some m := by cases m <;> rfl
@[simp] theorem boolOfByte_boolByte (b : Bool) : boolOfByte (boolByte b) = some b := by cases b <;> rfl
@[simp] theorem noticeOfByte_noticeByte (x : NoticeSet) : noticeOfByte (noticeByte x) = some x := by
  rcases x with ⟨a, b, c, d, e⟩
  revert a b c d e
  decide +kernel

theorem modeOfByte_none {b : Byte} (h : 1 < b.toNat) : modeOfByte b = none := by
  have h0 : b ≠ 0 := by rintro rfl; simp at h
  have h1 : b ≠ 1 := by rintro rfl; simp at h
  exact (if_neg h0).trans (if_neg h1)

theorem noticeOfByte_none {b : Byte} (h : 32 ≤ b.toNat) : noticeOfByte b = none := by
  have : ¬ b < 32#8 := by simp only [BitVec.lt_def]; simp; omega
  simp only [noticeOfByte]; exact if_neg this

/-! ### Tests at the moment a command is taken -/

section Begin
variable (s : State) (p q : Port)

@[simp] theorem held_beginAnswer {i : SlotId} {c : Claimed} : Held (beginAnswer s p) i c ↔ Held s i c := Iff.rfl
@[simp] theorem slotHandle_beginAnswer (i : SlotId) : slotHandle (beginAnswer s p) i = slotHandle s i := rfl
@[simp] theorem resolve_beginAnswer (h : Half) : resolve (beginAnswer s p) q h = resolve s q h := rfl
@[simp] theorem resolveAny_beginAnswer (h : Half) : resolveAny (beginAnswer s p) h = resolveAny s h := rfl
@[simp] theorem engaged_beginAnswer (i : SlotId) : engaged (beginAnswer s p) i = engaged s i := rfl
@[simp] theorem upgradeWaits_beginAnswer (h : Half) : upgradeWaits (beginAnswer s p) h = upgradeWaits s h := rfl
@[simp] theorem contested_beginAnswer (c : Claimed) (l : Lease) : contested (beginAnswer s p) c l = contested s c l := rfl
@[simp] theorem renewTerm_beginAnswer (l : Lease) (n : Nat) : renewTerm (beginAnswer s p) l n = renewTerm s l n := rfl
@[simp] theorem overlapsSelf_beginAnswer (r : Range) : overlapsSelf (beginAnswer s p) q r = overlapsSelf s q r := rfl
@[simp] theorem lowestFree_beginAnswer : lowestFree (beginAnswer s p) = lowestFree s := rfl
@[simp] theorem blocked_beginAnswer (m : Mode) (r : Range) : blocked (beginAnswer s p) q m r = blocked s q m r := rfl
@[simp] theorem resolvedTerm_beginAnswer (n : Nat) : resolvedTerm (beginAnswer s p) n = resolvedTerm s n := rfl
@[simp] theorem conflictAnswer_beginAnswer (m : Mode) (r : Range) :
    conflictAnswer (beginAnswer s p) q m r = conflictAnswer s q m r := rfl
@[simp] theorem placesUsed_beginAnswer : placesUsed (beginAnswer s p) q = placesUsed s q := rfl
@[simp] theorem portWaits_beginAnswer : portWaits (beginAnswer s p) q = portWaits s q := rfl

@[simp] theorem waitsFor_beginAnswer (a b : Port) : waitsFor (beginAnswer s p) a b = waitsFor s a b := by
  have h : ∀ es older, waitsForFrom (beginAnswer s p) a b older es = waitsForFrom s a b older es := by
    intro es
    induction es with
    | nil => intro older; rfl
    | cons e es ih => intro older; simp only [waitsForFrom, ih]; rfl
  exact h _ _

@[simp] theorem leadsTo_beginAnswer (a b : Port) : leadsTo (beginAnswer s p) a b = leadsTo s a b := by
  have h : ∀ n a b, leadsWithin (beginAnswer s p) n a b = leadsWithin s n a b := by
    intro n
    induction n with
    | zero => intro a b; rfl
    | succ n ih => intro a b; simp only [leadsWithin, waitsFor_beginAnswer, ih]
  exact h _ _ _

@[simp] theorem deadlockPort_beginAnswer (m : Mode) (r : Range) :
    deadlockPort (beginAnswer s p) q m r = deadlockPort s q m r := by
  simp only [deadlockPort, leadsTo_beginAnswer]; rfl

@[simp] theorem queueRefusal_beginAnswer (m : Mode) (r : Range) :
    queueRefusal (beginAnswer s p) q m r = queueRefusal s q m r := by
  simp only [queueRefusal, placesUsed_beginAnswer, portWaits_beginAnswer, deadlockPort_beginAnswer,
    waitList_beginAnswer]

end Begin

/-! ### Commands that end in a grant scan -/

theorem scannedPort_line {u v : PortUnit} (h : ScannedPort u v) (b : Bool) :
    ScannedPort u { v with noticeLine := b } := h

/-- The reply of a command whose happening has run a grant scan: the port unit as the scan left it, and then the
reply. -/
theorem replied_scanned {s1 s2 : State} {p : Port} {u : PortUnit} (tag : Byte) (a : Answer)
    (h : s1.port p = { u with sel := .answering, answer := none }) (hs : ScannedPort (s1.port p) (s2.port p)) :
    ∃ v, ScannedPort u v ∧ Replied p tag a.code a.results v (replying s2 p tag a) := by
  refine ⟨{ s2.port p with sel := u.sel, answer := u.answer }, ⟨?_, ?_⟩, ?_⟩
  · have := hs.1
    rw [h] at this
    exact this
  · have := hs.2
    rw [h] at this
    have k := congrArg (fun x : PortUnit => { x with sel := u.sel, answer := u.answer }) this
    exact k
  · have := hs.2
    rw [h] at this
    have k1 := congrArg PortUnit.sel this
    simp only at k1
    simp [Replied, port_replying_same, PortUnit.replied, ← k1]

/-- Another port after a command's happening that has run a grant scan. -/
theorem scannedPort_replying {s1 s2 : State} {p q : Port} (tag : Byte) (a : Answer) (hq : q ≠ p)
    (hs : ScannedPort (s1.port q) (s2.port q)) : ScannedPort (s1.port q) ((replying s2 p tag a).port q) := by
  rw [port_replying_other s2 p tag a hq]; exact scannedPort_line hs _

end Sys2Proof.Machine
end

