-- ==== Sys2Proof/Laws/Memory.lean ====
section
/-! SUPPORT. The array's cells: what reading gives after a write, and that every operation keeps the canonical form. -/

namespace Sys2Proof.Machine

/-- Every address of the cells is above a bound. -/
def above (a : Nat) (m : Memory) : Prop := ∀ c ∈ m, a < c.1

theorem wf_cons {a : Nat} {b : Byte} {m : Memory} :
    Memory.wf ((a, b) :: m) = true ↔ a < Config.arrayBytes ∧ b ≠ 0 ∧ above a m ∧ Memory.wf m = true := by
  induction m generalizing a b with
  | nil => simp [Memory.wf, above]
  | cons c m ih =>
    obtain ⟨a', b'⟩ := c
    have h' := @ih a' b'
    simp only [Memory.wf, Bool.and_eq_true, decide_eq_true_eq, Bool.not_eq_true', beq_eq_false_iff_ne]
    constructor
    · rintro ⟨⟨h1, h2⟩, h3⟩
      obtain ⟨h4, h5, h6, h7⟩ := h'.1 h3
      refine ⟨by omega, h2, ?_, h3⟩
      intro c hc
      rcases List.mem_cons.1 hc with rfl | hc
      · exact h1
      · exact lt_trans h1 (h6 c hc)
    · rintro ⟨-, h2, h3, h4⟩
      exact ⟨⟨h3 _ (List.mem_cons_self ..), h2⟩, h4⟩

/-- A byte below every listed address reads 0. -/
theorem readByte_of_above {a : Nat} {m : Memory} (h : ∀ c ∈ m, a < c.1) : readByte m a = 0 := by
  induction m with
  | nil => rfl
  | cons c m ih =>
    have h1 : ¬ c.1 = a := by have := h c (List.mem_cons_self ..); omega
    simp only [readByte, if_neg h1]
    exact ih fun d hd => h d (List.mem_cons_of_mem _ hd)

theorem above_go {a n : Nat} {b : Byte} {m : Memory} (hn : n < a) (h : above n m) :
    above n (writeByte.go a b m) := by
  induction m with
  | nil =>
    simp only [writeByte.go]
    split
    · intro c hc; simp at hc
    · intro c hc; simp at hc; subst hc; exact hn
  | cons d m ih =>
    obtain ⟨a', b'⟩ := d
    have hm : above n m := fun c hc => h c (List.mem_cons_of_mem _ hc)
    have hd : n < a' := h _ (List.mem_cons_self ..)
    simp only [writeByte.go]
    split
    · split
      · exact h
      · intro c hc
        rcases List.mem_cons.1 hc with rfl | hc
        · exact hn
        · exact h c hc
    · split
      · split
        · exact hm
        · intro c hc
          rcases List.mem_cons.1 hc with rfl | hc
          · exact hn
          · exact hm c hc
      · intro c hc
        rcases List.mem_cons.1 hc with rfl | hc
        · exact hd
        · exact ih hm c hc

theorem wf_go {a : Nat} {b : Byte} {m : Memory} (ha : a < Config.arrayBytes) (h : Memory.wf m = true) :
    Memory.wf (writeByte.go a b m) = true := by
  induction m with
  | nil =>
    simp only [writeByte.go]
    split
    · rfl
    · next hb => exact wf_cons.2 ⟨ha, hb, fun c hc => by simp at hc, rfl⟩
  | cons d m ih =>
    obtain ⟨a', b'⟩ := d
    obtain ⟨h1, h2, h3, h4⟩ := wf_cons.1 h
    simp only [writeByte.go]
    split
    · next hlt =>
      split
      · exact h
      · next hb =>
        refine wf_cons.2 ⟨ha, hb, ?_, h⟩
        intro c hc
        rcases List.mem_cons.1 hc with rfl | hc
        · exact hlt
        · exact lt_trans hlt (h3 c hc)
    · next hlt =>
      split
      · next heq =>
        subst heq
        split
        · exact h4
        · next hb => exact wf_cons.2 ⟨ha, hb, h3, h4⟩
      · next hne => exact wf_cons.2 ⟨h1, h2, above_go (by omega) h3, ih h4⟩

/-- A write of one byte keeps the canonical form. -/
theorem wf_writeByte {m : Memory} (a : Nat) (b : Byte) (h : Memory.wf m = true) :
    Memory.wf (writeByte m a b) = true := by
  simp only [writeByte]
  split
  · next ha => exact wf_go ha h
  · exact h

theorem readByte_go {a n : Nat} {b : Byte} {m : Memory} (h : Memory.wf m = true) :
    readByte (writeByte.go a b m) n = if n = a then b else readByte m n := by
  induction m with
  | nil =>
    simp only [writeByte.go]
    split
    · next hb => subst hb; simp [readByte]
    · simp only [readByte]; simp [eq_comm]
  | cons d m ih =>
    obtain ⟨a', b'⟩ := d
    obtain ⟨h1, h2, h3, h4⟩ := wf_cons.1 h
    simp only [writeByte.go]
    split
    · next hlt =>
      have hz : readByte ((a', b') :: m) a = 0 := readByte_of_above (by
        intro c hc
        rcases List.mem_cons.1 hc with rfl | hc
        · exact hlt
        · exact lt_trans hlt (h3 c hc))
      split
      · next hb =>
        subst hb
        by_cases hn : n = a
        · subst hn; simp [hz]
        · simp [hn]
      · by_cases hn : n = a
        · subst hn; simp [readByte]
        · have hn' : ¬ a = n := fun e => hn e.symm
          simp [readByte, hn, hn']
    · next hlt =>
      split
      · next heq =>
        subst heq
        have hz : readByte m a = 0 := readByte_of_above h3
        split
        · next hb =>
          subst hb
          by_cases hn : n = a
          · subst hn; simp [hz]
          · have hn' : ¬ a = n := fun e => hn e.symm
            simp [readByte, hn, hn']
        · by_cases hn : n = a
          · subst hn; simp [readByte]
          · have hn' : ¬ a = n := fun e => hn e.symm
            simp [readByte, hn, hn']
      · next hne =>
        simp only [readByte, ih h4]
        by_cases hn : a' = n
        · subst hn
          have : ¬ a' = a := fun e => hne e.symm
          simp [this]
        · simp [hn]

/-- R149: the byte written is read back, and every other byte reads as before. -/
theorem readByte_writeByte {m : Memory} (h : Memory.wf m = true) {a : Nat} (ha : a < Config.arrayBytes) (b : Byte)
    (n : Nat) : readByte (writeByte m a b) n = if n = a then b else readByte m n := by
  simp only [writeByte, if_pos ha]
  exact readByte_go h

/-- A write of bytes keeps the canonical form. -/
theorem wf_writeBytes {m : Memory} (a : Nat) (bs : List Byte) (h : Memory.wf m = true) :
    Memory.wf (writeBytes m a bs) = true := by
  induction bs generalizing m a with
  | nil => exact h
  | cons b bs ih => exact ih (a + 1) (wf_writeByte a b h)

/-- R146: bytes written are read back, and every byte outside them reads as before. -/
theorem readByte_writeBytes {m : Memory} (h : Memory.wf m = true) {a : Nat} {bs : List Byte}
    (ha : a + bs.length ≤ Config.arrayBytes) (n : Nat) :
    readByte (writeBytes m a bs) n = if a ≤ n ∧ n < a + bs.length then bs.getD (n - a) 0 else readByte m n := by
  induction bs generalizing m a with
  | nil =>
    have : ¬ (a ≤ n ∧ n < a + ([] : List Byte).length) := by simp
    rw [if_neg this]; rfl
  | cons b bs ih =>
    simp only [List.length_cons] at ha
    simp only [writeBytes, List.length_cons]
    rw [ih (wf_writeByte a b h) (by omega), readByte_writeByte h (by omega)]
    by_cases hn : n = a
    · subst hn
      have h1 : ¬ (n + 1 ≤ n ∧ n < n + 1 + bs.length) := by omega
      have h2 : n ≤ n ∧ n < n + (bs.length + 1) := by omega
      rw [if_neg h1, if_pos rfl, if_pos h2]
      simp
    · by_cases hr : a + 1 ≤ n ∧ n < a + 1 + bs.length
      · have h2 : a ≤ n ∧ n < a + (bs.length + 1) := by omega
        rw [if_pos hr, if_pos h2]
        have : n - a = (n - (a + 1)) + 1 := by omega
        rw [this, List.getD_cons_succ]
      · have h2 : ¬ (a ≤ n ∧ n < a + (bs.length + 1)) := by omega
        rw [if_neg hr, if_neg h2, if_neg hn]

/-- A write of a page keeps the canonical form. -/
theorem wf_writePage {m : Memory} (page : Nat) (bs : List Byte) (h : Memory.wf m = true) :
    Memory.wf (writePage m page bs) = true := wf_writeBytes _ _ h

@[simp] theorem length_readBytes (m : Memory) (a n : Nat) : (readBytes m a n).length = n := by
  induction n generalizing a with
  | zero => rfl
  | succ n ih => simp [readBytes, ih]

@[simp] theorem length_readPage (m : Memory) (page : Nat) : (readPage m page).length = 64 := length_readBytes ..

@[simp] theorem length_filledPage (b : Byte) : (filledPage b).length = 64 := List.length_replicate

/-- R146: the k-th byte read is the byte at the k-th address. -/
theorem getD_readBytes (m : Memory) (a n k : Nat) (h : k < n) : (readBytes m a n).getD k 0 = readByte m (a + k) := by
  induction n generalizing a k with
  | zero => omega
  | succ n ih =>
    cases k with
    | zero => simp [readBytes]
    | succ k =>
      simp only [readBytes, List.getD_cons_succ]
      rw [ih (a + 1) k (by omega)]
      congr 1; omega

/-- The bytes of a page after a page is written. -/
theorem readByte_writePage {m : Memory} (h : Memory.wf m = true) {page : Nat} {bs : List Byte} (hp : page < 4096)
    (hb : bs.length = 64) (n : Nat) :
    readByte (writePage m page bs) n = if n / 64 = page then bs.getD (n - 64 * page) 0 else readByte m n := by
  rw [writePage, readByte_writeBytes h (by rw [hb]; show _ ≤ 262144; omega), hb]
  by_cases hn : n / 64 = page
  · rw [if_pos hn, if_pos (by omega)]
  · rw [if_neg hn, if_neg (by omega)]

/-! ### The cells of a whole array -/

/-- The cell an address has in a whole array. -/
def cellOf (f : Nat → Byte) (a : Nat) : Option Host.Cell := if f a = 0 then none else some (a, f a)

theorem cellOf_zero {f : Nat → Byte} {a : Nat} (h : f a = 0) : cellOf f a = none := if_pos h

theorem cellOf_byte {f : Nat → Byte} {a : Nat} (h : f a ≠ 0) : cellOf f a = some (a, f a) := if_neg h

theorem wf_cells (f : Nat → Byte) (l : List Nat) (hs : l.Pairwise (· < ·)) (hb : ∀ a ∈ l, a < Config.arrayBytes) :
    Memory.wf (l.filterMap (cellOf f)) = true := by
  induction l with
  | nil => rfl
  | cons a l ih =>
    obtain ⟨h1, h2⟩ := List.pairwise_cons.1 hs
    have hl := ih h2 fun x hx => hb x (List.mem_cons_of_mem _ hx)
    by_cases hf : f a = 0
    · rwa [List.filterMap_cons_none (cellOf_zero hf)]
    · rw [List.filterMap_cons_some (cellOf_byte hf)]
      refine wf_cons.2 ⟨hb a (List.mem_cons_self ..), hf, ?_, hl⟩
      intro c hc
      obtain ⟨x, hx, hxc⟩ := List.mem_filterMap.1 hc
      by_cases hfx : f x = 0
      · rw [cellOf_zero hfx] at hxc; cases hxc
      · rw [cellOf_byte hfx] at hxc
        cases hxc; exact h1 x hx

/-- The cells of a whole array are in canonical form. -/
theorem wf_cellsOf (f : Nat → Byte) : Memory.wf (cellsOf f) = true :=
  wf_cells f _ List.pairwise_lt_range fun a ha => by simpa using ha

theorem readByte_cells_out (f : Nat → Byte) (l : List Nat) (n : Nat) (hn : n ∉ l) :
    readByte (l.filterMap (cellOf f)) n = 0 := by
  induction l with
  | nil => rfl
  | cons a l ih =>
    have hl : n ∉ l := fun e => hn (List.mem_cons_of_mem _ e)
    by_cases hf : f a = 0
    · rw [List.filterMap_cons_none (cellOf_zero hf)]; exact ih hl
    · have ha : ¬ a = n := fun e => hn (by simp [e])
      rw [List.filterMap_cons_some (cellOf_byte hf), readByte, if_neg ha]; exact ih hl

theorem readByte_cells (f : Nat → Byte) (l : List Nat) (n : Nat) (hn : n ∈ l) :
    readByte (l.filterMap (cellOf f)) n = f n := by
  induction l with
  | nil => cases hn
  | cons a l ih =>
    by_cases hf : f a = 0
    · rw [List.filterMap_cons_none (cellOf_zero hf)]
      by_cases hl : n ∈ l
      · exact ih hl
      · have ha : n = a := (List.mem_cons.1 hn).resolve_right hl
        rw [readByte_cells_out f l n hl, ha, hf]
    · rw [List.filterMap_cons_some (cellOf_byte hf), readByte]
      by_cases ha : a = n
      · rw [if_pos ha, ha]
      · rw [if_neg ha]
        exact ih ((List.mem_cons.1 hn).resolve_left fun e => ha e.symm)

/-- Each byte of a whole array reads as it was given. -/
theorem readByte_cellsOf (f : Nat → Byte) {n : Nat} (hn : n < Config.arrayBytes) : readByte (cellsOf f) n = f n :=
  readByte_cells f _ n (by simpa using hn)

/-! ### The array after a service -/

theorem wf_stepArray {m : Memory} (j : Job) (h : Memory.wf m = true) : Memory.wf (stepArray m j) = true := by
  unfold stepArray
  split
  · exact wf_writePage _ _ h
  · exact wf_writePage _ _ h
  · exact h

end Sys2Proof.Machine
end

