-- ==== Sys2Proof/Laws/PerInstr.lean ====
section
/-! SUPPORT. What holds of every row as a term: the frames it carries fit the port unit's buffer. -/

namespace Sys2Proof.Laws

/-- The command frames a row carries. -/
def carried : Instr → List Frame
  | .arbiterRequestArrives arrivals => arrivals.map Arrival.frame
  | i => i.frame?.toList

/-- R108: every frame that a well-formed row carries has a LEN of at most 72. -/
def FramesFit.Statement (i : Instr) : Prop := i.wf = true → ∀ f ∈ carried i, f.args.length ≤ 72

theorem fits_of_wf {f : Frame} (h : f.wf = true) : f.args.length ≤ 72 := by simpa [Frame.wf, Config.maxLen] using h

theorem fits_frame {f : Frame} (h : f.wf = true) : ∀ g ∈ [f], g.args.length ≤ 72 := by
  intro g hg
  rw [List.mem_singleton.1 hg]; exact fits_of_wf h

theorem FramesFit.powerUp : FramesFit.Statement .powerUp := fun _ _ h => nomatch h
theorem FramesFit.startupClearPage : FramesFit.Statement .startupClearPage := fun _ _ h => nomatch h
theorem FramesFit.resetNAssert : FramesFit.Statement .resetNAssert := fun _ _ h => nomatch h
theorem FramesFit.resetNRelease : FramesFit.Statement .resetNRelease := fun _ _ h => nomatch h
theorem FramesFit.restartTakesHold : FramesFit.Statement .restartTakesHold := fun _ _ h => nomatch h
theorem FramesFit.leaseTick : FramesFit.Statement .leaseTick := fun _ _ h => nomatch h
theorem FramesFit.lapse (i : SlotId) : FramesFit.Statement (.lapse i) := fun _ _ h => nomatch h
theorem FramesFit.waitExpiry (h : Half) : FramesFit.Statement (.waitExpiry h) := fun _ _ h => nomatch h
theorem FramesFit.selectionBegin (p : Port) : FramesFit.Statement (.selectionBegin p) := fun _ _ h => nomatch h
theorem FramesFit.deselectionReceiving (p : Port) (l : List ClockEdge) : FramesFit.Statement (.deselectionReceiving p l) := fun _ _ h => nomatch h
theorem FramesFit.deselectionAnswering (p : Port) : FramesFit.Statement (.deselectionAnswering p) := fun _ _ h => nomatch h
theorem FramesFit.deselectionSpent (p : Port) : FramesFit.Statement (.deselectionSpent p) := fun _ _ h => nomatch h
theorem FramesFit.oversizeFrame (p : Port) (code tag len : Byte) : FramesFit.Statement (.oversizeFrame p code tag len) := fun _ _ h => nomatch h
theorem FramesFit.unknownCommand (code : Byte) (f : Frame) : FramesFit.Statement (.unknownCommand code f) := by
  intro h
  exact fits_frame (Bool.and_eq_true_iff.1 h).1
theorem FramesFit.openSession (f : Frame) : FramesFit.Statement (.openSession f) := fits_frame
theorem FramesFit.close (f : Frame) : FramesFit.Statement (.close f) := fits_frame
theorem FramesFit.status (f : Frame) : FramesFit.Statement (.status f) := fits_frame
theorem FramesFit.replay (f : Frame) : FramesFit.Statement (.replay f) := fits_frame
theorem FramesFit.ackErrors (f : Frame) : FramesFit.Statement (.ackErrors f) := fits_frame
theorem FramesFit.claim (f : Frame) : FramesFit.Statement (.claim f) := fits_frame
theorem FramesFit.renew (f : Frame) : FramesFit.Statement (.renew f) := fits_frame
theorem FramesFit.release (f : Frame) : FramesFit.Statement (.release f) := fits_frame
theorem FramesFit.downgrade (f : Frame) : FramesFit.Statement (.downgrade f) := fits_frame
theorem FramesFit.upgrade (f : Frame) : FramesFit.Statement (.upgrade f) := fits_frame
theorem FramesFit.trim (f : Frame) : FramesFit.Statement (.trim f) := fits_frame
theorem FramesFit.cancel (f : Frame) : FramesFit.Statement (.cancel f) := fits_frame
theorem FramesFit.probe (f : Frame) : FramesFit.Statement (.probe f) := fits_frame
theorem FramesFit.list (f : Frame) : FramesFit.Statement (.list f) := fits_frame
theorem FramesFit.read (p : Port) : FramesFit.Statement (.read p) := fun _ _ h => nomatch h
theorem FramesFit.write (p : Port) : FramesFit.Statement (.write p) := fun _ _ h => nomatch h
theorem FramesFit.fill (f : Frame) : FramesFit.Statement (.fill f) := fits_frame
theorem FramesFit.copy (f : Frame) : FramesFit.Statement (.copy f) := fits_frame
theorem FramesFit.sum (f : Frame) : FramesFit.Statement (.sum f) := fits_frame
theorem FramesFit.pageStep : FramesFit.Statement .pageStep := fun _ _ h => nomatch h
theorem FramesFit.stopJob (f : Frame) : FramesFit.Statement (.stopJob f) := fits_frame
theorem FramesFit.jobState (f : Frame) : FramesFit.Statement (.jobState f) := fits_frame
theorem FramesFit.collect (f : Frame) : FramesFit.Statement (.collect f) := fits_frame
theorem FramesFit.setNotice (f : Frame) : FramesFit.Statement (.setNotice f) := fits_frame
theorem FramesFit.clearNotices (f : Frame) : FramesFit.Statement (.clearNotices f) := fits_frame
theorem FramesFit.configSet (f : Frame) : FramesFit.Statement (.configSet f) := fits_frame
theorem FramesFit.configGet (f : Frame) : FramesFit.Statement (.configGet f) := fits_frame
theorem FramesFit.revoke (f : Frame) : FramesFit.Statement (.revoke f) := fits_frame
theorem FramesFit.evict (f : Frame) : FramesFit.Statement (.evict f) := fits_frame
theorem FramesFit.inspect (f : Frame) : FramesFit.Statement (.inspect f) := fits_frame
theorem FramesFit.waitlist (f : Frame) : FramesFit.Statement (.waitlist f) := fits_frame
theorem FramesFit.restart (f : Frame) : FramesFit.Statement (.restart f) := fits_frame
theorem FramesFit.replyLastByteSent (x : ClockedReply) : FramesFit.Statement (.replyLastByteSent x) := fun _ _ h => nomatch h
theorem FramesFit.selectSeenHigh (p : Port) : FramesFit.Statement (.selectSeenHigh p) := fun _ _ h => nomatch h
theorem FramesFit.arbiterRequestArrives (l : List Arrival) : FramesFit.Statement (.arbiterRequestArrives l) := by
  intro h f hf
  obtain ⟨a, ha, rfl⟩ := List.mem_map.1 hf
  simp only [Instr.wf, Bool.and_eq_true, List.all_eq_true] at h
  exact fits_of_wf (h.1.2 a ha)

end Sys2Proof.Laws
end

