-- ==== Sys2Proof/Laws/Signal.lean ====
section
/-! SUPPORT. The small lemmas of the signalling: the bits and bytes that clock edges carry (R106). -/

namespace Sys2Proof.Machine

@[simp] theorem sampled_append (a b : List ClockEdge) : sampled (a ++ b) = sampled a ++ sampled b := by
  induction a with
  | nil => rfl
  | cons e es ih => cases e <;> simp [sampled, ih]

@[simp] theorem length_bitsOfByte (b : Byte) : (bitsOfByte b).length = 8 := rfl

@[simp] theorem byteOfBits_bitsOfByte (b : Byte) : byteOfBits (bitsOfByte b) = b := by
  revert b
  decide +kernel

/-- R106: a whole byte's bits come to the byte, whatever bits follow. -/
theorem bytesTaken_byte (b : Byte) (bits : List Bool) :
    bytesTaken (bitsOfByte b ++ bits) = b :: bytesTaken bits := by
  have h := byteOfBits_bitsOfByte b
  simp only [bitsOfByte, List.range, List.range.loop, List.map] at h ⊢
  simp only [List.cons_append, List.nil_append, bytesTaken, h]

/-- R106: the bits of whole bytes come to those bytes, whatever bits follow. -/
theorem bytesTaken_bytes (bytes : List Byte) (bits : List Bool) :
    bytesTaken (bytes.flatMap bitsOfByte ++ bits) = bytes ++ bytesTaken bits := by
  induction bytes with
  | nil => rfl
  | cons b bs ih => rw [List.flatMap_cons, List.append_assoc, bytesTaken_byte, ih, List.cons_append]

/-- R106: the bits of a byte that is not complete are discarded. -/
theorem bytesTaken_short {bits : List Bool} (h : bits.length < 8) : bytesTaken bits = [] := by
  match bits, h with
  | [], _ | [_], _ | [_, _], _ | [_, _, _], _ | [_, _, _, _], _ | [_, _, _, _, _], _ | [_, _, _, _, _, _], _
  | [_, _, _, _, _, _, _], _ => rfl

/-- R106: a byte is taken for every eight bits sampled. -/
theorem length_bytesTaken (bits : List Bool) : (bytesTaken bits).length = bits.length / 8 := by
  fun_induction bytesTaken bits with
  | case1 b7 b6 b5 b4 b3 b2 b1 b0 bits ih => simp only [List.length_cons, ih]; omega
  | case2 bits h =>
    have : bits.length < 8 := by
      match bits, h with
      | [], _ | [_], _ | [_, _], _ | [_, _, _], _ | [_, _, _, _], _ | [_, _, _, _, _], _ | [_, _, _, _, _, _], _
      | [_, _, _, _, _, _, _], _ => simp
      | b7 :: b6 :: b5 :: b4 :: b3 :: b2 :: b1 :: b0 :: bits, h => exact absurd rfl (h b7 b6 b5 b4 b3 b2 b1 b0 bits)
    simp only [List.length_nil]; omega

/-- R106: data-out after one more falling edge: the bit of the next rising edge. -/
theorem dataLine_fall (stream : List Byte) (edges : List ClockEdge) :
    ∀ rises level, dataLine stream rises level (edges ++ [.fall]) =
      some (streamBit stream (rises + (sampled edges).length)) := by
  induction edges with
  | nil => intro rises level; rfl
  | cons e es ih =>
    intro rises level
    cases e with
    | rise bit => simp only [List.cons_append, dataLine, ih, sampled, List.length_cons]; congr 2; omega
    | fall => simp only [List.cons_append, dataLine, ih, sampled]

/-- R106: a rising edge leaves data-out as it is. -/
theorem dataLine_rise (stream : List Byte) (bit : Bool) (edges : List ClockEdge) :
    ∀ rises level, dataLine stream rises level (edges ++ [.rise bit]) = dataLine stream rises level edges := by
  induction edges with
  | nil => intro rises level; rfl
  | cons e es ih =>
    intro rises level
    cases e <;> simp only [List.cons_append, dataLine, ih]

/-- R106: before the first falling edge data-out is as it was. -/
theorem dataLine_noFall (stream : List Byte) {edges : List ClockEdge} (h : ClockEdge.fall ∉ edges) :
    ∀ rises level, dataLine stream rises level edges = level := by
  induction edges with
  | nil => intro rises level; rfl
  | cons e es ih =>
    intro rises level
    cases e with
    | rise bit => simp only [dataLine, ih fun k => h (List.mem_cons_of_mem _ k)]
    | fall => simp at h

/-- R106: two streams give data-out the same level as long as they agree on the bits that have come up. -/
theorem dataLine_congr {a b : List Byte} (edges : List ClockEdge) :
    ∀ rises level, (∀ k, k ≤ rises + (sampled edges).length → streamBit a k = streamBit b k) →
      dataLine a rises level edges = dataLine b rises level edges := by
  induction edges with
  | nil => intro rises level _; rfl
  | cons e es ih =>
    intro rises level h
    cases e with
    | rise bit =>
      exact ih _ _ fun k hk => h k (by simp only [sampled, List.length_cons]; omega)
    | fall =>
      simp only [dataLine, h rises (by omega)]
      exact ih _ _ h

/-- R106, R109: what a port sends over the clock edges of a selection is what it sends before and after the last byte of
its reply has gone. -/
theorem sentStream_spent {s : State} {p : Port} (fill : Nat) (h : (s.port p).sel = .answering) {a : Sending}
    (ha : (s.port p).answer = some a) :
    sentStream (s.modPort p fun u => { u with sel := .spent }) p fill = sentStream s p fill := by
  have hp : (s.modPort p fun u => { u with sel := .spent }).port p = { s.port p with sel := .spent } := by
    cases p <;> rfl
  have hr : (s.modPort p fun u => { u with sel := .spent }).resetLow = s.resetLow := rfl
  simp only [sentStream, dataOut, hp, hr, h, ha]
  cases s.resetLow <;> rfl

end Sys2Proof.Machine
end

