-- ==== Sys2Proof/Tests/Slice0.lean ====
section
/-! SUPPORT. Checks of the model against the spec's own examples and tables, and a witness for each statement that has
hypotheses. -/

-- One test at a time: each test that is checked on its own thread takes a stack of its own.
set_option Elab.async false

namespace Sys2Proof.Tests

open Sys2Proof.Machine

/-! ### Helpers -/

/-- What a step comes to, for tests: the state it ends in. -/
def after : Host.Outcome State Fault Refusal → State
  | .next s => s
  | .fault _ | .refused _ => State.reset

/-- STATUS and the results of the reply a port is sending. -/
def reply (s : State) (p : Port) : Option (ResultCode × List Byte) :=
  (s.port p).answer.map fun a => (a.reply.status, a.reply.results)

/-- The reply to a row's frame. -/
def replyTo (i : Instr) (s : State) (p : Port) : Option (ResultCode × List Byte) := reply (after (exec i s)) p

/-- A frame for a port that does not check. -/
def frame (p : Port) (args : List Byte) : Frame := { port := p, tag := 0x42, args := args, check := 0 }

/-- An attached session that does not check frames. -/
def attached : Session := { Session.reset with state := .attached, checking := false }

/-- After start-up clearing, with every port attached and selected, and nothing held. -/
def up : State :=
  { State.reset with
    clearNext := 4096
    sessions := .all attached
    ports := .all { PortUnit.reset with sel := .receiving } }

/-- A held record. -/
def heldBy (p : Port) (m : Mode) (first count term remaining : Nat) : Content :=
  .held ⟨p, m, ⟨first, count⟩, 0⟩ ⟨term, 0, false⟩ remaining

/-- P2's CLAIM over pages 15 to 24, which waits for P1. -/
def claimEntry : WaitEntry :=
  { ticket := 0x0101, port := .p2, kind := .claim 50 0, mode := .exclusive, range := ⟨15, 10⟩, waitRemaining := 1
    tag := 0x21 }

/-- P3's UPGRADE of slot 2, which waits for P1. -/
def upgradeEntry : WaitEntry :=
  { ticket := 0x0102, port := .p3, kind := .upgrade, mode := .exclusive, range := ⟨100, 5⟩, waitRemaining := 9
    tag := 0x31 }

/-- P0's FILL of pages 300 to 303. -/
def fillJob : Job := { tag := 7, work := .fill 0x0105 300 0xA5, count := 4, pagesDone := 0, stop := .none }

/-- Slots 0 to 5 in use, two requests waiting, a job whose page step is being served, and a tick in the queue. -/
def world : State :=
  let s := setContent up 0 (heldBy .p1 .exclusive 10 10 100 2)
  let s := setContent s 1 (.reserved ⟨.p2, .exclusive, ⟨15, 10⟩, 0⟩)
  let s := setContent s 2 (heldBy .p3 .shared 100 5 50 1)
  let s := setContent s 3 (heldBy .p1 .shared 100 5 50 40)
  let s := setContent s 4 (.lapsed ⟨.p3, .shared, ⟨200, 1⟩, 0⟩ ⟨5, 0, true⟩ .expired)
  let s := setContent s 5 (heldBy .p0 .exclusive 300 4 60 60)
  { s with
    waitList := [claimEntry, upgradeEntry]
    pending := [.leaseTick]
    array := [(0x10, 0xAA)]
    arbiter := { waiting := .none, serving := some .engine, lastServed := .engine }
    engine := { jobs := ⟨some fillJob, none, none, none⟩, turn := .p1, inFlight := some .p0 }
    sessions := ⟨{ attached with usage := 1, reserved := [.job] }, { attached with usage := 2, warnThreshold := 1 },
      { attached with usage := 1, reserved := [.entry 0x0101] }, { attached with usage := 2, reserved := [.entry 0x0102] }⟩ }

/-- The conditions of `Admitted`, evaluated. -/
def admits (c : Command) (f : Frame) (s : State) : Bool :=
  (s.port f.port).sel == .receiving && !s.resetLow && (s.port f.port).request.isNone &&
    (s.port f.port).deferred.isEmpty && !clearing s &&
    (!(s.session f.port).checking || checkMatches (commandCode c) f) && (!isSupervision c || f.port == .p0) &&
    (s.session f.port).state == .attached

theorem admitted_of {c : Command} {f : Frame} {s : State} (h : admits c f s = true) : Admitted c f s := by
  simp only [admits, Bool.and_eq_true, Bool.or_eq_true, beq_iff_eq, Bool.not_eq_true', Option.isNone_iff_eq_none,
    List.isEmpty_iff] at h
  exact { receiving := h.1.1.1.1.1.1.1, resetHigh := h.1.1.1.1.1.1.2, noRequest := h.1.1.1.1.1.2,
          noWaiting := h.1.1.1.1.2, cleared := h.1.1.1.2, checked := h.1.1.2, role := h.1.2, attached := h.2 }

/-- The conditions of `Passes`, evaluated. -/
def passes (c : Command) (f : Frame) (s : State) : Bool :=
  (s.port f.port).sel == .receiving && !s.resetLow && (s.port f.port).request.isNone &&
    (s.port f.port).deferred.isEmpty && !clearing s &&
    (!(s.session f.port).checking || checkMatches (commandCode c) f) && (!isSupervision c || f.port == .p0)

theorem passes_of {c : Command} {f : Frame} {s : State} (h : passes c f s = true) : Passes c f s := by
  simp only [passes, Bool.and_eq_true, Bool.or_eq_true, beq_iff_eq, Bool.not_eq_true', Option.isNone_iff_eq_none,
    List.isEmpty_iff] at h
  exact { receiving := h.1.1.1.1.1.1, resetHigh := h.1.1.1.1.1.2, noRequest := h.1.1.1.1.2,
          noWaiting := h.1.1.1.2, cleared := h.1.1.2, checked := h.1.2, role := h.2 }

/-- `LinesAgree`, evaluated. -/
def linesAgree (s : State) : Bool := allPorts.all fun p => (s.port p).noticeLine == noticeDue s p

theorem lines_of {s : State} (h : linesAgree s = true) : LinesAgree s := by
  intro p
  have := List.all_eq_true.1 h p (by cases p <;> decide)
  simpa using this

/-- The clock edges of whole bytes (R106): a falling edge and a rising edge for each bit. -/
def clocked (bytes : List Byte) : List ClockEdge :=
  (bytes.flatMap bitsOfByte).flatMap fun bit => [.fall, .rise bit]

theorem sampled_clocked (bytes : List Byte) : sampled (clocked bytes) = bytes.flatMap bitsOfByte := by
  have h : ∀ bits : List Bool, sampled (bits.flatMap fun bit => [.fall, .rise bit]) = bits := by
    intro bits
    induction bits with
    | nil => rfl
    | cons b bs ih => simp [List.flatMap_cons, sampled, ih]
  exact h _

/-- A port that the model's search finds to lead nowhere leads nowhere. -/
theorem notLeadsTo_of {s : State} {q p : Port} (h : leadsTo s q p = false) : ¬ LeadsTo s q p := by
  rw [← leadsTo_iff, h]; simp

theorem noCycle_of {s : State} (h : (allPorts.all fun p => !leadsTo s p p) = true) : NoCycle s := by
  intro p
  have := List.all_eq_true.1 h p (by cases p <;> decide)
  exact notLeadsTo_of (by simpa using this)

theorem lines_up : LinesAgree up := lines_of (by decide +kernel)
theorem lines_world : LinesAgree world := lines_of (by decide +kernel)

/-! ### Well-formed rows: what each check refuses -/

theorem wf_refuses_known_code : (Instr.unknownCommand 0x10 (frame .p0 [])).wf = false := by decide +kernel
theorem wf_refuses_long_unknown : (Instr.unknownCommand 0xFF (frame .p0 (List.replicate 73 0))).wf = false := by
  decide +kernel
theorem wf_refuses_len_that_fits : (Instr.oversizeFrame .p0 0x10 0 72).wf = false := by decide +kernel
theorem wf_refuses_complete_frame : (Instr.deselectionReceiving .p0 (clocked [0x03, 0, 0, 0x12, 0x34])).wf = false := by
  decide +kernel
theorem wf_takes_incomplete_frame : (Instr.deselectionReceiving .p0 ((clocked [0x03, 0, 0, 0x12, 0x34]).take 79)).wf = true := by
  decide +kernel
theorem wf_refuses_no_arrival : (Instr.arbiterRequestArrives []).wf = false := by decide +kernel
theorem wf_refuses_long_arrival :
    (Instr.arbiterRequestArrives [⟨.write, frame .p0 (List.replicate 73 0)⟩]).wf = false := by decide +kernel
theorem wf_refuses_one_port_twice :
    (Instr.arbiterRequestArrives [⟨.read, frame .p1 []⟩, ⟨.read, frame .p1 []⟩]).wf = false := by decide +kernel
theorem wf_refuses_long_frame : (Instr.claim (frame .p0 (List.replicate 73 0))).wf = false := by decide +kernel
theorem wf_takes_two_arrivals :
    (Instr.arbiterRequestArrives [⟨.read, frame .p1 []⟩, ⟨.read, frame .p2 []⟩]).wf = true := by decide +kernel

/-! ### Bytes -/

/-- R111: the check of the nine ASCII bytes "123456789". -/
theorem test_check_of_digits : frameCheck [0x31, 0x32, 0x33, 0x34, 0x35, 0x36, 0x37, 0x38, 0x39] = 0x29B1 := by
  decide +kernel

/-- Table 55, in its order. -/
theorem test_command_codes : allCommands.map commandCode =
    [0x01, 0x02, 0x03, 0x04, 0x05, 0x10, 0x11, 0x12, 0x13, 0x14, 0x15, 0x16, 0x17, 0x18, 0x20, 0x21, 0x28, 0x29, 0x2A,
     0x2B, 0x2C, 0x30, 0x31, 0x32, 0x38, 0x39, 0x3A, 0x3B, 0x3C, 0x3D, 0x3E] := by decide +kernel

/-- R6: slot 3 with generation 7 has the handle 0x0703; R5: 255 is followed by 1. -/
theorem test_handle_and_generation : handleOf 7 3 = 0x0703 ∧ nextGen 255 = 1 ∧ nextGen 1 = 2 := by decide +kernel

/-- R106: eight rising edges carry a byte, the most significant bit first, and a ninth bit is discarded; the frame of a
STATUS with TAG 0, LEN 0 ends in its row, and with its last bit missing in none. -/
theorem test_bytesOfEdges :
    bytesOfEdges [.rise true, .fall, .rise false, .rise true, .rise false, .rise false, .fall, .rise false, .rise false,
      .rise true, .rise true] = [0xA1] ∧
    rowOfEdges .p1 (clocked [0x03, 0, 0, 0x12, 0x34]) = some (.status ⟨.p1, 0, [], 0x1234⟩) ∧
    rowOfEdges .p1 ((clocked [0x03, 0, 0, 0x12, 0x34]).take 79) = none ∧
    rowOfEdges .p1 (clocked [0x21, 7, 73]) = some (.oversizeFrame .p1 0x21 7 73) := by decide +kernel

/-- Table 5, the overlap examples. -/
theorem test_overlap_examples :
    overlaps ⟨100, 100⟩ ⟨150, 11⟩ = true ∧ overlaps ⟨100, 100⟩ ⟨200, 100⟩ = false ∧
    overlaps ⟨100, 100⟩ ⟨199, 1⟩ = true ∧ overlaps ⟨0, 4096⟩ ⟨4095, 1⟩ = true ∧
    overlaps ⟨10, 5⟩ ⟨0, 10⟩ = false := by decide +kernel

/-! ### Power, clearing and reset -/

theorem test_powerUp : (after (exec .powerUp world)).table = Table.reset ∧ (after (exec .powerUp world)).clearNext = 0 ∧
    (after (exec .powerUp world)).powerUps = 1 := by decide +kernel

/-- R152: page 4095 is bytes 262,080 to 262,143; with it the clearing ends. -/
theorem test_startupClearPage_last :
    (after (exec .startupClearPage
      { State.reset with clearNext := 4095, array := [(262079, 1), (262080, 2), (262143, 3)] })).array = [(262079, 1)] ∧
    clearing (after (exec .startupClearPage { State.reset with clearNext := 4095 })) = false := by decide +kernel

/-- R124: the ports are in IDLE, data-out is high-impedance, and the clock stops. -/
theorem test_resetNAssert : ((after (exec .resetNAssert world)).port .p2).sel = .idle ∧
    dataOut (after (exec .resetNAssert world)) .p2 = .highImpedance ∧
    clockRuns (after (exec .resetNAssert world)) = false := by decide +kernel

/-- R22: a slot in use is freed with its generation advanced, a FREE one keeps its generation; R186. -/
theorem test_resetNRelease :
    slotAt (after (exec .resetNRelease { world with resetLow := true })) 4 = ⟨2, .free⟩ ∧
    slotAt (after (exec .resetNRelease { world with resetLow := true })) 6 = ⟨1, .free⟩ ∧
    (after (exec .resetNRelease { world with resetLow := true })).params.quota.get .p3 = 32 := by decide +kernel

/-- R185: RESTART keeps the configuration and begins a fresh tick at the TICK_LENGTH held. -/
theorem test_restartTakesHold :
    (after (exec .restartTakesHold
      { up with restartPending := true, params := { Params.reset with tickLength := 25 } })).clock =
      ⟨0, 0, 25, none⟩ := by decide +kernel

/-! ### Lease time -/

/-- R77 to R79: P1's record comes to its threshold, P3's lapses and its upgrade ends, and P2's claim times out. -/
theorem test_leaseTick :
    (slotAt (after (exec .leaseTick world)) 0).content =
      .held ⟨.p1, .exclusive, ⟨10, 10⟩, 0⟩ ⟨100, 0, true⟩ 1 ∧
    (slotAt (after (exec .leaseTick world)) 2).content =
      .lapsed ⟨.p3, .shared, ⟨100, 5⟩, 0⟩ ⟨50, 0, false⟩ .expired ∧
    ((after (exec .leaseTick world)).session .p3).held = [⟨0x31, .ended .upgrade .recordEnded 0x0102⟩] ∧
    (after (exec .leaseTick world)).waitList = [] := by decide +kernel

/-- R65: the CLAIM that timed out has its slot freed, generation advanced, and its outcome written. -/
theorem test_leaseTick_timeout :
    slotAt (after (exec .leaseTick world)) 1 = ⟨2, .free⟩ ∧
    ((after (exec .leaseTick world)).session .p2).held = [⟨0x21, .ended .claim .timedOut 0x0101⟩] ∧
    ((after (exec .leaseTick world)).session .p2).usage = 0 ∧
    ((after (exec .leaseTick world)).port .p1).notices.leaseLow = true ∧
    ((after (exec .leaseTick world)).port .p3).notices.leaseLost = true := by decide +kernel

/-- A record with no tick left. -/
def spent : State := setContent world 2 (heldBy .p3 .shared 100 5 50 0)

theorem test_lapse : (after (exec (.lapse 2) spent)).waitList = [claimEntry] ∧
    ((after (exec (.lapse 2) spent)).port .p3).notices.leaseLost = true ∧
    exec (.lapse 2) world = .next world := ⟨by decide +kernel, by decide +kernel, by rfl⟩

/-- A claim with no tick left to wait. -/
def waited : State := { world with waitList := [{ claimEntry with waitRemaining := 0 }, upgradeEntry] }

theorem test_waitExpiry : (after (exec (.waitExpiry 0x0101) waited)).waitList = [upgradeEntry] ∧
    slotAt (after (exec (.waitExpiry 0x0101) waited)) 1 = ⟨2, .free⟩ := by decide +kernel

/-! ### Selections and frames that name no command -/

/-- Every port in IDLE, with select high. -/
def idleUp : State := { up with ports := .all { PortUnit.reset with seenHigh := true } }

theorem test_selectionBegin : ((after (exec (.selectionBegin .p1) idleUp)).port .p1).sel = .receiving ∧
    ((after (exec (.selectionBegin .p1) State.reset)).port .p1).sel = .idle := by decide +kernel

theorem test_deselectionReceiving :
    ((after (exec (.deselectionReceiving .p1 (clocked [0x10])) up)).port .p1).errors.truncated = true ∧
    ((after (exec (.deselectionReceiving .p1 ((clocked [0x10]).take 15)) up)).port .p1).errors.truncated = false := by
  decide +kernel

/-- A port unit that sends a kept reply. -/
def answering : State := up.modPort .p1 fun u =>
  { u with sel := .answering, answer := some ⟨mkReply .ok 1 0x08 [], true⟩, lastReply := some (mkReply .ok 1 0x08 []) }

theorem test_deselectionAnswering :
    ((after (exec (.deselectionAnswering .p1) answering)).port .p1).errors.replyCut = true ∧
    ((after (exec (.deselectionAnswering .p1) answering)).port .p1).sel = .idle := by decide +kernel

/-- R106, R109: the reply of LEN 0 has six bytes; with its last bit missing the last of them has not been sent. -/
theorem test_replyLastByteSent :
    ((after (exec (.replyLastByteSent ⟨.p1, clocked (List.replicate 6 0xFF)⟩) answering)).port .p1).sel = .spent ∧
    ((after (exec (.replyLastByteSent ⟨.p1, (clocked (List.replicate 6 0xFF)).take 95⟩) answering)).port .p1).sel =
      .answering := by decide +kernel

theorem test_deselectionSpent :
    ((after (exec (.deselectionSpent .p1)
      (after (exec (.replyLastByteSent ⟨.p1, clocked (List.replicate 6 0xFF)⟩) answering)))).port .p1).sel = .idle ∧
    ((after (exec (.deselectionSpent .p1)
      (after (exec (.replyLastByteSent ⟨.p1, clocked (List.replicate 6 0xFF)⟩) answering)))).port .p1).errors = .none := by
  decide +kernel

/-- R106: data-out is high-impedance before the first falling edge; one fill byte goes before STATUS, whose first bit
is 0, and TAG ends in a 1. -/
theorem test_dataOutLevel :
    dataOutLevel answering .p1 1 [.rise true] = none ∧ dataOutLevel answering .p1 1 [.rise true, .fall] = some true ∧
    dataOutLevel answering .p1 1 (clocked [0xFF] ++ [.fall]) = some false ∧
    dataOutLevel answering .p1 1 (clocked [0xFF, 0xFF, 0xFF]) = some true ∧
    dataOutLevel idleUp .p1 0 [.fall] = none ∧ dataOutLevel up .p1 0 [.fall] = some true := by decide +kernel

/-- P1 sending the reply 00 01 00 00 with its check B3 F0 (R111); P1 once it has been sent; and the clock edges of its
selection: one fill byte and the reply's six. -/
def sendingReply : State := answering.modPort .p1 fun u => { u with answer := some ⟨mkReply .ok 1 0 [], true⟩ }
def sentReply : State := after (exec (.replyLastByteSent ⟨.p1, clocked (List.replicate 6 0xFF)⟩) sendingReply)
def sentEdges : List ClockEdge := clocked (List.replicate 7 0xFF)

/-- R106, R109: at the rising edge that makes the port SPENT data-out keeps the last bit of F0, the next falling edge
brings the fill byte, and a deselection the high-impedance state. -/
theorem test_dataOutLevel_spent :
    (sentReply.port .p1).sel = .spent ∧ dataOutLevel sendingReply .p1 1 sentEdges = some false ∧
    dataOutLevel sentReply .p1 1 sentEdges = some false ∧
    dataOutLevel sentReply .p1 1 (sentEdges ++ [.fall]) = some true ∧
    dataOutLevel (after (exec (.deselectionSpent .p1) sentReply)) .p1 1 sentEdges = none := by decide +kernel

theorem test_selectSeenHigh : ((after (exec (.selectSeenHigh .p3) State.reset)).port .p3).seenHigh = true := by
  decide +kernel

/-- R113: BAD_LENGTH, and OVERSIZE is set; the reply is not kept. -/
theorem test_oversizeFrame : reply (after (exec (.oversizeFrame .p1 0x21 5 73) up)) .p1 = some (.badLength, []) ∧
    ((after (exec (.oversizeFrame .p1 0x21 5 73) up)).port .p1).errors.oversize = true ∧
    ((after (exec (.oversizeFrame .p1 0x21 5 73) up)).port .p1).lastReply = none := by decide +kernel

theorem test_unknownCommand : replyTo (.unknownCommand 0x06 (frame .p1 [])) up .p1 = some (.unknownCommand, []) := by
  decide +kernel

/-! ### Session and transport commands -/

/-- Every session DETACHED with checking on, as after power-up. -/
def detachedUp : State := { up with sessions := .all .reset }

/-- R94: port 1, not the supervisor, quota 32, TICK_LENGTH 10, MAX_TERM 10,000, DEFAULT_TERM 1,000, MAX_WAIT 5,000. -/
theorem test_openSession :
    replyTo (.openSession (goodFrame .open_ .p1 9 [0x01, 0x1F, 0x05])) detachedUp .p1 =
      some (.ok, [0x01, 0x00, 0x20, 0x0A, 0x27, 0x10, 0x03, 0xE8, 0x13, 0x88, 0x00]) := by decide +kernel

/-- R98: with an active job the session becomes CLOSING; R96: the record is freed. -/
theorem test_close : replyTo (.close (frame .p0 [])) world .p0 = some (.ok, [0x02]) ∧
    slotAt (after (exec (.close (frame .p0 [])) world)) 5 = ⟨2, .free⟩ ∧
    replyTo (.close (frame .p2 [])) world .p2 = some (.ok, [0x00]) := by decide +kernel

/-- Table 31 and Table 58: P0 in `world` is ATTACHED, with 1 reservation, usage 1, quota 32 and an active job. -/
theorem test_status : replyTo (.status (frame .p0 [])) world .p0 =
    some (.ok, [0x01, 0, 0, 0, 0, 0, 0, 0x01, 0, 0x01, 0x20, 0, 0x01]) := by decide +kernel

theorem test_replay : replyTo (.replay (frame .p1 [])) up .p1 = some (.nothing, []) := by decide +kernel

theorem test_ackErrors :
    replyTo (.ackErrors (frame .p1 [])) (up.modPort .p1 fun u => { u with errors := ⟨true, false, true, false⟩ }) .p1 =
      some (.ok, [0x05]) := by decide +kernel

/-! ### Lock manager commands -/

/-- R28: slot 6 is the lowest that is FREE; with term 0 the DEFAULT_TERM 1,000 is resolved. -/
theorem test_claim_granted :
    replyTo (.claim (frame .p1 (claimBytes ⟨1, 500, 10, 0, 0, 0x77⟩))) world .p1 =
      some (.ok, [0x01, 0x06, 0x03, 0xE8]) := by decide +kernel

/-- R57: P2, the waiter blocker of P1's CLAIM, waits for P1. -/
theorem test_claim_deadlock :
    replyTo (.claim (frame .p1 (claimBytes ⟨1, 20, 5, 0, 9, 0⟩))) world .p1 = some (.deadlock, [0x02]) := by
  decide +kernel

theorem test_renew : replyTo (.renew (frame .p1 (bytes2 0x0103 ++ bytes2 70))) world .p1 = some (.ok, [0, 70]) ∧
    (slotAt (after (exec (.renew (frame .p1 (bytes2 0x0103 ++ bytes2 70))) world)) 3).content =
      .held ⟨.p1, .shared, ⟨100, 5⟩, 0⟩ ⟨70, 1, false⟩ 70 := by decide +kernel

/-- R34, R60: P1's release lets P2's claim be granted in the same happening. -/
theorem test_release : replyTo (.release (frame .p1 (bytes2 0x0100))) world .p1 = some (.ok, [0x02, 0x00]) ∧
    (slotAt (after (exec (.release (frame .p1 (bytes2 0x0100))) world)) 1).content =
      heldBy .p2 .exclusive 15 10 50 50 ∧
    ((after (exec (.release (frame .p1 (bytes2 0x0100))) world)).session .p2).held =
      [⟨0x21, .granted 0x0101 .exclusive ⟨15, 10⟩ 50⟩] := by decide +kernel

theorem test_release_lapsed :
    replyTo (.release (frame .p3 (bytes2 0x0104))) world .p3 = some (.ok, [0x03, 0x01]) := by decide +kernel

theorem test_downgrade :
    replyTo (.downgrade (frame .p1 (bytes2 0x0100))) world .p1 = some (.ok, []) ∧
    replyTo (.downgrade (frame .p1 (bytes2 0x0103))) world .p1 = some (.alreadyShared, []) := by decide +kernel

/-- R39: P3's record stands in the way, and P1's other pages do not. -/
theorem test_upgrade : replyTo (.upgrade (frame .p1 (bytes2 0x0103 ++ bytes2 0))) world .p1 =
      some (.conflict, [0x01, 0x03, 0x01, 0x02]) ∧
    replyTo (.upgrade (frame .p3 (bytes2 0x0102 ++ bytes2 0))) world .p3 = some (.alreadyWaiting, []) := by
  decide +kernel

/-- R42: pages 10 to 14 stay with P1, and P2's claim over 15 to 24 is granted. -/
theorem test_trim : replyTo (.trim (frame .p1 (bytes2 0x0100 ++ bytes2 10 ++ bytes2 5))) world .p1 = some (.ok, []) ∧
    (slotAt (after (exec (.trim (frame .p1 (bytes2 0x0100 ++ bytes2 10 ++ bytes2 5))) world)) 1).content =
      heldBy .p2 .exclusive 15 10 50 50 := by decide +kernel

theorem test_cancel :
    replyTo (.cancel (frame .p2 (bytes2 0x0101))) world .p2 = some (.ok, [0x01, 0x01, 0x01]) ∧
    replyTo (.cancel (frame .p1 (bytes2 0x0101))) world .p1 = some (.notWaiting, []) := by decide +kernel

/-- R20: P1's record is over page 19, and P2's claim waits there. -/
theorem test_probe : replyTo (.probe (frame .p0 (bytes2 19 ++ bytes2 1))) world .p0 =
    some (.ok, [1, 0, 1, 0x01, 0x00, 0x01, 0x01, 0, 10, 0, 10, 0, 0]) := by decide +kernel

/-- The part of section 11.5's example: P3's slots 4, 9 and 12, slot 4 named by a job. -/
def listed : State :=
  let s := setSlot up 4 ⟨2, .held ⟨.p3, .shared, ⟨1000, 16⟩, 0x0A0B⟩ ⟨500, 3, false⟩ 320⟩
  let s := setSlot s 9 ⟨1, .lapsed ⟨.p3, .exclusive, ⟨20, 1⟩, 0⟩ ⟨40, 0, true⟩ .revoked⟩
  let s := setSlot s 12 ⟨5, .reserved ⟨.p3, .exclusive, ⟨0, 4⟩, 0x0077⟩⟩
  s.setJob .p3 (some { tag := 0, work := .sum 0x0204 1000 0, count := 16, pagesDone := 0, stop := .none })

/-- Table 59. -/
theorem test_list : replyTo (.list (frame .p3 [0])) listed .p3 =
    some (.ok, [0x03, 0x00, 0x02, 0x00, 0x03,
      0x02, 0x04, 0x3E, 0x80, 0x0F, 0x01, 0xF4, 0x01, 0x40, 0x03, 0x0A, 0x0B,
      0x01, 0x89, 0x01, 0x40, 0x00, 0x00, 0x28, 0x00, 0x00, 0x00, 0x00, 0x00,
      0x05, 0x8C, 0x00, 0x00, 0x03, 0x00, 0x00, 0x00, 0x00, 0x00, 0x00, 0x77]) := by decide +kernel

/-! ### The shared array -/

/-- The part of the example of section 8.3. -/
def covered : State :=
  let s := setContent up 3 (heldBy .p1 .exclusive 10 10 50 50)
  let s := setContent s 4 (heldBy .p1 .shared 20 10 50 50)
  let s := setContent s 5 (.lapsed ⟨.p1, .exclusive, ⟨30, 10⟩, 0⟩ ⟨50, 0, false⟩ .expired)
  setContent s 6 (heldBy .p2 .shared 20 6 50 50)

/-- A READ or WRITE of a port, whose frame completes and is then served. -/
def access (a : Access) (p : Port) (address : BitVec 24) (length : Byte) (data : List Byte) (s : State) : State :=
  let s := after (exec (.arbiterRequestArrives [⟨a, frame p (accessBytes ⟨address, length, data⟩)⟩]) s)
  after (exec (match a with | .read => .read p | .write => .write p) s)

/-- Table 42, the READs: pages 19 and 20 are covered together, page 30 is LAPSED, and page 26 is not P2's. -/
theorem test_read_coverage :
    (reply (access .read .p1 1270 20 [] covered) .p1).map Prod.fst = some .ok ∧
    reply (access .read .p1 1915 8 [] covered) .p1 = some (.accessDenied, [0, 30]) ∧
    reply (access .read .p2 1664 1 [] covered) .p2 = some (.accessDenied, [0, 26]) := by decide +kernel

/-- Table 42, the WRITEs; and the bytes stored are read back. -/
theorem test_write_coverage :
    reply (access .write .p1 1270 20 (List.replicate 20 7) covered) .p1 = some (.accessDenied, [0, 20]) ∧
    reply (access .write .p2 1280 4 [1, 2, 3, 4] covered) .p2 = some (.accessDenied, [0, 20]) ∧
    (access .write .p1 1260 4 [1, 0, 3, 4] covered).array = [(1260, 1), (1262, 3), (1263, 4)] := by decide +kernel

/-- R143: the last byte of a READ of 8 bytes from 262,140 would be 262,147. -/
theorem test_read_past_end : reply (access .read .p1 262140 8 [] covered) .p1 = some (.badRange, []) := by
  decide +kernel

/-- R150: READs of P2 and P0 arrive together after the engine was served last: P0 is served and P2 waits. -/
theorem test_arbiterRequestArrives :
    (after (exec (.arbiterRequestArrives
      [⟨.read, frame .p2 (accessBytes ⟨0, 1, []⟩)⟩, ⟨.read, frame .p0 (accessBytes ⟨0, 1, []⟩)⟩]) up)).arbiter =
      { waiting := { UserSet.none with p2 := true }, serving := some (.port .p0), lastServed := .port .p0 } := by
  decide +kernel

/-- Table 44: after P1, of P3, the engine and P0, comes P3. -/
theorem test_rotation :
    (serveNext { waiting := ⟨true, false, false, true, true⟩, serving := some (.port .p1), lastServed := .port .p1 }) =
      { waiting := ⟨true, false, false, false, true⟩, serving := some (.port .p3), lastServed := .port .p3 } := by
  decide +kernel

/-! ### The block engine -/

theorem test_fill : replyTo (.fill (frame .p1 (fillBytes ⟨0x0100, 12, 4, 0x55⟩))) world .p1 = some (.pending, [0x01]) ∧
    replyTo (.fill (frame .p1 (fillBytes ⟨0x0103, 100, 1, 0x55⟩))) world .p1 = some (.badMode, []) := by decide +kernel

/-- R158: pages 10 to 14 onto 12 to 16 are copied downward. -/
theorem test_copy :
    ((after (exec (.copy (frame .p1 (copyBytes ⟨0x0100, 0x0100, 10, 12, 5⟩))) world)).job .p1).map Job.work =
      some (.copy 0x0100 0x0100 10 12 .downward) ∧
    replyTo (.copy (frame .p1 (copyBytes ⟨0x0100, 0x0100, 10, 17, 5⟩))) world .p1 = some (.badRange, []) := by
  decide +kernel

theorem test_sum : replyTo (.sum (frame .p3 (spanBytes ⟨0x0102, 100, 5⟩))) world .p3 = some (.pending, [0x03]) ∧
    replyTo (.sum (frame .p0 (spanBytes ⟨0x0105, 300, 1⟩))) world .p0 = some (.jobBusy, []) := by decide +kernel

/-- R164: page 300 (bytes 19,200 to 19,263) is written with the pattern, and pages done is 1. -/
theorem test_pageStep :
    readByte (after (exec .pageStep world)).array 19263 = 0xA5 ∧ readByte (after (exec .pageStep world)).array 19264 = 0 ∧
    (after (exec .pageStep world)).job .p0 = some { fillJob with pagesDone := 1 } ∧
    (after (exec .pageStep world)).engine.inFlight = some .p0 := by decide +kernel

/-- R165, R168: the record has lapsed, so the job ends STOPPED with cause EXPIRED. -/
theorem test_pageStep_stopped :
    ((after (exec .pageStep (setContent world 5 (.lapsed ⟨.p0, .exclusive, ⟨300, 4⟩, 0⟩ ⟨60, 0, false⟩ .expired)))).session
      .p0).held = [⟨7, .jobStopped .fill 0 .expired none⟩] := by decide +kernel

theorem test_stopJob : replyTo (.stopJob (frame .p0 [])) world .p0 = some (.ok, [0x01, 0, 4, 0, 0]) ∧
    replyTo (.stopJob (frame .p1 [])) world .p1 = some (.noJob, []) := by decide +kernel

theorem test_jobState : replyTo (.jobState (frame .p0 [])) world .p0 = some (.ok, [0x01, 0, 4, 0, 0, 0, 0]) := by
  decide +kernel

/-! ### Outcomes and notices -/

/-- P1 at step 4 of section 7.9: a claim that timed out is its oldest outcome. -/
def outcomes : State := up.modSession .p1 fun x =>
  { x with held := [⟨0x11, .ended .claim .timedOut 0x0105⟩, ⟨0x10, .granted 0x0104 .shared ⟨8, 2⟩ 50⟩] }

theorem test_collect : replyTo (.collect (frame .p1 [])) outcomes .p1 =
      some (.ok, [1, 0x11, 0x01, 0x02, 0x01, 0x05, 0, 0, 0, 0, 0, 0, 0, 0, 0, 0, 0, 0, 0]) ∧
    replyTo (.collect (frame .p2 [])) outcomes .p2 = some (.noOutcome, []) := by decide +kernel

/-- R137: enabling OUTCOME_READY while it is set asserts the line. -/
theorem test_setNotice : replyTo (.setNotice (frame .p1 [0x03, 9])) outcomes .p1 = some (.ok, [0x01, 0x03]) ∧
    ((after (exec (.setNotice (frame .p1 [0x03, 9])) outcomes)).port .p1).noticeLine = true := by decide +kernel

/-- Section 7.9, step 8, with an outcome held. -/
theorem test_clearNotices :
    replyTo (.clearNotices (frame .p1 [0x1F]))
      (outcomes.modPort .p1 fun u => { u with notices := ⟨true, false, false, false⟩ }) .p1 =
      some (.ok, [0x02, 0x01]) := by decide +kernel

/-! ### Supervision -/

theorem test_configSet : replyTo (.configSet (frame .p0 [0x01, 0, 25])) world .p0 = some (.ok, [0x01, 0, 25]) ∧
    (after (exec (.configSet (frame .p0 [0x01, 0, 25])) world)).clock.pendingLength = some 25 ∧
    replyTo (.configSet (frame .p0 [0x11, 0, 1])) world .p0 = some (.quotaInUse, []) := by decide +kernel

theorem test_configGet : replyTo (.configGet (frame .p0 [0x02])) world .p0 = some (.ok, [0x02, 0x27, 0x10]) ∧
    replyTo (.configGet (frame .p1 [0x02])) world .p1 = some (.notSupervisor, []) := by decide +kernel

/-- R179: P1's record becomes LAPSED, REVOKED is set at P1, and P2's claim is granted. -/
theorem test_revoke : replyTo (.revoke (frame .p0 (bytes2 0x0100))) world .p0 = some (.ok, [0x02, 0x01]) ∧
    ((after (exec (.revoke (frame .p0 (bytes2 0x0100))) world)).port .p1).notices.revoked = true ∧
    (after (exec (.revoke (frame .p0 (bytes2 0x0100))) world)).waitList = [upgradeEntry] := by decide +kernel

/-- R68: a waiting claim is withdrawn. -/
theorem test_revoke_waiting : replyTo (.revoke (frame .p0 (bytes2 0x0101))) world .p0 = some (.ok, [0x01, 0x02]) ∧
    ((after (exec (.revoke (frame .p0 (bytes2 0x0101))) world)).session .p2).held =
      [⟨0x21, .ended .claim .withdrawn 0x0101⟩] := by decide +kernel

theorem test_evict : replyTo (.evict (frame .p0 [0x01])) world .p0 = some (.ok, [0x01, 0x00]) ∧
    ((after (exec (.evict (frame .p0 [0x01])) world)).session .p1).evicted = true ∧
    replyTo (.evict (frame .p0 [0x00])) world .p0 = some (.badValue, []) := by decide +kernel

theorem test_inspect : replyTo (.inspect (frame .p0 [0x02])) world .p0 =
      some (.ok, [0x02, 0x02, 0x01, 0x01, 0x02, 0x03, 0x00, 0, 100, 0, 5, 0, 50, 0, 1, 0, 0, 0, 0, 0, 1]) ∧
    replyTo (.inspect (frame .p0 [0x06])) world .p0 = some (.ok, [0x06, 0x00, 0x01]) := by decide +kernel

theorem test_waitlist : replyTo (.waitlist (frame .p0 [0x01])) world .p0 =
    some (.ok, [2, 1, 0x01, 0x02, 0x03, 0x02, 0x01, 0, 100, 0, 5, 0, 0, 0, 0, 0, 9, 0x31]) := by decide +kernel

theorem test_restart : replyTo (.restart (frame .p0 [])) world .p0 = some (.ok, []) ∧
    (after (exec (.restart (frame .p0 [])) world)).restartPending = true := by decide +kernel

/-! ### The step -/

theorem test_step_idle : (after (step { up with pending := [] })).clock.periodCount = 1 ∧
    (after (step State.reset)) = State.reset := by decide +kernel

theorem test_no_row_has_bits : Sys2Proof.decodeTableWord 8 0x10 = none ∧
    (State.reset.withFetchWord 8 0x10).pending = [] := by decide +kernel

/-! ### Witnesses: helpers -/

/-- The step goes on. -/
def goesOn : Host.Outcome State Fault Refusal → Bool
  | .next _ => true
  | _ => false

theorem next_of {o : Host.Outcome State Fault Refusal} (h : goesOn o = true) : ∃ t, o = .next t := by
  cases o with
  | next t => exact ⟨t, rfl⟩
  | fault r => simp [goesOn] at h
  | refused r => simp [goesOn] at h

theorem noSelf_of {s : State} {p : Port} {r : Range} (h : overlapsSelf s p r = false) :
    (∀ j c, Held s j c → c.holder = p → ¬ Overlap r c.range) ∧
      ∀ e ∈ s.waitList, e.port = p → e.isUpgrade = false → ¬ Overlap r e.range := by
  rw [← Bool.not_eq_true, overlapsSelf_iff] at h
  push Not at h
  exact h

theorem noHolder_of {s : State} {p : Port} {m : Mode} {r : Range} (h : (holderBlockers s p m r).isEmpty = true) :
    ¬ HolderBlocks s p m r := by rw [← holderBlockers_isEmpty, h]; simp

theorem noWaiter_of {s : State} {p : Port} {m : Mode} {r : Range} (h : (waiterBlockers s p m r).isEmpty = true) :
    ¬ WaiterBlocks s p m r := by rw [← waiterBlockers_isEmpty, h]; simp

theorem notEngaged_of {s : State} {i : SlotId} (h : engaged s i = false) : ¬ Engaged s i := by
  rw [← engaged_iff, h]; simp

theorem held_of {s : State} {i : SlotId} {c : Claimed} (h : (slotAt s i).content.heldRecord = some c) : Held s i c :=
  held_iff.2 h

/-- Every HELD record of a state, from its list. -/
theorem heldAll_of {s : State} (l : List (SlotId × Claimed))
    (h : ∀ i : SlotId, ((slotAt s i).content.heldRecord.all fun c => decide ((i, c) ∈ l)) = true) {i : SlotId}
    {c : Claimed} (hc : Held s i c) : (i, c) ∈ l := by
  have := h i
  rw [held_iff.1 hc] at this
  simpa using this

/-! ### Witnesses: the invariants hold of `world` -/

/-- The HELD records of `world`. -/
def worldHeld : List (SlotId × Claimed) :=
  [(0, ⟨.p1, .exclusive, ⟨10, 10⟩, 0⟩), (2, ⟨.p3, .shared, ⟨100, 5⟩, 0⟩), (3, ⟨.p1, .shared, ⟨100, 5⟩, 0⟩),
   (5, ⟨.p0, .exclusive, ⟨300, 4⟩, 0⟩)]

theorem held_world {i : SlotId} {c : Claimed} (h : Held world i c) : (i, c) ∈ worldHeld :=
  heldAll_of worldHeld (by decide +kernel) h

theorem generations_world : GenerationsOk world := by
  have h : ∀ i : SlotId, (slotAt world i).gen ≠ 0 := by decide +kernel
  exact h

theorem params_world : ParamsOk world.params := by
  refine ⟨by decide, by decide, by decide, by decide, by decide, ?_⟩
  intro p; cases p <;> decide

theorem configuration_world : ConfigurationOk world :=
  ⟨params_world, ⟨by decide, by decide, by decide, fun n h => nomatch h⟩⟩

theorem waitList_world : WaitListOk world := ⟨by decide +kernel, by intro p; cases p <;> decide +kernel⟩

theorem leases_world : LeasesOk world := by
  refine ⟨?_, by decide +kernel, ?_⟩
  · have h : ∀ i : SlotId, (match (slotAt world i).content with
        | .held _ l n => decide (1 ≤ n ∧ n ≤ l.term ∧ l.term ≤ 65535 ∧ l.renewals ≤ 255)
        | _ => true) = true := by decide +kernel
    intro i c l n hc
    have := h i
    rw [hc] at this
    simpa using this
  · intro e he term label hk
    have : e = claimEntry ∨ e = upgradeEntry := by simpa [world] using he
    rcases this with rfl | rfl
    · cases hk; decide
    · cases hk

theorem ranges_world : RangesOk world := by
  refine ⟨?_, ?_⟩
  · have h : ∀ i : SlotId, ((slotAt world i).content.claimed.all fun c => rangeOk c.range) = true := by decide +kernel
    intro i c hc
    have := h i
    rw [hc] at this
    simpa using this
  · intro e he
    have : e = claimEntry ∨ e = upgradeEntry := by simpa [world] using he
    rcases this with rfl | rfl <;> (rw [← rangeOk_iff]; decide)

theorem jobs_world : JobsOk world := by
  intro p j h
  cases p <;> cases h
  decide

theorem inStep_world : InStep world := by
  have hw : world.waitList = [claimEntry, upgradeEntry] := rfl
  refine ⟨?_, ?_, ?_, by decide +kernel⟩
  · intro e he term label hk
    simp only [hw, List.mem_cons, List.not_mem_nil, or_false] at he
    rcases he with rfl | rfl
    · cases hk; exact ⟨1, by decide +kernel, by decide +kernel⟩
    · cases hk
  · intro e he hk
    simp only [hw, List.mem_cons, List.not_mem_nil, or_false] at he
    rcases he with rfl | rfl
    · cases hk
    · exact ⟨rfl, 2, _, by decide +kernel, held_of (c := ⟨.p3, .shared, ⟨100, 5⟩, 0⟩) (by decide +kernel), rfl, rfl, rfl⟩
  · have h : ∀ i : SlotId, (match (slotAt world i).content with
        | .reserved _ => decide (i = 1)
        | _ => true) = true := by decide +kernel
    intro i c hc
    have := h i
    rw [hc] at this
    have : i = 1 := by simpa using this
    subst this
    exact ⟨claimEntry, by simp [hw], by decide +kernel, rfl⟩

theorem locks_world : LocksOk world := by
  have hw : world.waitList = [claimEntry, upgradeEntry] := rfl
  refine ⟨inStep_world, ?_, ?_, ?_, ?_⟩
  · intro i j c d hc hd
    have hall : ∀ x ∈ worldHeld, ∀ y ∈ worldHeld,
        conflicts x.2.holder x.2.mode x.2.range y.2.holder y.2.mode y.2.range = false := by decide +kernel
    have := hall _ (held_world hc) _ (held_world hd)
    rw [← conflicts_iff, this]; simp
  · intro i j c d hij hc hd hp
    have hall : ∀ x ∈ worldHeld, ∀ y ∈ worldHeld, x.1 ≠ y.1 → x.2.holder = y.2.holder →
        overlaps x.2.range y.2.range = false := by decide +kernel
    have := hall _ (held_world hc) _ (held_world hd) hij hp
    rw [← overlaps_iff, this]; simp
  · intro i c e he hc hu hp
    have hall : ∀ x ∈ worldHeld, ∀ e ∈ [claimEntry, upgradeEntry], e.isUpgrade = false → x.2.holder = e.port →
        overlaps x.2.range e.range = false := by decide +kernel
    have := hall _ (held_world hc) e (hw ▸ he) hu hp
    rw [← overlaps_iff, this]; simp
  · rw [hw]
    simp [WaitEntry.isUpgrade, upgradeEntry]

theorem noCycle_world : NoCycle world := noCycle_of (by decide +kernel)

theorem usage_world : UsageOk world := by intro p; cases p <;> decide +kernel

theorem ports_world : PortsOk world := by
  have hst : ∀ p, (world.session p).state = .attached := by intro p; cases p <;> rfl
  refine ⟨?_, ?_, ?_, ?_, ?_⟩
  · intro p; cases p <;> decide +kernel
  · intro p; cases p <;> decide +kernel
  · intro p h; rw [hst p] at h; cases h
  · intro p h; rw [hst p] at h; cases h
  · intro p _ j hj
    cases p <;> cases hj
    decide

theorem blocked_world : EachEntryBlocked world := by
  have h1 : Held world 0 ⟨.p1, .exclusive, ⟨10, 10⟩, 0⟩ := held_of (by decide +kernel)
  have h2 : Held world 3 ⟨.p1, .shared, ⟨100, 5⟩, 0⟩ := held_of (by decide +kernel)
  intro older e younger h
  have hw : world.waitList = [claimEntry, upgradeEntry] := rfl
  rw [hw] at h
  rcases older with _ | ⟨a, _ | ⟨b, _ | ⟨c, l⟩⟩⟩
  · simp only [List.nil_append, List.cons.injEq] at h
    obtain ⟨rfl, -⟩ := h
    exact .inl ⟨0, _, h1, by rw [← conflicts_iff]; decide +kernel⟩
  · simp only [List.cons_append, List.nil_append, List.cons.injEq] at h
    obtain ⟨-, rfl, -⟩ := h
    exact .inl ⟨3, _, h2, by rw [← conflicts_iff]; decide +kernel⟩
  · simp at h
  · simp at h

theorem wf_world : Memory.wf world.array = true := by decide +kernel

/-- A step from `world` that goes on, in which much happens: the premise of the invariants' statements is met. -/
theorem witness_invariants : ∃ t, step world = .next t ∧ Memory.wf world.array = true ∧
    LinesAgree world ∧ GenerationsOk world ∧ WaitListOk world ∧
    ConfigurationOk world ∧ ParamsOk world.params ∧ LeasesOk world ∧
    UsageOk world ∧ PortsOk world ∧ LocksOk world ∧ NoCycle world ∧
    EachEntryBlocked world ∧ RangesOk world ∧ JobsOk world := by
  obtain ⟨t, ht⟩ := next_of (o := step world) (by decide +kernel)
  exact ⟨t, ht, wf_world, lines_world, generations_world, waitList_world, configuration_world, params_world,
    leases_world, usage_world, ports_world, locks_world, noCycle_world, blocked_world, ranges_world, jobs_world⟩

/-! ### Witnesses: clock, frames, memory, reset -/

theorem witness_EmptyQueueCountsClkin :
    (up.pending = [] ∧ clockRuns { up with resetLow := true } = false) ∧ clockRuns up = true ∧
    (∀ n b, clockRuns { up with clock := ⟨n, b, 10, none⟩ } = true) ∧
    1598 + 1 < 1600 ∧ (1600 ≤ 1599 + 1 ∧ 8 + 1 < 10) ∧ 10 ≤ 9 + 1 :=
  ⟨by decide, by decide, fun _ _ => by rfl, by decide, by decide, by decide⟩

theorem witness_FrameRoundTrip : (frame .p0 (List.replicate 72 0)).args.length ≤ 72 ∧ (frame .p0 []).args.length ≤ 72 ∧
    76 < (frame .p0 (List.replicate 72 0)).args.length + 5 := by decide

/-- The edges of a whole frame and of one with its last bit missing; a port in IDLE, one that sends fill, and one that
sends a reply of six bytes, with no, 8, 47 and 48 bits sampled. -/
theorem witness_FrameRoundTrip_edges :
    sampled (clocked (frameBytes 0x10 (frame .p0 [7]))) = (frameBytes 0x10 (frame .p0 [7])).flatMap bitsOfByte ++ [] ∧
    (47 < 8 * ((frame .p0 [7]).args.length + 5) ∧
      sampled ((clocked (frameBytes 0x10 (frame .p0 [7]))).take 94) =
        ((frameBytes 0x10 (frame .p0 [7])).flatMap bitsOfByte).take 47) ∧
    dataOut idleUp .p1 = .highImpedance ∧ dataOut up .p1 = .fill ∧
    dataOut answering .p1 = .reply (replyBytes (mkReply .ok 1 0x08 [])) ∧
    dataOut sentReply .p1 = .spent (replyBytes (mkReply .ok 1 0 [])) ∧
    (replyBytes (mkReply .ok 1 0x08 [])).length = 6 ∧ .fall ∉ ([.rise true] : List ClockEdge) ∧
    ((sampled []).length < 8 * 1 ∧ 8 * 1 ≤ (sampled (clocked [0])).length ∧
      (sampled ((clocked (List.replicate 6 0)).take 94)).length < 8 * (0 + 6) ∧
      8 * (0 + 6) ≤ (sampled (clocked (List.replicate 6 0))).length) := by
  rw [sampled_clocked, sampled_clocked, sampled_clocked]
  decide +kernel

theorem witness_PowerUpAndClearing : Memory.wf world.array = true ∧ 4096 ≤ world.clearNext ∧
    ({ world with clearNext := 4095 } : State).clearNext < 4096 ∧ State.reset.clearNext < 4095 := by decide +kernel

/-- P1's WRITE being served, ENFORCE off. -/
def writing (cut : Bool) (x : AccessArgs) : State :=
  { world with
    params := { Params.reset with enforce := .off }
    arbiter := { waiting := .none, serving := some (.port .p1), lastServed := .port .p1 }
    ports := world.ports.set .p1 { (world.port .p1) with
      sel := .answering, request := some ⟨.write, 5, accessBytes x, cut⟩ } }

/-- A service is in progress at a reset: P1's WRITE at the end of the array, with ENFORCE off. -/
theorem witness_PinReset : world.resetLow = false ∧ Memory.wf (writing false ⟨262142, 2, [1, 2]⟩).array = true ∧
    (writing false ⟨262142, 2, [1, 2]⟩).arbiter.serving = some (.port .p1) ∧
    ((writing false ⟨262142, 2, [1, 2]⟩).port .p1).request =
      some ⟨.write, 5, accessBytes ⟨262142, 2, [1, 2]⟩, false⟩ ∧
    ((writing false ⟨262142, 2, [1, 2]⟩).session .p1).state = .attached ∧
    InArray ⟨262142, 2, [1, 2]⟩ ∧ CoveredAsRequired (writing false ⟨262142, 2, [1, 2]⟩) .p1 .write ⟨262142, 2, [1, 2]⟩ ∧
    up.arbiter.serving = none ∧ ({ world with resetLow := true } : State).resetLow = true :=
  ⟨by decide +kernel, by decide +kernel, rfl, rfl, rfl, ⟨by decide, by decide, by decide⟩,
    fun h => by rcases h with h | h <;> simp [writing] at h, rfl, rfl⟩

/-- A RESTART is pending, and P0 is in the given state. -/
def restarting (x : SelState) : State := { world with restartPending := true }.modPort .p0 fun u => { u with sel := x }

theorem witness_RestartTaken : Admitted .restart (frame .p0 []) world ∧ (frame .p0 []).args = [] ∧ LinesAgree world ∧
    (restarting .answering).restartPending = true ∧ (restarting .answering).resetLow = false ∧
    ((restarting .answering).port .p0).sel = .answering ∧ ((restarting .spent).port .p0).sel = .spent ∧
    Memory.wf (restarting .spent).array = true ∧ (restarting .spent).arbiter.serving = some .engine :=
  ⟨admitted_of (by decide +kernel), rfl, lines_world, rfl, rfl, rfl, rfl, by decide +kernel, rfl⟩

/-! ### Witnesses: lease time and the scan -/

/-- A record with two ticks left at its holder's threshold, one with one, an expired one, and requests that wait. -/
theorem witness_LeaseTick : clockRuns world = true ∧ InStep world ∧ lastTick world 2 = true ∧
    recordEnds world .p3 = [upgradeEntry] ∧ timeOuts world .p2 = [claimEntry] ∧
    (slotAt world 0).content = .held ⟨.p1, .exclusive, ⟨10, 10⟩, 0⟩ ⟨100, 0, false⟩ 2 ∧
    (slotAt world 2).content = .held ⟨.p3, .shared, ⟨100, 5⟩, 0⟩ ⟨50, 0, false⟩ 1 ∧
    (slotAt world 6).content = .free ∧
    (slotAt world 4).content = .lapsed ⟨.p3, .shared, ⟨200, 1⟩, 0⟩ ⟨5, 0, true⟩ .expired ∧
    ((slotAt world 1).content = .reserved ⟨.p2, .exclusive, ⟨15, 10⟩, 0⟩ ∧ claimEntry.ticket = slotHandle world 1) :=
  ⟨by decide +kernel, inStep_world, by decide +kernel, by decide +kernel, by decide +kernel, by decide +kernel,
    by decide +kernel, by decide +kernel, by decide +kernel, by decide +kernel⟩

theorem witness_LapseAndWaitExpiry :
    (slotAt spent 2).content = .held ⟨.p3, .shared, ⟨100, 5⟩, 0⟩ ⟨50, 0, false⟩ 0 ∧
    (spent.waitList = [claimEntry] ++ upgradeEntry :: [] ∧ upgradeEntry.kind = .upgrade ∧
      upgradeEntry.ticket = slotHandle spent 2 ∧ ∀ o ∈ [claimEntry], o.kind = .upgrade → o.ticket ≠ slotHandle spent 2) ∧
    ((slotAt (setContent up 0 (heldBy .p1 .shared 1 1 9 0)) 0).content = heldBy .p1 .shared 1 1 9 0 ∧
      ∀ e ∈ up.waitList, e.kind = .upgrade → e.ticket ≠ 0x0100) := by decide +kernel

/-- As `world`, with no tick left to wait for either request. -/
def bothWaited : State :=
  { world with waitList := [{ claimEntry with waitRemaining := 0 }, { upgradeEntry with waitRemaining := 0 }] }

theorem inStep_bothWaited : InStep bothWaited := by
  obtain ⟨h1, h2, h3, h4⟩ := inStep_world
  have hw : bothWaited.waitList = [{ claimEntry with waitRemaining := 0 }, { upgradeEntry with waitRemaining := 0 }] :=
    rfl
  have hww : world.waitList = [claimEntry, upgradeEntry] := rfl
  refine ⟨?_, ?_, ?_, h4⟩
  · intro e he term label hk
    simp only [hw, List.mem_cons, List.not_mem_nil, or_false] at he
    rcases he with rfl | rfl
    · exact h1 claimEntry (by simp [hww]) term label hk
    · cases hk
  · intro e he hk
    simp only [hw, List.mem_cons, List.not_mem_nil, or_false] at he
    rcases he with rfl | rfl
    · cases hk
    · exact h2 upgradeEntry (by simp [hww]) hk
  · intro i c hc
    obtain ⟨e, he, ht, hu⟩ := h3 i c hc
    simp only [hww, List.mem_cons, List.not_mem_nil, or_false] at he
    rcases he with rfl | rfl
    · exact ⟨{ claimEntry with waitRemaining := 0 }, by simp [hw], ht, hu⟩
    · cases hu

theorem witness_LapseAndWaitExpiry_waits : InStep bothWaited ∧
    ({ claimEntry with waitRemaining := 0 } ∈ bothWaited.waitList ∧ claimEntry.ticket = slotHandle bothWaited 1) ∧
    { upgradeEntry with waitRemaining := 0 } ∈ bothWaited.waitList :=
  ⟨inStep_bothWaited, by decide +kernel, by decide +kernel⟩

/-- `InStep`, evaluated. -/
def inStep (s : State) : Bool :=
  (s.waitList.all fun e => match e.kind with
    | .claim _ label => allSlots.any fun i =>
      e.ticket == slotHandle s i && (slotAt s i).content == .reserved ⟨e.port, e.mode, e.range, label⟩
    | .upgrade => e.mode == .exclusive && allSlots.any fun i => e.ticket == slotHandle s i &&
      (slotAt s i).content.heldRecord.any fun c => c == { c with holder := e.port, mode := .shared, range := e.range }) &&
  (allSlots.all fun i => match (slotAt s i).content with
    | .reserved _ => s.waitList.any fun e => e.ticket == slotHandle s i && !e.isUpgrade
    | _ => true) &&
  decide (s.waitList.map WaitEntry.ticket).Nodup

theorem inStep_of {s : State} (h : inStep s = true) : InStep s := by
  simp only [inStep, Bool.and_eq_true, List.all_eq_true, decide_eq_true_eq] at h
  obtain ⟨⟨h1, h2⟩, h3⟩ := h
  refine ⟨?_, ?_, ?_, h3⟩
  · intro e he term label hk
    have := h1 e he
    simp only [hk, List.any_eq_true, Bool.and_eq_true, beq_iff_eq] at this
    obtain ⟨i, -, hi⟩ := this
    exact ⟨i, hi⟩
  · intro e he hk
    have := h1 e he
    simp only [hk, List.any_eq_true, Bool.and_eq_true, beq_iff_eq, Option.any_eq_true] at this
    obtain ⟨hm, i, -, ht, c, hc, hx⟩ := this
    exact ⟨hm, i, c, ht, held_of hc, congrArg Claimed.holder hx, congrArg Claimed.mode hx, congrArg Claimed.range hx⟩
  · intro i c hc
    have := h2 i (mem_allSlots i)
    simp only [hc, List.any_eq_true, Bool.and_eq_true, beq_iff_eq, Bool.not_eq_true'] at this
    exact this

/-- P2's claim and P3's upgrade with nothing in their way, and between them a claim of P0 over P2's pages. -/
def lined : State :=
  let s := setContent up 1 (.reserved ⟨.p2, .exclusive, ⟨15, 10⟩, 0⟩)
  let s := setContent s 2 (heldBy .p3 .shared 100 5 50 1)
  let s := setContent s 6 (.reserved ⟨.p0, .shared, ⟨20, 2⟩, 0⟩)
  { s with waitList := [claimEntry,
      { ticket := 0x0106, port := .p0, kind := .claim 9 0, mode := .shared, range := ⟨20, 2⟩, waitRemaining := 3, tag := 1 },
      upgradeEntry] }

/-- R60 to R63: the oldest claim and the upgrade are granted, P0's claim stays behind P2's record, and CONTENDED is set
at P2 alone. -/
theorem test_grantScan : (grantScan lined).waitList.map WaitEntry.ticket = [0x0106] ∧
    (slotAt (grantScan lined) 1).content = heldBy .p2 .exclusive 15 10 50 50 ∧
    (slotAt (grantScan lined) 2).content = heldBy .p3 .exclusive 100 5 50 1 ∧
    ((grantScan lined).session .p2).held = [⟨0x21, .granted 0x0101 .exclusive ⟨15, 10⟩ 50⟩] ∧
    ((grantScan lined).port .p2).notices.contended = true ∧ ((grantScan lined).port .p3).notices.contended = false := by
  decide +kernel

/-- A list whose oldest entry is blocked by a HELD record, and one whose oldest is not and whose second stays. -/
theorem witness_ScanGrantsOldest : InStep world ∧ world.waitList = claimEntry :: [upgradeEntry] ∧ InStep lined ∧
    lined.waitList.head? = some claimEntry ∧
    (∃ o ∈ (grantScan world).waitList, o ∈ [claimEntry] ∧ Conflict .p0 .shared ⟨20, 2⟩ o.port o.mode o.range) :=
  ⟨inStep_world, rfl, inStep_of (by decide +kernel), rfl, claimEntry, by decide +kernel, by simp,
    by rw [← conflicts_iff]; decide +kernel⟩

/-! ### Witnesses: selections and the judgement -/

theorem witness_SelectionStates : State.reset.resetLow = false ∧ (State.reset.port .p1).sel = .idle ∧
    (State.reset.port .p1).seenHigh = false ∧ (idleUp.port .p1).seenHigh = true ∧
    (answering.port .p1).sel = .answering ∧ (answering.port .p1).answer = some ⟨mkReply .ok 1 0x08 [], true⟩ ∧
    (8 * ((mkReply .ok 1 0x08 []).results.length + 6) ≤ (sampled (clocked (List.replicate 6 0))).length ∧
      (sampled ((clocked (List.replicate 6 0)).take 95)).length < 8 * ((mkReply .ok 1 0x08 []).results.length + 6)) ∧
    ((restarting .spent).modPort .p1 fun u => { u with sel := .spent }).port .p1 =
      { (world.port .p1) with sel := .spent } := by decide +kernel

theorem witness_DeselectionInReceiving : (up.port .p1).sel = .receiving ∧ up.resetLow = false ∧
    8 ≤ (sampled (clocked [0])).length ∧ ¬ 8 ≤ (sampled ((clocked [0]).take 15)).length := by decide +kernel

/-- P1 in ANSWERING: a reply that is not kept; a READ at the arbiter. -/
def answeringUnkept : State := answering.modPort .p1 fun u => { u with answer := some ⟨mkReply .ok 1 0 [], false⟩ }
def answeringRead : State := up.modPort .p1 fun u =>
  { u with sel := .answering, request := some ⟨.read, 1, accessBytes ⟨0, 1, []⟩, false⟩ }

/-- P1's READ of byte 0 being served after its selection ended, with ENFORCE off, and frames that wait behind it. -/
def waiting (ds : List Deferred) (d : Deferred) : State :=
  { up with
    params := { Params.reset with enforce := .off }
    arbiter := { waiting := .none, serving := some (.port .p1), lastServed := .port .p1 } }.modPort .p1 fun u =>
    { u with
      sel := .answering, request := some ⟨.read, 5, accessBytes ⟨0, 1, []⟩, true⟩
      deferred := ds ++ [d] }

/-- The base of the statement about waiting frames: `waiting` without the last of them. -/
def waitingFor (ds : List Deferred) : State :=
  (waiting ds ⟨0x03, frame .p1 [], false⟩).modPort .p1 fun u => { u with deferred := ds }

/-- A READ frame whose selection has ended. -/
def cutRead : Deferred := ⟨0x20, frame .p1 (accessBytes ⟨1, 1, []⟩), true⟩

/-- R118: a STATUS that waited behind the READ is answered in the step that forms the READ's reply; one that was cut
leaves its reply kept and REPLY_CUT set; behind a second READ it goes on waiting. -/
theorem test_waiting_frames :
    (reply (after (exec (.read .p1) (waiting [] ⟨0x03, frame .p1 [], false⟩))) .p1).map Prod.fst = some .ok ∧
    (((after (exec (.read .p1) (waiting [] ⟨0x03, frame .p1 [], true⟩))).port .p1).lastReply.map
      fun r => r.results.length) = some 13 ∧
    ((after (exec (.read .p1) (waiting [cutRead] ⟨0x03, frame .p1 [], false⟩))).port .p1).deferred =
      [⟨0x03, frame .p1 [], false⟩] ∧
    ((after (exec (.read .p1) (waiting [cutRead] ⟨0x03, frame .p1 [], false⟩))).port .p1).request.isSome := by
  decide +kernel

theorem witness_DeselectionInAnswering :
    (answering.port .p1).sel = .answering ∧ answering.resetLow = false ∧ clearing answering = false ∧
    answering.restartPending = false ∧ (answeringUnkept.port .p1).sel = .answering ∧
    ((answeringRead.port .p1).answer = none ∧ (answeringRead.port .p1).deferred = [] ∧
      (answeringRead.port .p1).request = some ⟨.read, 1, accessBytes ⟨0, 1, []⟩, false⟩) ∧
    ((waiting [] ⟨0x03, frame .p1 [], false⟩).port .p1).sel = .answering ∧
    ((waiting [] ⟨0x03, frame .p1 [], false⟩).port .p1).answer = none ∧
    ((waiting [] ⟨0x03, frame .p1 [], false⟩).port .p1).deferred = [] ++ [⟨0x03, frame .p1 [], false⟩] := by
  decide +kernel

theorem completes_of {c : Command} {f : Frame} {s : State} (h : Passes c f s) : Completes f s := h.toCompletes

/-- `up` while start-up clearing is in progress. -/
def clearingUp : State := { up with clearNext := 0 }

theorem completes_clearing : Completes (frame .p1 []) clearingUp := ⟨rfl, rfl, rfl, rfl⟩

theorem witness_FramesThatNameNoCommand : (up.port .p1).sel = .receiving ∧ up.resetLow = false ∧
    72 < (73 : Byte).toNat ∧ clearing clearingUp = true ∧ Completes (frame .p1 (List.replicate 72 0)) up ∧
    clearing up = false ∧ (up.session .p1).checking = false ∧ commandOfCode 0x06 = none ∧ LinesAgree up :=
  ⟨rfl, rfl, by decide, rfl, ⟨rfl, rfl, rfl, rfl⟩, by decide, rfl, by decide, lines_up⟩

theorem lines_clearing : LinesAgree clearingUp := lines_of (by decide +kernel)
theorem lines_detached : LinesAgree detachedUp := lines_of (by decide +kernel)
theorem lines_answeringRead : LinesAgree (answeringRead.modPort .p1 fun u => { u with sel := .receiving }) :=
  lines_of (by decide +kernel)

/-- What the statement about waiting frames asks: the READ is served, and the frames before the last have been taken. -/
theorem witness_JudgementAnswers_waiting :
    ((waiting [] ⟨0x03, frame .p1 [], false⟩).arbiter.serving = some (.port .p1) ∧
      ((waiting [] ⟨0x03, frame .p1 [], false⟩).port .p1).request = some ⟨.read, 5, accessBytes ⟨0, 1, []⟩, true⟩ ∧
      clearing (waiting [] ⟨0x03, frame .p1 [], false⟩) = false ∧
      (waiting [] ⟨0x03, frame .p1 [], false⟩).restartPending = false) ∧
    (∃ m, exec (.read .p1) (waitingFor []) = .next m ∧ (m.port .p1).request = none) ∧
    (∃ m, exec (.read .p1) (waitingFor [cutRead]) = .next m ∧ (m.port .p1).request ≠ none) ∧
    (cutRead.cut = true ∧ cutRead.code ≠ commandCode .restart ∧ cutRead.frame.port = .p1 ∧
      cutRead.frame.args.length ≤ 72) :=
  ⟨⟨rfl, rfl, rfl, rfl⟩, ⟨_, rfl, by decide +kernel⟩, ⟨_, rfl, by decide +kernel⟩, by decide +kernel⟩

theorem witness_JudgementAnswers :
    (((answeringRead.modPort .p1 fun u => { u with sel := .receiving }).port .p1).sel = .receiving ∧
      ((answeringRead.modPort .p1 fun u => { u with sel := .receiving }).port .p1).request ≠ none ∧
      LinesAgree (answeringRead.modPort .p1 fun u => { u with sel := .receiving })) ∧
    (Completes (frame .p1 []) clearingUp ∧ LinesAgree clearingUp ∧ clearing clearingUp = true) ∧
    (Completes (frame .p1 []) detachedUp ∧ LinesAgree detachedUp ∧ (detachedUp.session .p1).checking = true ∧
      checkMatches (commandCode .status) (frame .p1 []) = false ∧ checkMatches 0x06 (frame .p1 []) = false ∧
      commandOfCode 0x06 = none) ∧
    (Completes (frame .p1 []) up ∧ isSupervision .restart = true ∧ (frame .p1 []).port ≠ .p0) ∧
    (Completes (frame .p1 [0]) up ∧ lengthOk .status (frame .p1 [0]).args = false ∧ isSupervision .status = false) :=
  ⟨⟨rfl, by decide +kernel, lines_answeringRead⟩, ⟨completes_clearing, lines_clearing, rfl⟩,
    ⟨⟨rfl, rfl, rfl, rfl⟩, lines_detached, rfl, by decide +kernel⟩, ⟨⟨rfl, rfl, rfl, rfl⟩, by decide, by decide⟩,
    ⟨⟨rfl, rfl, rfl, rfl⟩, by decide, by decide⟩⟩

/-! ### Witnesses: sessions and transport -/

/-- `up` with P1's session in a state. -/
def inState (x : SessionState) : State := up.modSession .p1 fun y => { y with state := x }

theorem witness_AdmissionAnswers :
    (Passes .collect (frame .p1 []) (inState .closing) ∧ LinesAgree (inState .closing) ∧
      lengthOk .collect (frame .p1 []).args = true ∧ ((inState .closing).session .p1).state = .closing) ∧
    (Passes .open_ (frame .p1 [0, 0, 0]) up ∧ LinesAgree up ∧ lengthOk .open_ (frame .p1 [0, 0, 0]).args = true ∧
      (up.session .p1).state = .attached) ∧
    (Passes .collect (frame .p1 []) (inState .detached) ∧ LinesAgree (inState .detached) ∧
      ((inState .detached).session .p1).state = .detached) :=
  ⟨⟨passes_of (by decide +kernel), lines_of (by decide +kernel), by decide, rfl⟩,
    ⟨passes_of (by decide +kernel), lines_up, by decide, rfl⟩,
    ⟨passes_of (by decide +kernel), lines_of (by decide +kernel), rfl⟩⟩

theorem witness_OpenTaken :
    (Passes .open_ (goodFrame .open_ .p1 9 [boolByte true, noticeByte ⟨true, true, true, true, true⟩, 255]) detachedUp ∧
      LinesAgree detachedUp ∧ (detachedUp.session .p1).state = .detached) ∧
    (Passes .open_ (goodFrame .open_ .p1 9 [2, 0, 0]) detachedUp ∧ 2 ≤ (2 : Byte).toNat) ∧
    (Passes .open_ (goodFrame .open_ .p1 9 [0, 32, 0]) detachedUp ∧ 32 ≤ (32 : Byte).toNat) :=
  ⟨⟨passes_of (by decide +kernel), lines_detached, rfl⟩, ⟨passes_of (by decide +kernel), by decide⟩,
    ⟨passes_of (by decide +kernel), by decide⟩⟩

theorem witness_CloseTaken : Admitted .close (frame .p0 []) world ∧ Admitted .close (frame .p1 []) world ∧
    (frame .p0 []).args = [] ∧ LinesAgree world :=
  ⟨admitted_of (by decide +kernel), admitted_of (by decide +kernel), rfl, lines_world⟩

/-- STATUS, REPLAY and ACK_ERRORS in a session that is DETACHED; REPLAY with and without a kept reply. -/
theorem witness_StatusReported_ReplaySendsCopy_AckErrorsClears :
    Passes .status (goodFrame .status .p1 1 []) detachedUp ∧ Passes .replay (goodFrame .replay .p1 1 []) detachedUp ∧
    Passes .ackErrors (goodFrame .ackErrors .p1 1 []) detachedUp ∧ LinesAgree detachedUp ∧
    (detachedUp.port .p1).lastReply = none ∧
    Passes .replay (frame .p1 []) (answering.modPort .p1 fun u => { u with sel := .receiving }) ∧
    LinesAgree (answering.modPort .p1 fun u => { u with sel := .receiving }) ∧
    Completes (frame .p1 (List.replicate 72 0)) up :=
  ⟨passes_of (by decide +kernel), passes_of (by decide +kernel), passes_of (by decide +kernel), lines_detached,
    rfl, passes_of (by decide +kernel), lines_of (by decide +kernel), ⟨rfl, rfl, rfl, rfl⟩⟩

/-! ### Witnesses: the lock manager -/

theorem witness_OverlapIsCommonPage :
    1 ≤ (⟨0, 4096⟩ : Range).count ∧ 1 ≤ (⟨4095, 1⟩ : Range).count ∧ overlaps ⟨0, 4096⟩ ⟨4095, 1⟩ = true := by decide

theorem wellFormed_of {r : Range} (h : rangeOk r = true) : WellFormed r := (rangeOk_iff r).1 h
theorem notWellFormed_of {r : Range} (h : rangeOk r = false) : ¬ WellFormed r := by rw [← rangeOk_iff, h]; simp

/-- A CLAIM frame. -/
def claiming (p : Port) (mode : Byte) (first count term wait : Half) : Frame :=
  frame p (claimBytes ⟨mode, first, count, term, wait, 0⟩)

/-- A state with no FREE slot. -/
def fullTable : State :=
  { up with table := ⟨List.replicate 128 ⟨1, .lapsed ⟨.p0, .shared, ⟨0, 1⟩, 0⟩ ⟨1, 0, false⟩ .expired⟩, List.length_replicate⟩ }

/-- `world` with P1's quota at its usage. -/
def atQuota : State := { world with params := { Params.reset with quota := ⟨32, 2, 32, 32⟩ } }

theorem witness_ClaimRefusedInOrder_checks :
    (Admitted .claim (claiming .p1 2 0 1 0 0) world ∧ 1 < (2 : Byte).toNat) ∧
    (Admitted .claim (claiming .p1 1 4095 2 0 0) world ∧ ¬ WellFormed ⟨4095, 2⟩) ∧
    (Admitted .claim (claiming .p1 1 4095 1 10001 0) world ∧ WellFormed ⟨4095, 1⟩ ∧ world.params.maxTerm < 10001) ∧
    (Admitted .claim (claiming .p1 1 0 4096 10000 5001) world ∧ WellFormed ⟨0, 4096⟩ ∧
      ¬ world.params.maxTerm < 10000 ∧ world.params.maxWait < 5001) ∧
    LinesAgree world :=
  ⟨⟨admitted_of (by decide +kernel), by decide⟩, ⟨admitted_of (by decide +kernel), notWellFormed_of (by decide)⟩,
    ⟨admitted_of (by decide +kernel), wellFormed_of (by decide), by decide⟩,
    ⟨admitted_of (by decide +kernel), wellFormed_of (by decide), by decide, by decide⟩, lines_world⟩

theorem witness_ClaimRefusedInOrder_space :
    (Admitted .claim (claiming .p1 1 19 1 0 5000) world ∧
      ∃ i c, Held world i c ∧ c.holder = .p1 ∧ Overlap ⟨19, 1⟩ c.range) ∧
    (Admitted .claim (claiming .p1 1 500 10 0 0) atQuota ∧ LinesAgree atQuota ∧
      overlapsSelf atQuota .p1 ⟨500, 10⟩ = false ∧ atQuota.params.quota.get .p1 ≤ (atQuota.session .p1).usage) ∧
    (Admitted .claim (claiming .p1 1 500 10 0 0) fullTable ∧ LinesAgree fullTable ∧
      overlapsSelf fullTable .p1 ⟨500, 10⟩ = false ∧
      ¬ fullTable.params.quota.get .p1 ≤ (fullTable.session .p1).usage ∧ ∀ i, (slotAt fullTable i).content ≠ .free) :=
  ⟨⟨admitted_of (by decide +kernel), 0, ⟨.p1, .exclusive, ⟨10, 10⟩, 0⟩, held_of (by decide +kernel), rfl, by decide, by decide⟩,
    ⟨admitted_of (by decide +kernel), lines_of (by decide +kernel), by decide +kernel, by decide +kernel⟩,
    ⟨admitted_of (by decide +kernel), lines_of (by decide +kernel), by decide +kernel, by decide +kernel,
      lowestFree_none.1 (by decide +kernel)⟩⟩

theorem witness_ClaimRefusedInOrder_conflict :
    (Admitted .claim (claiming .p0 0 10 1 0 0) world ∧ (0 : Byte) = modeByte .shared ∧
      Held world 0 ⟨.p1, .exclusive, ⟨10, 10⟩, 0⟩ ∧
      Conflict .p0 .shared ⟨10, 1⟩ .p1 .exclusive ⟨10, 10⟩ ∧ ∀ j : SlotId, ¬ j < 0) ∧
    (Admitted .claim (claiming .p0 0 22 1 0 0) world ∧ ¬ HolderBlocks world .p0 .shared ⟨22, 1⟩ ∧
      world.waitList = [] ++ claimEntry :: [upgradeEntry] ∧
      Conflict .p0 .shared ⟨22, 1⟩ claimEntry.port claimEntry.mode claimEntry.range) :=
  ⟨⟨admitted_of (by decide +kernel), rfl, held_of (by decide +kernel), by rw [← conflicts_iff]; decide,
      by decide⟩,
    ⟨admitted_of (by decide +kernel), noHolder_of (by decide +kernel), rfl, by rw [← conflicts_iff]; decide⟩⟩

/-- What the statements about a CLAIM that passes its checks ask of it. -/
structure ClaimPasses (s : State) (f : Frame) (a : ClaimArgs) (m : Mode) (i : SlotId) : Prop where
  admitted : Admitted .claim f s
  args     : f.args = claimBytes a
  lines    : LinesAgree s
  mode     : a.mode = modeByte m
  range    : WellFormed ⟨a.first.toNat, a.count.toNat⟩
  term     : a.term.toNat ≤ s.params.maxTerm
  wait     : a.wait.toNat ≤ s.params.maxWait
  records  : ∀ j c, Held s j c → c.holder = f.port → ¬ Overlap ⟨a.first.toNat, a.count.toNat⟩ c.range
  entries  : ∀ e ∈ s.waitList, e.port = f.port → e.isUpgrade = false → ¬ Overlap ⟨a.first.toNat, a.count.toNat⟩ e.range
  usage    : (s.session f.port).usage < s.params.quota.get f.port
  free     : (slotAt s i).content = .free
  lowest   : ∀ j, j < i → (slotAt s j).content ≠ .free

theorem claimPasses_of {s : State} {p : Port} {a : ClaimArgs} {m : Mode} {i : SlotId}
    (h : (admits .claim (frame p (claimBytes a)) s && linesAgree s && a.mode == modeByte m &&
      rangeOk ⟨a.first.toNat, a.count.toNat⟩ && decide (a.term.toNat ≤ s.params.maxTerm) &&
      decide (a.wait.toNat ≤ s.params.maxWait) && !overlapsSelf s p ⟨a.first.toNat, a.count.toNat⟩ &&
      decide ((s.session p).usage < s.params.quota.get p) && lowestFree s == some i) = true) :
    ClaimPasses s (frame p (claimBytes a)) a m i := by
  simp only [Bool.and_eq_true, Bool.not_eq_true', beq_iff_eq, decide_eq_true_eq] at h
  obtain ⟨⟨⟨⟨⟨⟨⟨⟨h1, h2⟩, h3⟩, h4⟩, h5⟩, h6⟩, h7⟩, h8⟩, h9⟩ := h
  have h9 := lowestFree_iff.1 h9
  exact ⟨admitted_of h1, rfl, lines_of h2, h3, wellFormed_of h4, h5, h6, (noSelf_of h7).1, (noSelf_of h7).2, h8, h9.1,
    h9.2⟩

theorem witness_ClaimGrantedAtOnce :
    ClaimPasses world (claiming .p1 1 500 10 0 0) ⟨1, 500, 10, 0, 0, 0⟩ .exclusive 6 ∧
    ¬ HolderBlocks world .p1 .exclusive ⟨500, 10⟩ ∧ ¬ WaiterBlocks world .p1 .exclusive ⟨500, 10⟩ :=
  ⟨claimPasses_of (by decide +kernel), noHolder_of (by decide +kernel), noWaiter_of (by decide +kernel)⟩

theorem blocked_of {s : State} {p : Port} {m : Mode} {r : Range} (h : blocked s p m r = true) :
    HolderBlocks s p m r ∨ WaiterBlocks s p m r := blocked_iff.1 h

/-- P0 claims page 10, which P1 holds; P1 waits for no port. -/
theorem witness_ClaimQueued :
    ClaimPasses world (claiming .p0 0 10 1 0 5000) ⟨0, 10, 1, 0, 5000, 0⟩ .shared 6 ∧
    (HolderBlocks world .p0 .shared ⟨10, 1⟩ ∨ WaiterBlocks world .p0 .shared ⟨10, 1⟩) ∧ (5000 : Half) ≠ 0 ∧
    portWaits world .p0 < 4 ∧ world.waitList.length < 12 ∧ placesUsed world .p0 < 8 ∧
    ∀ q, InBlockerSet world .p0 .shared ⟨10, 1⟩ q → ¬ LeadsTo world q .p0 := by
  refine ⟨claimPasses_of (by decide +kernel), blocked_of (by decide +kernel), by decide, by decide +kernel,
    by decide +kernel, by decide +kernel, ?_⟩
  intro q hq
  rw [← inBlockerSet_iff] at hq
  have h : q = .p1 := by revert hq; cases q <;> decide +kernel
  subst h
  exact notLeadsTo_of (by decide +kernel)

/-- `world` with a wait list of one entry many times over, out of the way; with every outcome place of P1 reserved. -/
def crowded (p : Port) (n : Nat) : State :=
  { world with waitList := List.replicate n { claimEntry with port := p, range := ⟨600, 1⟩ } }
def noPlace : State := world.modSession .p1 fun x => { x with reserved := List.replicate 8 .job }

theorem witness_QueueingRefusals :
    (ClaimPasses (crowded .p1 4) (claiming .p1 0 300 1 0 1) ⟨0, 300, 1, 0, 1, 0⟩ .shared 6 ∧
      blocked (crowded .p1 4) .p1 .shared ⟨300, 1⟩ = true ∧ 4 ≤ portWaits (crowded .p1 4) .p1) ∧
    (ClaimPasses (crowded .p3 12) (claiming .p1 0 300 1 0 1) ⟨0, 300, 1, 0, 1, 0⟩ .shared 6 ∧
      blocked (crowded .p3 12) .p1 .shared ⟨300, 1⟩ = true ∧ portWaits (crowded .p3 12) .p1 < 4 ∧
      12 ≤ (crowded .p3 12).waitList.length) ∧
    (ClaimPasses noPlace (claiming .p1 0 300 1 0 1) ⟨0, 300, 1, 0, 1, 0⟩ .shared 6 ∧
      blocked noPlace .p1 .shared ⟨300, 1⟩ = true ∧ portWaits noPlace .p1 < 4 ∧ noPlace.waitList.length < 12 ∧
      8 ≤ placesUsed noPlace .p1) :=
  ⟨⟨claimPasses_of (by decide +kernel), by decide +kernel, by decide +kernel⟩,
    ⟨claimPasses_of (by decide +kernel), by decide +kernel, by decide +kernel, by decide +kernel⟩,
    ⟨claimPasses_of (by decide +kernel), by decide +kernel, by decide +kernel, by decide +kernel, by decide +kernel⟩⟩

/-- P1's CLAIM waits for P2's, and P2 waits for P1. -/
theorem witness_QueueingRefusals_deadlock :
    ClaimPasses world (claiming .p1 1 20 5 0 9) ⟨1, 20, 5, 0, 9, 0⟩ .exclusive 6 ∧
    blocked world .p1 .exclusive ⟨20, 5⟩ = true ∧ portWaits world .p1 < 4 ∧ world.waitList.length < 12 ∧
    placesUsed world .p1 < 8 ∧ InBlockerSet world .p1 .exclusive ⟨20, 5⟩ .p2 ∧ LeadsTo world .p2 .p1 ∧
    ∀ o, portNumber o < portNumber .p2 → ¬ InBlockerSet world .p1 .exclusive ⟨20, 5⟩ o :=
  ⟨claimPasses_of (by decide +kernel), by decide +kernel, by decide +kernel, by decide +kernel, by decide +kernel,
    inBlockerSet_iff.1 (by decide +kernel), leadsTo_iff.1 (by decide +kernel),
    by intro o; rw [← inBlockerSet_iff]; cases o <;> decide +kernel⟩

theorem witness_HandleAnswers :
    (Admitted .renew (frame .p1 (bytes2 0x0100 ++ bytes2 10001)) world ∧ world.params.maxTerm < 10001) ∧
    (Admitted .upgrade (frame .p1 (bytes2 0x0103 ++ bytes2 5001)) world ∧ world.params.maxWait < 5001) ∧
    (Admitted .trim (frame .p1 (bytes2 0x0103 ++ bytes2 4095 ++ bytes2 2)) world ∧ ¬ WellFormed ⟨4095, 2⟩) ∧
    (Admitted .renew (frame .p1 (bytes2 0x0200 ++ bytes2 10000)) world ∧ 10000 ≤ world.params.maxTerm ∧
      resolve world .p1 0x0200 = none) ∧
    (Admitted .release (frame .p2 (bytes2 0x0101)) world ∧ resolve world .p2 0x0101 = some 1 ∧
      (slotAt world 1).content = .reserved ⟨.p2, .exclusive, ⟨15, 10⟩, 0⟩) ∧
    (Admitted .trim (frame .p3 (bytes2 0x0104 ++ bytes2 200 ++ bytes2 1)) world ∧ WellFormed ⟨200, 1⟩ ∧
      resolve world .p3 0x0104 = some 4 ∧
      (slotAt world 4).content = .lapsed ⟨.p3, .shared, ⟨200, 1⟩, 0⟩ ⟨5, 0, true⟩ .expired) ∧
    (Admitted .downgrade (frame .p0 (bytes2 0x0105)) world ∧ resolve world .p0 0x0105 = some 5 ∧
      Held world 5 ⟨.p0, .exclusive, ⟨300, 4⟩, 0⟩ ∧ Engaged world 5) ∧ LinesAgree world :=
  ⟨⟨admitted_of (by decide +kernel), by decide⟩, ⟨admitted_of (by decide +kernel), by decide⟩,
    ⟨admitted_of (by decide +kernel), notWellFormed_of (by decide)⟩,
    ⟨admitted_of (by decide +kernel), by decide, by decide +kernel⟩,
    ⟨admitted_of (by decide +kernel), by decide +kernel, by decide +kernel⟩,
    ⟨admitted_of (by decide +kernel), wellFormed_of (by decide), by decide +kernel, by decide +kernel⟩,
    ⟨admitted_of (by decide +kernel), by decide +kernel, held_of (by decide +kernel),
      engaged_iff.1 (by decide +kernel)⟩, lines_world⟩

/-- `world` with RENEW_LIMIT 1 and P1's record renewed once. -/
def contestable : State :=
  { setContent world 0 (.held ⟨.p1, .exclusive, ⟨10, 10⟩, 0⟩ ⟨100, 1, false⟩ 2) with
    params := { Params.reset with renewLimit := 1 } }

theorem witness_RenewTaken :
    (Admitted .renew (frame .p1 (bytes2 0x0100 ++ bytes2 0)) contestable ∧ LinesAgree contestable ∧
      resolve contestable .p1 0x0100 = some 0 ∧
      (slotAt contestable 0).content = .held ⟨.p1, .exclusive, ⟨10, 10⟩, 0⟩ ⟨100, 1, false⟩ 2 ∧
      0 < contestable.params.renewLimit ∧ contestable.params.renewLimit ≤ 1 ∧
      ∃ e ∈ contestable.waitList, Conflict .p1 .exclusive ⟨10, 10⟩ e.port e.mode e.range) ∧
    (Admitted .renew (frame .p1 (bytes2 0x0100 ++ bytes2 10000)) world ∧ 10000 ≤ world.params.maxTerm ∧
      resolve world .p1 0x0100 = some 0 ∧
      (slotAt world 0).content = .held ⟨.p1, .exclusive, ⟨10, 10⟩, 0⟩ ⟨100, 0, false⟩ 2 ∧
      ¬ 0 < world.params.renewLimit) :=
  ⟨⟨admitted_of (by decide +kernel), lines_of (by decide +kernel), by decide +kernel, by decide +kernel,
      by decide, by decide, claimEntry, by simp [contestable, setContent, setSlot, world], by rw [← conflicts_iff]; decide⟩,
    ⟨admitted_of (by decide +kernel), by decide, by decide +kernel, by decide +kernel, by decide⟩⟩

theorem witness_ReleaseOfHeld_ReleaseOfLapsed :
    (Admitted .release (frame .p1 (bytes2 0x0103)) world ∧ resolve world .p1 0x0103 = some 3 ∧
      Held world 3 ⟨.p1, .shared, ⟨100, 5⟩, 0⟩ ∧ ¬ Engaged world 3) ∧
    (Admitted .release (frame .p3 (bytes2 0x0104)) world ∧ resolve world .p3 0x0104 = some 4 ∧
      (slotAt world 4).content = .lapsed ⟨.p3, .shared, ⟨200, 1⟩, 0⟩ ⟨5, 0, true⟩ .expired) :=
  ⟨⟨admitted_of (by decide +kernel), by decide +kernel, held_of (by decide +kernel), notEngaged_of (by decide +kernel)⟩,
    ⟨admitted_of (by decide +kernel), by decide +kernel, by decide +kernel⟩⟩

theorem witness_DowngradeTaken :
    (Admitted .downgrade (frame .p1 (bytes2 0x0103)) world ∧ resolve world .p1 0x0103 = some 3 ∧
      (slotAt world 3).content = .held ⟨.p1, .shared, ⟨100, 5⟩, 0⟩ ⟨50, 0, false⟩ 40 ∧ ¬ Engaged world 3) ∧
    (Admitted .downgrade (frame .p1 (bytes2 0x0100)) world ∧ resolve world .p1 0x0100 = some 0 ∧
      (slotAt world 0).content = .held ⟨.p1, .exclusive, ⟨10, 10⟩, 0⟩ ⟨100, 0, false⟩ 2 ∧ ¬ Engaged world 0 ∧
      ∀ e ∈ world.waitList, handleSlot e.ticket ≠ some 0) :=
  ⟨⟨admitted_of (by decide +kernel), by decide +kernel, by decide +kernel, notEngaged_of (by decide +kernel)⟩,
    ⟨admitted_of (by decide +kernel), by decide +kernel, by decide +kernel, notEngaged_of (by decide +kernel),
      by decide +kernel⟩⟩

/-- P1's SHARED record alone, and with P3's upgrade waiting over it. -/
def sharedAlone : State := setContent up 3 (heldBy .p1 .shared 100 5 50 40)
def sharedWaited : State := { sharedAlone with waitList := [upgradeEntry] }

theorem witness_UpgradeGrantedAtOnce :
    Admitted .upgrade (frame .p1 (bytes2 0x0103 ++ bytes2 5000)) sharedAlone ∧ LinesAgree sharedAlone ∧
    5000 ≤ sharedAlone.params.maxWait ∧ resolve sharedAlone .p1 0x0103 = some 3 ∧
    (slotAt sharedAlone 3).content = heldBy .p1 .shared 100 5 50 40 ∧
    (∀ e ∈ sharedAlone.waitList, e.kind = .upgrade → e.ticket ≠ 0x0103) ∧
    ¬ HolderBlocks sharedAlone .p1 .exclusive ⟨100, 5⟩ ∧ ¬ WaiterBlocks sharedAlone .p1 .exclusive ⟨100, 5⟩ :=
  ⟨admitted_of (by decide +kernel), lines_of (by decide +kernel), by decide, by decide +kernel, by decide +kernel,
    by decide +kernel, noHolder_of (by decide +kernel), noWaiter_of (by decide +kernel)⟩

/-- What `UpgradeBlocked` asks first: P1's UPGRADE of slot 3. -/
theorem upgrading_of {s : State} {x : Half}
    (h : (admits .upgrade (frame .p1 (bytes2 0x0103 ++ bytes2 x)) s && linesAgree s && resolve s .p1 0x0103 == some 3 &&
      decide (x.toNat ≤ s.params.maxWait) &&
      (slotAt s 3).content.heldRecord == some ⟨.p1, .shared, ⟨100, 5⟩, 0⟩ && !upgradeWaits s 0x0103) = true) :
    Admitted .upgrade (frame .p1 (bytes2 0x0103 ++ bytes2 x)) s ∧ LinesAgree s ∧ resolve s .p1 0x0103 = some 3 ∧
      x.toNat ≤ s.params.maxWait ∧ Held s 3 ⟨.p1, .shared, ⟨100, 5⟩, 0⟩ ∧
      ¬ ∃ e ∈ s.waitList, e.kind = .upgrade ∧ e.ticket = 0x0103 := by
  simp only [Bool.and_eq_true, Bool.not_eq_true', beq_iff_eq, decide_eq_true_eq] at h
  obtain ⟨⟨⟨⟨⟨h1, h2⟩, h3⟩, h4⟩, h5⟩, h6⟩ := h
  exact ⟨admitted_of h1, lines_of h2, h3, h4, held_of h5, by rw [← upgradeWaits_iff, h6]; simp⟩

theorem witness_UpgradeBlocked_refusals :
    (Admitted .upgrade (frame .p1 (bytes2 0x0100 ++ bytes2 0)) world ∧ resolve world .p1 0x0100 = some 0 ∧
      Held world 0 ⟨.p1, .exclusive, ⟨10, 10⟩, 0⟩) ∧
    (Admitted .upgrade (frame .p3 (bytes2 0x0102 ++ bytes2 0)) world ∧ resolve world .p3 0x0102 = some 2 ∧
      Held world 2 ⟨.p3, .shared, ⟨100, 5⟩, 0⟩ ∧ ∃ e ∈ world.waitList, e.kind = .upgrade ∧ e.ticket = 0x0102) ∧
    (Admitted .upgrade (frame .p1 (bytes2 0x0103 ++ bytes2 0)) world ∧
      Held world 2 ⟨.p3, .shared, ⟨100, 5⟩, 0⟩ ∧ Conflict .p1 .exclusive ⟨100, 5⟩ .p3 .shared ⟨100, 5⟩ ∧
      ∀ k d, k < 2 → Held world k d → ¬ Conflict .p1 .exclusive ⟨100, 5⟩ d.holder d.mode d.range) ∧
    (Admitted .upgrade (frame .p1 (bytes2 0x0103 ++ bytes2 0)) sharedWaited ∧ LinesAgree sharedWaited ∧
      ¬ HolderBlocks sharedWaited .p1 .exclusive ⟨100, 5⟩ ∧ sharedWaited.waitList = [] ++ upgradeEntry :: [] ∧
      Conflict .p1 .exclusive ⟨100, 5⟩ upgradeEntry.port upgradeEntry.mode upgradeEntry.range) := by
  refine ⟨⟨admitted_of (by decide +kernel), by decide +kernel, held_of (by decide +kernel)⟩,
    ⟨admitted_of (by decide +kernel), by decide +kernel, held_of (by decide +kernel), upgradeEntry,
      by simp [world], rfl, rfl⟩,
    ⟨(upgrading_of (x := 0) (by decide +kernel)).1, held_of (by decide +kernel), by rw [← conflicts_iff]; decide, ?_⟩,
    ⟨(upgrading_of (x := 0) (by decide +kernel)).1, (upgrading_of (x := 0) (by decide +kernel)).2.1,
      noHolder_of (by decide +kernel), rfl, by rw [← conflicts_iff]; decide⟩⟩
  intro k d hk hd
  have h : ∀ x ∈ worldHeld, x.1 < 2 → conflicts .p1 .exclusive ⟨100, 5⟩ x.2.holder x.2.mode x.2.range = false := by
    decide +kernel
  rw [← conflicts_iff, h _ (held_world hd) hk]
  simp

/-- P1's UPGRADE with a wait limit: no room for it, and a deadlock with P3's. -/
theorem witness_UpgradeBlocked_queueing :
    (Admitted .upgrade (frame .p1 (bytes2 0x0103 ++ bytes2 5000)) (crowded .p1 4) ∧
      blocked (crowded .p1 4) .p1 .exclusive ⟨100, 5⟩ = true ∧ 4 ≤ portWaits (crowded .p1 4) .p1) ∧
    (Admitted .upgrade (frame .p1 (bytes2 0x0103 ++ bytes2 5000)) (crowded .p3 12) ∧
      blocked (crowded .p3 12) .p1 .exclusive ⟨100, 5⟩ = true ∧ portWaits (crowded .p3 12) .p1 < 4 ∧
      12 ≤ (crowded .p3 12).waitList.length) ∧
    (Admitted .upgrade (frame .p1 (bytes2 0x0103 ++ bytes2 5000)) noPlace ∧
      blocked noPlace .p1 .exclusive ⟨100, 5⟩ = true ∧ portWaits noPlace .p1 < 4 ∧ noPlace.waitList.length < 12 ∧
      8 ≤ placesUsed noPlace .p1) ∧
    (Admitted .upgrade (frame .p1 (bytes2 0x0103 ++ bytes2 5000)) world ∧
      blocked world .p1 .exclusive ⟨100, 5⟩ = true ∧ portWaits world .p1 < 4 ∧ world.waitList.length < 12 ∧
      placesUsed world .p1 < 8 ∧ InBlockerSet world .p1 .exclusive ⟨100, 5⟩ .p3 ∧ LeadsTo world .p3 .p1 ∧
      ∀ o, portNumber o < portNumber .p3 → ¬ InBlockerSet world .p1 .exclusive ⟨100, 5⟩ o) :=
  ⟨⟨(upgrading_of (x := 5000) (by decide +kernel)).1, by decide +kernel, by decide +kernel⟩,
    ⟨(upgrading_of (x := 5000) (by decide +kernel)).1, by decide +kernel, by decide +kernel, by decide +kernel⟩,
    ⟨(upgrading_of (x := 5000) (by decide +kernel)).1, by decide +kernel, by decide +kernel, by decide +kernel,
      by decide +kernel⟩,
    ⟨(upgrading_of (x := 5000) (by decide +kernel)).1, by decide +kernel, by decide +kernel, by decide +kernel,
      by decide +kernel, inBlockerSet_iff.1 (by decide +kernel), leadsTo_iff.1 (by decide +kernel),
      by intro o; rw [← inBlockerSet_iff]; cases o <;> decide +kernel⟩⟩

/-- `world` without P3's upgrade. -/
def notUpgrading : State := { world with waitList := [claimEntry] }

theorem witness_UpgradeBlocked_queued :
    Admitted .upgrade (frame .p1 (bytes2 0x0103 ++ bytes2 5000)) notUpgrading ∧ LinesAgree notUpgrading ∧
    blocked notUpgrading .p1 .exclusive ⟨100, 5⟩ = true ∧ portWaits notUpgrading .p1 < 4 ∧
    notUpgrading.waitList.length < 12 ∧ placesUsed notUpgrading .p1 < 8 ∧
    ∀ q, InBlockerSet notUpgrading .p1 .exclusive ⟨100, 5⟩ q → ¬ LeadsTo notUpgrading q .p1 := by
  refine ⟨(upgrading_of (x := 5000) (by decide +kernel)).1, (upgrading_of (x := 5000) (by decide +kernel)).2.1,
    by decide +kernel, by decide +kernel, by decide +kernel, by decide +kernel, ?_⟩
  intro q hq
  rw [← inBlockerSet_iff] at hq
  have h : q = .p3 := by revert hq; cases q <;> decide +kernel
  subst h
  exact notLeadsTo_of (by decide +kernel)

theorem inside_of {a b : Range} (h : insideRange a b = true) : Inside a b := (insideRange_iff a b).1 h
theorem notInside_of {a b : Range} (h : insideRange a b = false) : ¬ Inside a b := by rw [← insideRange_iff, h]; simp

theorem witness_TrimTaken :
    (Admitted .trim (frame .p1 (bytes2 0x0103 ++ bytes2 99 ++ bytes2 2)) world ∧ WellFormed ⟨99, 2⟩ ∧
      ¬ Inside ⟨99, 2⟩ ⟨100, 5⟩) ∧
    (Admitted .trim (frame .p1 (bytes2 0x0103 ++ bytes2 104 ++ bytes2 1)) world ∧ WellFormed ⟨104, 1⟩ ∧
      Inside ⟨104, 1⟩ ⟨100, 5⟩ ∧ resolve world .p1 0x0103 = some 3 ∧
      (slotAt world 3).content = .held ⟨.p1, .shared, ⟨100, 5⟩, 0⟩ ⟨50, 0, false⟩ 40 ∧ ¬ Engaged world 3 ∧
      ∀ e ∈ world.waitList, handleSlot e.ticket ≠ some 3) :=
  ⟨⟨admitted_of (by decide +kernel), wellFormed_of (by decide), notInside_of (by decide)⟩,
    ⟨admitted_of (by decide +kernel), wellFormed_of (by decide), inside_of (by decide), by decide +kernel,
      by decide +kernel, notEngaged_of (by decide +kernel), by decide +kernel⟩⟩

theorem witness_CancelTaken : InStep world ∧ LinesAgree world ∧
    (Admitted .cancel (frame .p1 (bytes2 0x0101)) world ∧ ∀ e ∈ world.waitList, e.port = .p1 → e.ticket ≠ 0x0101) ∧
    (Admitted .cancel (frame .p2 (bytes2 0x0101)) world ∧ claimEntry ∈ world.waitList ∧
      claimEntry.ticket = 0x0101 ∧ 0x0101 = slotHandle world 1) ∧
    (Admitted .cancel (frame .p3 (bytes2 0x0102)) world ∧ upgradeEntry ∈ world.waitList ∧
      upgradeEntry.ticket = 0x0102 ∧ 0x0102 = slotHandle world 2) :=
  ⟨inStep_world, lines_world, ⟨admitted_of (by decide +kernel), by decide +kernel⟩,
    ⟨admitted_of (by decide +kernel), by decide +kernel, rfl, by decide +kernel⟩,
    ⟨admitted_of (by decide +kernel), by decide +kernel, rfl, by decide +kernel⟩⟩

theorem witness_ProbeAndList :
    (Admitted .probe (frame .p0 (bytes2 4095 ++ bytes2 2)) world ∧ ¬ WellFormed ⟨4095, 2⟩) ∧
    (Admitted .probe (frame .p0 (bytes2 0 ++ bytes2 4096)) world ∧ WellFormed ⟨0, 4096⟩) ∧
    (Admitted .list (frame .p1 [128]) world ∧ 127 < (128 : Byte).toNat) ∧
    (Admitted .list (frame .p1 [127]) world ∧ (127 : Byte).toNat ≤ 127) ∧ LinesAgree world :=
  ⟨⟨admitted_of (by decide +kernel), notWellFormed_of (by decide)⟩,
    ⟨admitted_of (by decide +kernel), wellFormed_of (by decide)⟩,
    ⟨admitted_of (by decide +kernel), by decide⟩, ⟨admitted_of (by decide +kernel), by decide⟩, lines_world⟩

/-! ### Witnesses: the shared array -/

/-- A READ by P2 and a WRITE by P0 that arrive together. -/
def arriving : List Arrival :=
  [⟨.read, frame .p2 (accessBytes ⟨0, 1, []⟩)⟩, ⟨.write, frame .p0 (accessBytes ⟨0, 64, List.replicate 64 1⟩)⟩]

theorem passesAll_of {s : State} {l : List Arrival}
    (h : (l.all fun a => passes (accessCommand a.access) a.frame s &&
      lengthOk (accessCommand a.access) a.frame.args && decide (a.frame.args.length ≤ 72)) = true) :
    ∀ a ∈ l, Passes (accessCommand a.access) a.frame s ∧ lengthOk (accessCommand a.access) a.frame.args = true ∧
      a.frame.args.length ≤ 72 := by
  intro a ha
  have := List.all_eq_true.1 h a ha
  simp only [Bool.and_eq_true, decide_eq_true_eq] at this
  exact ⟨passes_of this.1.1, this.1.2, this.2⟩

theorem witness_RequestsArrive : arriving ≠ [] ∧ (arriving.map fun a => a.frame.port).Nodup ∧
    (LinesAgree up ∧ up.arbiter.serving = none ∧ up.arbiter.waiting = .none ∧
      ∀ a ∈ arriving, Passes (accessCommand a.access) a.frame up ∧
        lengthOk (accessCommand a.access) a.frame.args = true ∧ a.frame.args.length ≤ 72) ∧
    (LinesAgree world ∧ world.arbiter.serving ≠ none ∧
      ∀ a ∈ arriving, Passes (accessCommand a.access) a.frame world ∧
        lengthOk (accessCommand a.access) a.frame.args = true ∧ a.frame.args.length ≤ 72) :=
  ⟨by decide, by decide, ⟨lines_up, rfl, rfl, passesAll_of (by decide +kernel)⟩,
    ⟨lines_world, by decide, passesAll_of (by decide +kernel)⟩⟩

/-- A READ or WRITE of P1 being served. -/
def serving (s : State) (a : Access) (x : AccessArgs) (cut : Bool) : State :=
  { s with arbiter := { waiting := .none, serving := some (.port .p1), lastServed := .port .p1 } }.modPort .p1 fun u =>
    { u with sel := .answering, request := some ⟨a, 5, accessBytes x, cut⟩ }

/-- What the statements about the service of an access ask of the state. -/
structure Serves (s : State) (a : Access) (x : AccessArgs) (cut : Bool) : Prop where
  serving  : s.arbiter.serving = some (.port .p1)
  request  : (s.port .p1).request = some ⟨a, 5, accessBytes x, cut⟩
  deferred : (s.port .p1).deferred = []
  lines    : LinesAgree s
  cleared  : clearing s = false
  array    : Memory.wf s.array = true

theorem serves_of {s : State} {a : Access} {x : AccessArgs} {cut : Bool}
    (h : (s.arbiter.serving == some (.port .p1) && (s.port .p1).request == some ⟨a, 5, accessBytes x, cut⟩ &&
      (s.port .p1).deferred.isEmpty && linesAgree s && !clearing s && Memory.wf s.array) = true) :
    Serves s a x cut := by
  simp only [Bool.and_eq_true, beq_iff_eq, Bool.not_eq_true', List.isEmpty_iff] at h
  exact ⟨h.1.1.1.1.1, h.1.1.1.1.2, h.1.1.1.2, lines_of h.1.1.2, h.1.2, h.2⟩

theorem covered_slot3 (s : State) (h : s.table = covered.table) : Held s 3 ⟨.p1, .exclusive, ⟨10, 10⟩, 0⟩ := by
  have hc : Held covered 3 ⟨.p1, .exclusive, ⟨10, 10⟩, 0⟩ := held_of (by decide +kernel)
  simpa only [Held, slotAt, h] using hc

theorem covered_slot4 (s : State) (h : s.table = covered.table) : Held s 4 ⟨.p1, .shared, ⟨20, 10⟩, 0⟩ := by
  have hc : Held covered 4 ⟨.p1, .shared, ⟨20, 10⟩, 0⟩ := held_of (by decide +kernel)
  simpa only [Held, slotAt, h] using hc

/-- A READ across pages 19 and 20, each under a record of its own; its selection has ended. -/
theorem witness_ReadServed :
    Serves (serving covered .read ⟨1270, 20, []⟩ true) .read ⟨1270, 20, []⟩ true ∧
    ((serving covered .read ⟨1270, 20, []⟩ true).session .p1).state = .attached ∧
    (1270 : BitVec 24).toNat + (20 : Byte).toNat ≤ 262144 ∧
    (∀ page, 1270 / 64 ≤ page → page ≤ (1270 + 20 - 1) / 64 →
      CoveredFor (serving covered .read ⟨1270, 20, []⟩ true) .p1 .read page) ∧
    Serves (serving up .read ⟨262143, 1, []⟩ false) .read ⟨262143, 1, []⟩ false ∧
    (262143 : BitVec 24).toNat + (1 : Byte).toNat ≤ 262144 := by
  refine ⟨serves_of (by decide +kernel), rfl, by decide, ?_, serves_of (by decide +kernel), by decide⟩
  intro page h1 h2
  by_cases h : page ≤ 19
  · exact ⟨3, _, covered_slot3 _ rfl, rfl, ⟨by simp; omega, by simp; omega⟩, by simp⟩
  · exact ⟨4, _, covered_slot4 _ rfl, rfl, ⟨by simp; omega, by simp; omega⟩, by simp⟩

/-- Two bytes into page 19 under STRICT; 64 bytes up to the end of the array with ENFORCE off. -/
theorem witness_WriteServed :
    Serves (serving covered .write ⟨1278, 2, [7, 0]⟩ false) .write ⟨1278, 2, [7, 0]⟩ false ∧
    ((serving covered .write ⟨1278, 2, [7, 0]⟩ false).session .p1).state = .attached ∧
    (∀ page, 1278 / 64 ≤ page → page ≤ (1278 + 2 - 1) / 64 →
      CoveredFor (serving covered .write ⟨1278, 2, [7, 0]⟩ false) .p1 .write page) ∧
    Serves (writing true ⟨262080, 64, List.replicate 64 9⟩) .write ⟨262080, 64, List.replicate 64 9⟩ true ∧
    (writing true ⟨262080, 64, List.replicate 64 9⟩).params.enforce = .off ∧
    (262080 : BitVec 24).toNat + (List.replicate 64 (9 : Byte)).length ≤ 262144 := by
  refine ⟨serves_of (by decide +kernel), rfl, ?_, serves_of (by decide +kernel), rfl, by decide⟩
  intro page h1 h2
  exact ⟨3, _, covered_slot3 _ rfl, rfl, ⟨by simp; omega, by simp; omega⟩, by simp⟩

/-- A service in progress at a reset: a WRITE that STRICT allows, and a READ. -/
theorem witness_ServiceDone_access :
    Serves (serving covered .write ⟨1278, 2, [7, 0]⟩ false) .write ⟨1278, 2, [7, 0]⟩ false ∧
    MustCover (serving covered .write ⟨1278, 2, [7, 0]⟩ false) .write ∧ InArray ⟨1278, 2, [7, 0]⟩ ∧
    CoveredAsRequired (serving covered .write ⟨1278, 2, [7, 0]⟩ false) .p1 .write ⟨1278, 2, [7, 0]⟩ ∧
    Serves (serving covered .read ⟨1270, 20, []⟩ true) .read ⟨1270, 20, []⟩ true := by
  refine ⟨serves_of (by decide +kernel), .inl rfl, ⟨by decide, by decide, by decide⟩, ?_, serves_of (by decide +kernel)⟩
  rintro - page ⟨h1, h2⟩
  exact ⟨3, _, covered_slot3 _ rfl, rfl, ⟨by simp at h1 ⊢; omega, by simp at h2 ⊢; omega⟩, by simp⟩

/-- The HELD records of `covered`. -/
def coveredHeld : List (SlotId × Claimed) :=
  [(3, ⟨.p1, .exclusive, ⟨10, 10⟩, 0⟩), (4, ⟨.p1, .shared, ⟨20, 10⟩, 0⟩), (6, ⟨.p2, .shared, ⟨20, 6⟩, 0⟩)]

theorem witness_AccessRefused_checks :
    (Serves (serving (inState .closing) .read ⟨0, 1, []⟩ false) .read ⟨0, 1, []⟩ false ∧
      ((serving (inState .closing) .read ⟨0, 1, []⟩ false).session .p1).state = .closing) ∧
    (Serves (serving (inState .detached) .write ⟨0, 1, [1]⟩ true) .write ⟨0, 1, [1]⟩ true ∧
      ((serving (inState .detached) .write ⟨0, 1, [1]⟩ true).session .p1).state = .detached) ∧
    (Serves (serving up .read ⟨0, 0, []⟩ false) .read ⟨0, 0, []⟩ false ∧ ¬ 1 ≤ (0 : Byte).toNat) ∧
    (Serves (serving up .read ⟨0, 65, []⟩ false) .read ⟨0, 65, []⟩ false ∧ ¬ (65 : Byte).toNat ≤ 64) ∧
    (Serves (serving up .read ⟨262143, 2, []⟩ false) .read ⟨262143, 2, []⟩ false ∧
      ¬ (262143 : BitVec 24).toNat + (2 : Byte).toNat ≤ 262144) :=
  ⟨⟨serves_of (by decide +kernel), rfl⟩, ⟨serves_of (by decide +kernel), rfl⟩,
    ⟨serves_of (by decide +kernel), by decide⟩, ⟨serves_of (by decide +kernel), by decide⟩,
    ⟨serves_of (by decide +kernel), by decide⟩⟩

/-- A READ over pages 29 and 30: P1's record of page 30 has lapsed. -/
theorem witness_AccessRefused_coverage :
    Serves (serving covered .read ⟨1915, 8, []⟩ false) .read ⟨1915, 8, []⟩ false ∧
    ((serving covered .read ⟨1915, 8, []⟩ false).session .p1).state = .attached ∧
    (serving covered .read ⟨1915, 8, []⟩ false).params.enforce = .strict ∧
    (1915 / 64 ≤ 30 ∧ 30 ≤ (1915 + 8 - 1) / 64) ∧
    ¬ CoveredFor (serving covered .read ⟨1915, 8, []⟩ false) .p1 .read 30 ∧
    ∀ lower, 1915 / 64 ≤ lower → lower < 30 →
      CoveredFor (serving covered .read ⟨1915, 8, []⟩ false) .p1 .read lower := by
  refine ⟨serves_of (by decide +kernel), rfl, rfl, by decide, ?_, ?_⟩
  · rintro ⟨i, c, hc, hp, hcov, -⟩
    have hl := heldAll_of coveredHeld (by decide +kernel) hc
    simp only [coveredHeld, List.mem_cons, List.not_mem_nil, or_false, Prod.mk.injEq] at hl
    obtain ⟨h1, h2⟩ := hcov
    rcases hl with ⟨-, rfl⟩ | ⟨-, rfl⟩ | ⟨-, rfl⟩ <;> simp at h1 h2
  · intro lower h1 h2
    exact ⟨4, _, covered_slot4 _ rfl, rfl, ⟨by simp; omega, by simp; omega⟩, by simp⟩

/-! ### Witnesses: the block engine -/

/-- What `JobAdmitted` asks of a range and a handle. -/
def Holds (s : State) (p : Port) (h : Half) (r : Range) (exclusive : Bool) : Prop :=
  WellFormed r ∧ ∃ i d, resolve s p h = some i ∧ Held s i d ∧ Inside r d.range ∧
    (exclusive = true → d.mode = .exclusive)

theorem holds_of {s : State} {p : Port} {h : Half} {r : Range} {exclusive : Bool} (i : SlotId) (d : Claimed)
    (hh : (rangeOk r && resolve s p h == some i && (slotAt s i).content.heldRecord == some d &&
      insideRange r d.range && (!exclusive || d.mode == .exclusive)) = true) : Holds s p h r exclusive := by
  simp only [Bool.and_eq_true, beq_iff_eq, Bool.or_eq_true, Bool.not_eq_true'] at hh
  obtain ⟨⟨⟨⟨h1, h2⟩, h3⟩, h4⟩, h5⟩ := hh
  refine ⟨wellFormed_of h1, i, d, h2, held_of h3, inside_of h4, ?_⟩
  rcases h5 with h5 | h5
  · intro h; rw [h5] at h; cases h
  · exact fun _ => h5

/-- P1's record of pages 10 to 19 alone, and no job. -/
def heldAlone : State := setContent up 0 (heldBy .p1 .exclusive 10 10 100 100)

theorem witness_JobAdmitted :
    (Admitted .fill (frame .p1 (fillBytes ⟨0x0100, 10, 10, 0x55⟩)) world ∧ LinesAgree world ∧
      world.job .p1 = none ∧ placesUsed world .p1 < 8 ∧ Holds world .p1 0x0100 ⟨10, 10⟩ true ∧
      world.engine.inFlight ≠ none) ∧
    (Admitted .copy (frame .p1 (copyBytes ⟨0x0103, 0x0100, 100, 15, 5⟩)) world ∧
      Holds world .p1 0x0103 ⟨100, 5⟩ false ∧ Holds world .p1 0x0100 ⟨15, 5⟩ true) ∧
    (Admitted .sum (frame .p3 (spanBytes ⟨0x0102, 100, 5⟩)) world ∧ world.job .p3 = none ∧
      placesUsed world .p3 < 8 ∧ Holds world .p3 0x0102 ⟨100, 5⟩ false) ∧
    (Admitted .fill (frame .p1 (fillBytes ⟨0x0100, 19, 1, 0⟩)) heldAlone ∧ LinesAgree heldAlone ∧
      Holds heldAlone .p1 0x0100 ⟨19, 1⟩ true ∧ heldAlone.engine.inFlight = none ∧ ∀ q, heldAlone.job q = none) :=
  ⟨⟨admitted_of (by decide +kernel), lines_world, rfl, by decide +kernel,
      holds_of 0 ⟨.p1, .exclusive, ⟨10, 10⟩, 0⟩ (by decide +kernel), by decide⟩,
    ⟨admitted_of (by decide +kernel), holds_of 3 ⟨.p1, .shared, ⟨100, 5⟩, 0⟩ (by decide +kernel),
      holds_of 0 ⟨.p1, .exclusive, ⟨10, 10⟩, 0⟩ (by decide +kernel)⟩,
    ⟨admitted_of (by decide +kernel), rfl, by decide +kernel,
      holds_of 2 ⟨.p3, .shared, ⟨100, 5⟩, 0⟩ (by decide +kernel)⟩,
    ⟨admitted_of (by decide +kernel), lines_of (by decide +kernel),
      holds_of 0 ⟨.p1, .exclusive, ⟨10, 10⟩, 0⟩ (by decide +kernel), rfl, by intro q; cases q <;> rfl⟩⟩

/-- A FILL frame. -/
def filling (p : Port) (dst first count : Half) : Frame := frame p (fillBytes ⟨dst, first, count, 0⟩)

theorem fillSides (p : Port) (dst first count : Half) :
    NamesSides .fill (filling p dst first count) [⟨dst, ⟨first.toNat, count.toNat⟩, true⟩] :=
  .inl ⟨⟨dst, first, count, 0⟩, rfl, rfl, rfl⟩

theorem witness_JobRefusedInOrder :
    (Admitted .fill (filling .p1 0x0100 4095 2) world ∧ ¬ WellFormed ⟨4095, 2⟩) ∧
    (Admitted .fill (filling .p0 0x0105 300 1) world ∧ WellFormed ⟨300, 1⟩ ∧ world.job .p0 ≠ none) ∧
    (Admitted .fill (filling .p1 0x0200 10 1) world ∧ WellFormed ⟨10, 1⟩ ∧ world.job .p1 = none ∧
      resolve world .p1 0x0200 = none) ∧
    (Admitted .fill (filling .p2 0x0101 15 1) world ∧ world.job .p2 = none ∧ resolve world .p2 0x0101 = some 1 ∧
      (slotAt world 1).content = .reserved ⟨.p2, .exclusive, ⟨15, 10⟩, 0⟩) ∧
    (Admitted .fill (filling .p3 0x0104 200 1) world ∧ world.job .p3 = none ∧ resolve world .p3 0x0104 = some 4 ∧
      (slotAt world 4).content = .lapsed ⟨.p3, .shared, ⟨200, 1⟩, 0⟩ ⟨5, 0, true⟩ .expired) ∧
    (Admitted .fill (filling .p1 0x0103 100 1) world ∧ resolve world .p1 0x0103 = some 3 ∧
      Held world 3 ⟨.p1, .shared, ⟨100, 5⟩, 0⟩) ∧
    (Admitted .fill (filling .p1 0x0100 19 2) world ∧ resolve world .p1 0x0100 = some 0 ∧
      Held world 0 ⟨.p1, .exclusive, ⟨10, 10⟩, 0⟩ ∧ ¬ Inside ⟨19, 2⟩ ⟨10, 10⟩) ∧
    (Admitted .fill (filling .p1 0x0100 19 1) noPlace ∧ LinesAgree noPlace ∧ Holds noPlace .p1 0x0100 ⟨19, 1⟩ true ∧
      8 ≤ placesUsed noPlace .p1) ∧ LinesAgree world :=
  ⟨⟨admitted_of (by decide +kernel), notWellFormed_of (by decide)⟩,
    ⟨admitted_of (by decide +kernel), wellFormed_of (by decide), by decide⟩,
    ⟨admitted_of (by decide +kernel), wellFormed_of (by decide), rfl, by decide +kernel⟩,
    ⟨admitted_of (by decide +kernel), rfl, by decide +kernel, by decide +kernel⟩,
    ⟨admitted_of (by decide +kernel), rfl, by decide +kernel, by decide +kernel⟩,
    ⟨admitted_of (by decide +kernel), by decide +kernel, held_of (by decide +kernel)⟩,
    ⟨admitted_of (by decide +kernel), by decide +kernel, held_of (by decide +kernel), notInside_of (by decide)⟩,
    ⟨admitted_of (by decide +kernel), lines_of (by decide +kernel),
      holds_of 0 ⟨.p1, .exclusive, ⟨10, 10⟩, 0⟩ (by decide +kernel), by decide +kernel⟩, lines_world⟩

/-- P0's job under way in the record of slot 5, its page step being served. -/
def working (j : Job) : State := world.setJob .p0 (some j)

/-- A COPY down over pages 300 to 303, and the last page of a SUM. -/
def copyJob : Job := { tag := 7, work := .copy 0x0105 0x0105 300 301 .downward, count := 3, pagesDone := 1, stop := .none }
def sumJob : Job := { tag := 7, work := .sum 0x0105 300 0xFFFF, count := 4, pagesDone := 3, stop := .none }

/-- What `PageStepTransfers` asks of the state and the job. -/
structure Transfers (s : State) (j : Job) : Prop where
  serving  : s.arbiter.serving = some .engine
  inFlight : s.engine.inFlight = some .p0
  job      : s.job .p0 = some j
  stop     : j.stop = .none
  array    : Memory.wf s.array = true
  lines    : LinesAgree s
  left     : j.pagesDone < j.count
  sides    : ∀ x ∈ jobSides j, x.range.first + x.range.count ≤ 4096 ∧ SidePasses s .p0 x

theorem transfers_of {j : Job}
    (h : (j.stop == .none && linesAgree (working j) && decide (j.pagesDone < j.count) &&
      (jobSides j).all fun x => decide (x.range.first + x.range.count ≤ 4096) &&
        resolve (working j) .p0 x.handle == some 5 && insideRange x.range ⟨300, 4⟩) = true) :
    Transfers (working j) j := by
  simp only [Bool.and_eq_true, beq_iff_eq, decide_eq_true_eq, List.all_eq_true] at h
  obtain ⟨⟨⟨h1, h2⟩, h3⟩, h4⟩ := h
  refine ⟨rfl, rfl, rfl, h1, wf_world, lines_of h2, h3, ?_⟩
  intro x hx
  obtain ⟨⟨h5, h6⟩, h7⟩ := h4 x hx
  have hh : Held world 5 ⟨.p0, .exclusive, ⟨300, 4⟩, 0⟩ := held_of (by decide +kernel)
  exact ⟨h5, 5, _, h6, hh, inside_of h7, fun _ => rfl⟩

theorem witness_PageStepTransfers : Transfers (working fillJob) fillJob ∧ Transfers (working copyJob) copyJob ∧
    Transfers (working sumJob) sumJob ∧ sumJob.pagesDone + 1 = sumJob.count :=
  ⟨transfers_of (by decide +kernel), transfers_of (by decide +kernel), transfers_of (by decide +kernel), rfl⟩

/-- P0's COPY from slot 5 to slot 6, whose record is LAPSED; and a FILL past the end of the record of slot 5. -/
def copyToLapsed : Job := { tag := 7, work := .copy 0x0105 0x0106 300 400 .upward, count := 2, pagesDone := 1, stop := .none }
def copying : State :=
  (setContent world 6 (.lapsed ⟨.p0, .exclusive, ⟨400, 4⟩, 0⟩ ⟨60, 0, false⟩ .revoked)).setJob .p0 (some copyToLapsed)
def fillPast : Job := { fillJob with work := .fill 0x0105 303 0xA5 }

/-- P0's job to be stopped: by the teardown, by a destination that has lapsed, by a handle that has gone, by a HELD
record that does not cover the job's range, and by the host. -/
theorem witness_PageStepStops :
    ((working { fillJob with stop := .closed }).job .p0 = some { fillJob with stop := .closed }) ∧
    (copying.job .p0 = some copyToLapsed ∧
      jobSides copyToLapsed = [⟨0x0105, ⟨300, 2⟩, false⟩] ++ ⟨0x0106, ⟨400, 2⟩, true⟩ :: [] ∧
      SidePasses copying .p0 ⟨0x0105, ⟨300, 2⟩, false⟩ ∧ SideFails copying .p0 ⟨0x0106, ⟨400, 2⟩, true⟩ .revoked) ∧
    ((setContent world 5 .free).job .p0 = some fillJob ∧
      SideFails (setContent world 5 .free) .p0 ⟨0x0105, ⟨300, 4⟩, true⟩ .host) ∧
    ((working fillPast).job .p0 = some fillPast ∧ SideFails (working fillPast) .p0 ⟨0x0105, ⟨303, 4⟩, true⟩ .host) ∧
    ((working { fillJob with stop := .host }).job .p0 = some { fillJob with stop := .host } ∧
      SidePasses (working { fillJob with stop := .host }) .p0 ⟨0x0105, ⟨300, 4⟩, true⟩) :=
  ⟨rfl,
    ⟨rfl, rfl, ⟨5, ⟨.p0, .exclusive, ⟨300, 4⟩, 0⟩, by decide +kernel, held_of (by decide +kernel), inside_of (by decide),
      by decide⟩, .inl ⟨6, _, _, .revoked, by decide +kernel, by rfl, rfl⟩⟩,
    ⟨rfl, .inr (.inl ⟨by decide +kernel, rfl⟩)⟩,
    ⟨rfl, .inr (.inr ⟨5, ⟨.p0, .exclusive, ⟨300, 4⟩, 0⟩, by decide +kernel, held_of (by decide +kernel),
      fun h => notInside_of (by decide) h.1, rfl⟩)⟩,
    ⟨rfl, ⟨5, ⟨.p0, .exclusive, ⟨300, 4⟩, 0⟩, by decide +kernel, held_of (by decide +kernel), inside_of (by decide),
      fun _ => rfl⟩⟩⟩

theorem witness_StopJobAndJobState :
    (Admitted .stopJob (frame .p1 []) world ∧ Admitted .jobState (frame .p1 []) world ∧ world.job .p1 = none) ∧
    (Admitted .stopJob (frame .p0 []) world ∧ Admitted .jobState (frame .p0 []) world ∧
      world.job .p0 = some fillJob ∧ fillJob.stop ≠ .closed) ∧ LinesAgree world :=
  ⟨⟨admitted_of (by decide +kernel), admitted_of (by decide +kernel), rfl⟩,
    ⟨admitted_of (by decide +kernel), admitted_of (by decide +kernel), rfl, by decide⟩, lines_world⟩

/-! ### Witnesses: outcomes and notices, supervision -/

theorem lines_outcomes : LinesAgree outcomes := lines_of (by decide +kernel)

theorem witness_CollectTakesOldest :
    (Admitted .collect (frame .p1 []) outcomes ∧ LinesAgree outcomes ∧ (outcomes.session .p1).held ≠ []) ∧
    (Admitted .collect (frame .p2 []) outcomes ∧ (outcomes.session .p2).held = []) :=
  ⟨⟨admitted_of (by decide +kernel), lines_outcomes, by decide⟩, ⟨admitted_of (by decide +kernel), rfl⟩⟩

theorem witness_NoticeCommands :
    (Admitted .setNotice (frame .p1 [32, 255]) outcomes ∧ 32 ≤ (32 : Byte).toNat) ∧
    (Admitted .setNotice (frame .p1 [31, 0]) outcomes ∧ (31 : Byte) = noticeByte ⟨true, true, true, true, true⟩) ∧
    (Admitted .clearNotices (frame .p1 [32]) outcomes) ∧
    (Admitted .clearNotices (frame .p1 [0]) outcomes ∧ (0 : Byte) = noticeByte .none) ∧ LinesAgree outcomes :=
  ⟨⟨admitted_of (by decide +kernel), by decide⟩, ⟨admitted_of (by decide +kernel), by decide⟩,
    admitted_of (by decide +kernel), ⟨admitted_of (by decide +kernel), by decide⟩, lines_outcomes⟩

theorem witness_ConfigSetAndGet :
    (Admitted .configSet (frame .p0 (0x07 :: bytes2 1)) world ∧ Admitted .configGet (frame .p0 [0x07]) world ∧
      paramOfByte 0x07 = none) ∧
    (Admitted .configSet (frame .p0 (0x01 :: bytes2 251)) world ∧ paramOfByte 0x01 = some .tickLength ∧
      paramRangeOk world.params 251 .tickLength = false) ∧
    (Admitted .configSet (frame .p0 (0x01 :: bytes2 250)) world ∧
      paramRangeOk world.params 250 .tickLength = true) ∧
    (Admitted .configSet (frame .p0 (0x11 :: bytes2 1)) world ∧ paramOfByte 0x11 = some (.quota .p1) ∧
      paramRangeOk world.params 1 (.quota .p1) = true ∧ 1 < (world.session .p1).usage) ∧
    (Admitted .configSet (frame .p0 (0x11 :: bytes2 2)) world ∧ (world.session .p1).usage ≤ 2) ∧
    Admitted .configGet (frame .p0 [0x13]) world ∧ LinesAgree world :=
  ⟨⟨admitted_of (by decide +kernel), admitted_of (by decide +kernel), by decide⟩,
    ⟨admitted_of (by decide +kernel), by decide, by decide⟩, ⟨admitted_of (by decide +kernel), by decide⟩,
    ⟨admitted_of (by decide +kernel), by decide, by decide, by decide⟩,
    ⟨admitted_of (by decide +kernel), by decide⟩, admitted_of (by decide +kernel), lines_world⟩

theorem witness_RevokeTaken : InStep world ∧ LinesAgree world ∧
    (Admitted .revoke (frame .p0 (bytes2 0x0200)) world ∧ resolveAny world 0x0200 = none) ∧
    (Admitted .revoke (frame .p0 (bytes2 0x0104)) world ∧ resolveAny world 0x0104 = some 4 ∧
      (slotAt world 4).content = .lapsed ⟨.p3, .shared, ⟨200, 1⟩, 0⟩ ⟨5, 0, true⟩ .expired) ∧
    (Admitted .revoke (frame .p0 (bytes2 0x0102)) world ∧ resolveAny world 0x0102 = some 2 ∧
      (slotAt world 2).content = .held ⟨.p3, .shared, ⟨100, 5⟩, 0⟩ ⟨50, 0, false⟩ 1 ∧
      upgradeEntry ∈ world.waitList ∧ upgradeEntry.ticket = 0x0102) ∧
    (Admitted .revoke (frame .p0 (bytes2 0x0101)) world ∧ resolveAny world 0x0101 = some 1 ∧
      (slotAt world 1).content = .reserved ⟨.p2, .exclusive, ⟨15, 10⟩, 0⟩ ∧
      claimEntry ∈ world.waitList ∧ claimEntry.ticket = 0x0101) :=
  ⟨inStep_world, lines_world, ⟨admitted_of (by decide +kernel), by decide +kernel⟩,
    ⟨admitted_of (by decide +kernel), by decide +kernel, by decide +kernel⟩,
    ⟨admitted_of (by decide +kernel), by decide +kernel, by decide +kernel, by decide +kernel, rfl⟩,
    ⟨admitted_of (by decide +kernel), by decide +kernel, by decide +kernel, by decide +kernel, rfl⟩⟩

theorem witness_EvictTaken :
    (Admitted .evict (frame .p0 [0]) world ∧ Admitted .evict (frame .p0 [4]) world ∧ 4 ≤ (4 : Byte).toNat) ∧
    (Admitted .evict (frame .p0 [1]) (inState .detached) ∧ LinesAgree (inState .detached) ∧
      ((inState .detached).session .p1).state = .detached) ∧
    (Admitted .evict (frame .p0 [1]) (inState .closing) ∧ LinesAgree (inState .closing) ∧
      ((inState .closing).session .p1).state = .closing) ∧
    (Admitted .evict (frame .p0 [3]) world ∧ LinesAgree world ∧ (3 : Byte).toNat = portNumber .p3 ∧
      (world.session .p3).state = .attached) :=
  ⟨⟨admitted_of (by decide +kernel), admitted_of (by decide +kernel), by decide⟩,
    ⟨admitted_of (by decide +kernel), lines_of (by decide +kernel), rfl⟩,
    ⟨admitted_of (by decide +kernel), lines_of (by decide +kernel), rfl⟩,
    ⟨admitted_of (by decide +kernel), lines_world, by decide, rfl⟩⟩

theorem witness_InspectAndWaitlist :
    (Admitted .inspect (frame .p0 [128]) world ∧ Admitted .inspect (frame .p0 [127]) world) ∧
    (Admitted .inspect (frame .p0 [1]) world ∧
      (slotAt world 1).content = .reserved ⟨.p2, .exclusive, ⟨15, 10⟩, 0⟩) ∧
    (Admitted .inspect (frame .p0 [0]) world ∧ (slotAt world 0).content = heldBy .p1 .exclusive 10 10 100 2) ∧
    (Admitted .inspect (frame .p0 [4]) world ∧
      (slotAt world 4).content = .lapsed ⟨.p3, .shared, ⟨200, 1⟩, 0⟩ ⟨5, 0, true⟩ .expired) ∧
    (slotAt world 127).content = .free ∧
    (Admitted .waitlist (frame .p0 [12]) world ∧ Admitted .waitlist (frame .p0 [11]) world ∧ WaitListOk world) ∧
    LinesAgree world :=
  ⟨⟨admitted_of (by decide +kernel), admitted_of (by decide +kernel)⟩,
    ⟨admitted_of (by decide +kernel), by decide +kernel⟩, ⟨admitted_of (by decide +kernel), by decide +kernel⟩,
    ⟨admitted_of (by decide +kernel), by decide +kernel⟩, by decide +kernel,
    ⟨admitted_of (by decide +kernel), admitted_of (by decide +kernel), waitList_world⟩, lines_world⟩

end Sys2Proof.Tests
end

section
/-! PROOFS. Pages and ranges: what the test of R2 says. -/

namespace Sys2Proof.Machine

variable {a b : Range}

/-- The later of the two first pages is the page in common: it is the least page that can be. -/
theorem overlap_iff_covers_max (ha : 1 ≤ a.count) (hb : 1 ≤ b.count) :
    Overlap a b ↔ Covers a (max a.first b.first) ∧ Covers b (max a.first b.first) := by
  simp only [Overlap, Covers]
  omega

theorem overlap_of_common_page {n : Nat} (ha : Covers a n) (hb : Covers b n) : Overlap a b :=
  ⟨ha.1.trans_lt hb.2, hb.1.trans_lt ha.2⟩

theorem overlap_iff_common_page (ha : 1 ≤ a.count) (hb : 1 ≤ b.count) :
    Overlap a b ↔ ∃ n, Covers a n ∧ Covers b n := by
  constructor
  · intro h
    exact ⟨max a.first b.first, (overlap_iff_covers_max ha hb).1 h⟩
  · rintro ⟨n, hna, hnb⟩
    exact overlap_of_common_page hna hnb

/-- The last page of a range of at least one page is its first page plus its count, less one. -/
theorem overlap_iff_first_le_last (ha : 1 ≤ a.count) (hb : 1 ≤ b.count) :
    Overlap a b ↔ a.first ≤ b.first + b.count - 1 ∧ b.first ≤ a.first + a.count - 1 :=
  and_congr (Nat.le_sub_one_iff_lt (by omega)).symm (Nat.le_sub_one_iff_lt (by omega)).symm

end Sys2Proof.Machine

namespace Sys2Proof.Proofs

open Sys2Proof.Machine

/-- Settles O5: the page in common is the later of the two first pages. -/
theorem overlapIsCommonPage : Obligations.OverlapIsCommonPage := by
  intro a b ha hb
  rw [overlaps_iff]
  exact ⟨overlap_iff_common_page ha hb, overlap_iff_first_le_last ha hb⟩

end Sys2Proof.Proofs
end

section
/-! PROOFS. The commands of the lock manager that run no grant scan: CLAIM and UPGRADE granted at once, RENEW, and RELEASE
of a LAPSED record (R28, R31 to R33, R35, R38). -/

namespace Sys2Proof.Machine

/-! ### What such a command leaves to the other ports -/

/-- An owner's act that touches no port unit, no other port's session context and nothing of the board. -/
structure TouchesOwnOnly (p : Port) (s t : State) : Prop where
  ports    : t.ports = s.ports
  sessions : ∀ q, q ≠ p → t.session q = s.session q
  board    : board t = board s

theorem touchesOwnOnly_setSlot (p : Port) (s : State) (i : SlotId) (x : Slot) :
    TouchesOwnOnly p s (setSlot s i x) := ⟨rfl, fun _ _ => rfl, rfl⟩

theorem touchesOwnOnly_setContent (p : Port) (s : State) (i : SlotId) (c : Content) :
    TouchesOwnOnly p s (setContent s i c) := touchesOwnOnly_setSlot p s i _

theorem touchesOwnOnly_modSession {p : Port} {s t : State} (h : TouchesOwnOnly p s t) (g : Session → Session) :
    TouchesOwnOnly p s (t.modSession p g) where
  ports := h.ports
  sessions q hq := by rw [State.session_modSession_other t g hq, h.sessions q hq]
  board := h.board

theorem touchesOwnOnly_allocate (p : Port) (s : State) (i : SlotId) (c : Content) :
    TouchesOwnOnly p s (allocate s p i c) :=
  touchesOwnOnly_modSession (touchesOwnOnly_setContent p s i c) _

theorem resetLow_of_board {s t : State} (h : board t = board s) : t.resetLow = s.resetLow := by
  simp only [board, Prod.mk.injEq] at h
  obtain ⟨-, -, -, -, -, -, -, hreset, -⟩ := h
  exact hreset

/-- The end of a happening in which the owner has touched its own alone: the other ports and the board are as they were
before the frame completed, and the reply is formed from a port unit whose flags have not changed. -/
theorem replying_of_touchesOwnOnly {p : Port} {s t : State} (h : TouchesOwnOnly p (beginAnswer s p) t)
    (hl : LinesAgree s) (tag : Byte) (a : Answer) :
    OthersKept p s (replying t p tag a) ∧ board (replying t p tag a) = board s ∧
      Replied p tag a.code a.results (s.port p) (replying t p tag a) := by
  have hport : ∀ q, t.port q = (beginAnswer s p).port q := fun q => by simp only [State.port, h.ports]
  refine ⟨othersKept_replying tag a hl (resetLow_of_board h.board) fun q hq => ⟨h.sessions q hq, ?_⟩, h.board, ?_⟩
  · rw [hport q, port_beginAnswer_other s hq]
  · exact replied_replying tag a ((hport p).trans (port_beginAnswer_same s p))

/-! ### Slots that are allocated and freed -/

@[simp] theorem slotAt_allocate_same (s : State) (p : Port) (i : SlotId) (c : Content) :
    slotAt (allocate s p i c) i = { slotAt s i with content := c } := slotAt_setContent_same s i c

@[simp] theorem slotAt_allocate_other (s : State) (p : Port) {i j : SlotId} (c : Content) (h : j ≠ i) :
    slotAt (allocate s p i c) j = slotAt s j := slotAt_setContent_other s c h

@[simp] theorem slotHandle_allocate (s : State) (p : Port) (i j : SlotId) (c : Content) :
    slotHandle (allocate s p i c) j = slotHandle s j := slotHandle_setContent s i j c

@[simp] theorem session_allocate_same (s : State) (p : Port) (i : SlotId) (c : Content) :
    (allocate s p i c).session p = { s.session p with usage := (s.session p).usage + 1 } :=
  State.session_modSession_same _ p _

/-- R14: the freeing of a slot that is not FREE. -/
theorem freeSlot_of_claimed {s : State} {i : SlotId} {c : Claimed} (h : (slotAt s i).content.claimed = some c) :
    freeSlot s i = (setSlot s i { gen := nextGen (slotAt s i).gen, content := .free }).modSession c.holder
      fun x => { x with usage := x.usage - 1 } := by
  simp only [freeSlot, h]

theorem slotAt_freeSlot_same {s : State} {i : SlotId} {c : Claimed} (h : (slotAt s i).content.claimed = some c) :
    slotAt (freeSlot s i) i = { gen := nextGen (slotAt s i).gen, content := .free } := by
  rw [freeSlot_of_claimed h, slotAt_modSession, slotAt_setSlot_same]

theorem slotAt_freeSlot_other {s : State} {i j : SlotId} {c : Claimed} (h : (slotAt s i).content.claimed = some c)
    (hj : j ≠ i) : slotAt (freeSlot s i) j = slotAt s j := by
  rw [freeSlot_of_claimed h, slotAt_modSession, slotAt_setSlot_other s _ hj]

theorem waitList_freeSlot {s : State} {i : SlotId} {c : Claimed} (h : (slotAt s i).content.claimed = some c) :
    (freeSlot s i).waitList = s.waitList := by
  rw [freeSlot_of_claimed h, State.modSession_waitList, setSlot_waitList]

theorem session_freeSlot_holder {s : State} {i : SlotId} {c : Claimed} (h : (slotAt s i).content.claimed = some c) :
    (freeSlot s i).session c.holder = { s.session c.holder with usage := (s.session c.holder).usage - 1 } := by
  rw [freeSlot_of_claimed h, State.session_modSession_same, State.session_setSlot]

theorem touchesOwnOnly_freeSlot {s : State} {i : SlotId} {c : Claimed} (h : (slotAt s i).content.claimed = some c) :
    TouchesOwnOnly c.holder s (freeSlot s i) := by
  rw [freeSlot_of_claimed h]
  exact touchesOwnOnly_modSession (touchesOwnOnly_setSlot c.holder s i _) _

/-- R7, case 2: a handle of a slot that is FREE does not resolve. -/
theorem resolve_of_free {s : State} {i : SlotId} {h : Half} (hs : handleSlot h = some i)
    (hf : (slotAt s i).content = .free) (p : Port) : resolve s p h = none := by
  rw [Option.eq_none_iff_forall_ne_some]
  intro j hj
  obtain ⟨rfl, hne⟩ := resolveAny_iff.1 (resolve_some.1 hj).1
  obtain rfl : j = i := by simpa using hs
  exact hne hf

/-! ### CLAIM (R24 to R28) -/

/-- A request that no record and no entry stands in the way of (R28, R38). -/
theorem blocked_eq_false {s : State} {p : Port} {m : Mode} {r : Range} (hh : ¬ HolderBlocks s p m r)
    (hw : ¬ WaiterBlocks s p m r) : blocked s p m r = false := by
  rw [← Bool.not_eq_true, blocked_iff]
  exact not_or.2 ⟨hh, hw⟩

theorem overlapsSelf_eq_false {s : State} {p : Port} {r : Range}
    (hh : ∀ i c, Held s i c → c.holder = p → ¬ Overlap r c.range)
    (hw : ∀ e ∈ s.waitList, e.port = p → e.isUpgrade = false → ¬ Overlap r e.range) : overlapsSelf s p r = false := by
  rw [← Bool.not_eq_true, overlapsSelf_iff]
  rintro (⟨i, c, hc, hp, ho⟩ | ⟨e, he, hp, hu, ho⟩)
  · exact hh i c hc hp ho
  · exact hw e he hp hu ho

/-- R24: the resolved term, from the two bytes that carry it. -/
theorem resolvedTerm_toNat (s : State) (x : Half) :
    resolvedTerm s x.toNat = if x = 0 then s.params.defaultTerm else x.toNat :=
  if_congr (BitVec.toNat_inj (y := 0)) rfl rfl

/-- R25, Table 15: a CLAIM that passes steps 2 to 8 comes to conflict determination. -/
theorem takeClaim_of_passes {s : State} {p : Port} {a : ClaimArgs} {m : Mode} {i : SlotId} (tag : Byte)
    (hm : a.mode = modeByte m) (hr : WellFormed ⟨a.first.toNat, a.count.toNat⟩)
    (ht : a.term.toNat ≤ s.params.maxTerm) (hw : a.wait.toNat ≤ s.params.maxWait)
    (ho : overlapsSelf s p ⟨a.first.toNat, a.count.toNat⟩ = false)
    (hq : (s.session p).usage < s.params.quota.get p) (hf : lowestFree s = some i) :
    takeClaim p tag (claimBytes a) s =
      claimDecide s p tag m ⟨a.first.toNat, a.count.toNat⟩ (resolvedTerm s a.term.toNat) a.wait.toNat a.label i := by
  simp [takeClaim, hm, (rangeOk_iff _).2 hr, ht.not_gt, hw.not_gt, ho, hq.not_ge, hf]

/-- R28: at conflict determination a CLAIM without a blocker is granted. -/
theorem claimDecide_of_not_blocked {s : State} {p : Port} {m : Mode} {r : Range} (hb : blocked s p m r = false)
    (tag : Byte) (term wait : Nat) (label : Half) (i : SlotId) :
    claimDecide s p tag m r term wait label i =
      (allocate s p i (.held ⟨p, m, r, label⟩ ⟨term, 0, false⟩ term),
        { code := .ok, results := bytes2 (slotHandle s i) ++ num2 term }) := by
  simp [claimDecide, hb, claimGrant]

/-! ### RENEW (R31 to R33) -/

theorem contested_iff {s : State} {c : Claimed} {l : Lease} :
    contested s c l = true ↔ 0 < s.params.renewLimit ∧ s.params.renewLimit ≤ l.renewals ∧
      ∃ e ∈ s.waitList, Conflict c.holder c.mode c.range e.port e.mode e.range := by
  simp [contested, and_assoc]

/-- R31: the resolved term of a RENEW, from the two bytes that carry it. -/
theorem renewTerm_toNat (s : State) (l : Lease) (x : Half) :
    renewTerm s l x.toNat = if x = 0 then min l.term s.params.maxTerm else x.toNat :=
  if_congr (BitVec.toNat_inj (y := 0)) rfl rfl

theorem oneMoreRenewal_eq_min (n : Nat) : oneMoreRenewal n = min 255 (n + 1) := by
  unfold oneMoreRenewal; split <;> omega

/-- What the lock manager does with a RENEW of a HELD record. -/
theorem takeRenew_of_held {s : State} {p : Port} {h x : Half} {i : SlotId} {c : Claimed} {l : Lease} {n : Nat}
    (ht : x.toNat ≤ s.params.maxTerm) (hr : resolve s p h = some i) (hc : (slotAt s i).content = .held c l n) :
    takeRenew p (bytes2 h ++ bytes2 x) s =
      if contested s c l then refuse s .contested
      else (setContent s i (.held c ⟨renewTerm s l x.toNat, oneMoreRenewal l.renewals, false⟩ (renewTerm s l x.toNat)),
        { code := .ok, results := num2 (renewTerm s l x.toNat) }) := by
  simp [takeRenew, ht.not_gt, hr, hc]

/-- R43: whether a record is engaged depends on neither its lease nor the ticks that remain. -/
theorem engaged_iff_of_lease {s t : State} {i : SlotId} {c : Claimed} {l l' : Lease} {n n' : Nat}
    (hs : (slotAt s i).content = .held c l n) (ht : slotAt t i = { slotAt s i with content := .held c l' n' })
    (he : t.engine = s.engine) (hw : t.waitList = s.waitList) : Engaged t i ↔ Engaged s i := by
  rw [← engaged_iff, ← engaged_iff]
  simp only [engaged, hs, ht, slotHandle, jobNames, State.job, upgradeWaits, he, hw]

/-! ### RELEASE of a LAPSED record (R35) -/

theorem takeRelease_of_lapsed {s : State} {p : Port} {h : Half} {i : SlotId} {c : Claimed} {l : Lease} {e : EndCause}
    (hr : resolve s p h = some i) (hc : (slotAt s i).content = .lapsed c l e) :
    takeRelease p (bytes2 h) s = (freeSlot s i, { code := .ok, results := [0x03, endCauseByte e] }) := by
  simp [takeRelease, hr, hc]

/-! ### UPGRADE (R37, R38) -/

/-- An UPGRADE of a SHARED record whose upgrade does not wait comes to conflict determination. -/
theorem takeUpgrade_of_shared {s : State} {p : Port} {h x : Half} {i : SlotId} {c : Claimed} {l : Lease} {n : Nat}
    (tag : Byte) (hw : x.toNat ≤ s.params.maxWait) (hr : resolve s p h = some i)
    (hc : (slotAt s i).content = .held c l n) (hm : c.mode = .shared)
    (hu : ∀ e ∈ s.waitList, e.kind = .upgrade → e.ticket ≠ h) :
    takeUpgrade p tag (bytes2 h ++ bytes2 x) s = upgradeDecide s p tag i c l n x.toNat := by
  have hu' : upgradeWaits s (slotHandle s i) = false := by
    rw [← resolve_handle hr, ← Bool.not_eq_true, upgradeWaits_iff]
    rintro ⟨e, he, hk, ht⟩
    exact hu e he hk ht
  simp [takeUpgrade, hw.not_gt, hr, hc, hm, hu']

/-- R38: at conflict determination an UPGRADE without a blocker is granted. -/
theorem upgradeDecide_of_not_blocked {s : State} {p : Port} {c : Claimed} (hb : blocked s p .exclusive c.range = false)
    (tag : Byte) (i : SlotId) (l : Lease) (n wait : Nat) :
    upgradeDecide s p tag i c l n wait =
      (setContent s i (.held { c with mode := .exclusive } l n), { code := .ok, results := bytes2 (slotHandle s i) }) := by
  simp [upgradeDecide, hb]

/-- R145: an EXCLUSIVE record covers its pages for the WRITEs of its holder. -/
theorem coveredFor_of_exclusive {s : State} {i : SlotId} {c : Claimed} {page : Nat} (hc : Held s i c)
    (hm : c.mode = .exclusive) (hp : Covers c.range page) : CoveredFor s c.holder .write page :=
  ⟨i, c, hc, rfl, hp, fun _ => hm⟩

end Sys2Proof.Machine

namespace Sys2Proof.Proofs

open Sys2Proof.Machine

/-- Settles O33: the checks leave the grant, which touches nothing but the slot and the usage of the port. -/
theorem claimGrantedAtOnce : Obligations.ClaimGrantedAtOnce := by
  intro s f a m i hadm hargs hl hm hr ht hw hheld hwait hquota hfree hlow hhb hwb term
  have hterm : resolvedTerm s a.term.toNat = term := resolvedTerm_toNat s a.term
  have hb : blocked (beginAnswer s f.port) f.port m ⟨a.first.toNat, a.count.toNat⟩ = false := blocked_eq_false hhb hwb
  have htake : ownerTakes .claim f.port f.tag f.args (beginAnswer s f.port) =
      (allocate (beginAnswer s f.port) f.port i
        (.held ⟨f.port, m, ⟨a.first.toNat, a.count.toNat⟩, a.label⟩ ⟨term, 0, false⟩ term),
        { code := .ok, results := bytes2 (slotHandle s i) ++ num2 term }) := by
    rw [hargs, ← hterm]
    exact (takeClaim_of_passes (s := beginAnswer s f.port) f.tag hm hr ht hw (overlapsSelf_eq_false hheld hwait) hquota
      (lowestFree_iff.2 ⟨hfree, hlow⟩)).trans (claimDecide_of_not_blocked hb ..)
  have hlen : lengthOk .claim f.args = true := by rw [hargs]; rfl
  obtain ⟨hothers, hboard, hreply⟩ := replying_of_touchesOwnOnly
    (touchesOwnOnly_allocate f.port (beginAnswer s f.port) i
      (.held ⟨f.port, m, ⟨a.first.toNat, a.count.toNat⟩, a.label⟩ ⟨term, 0, false⟩ term)) hl f.tag
    { code := .ok, results := bytes2 (slotHandle s i) ++ num2 term }
  refine ⟨_, exec_admitted hadm hlen (by decide) htake, ?_, ?_, rfl, ?_, hothers, hboard, hreply⟩
  · rw [replying_slotAt, slotAt_allocate_same, slotAt_beginAnswer]
  · intro j hj
    rw [replying_slotAt, slotAt_allocate_other _ _ _ hj, slotAt_beginAnswer]
  · rw [replying_session, session_allocate_same, session_beginAnswer]

/-- Settles O37: the case split is the model's own test of R32; a RENEW that is not contested rewrites one slot. -/
theorem renewTaken : Obligations.RenewTaken := by
  intro s f h x i c l n hadm hargs hl ht hr hc isContested term
  have htake := takeRenew_of_held (s := beginAnswer s f.port) ht hr hc
  rw [← hargs, contested_beginAnswer, renewTerm_beginAnswer, renewTerm_toNat, oneMoreRenewal_eq_min] at htake
  have hlen : lengthOk .renew f.args = true := by rw [hargs]; rfl
  constructor
  · intro hcon
    rw [if_pos (contested_iff.2 hcon)] at htake
    exact answers_of_owner hadm hl hlen (by decide) htake
  · intro hcon
    rw [if_neg (mt contested_iff.1 hcon)] at htake
    obtain ⟨hothers, hboard, hreply⟩ := replying_of_touchesOwnOnly
      (touchesOwnOnly_setContent f.port (beginAnswer s f.port) i
        (.held c ⟨term, min 255 (l.renewals + 1), false⟩ term)) hl f.tag { code := .ok, results := num2 term }
    have hslot := slotAt_setContent_same (beginAnswer s f.port) i
      (.held c ⟨term, min 255 (l.renewals + 1), false⟩ term)
    refine ⟨_, exec_admitted hadm hlen (by decide) htake, hslot, engaged_iff_of_lease hc hslot rfl rfl, ?_, rfl, rfl,
      hothers, hboard, hreply⟩
    intro j hj
    rw [replying_slotAt, slotAt_setContent_other _ _ hj, slotAt_beginAnswer]

/-- Settles O39: the slot that the handle names is FREE afterwards, so the handle does not resolve. -/
theorem releaseOfLapsed : Obligations.ReleaseOfLapsed := by
  intro s f h i c l e hadm hargs hl hr hc
  have hclaimed : (slotAt (beginAnswer s f.port) i).content.claimed = some c := by
    rw [slotAt_beginAnswer, hc]; rfl
  have hholder : c.holder = f.port := resolve_owner hr hclaimed
  have htake := takeRelease_of_lapsed (s := beginAnswer s f.port) hr hc
  rw [← hargs] at htake
  have hlen : lengthOk .release f.args = true := by rw [hargs]; rfl
  have htouch := touchesOwnOnly_freeSlot hclaimed
  have hsession := session_freeSlot_holder hclaimed
  rw [hholder] at htouch hsession
  obtain ⟨hothers, hboard, hreply⟩ := replying_of_touchesOwnOnly htouch hl f.tag
    { code := .ok, results := [0x03, endCauseByte e] }
  have hslot := slotAt_freeSlot_same hclaimed
  have hbyte : (if e = .expired then 0x01 else 0x02) = endCauseByte e := by cases e <;> rfl
  rw [hbyte]
  refine ⟨_, exec_admitted hadm hlen (by decide) htake, hslot, fun j hj => slotAt_freeSlot_other hclaimed hj,
    waitList_freeSlot hclaimed, ?_, hsession, hothers, hboard, hreply⟩
  have hnamed : handleSlot h = some i := by rw [resolve_handle hr, handleSlot_slotHandle]
  exact resolve_of_free hnamed (by rw [replying_slotAt, hslot]) f.port

/-- Settles O41: the record alone is rewritten, EXCLUSIVE, and so covers its pages for the port's WRITEs. -/
theorem upgradeGrantedAtOnce : Obligations.UpgradeGrantedAtOnce := by
  intro s f h x i c l n hadm hargs hl hw hr hc hm hu hhb hwb
  obtain rfl := resolve_handle hr
  have hb : blocked (beginAnswer s f.port) f.port .exclusive c.range = false := blocked_eq_false hhb hwb
  have htake : ownerTakes .upgrade f.port f.tag f.args (beginAnswer s f.port) =
      (setContent (beginAnswer s f.port) i (.held { c with mode := .exclusive } l n),
        { code := .ok, results := bytes2 (slotHandle s i) }) := by
    rw [hargs]
    exact (takeUpgrade_of_shared (s := beginAnswer s f.port) f.tag hw hr hc hm hu).trans
      (upgradeDecide_of_not_blocked hb ..)
  have hlen : lengthOk .upgrade f.args = true := by rw [hargs]; rfl
  have hholder : c.holder = f.port := resolve_owner hr (by rw [hc]; rfl)
  obtain ⟨hothers, hboard, hreply⟩ := replying_of_touchesOwnOnly
    (touchesOwnOnly_setContent f.port (beginAnswer s f.port) i (.held { c with mode := .exclusive } l n)) hl f.tag
    { code := .ok, results := bytes2 (slotHandle s i) }
  have hslot := slotAt_setContent_same (beginAnswer s f.port) i (.held { c with mode := .exclusive } l n)
  refine ⟨_, exec_admitted hadm hlen (by decide) htake, hslot, ?_, rfl, rfl, hothers, hboard, fun page hpage => ?_,
    hreply⟩
  · intro j hj
    rw [replying_slotAt, slotAt_setContent_other _ _ hj, slotAt_beginAnswer]
  · rw [← hholder]
    exact coveredFor_of_exclusive (i := i) (c := { c with mode := .exclusive }) ⟨l, n, congrArg Slot.content hslot⟩ rfl
      hpage

end Sys2Proof.Proofs
end

section
/-! PROOFS. ACK_ERRORS: what the port unit does when it takes the command, from any session state (R90, R122). -/

namespace Sys2Proof.Machine

/-- R90: the session context admits ACK_ERRORS in every state, and the port unit takes it. -/
theorem takeCommand_ackErrors (s : State) (p : Port) (tag : Byte) (args : List Byte) :
    takeCommand .ackErrors p tag args s =
      (s.modPort p fun u => { u with errors := .none }, { code := .ok, results := [errorByte (s.port p).errors] }) := rfl

/-- The port unit in ANSWERING with its errors cleared. -/
theorem port_clearErrors_beginAnswer_same (s : State) (p : Port) :
    ((beginAnswer s p).modPort p fun u => { u with errors := .none }).port p =
      { { s.port p with errors := .none } with sel := .answering, answer := none } := by
  rw [State.port_modPort_same, port_beginAnswer_same]

theorem errors_of_replied {p : Port} {tag : Byte} {code : ResultCode} {results : List Byte} {u : PortUnit} {t : State}
    (h : Replied p tag code results u t) : (t.port p).errors = u.errors := by
  simp only [Replied] at h
  rw [h, PortUnit.replied]

/-- A command whose owner changes the port's own unit alone leaves everything else as it was. -/
theorem onlyPort_replying_modPort {s : State} (p : Port) (hl : LinesAgree s) (g : PortUnit → PortUnit) (tag : Byte)
    (a : Answer) : OnlyPort p s (replying ((beginAnswer s p).modPort p g) p tag a) := by
  refine ⟨by simp, by simp, by simp, othersKept_replying tag a hl (by simp) fun q hq => ⟨by simp, ?_⟩⟩
  rw [State.port_modPort_other _ _ hq, port_beginAnswer_other s hq]

end Sys2Proof.Machine

namespace Sys2Proof.Proofs

open Sys2Proof.Machine

/-- Settles O31: the reply is formed after the errors are cleared, so its results hold the errors as they were and its
ATTN byte shows none. -/
theorem ackErrorsClears : Obligations.AckErrorsClears := by
  intro s f hpass hargs hl
  have hlen : lengthOk .ackErrors f.args = true := by rw [hargs]; rfl
  have htake := takeCommand_ackErrors (beginAnswer s f.port) f.port f.tag f.args
  have hreported : ((beginAnswer s f.port).port f.port).errors = (s.port f.port).errors := by
    rw [port_beginAnswer_same]
  rw [hreported] at htake
  have hreply := replied_replying (u := { s.port f.port with errors := .none }) f.tag
    { code := .ok, results := [errorByte (s.port f.port).errors] } (port_clearErrors_beginAnswer_same s f.port)
  refine ⟨_, exec_command hpass hlen (by decide) htake, onlyPort_replying_modPort f.port hl _ f.tag _, by simp,
    errors_of_replied hreply, hreply⟩

end Sys2Proof.Proofs
end


section
/-! PROOFS. What every step can do to what the part holds, said once: the rules by which a property is kept by every
step. -/

namespace Sys2Proof.Machine

/-! ### What the part holds -/

/-- What the lock manager, the sessions, the lease clock, the array, the job table and supervision hold; the port units,
the arbiter, the choice of the engine and the pins are left out. -/
def holdings (s : State) := (s.table, s.waitList, s.clock, s.array, s.params, s.sessions, s.engine.jobs)

theorem holdings_ext {s t : State} (h : holdings t = holdings s) :
    t.table = s.table ∧ t.waitList = s.waitList ∧ t.clock = s.clock ∧ t.array = s.array ∧ t.params = s.params ∧
      t.sessions = s.sessions ∧ t.engine.jobs = s.engine.jobs := by
  simpa only [holdings, Prod.mk.injEq] using h

@[simp] theorem holdings_modPort (s : State) (p : Port) (g : PortUnit → PortUnit) :
    holdings (s.modPort p g) = holdings s := rfl
@[simp] theorem holdings_settleNotices (s : State) : holdings (settleNotices s) = holdings s := rfl
@[simp] theorem holdings_lineHigh (s : State) (p : Port) : holdings (lineHigh s p) = holdings s := rfl
@[simp] theorem holdings_toIdle (s : State) (p : Port) : holdings (toIdle s p) = holdings s := rfl
@[simp] theorem holdings_endService (s : State) : holdings (endService s) = holdings s := rfl

@[simp] theorem holdings_setError (s : State) (p : Port) (g : StickyErrors → StickyErrors) :
    holdings (setError s p g) = holdings s := by
  unfold setError; split <;> rfl

@[simp] theorem holdings_setReplyCut (s : State) (p : Port) : holdings (setReplyCut s p) = holdings s :=
  holdings_setError s p _

@[simp] theorem holdings_sendReply (s : State) (p : Port) (r : Reply) (kept cut : Bool) :
    holdings (sendReply s p r kept cut) = holdings s := by
  cases kept <;> cases cut <;> simp [sendReply]

@[simp] theorem holdings_answerFrame (s : State) (p : Port) (tag : Byte) (a : Answer) (kept cut : Bool) :
    holdings (answerFrame s p tag a kept cut) = holdings s := holdings_sendReply ..

@[simp] theorem holdings_register (s : State) (p : Port) (a : Access) (f : Frame) (cut : Bool) :
    holdings (register s p a f cut) = holdings s := by
  cases cut <;> simp [register]

@[simp] theorem holdings_runReplay (s : State) (p : Port) (tag : Byte) (cut : Bool) :
    holdings (runReplay s p tag cut) = holdings s := by
  unfold runReplay; split <;> simp

@[simp] theorem holdings_arrive (s : State) (us : List User) : holdings (arrive s us) = holdings s := by
  unfold arrive
  split
  · rfl
  · split <;> rfl

@[simp] theorem holdings_chooseJob (s : State) : holdings (chooseJob s) = holdings s := by
  unfold chooseJob
  split
  · rw [holdings_arrive]; rfl
  · rfl

@[simp] theorem holdings_endEngineService (s : State) : holdings (endEngineService s) = holdings s := by
  rw [endEngineService, holdings_endService, holdings_chooseJob]; rfl

@[simp] theorem holdings_riseElsewhere (s : State) (p : Port) : holdings (riseElsewhere s p) = holdings s := by
  unfold riseElsewhere; split <;> rfl

@[simp] theorem holdings_cutReply (s : State) (p : Port) : holdings (cutReply s p) = holdings s := by
  unfold cutReply
  simp only
  split
  · split <;> simp
  · split
    · simp
    · split <;> simp

/-! ### The rules -/

/-- The rules by which every step keeps a property of what the part holds. `Pre` is what is known besides of the state
that the step begins in; a step may take several commands, and it is not known of the states between them. -/
structure StepRules (Pre P : State → Prop) : Prop where
  congr : ∀ {s t : State}, holdings t = holdings s → P s → P t
  preCongr : ∀ {s t : State}, holdings t = holdings s → Pre s → Pre t
  takes : ∀ (c : Command) (p : Port) (tag : Byte) (args : List Byte) (s : State), admission s p c = none → P s →
    P (ownerTakes c p tag args s).1
  restart : ∀ s, P s → P (restartTakesHold s)
  powerUp : ∀ s t, execPowerUp s = .next t → P t
  assertReset : ∀ s, P s → P (assertReset s)
  releaseReset : ∀ s, P s → P (releaseReset s)
  clear : ∀ s, clearing s = true → P s → P (clearPage s)
  period : ∀ s, Pre s → P s → P (clkinPeriod s)
  tick : ∀ s, Pre s → P s → P (endTick s)
  lapse : ∀ s i, Pre s → P s → lapseDue s i = true → P (lapseSlot s i)
  expire : ∀ s e, Pre s → P s → e ∈ expiredEntries s → P (expireEntry s e)
  page : ∀ s p j, s.job p = some j → stepOutside s p j = false → P s → P (servePageStep s p j)

section Rules

variable {Pre P : State → Prop} (R : StepRules Pre P)
include R

theorem StepRules.keeps_takeCommand {s : State} (c : Command) (p : Port) (tag : Byte) (args : List Byte) (h : P s) :
    P (takeCommand c p tag args s).1 := by
  unfold takeCommand
  split
  · exact h
  · next ha => exact R.takes c p tag args s ha h

theorem StepRules.keeps_runCommand {s : State} (p : Port) (c : Command) (tag : Byte) (args : List Byte) (cut : Bool)
    (h : P s) : P (runCommand s p c tag args cut) :=
  R.congr (holdings_answerFrame ..) (R.keeps_takeCommand c p tag args h)

theorem StepRules.keeps_runRestart {s : State} (p : Port) (tag : Byte) (args : List Byte) (cut : Bool) (h : P s) :
    P (runRestart s p tag args cut) := by
  have hr := R.keeps_runCommand p .restart tag args cut h
  unfold runRestart
  simp only
  split
  · exact R.restart _ hr
  · exact hr

theorem StepRules.keeps_handOn {s : State} (p : Port) (c : Command) (f : Frame) (cut : Bool) (h : P s) :
    P (handOn s p c f cut).1 := by
  unfold handOn
  split
  · exact R.congr (holdings_register ..) h
  · exact R.congr (holdings_register ..) h
  · exact R.congr (holdings_runReplay ..) h
  · exact R.keeps_runRestart p f.tag f.args cut h
  · exact R.keeps_runCommand p _ f.tag f.args cut h

theorem StepRules.keeps_takeFrame {s : State} (p : Port) (code : Byte) (f : Frame) (cut : Bool) (h : P s) :
    P (takeFrame s p code f cut).1 := by
  unfold takeFrame
  split
  · exact R.congr (holdings_sendReply ..) h
  · exact R.congr (by rw [holdings_answerFrame]; exact holdings_setError ..) h
  · exact R.congr (by rw [holdings_answerFrame]; exact holdings_setError ..) h
  · exact R.congr (holdings_answerFrame ..) h
  · exact R.keeps_handOn p _ f cut h

theorem StepRules.keeps_frameEnds {s : State} (p : Port) (code : Byte) (f : Frame) (h : P s) :
    P (frameEnds s p code f).1 := by
  unfold frameEnds
  split
  · simp only
    split
    · exact R.congr (s := s) rfl h
    · exact R.keeps_takeFrame p code f false (R.congr (holdings_modPort ..) h)
  · exact h

theorem StepRules.keeps_frameCompletes {s : State} (code : Byte) (f : Frame) (h : P s) : P (frameCompletes code f s) := by
  unfold frameCompletes
  split
  · exact R.congr (by rw [holdings_settleNotices, holdings_arrive]) (R.keeps_frameEnds f.port code f h)
  · exact h

/-- Frames that complete together, one after the other (R150). -/
theorem StepRules.keeps_arrivals (l : List Arrival) (x : State × List User) (h : P x.1) : P (l.foldl arrivalEnds x).1 := by
  induction l generalizing x with
  | nil => exact h
  | cons a l ih => exact ih _ (R.keeps_frameEnds _ _ _ h)

/-- The frames that waited for a reply, one after the other (R118). -/
theorem StepRules.keeps_drain (n : Nat) (p : Port) (s : State) (h : P s) : P (drainDeferred n p s) := by
  induction n generalizing s with
  | zero => exact h
  | succ n ih =>
    unfold drainDeferred
    split
    · exact h
    · split
      · exact h
      · exact ih _ (R.congr (holdings_arrive ..) (R.keeps_takeFrame _ _ _ _ (R.congr (holdings_modPort ..) h)))

theorem StepRules.keeps_serveAccess {s : State} (a : Access) (p : Port) (h : P s) : P (serveAccess a p s) := by
  unfold serveAccess
  split
  · next r _ =>
    have ht := R.keeps_takeCommand (accessCommand r.access) p r.tag r.args
      (R.congr (holdings_modPort s p fun u => { u with request := none }) h)
    exact R.congr (holdings_settleNotices _)
      (R.keeps_drain _ _ _ (R.congr (by rw [holdings_endService, holdings_answerFrame]) ht))
  · exact h

theorem StepRules.keeps_deselection {s t : State} (hp : Bool) (h : P s) (ht : holdings t = holdings s) (p : Port) :
    P (if hp then settleNotices (restartTakesHold (lineHigh s p)) else t) := by
  split
  · exact R.congr (holdings_settleNotices _) (R.restart _ (R.congr (holdings_lineHigh ..) h))
  · exact R.congr ht h

theorem StepRules.keeps_pageStep {s t : State} (h : P s) (ht : execPageStep s = .next t) : P t := by
  unfold execPageStep at ht
  split at ht
  · cases ht; exact h
  · next p j hj =>
    split at ht
    · cases ht
    · next ho =>
      cases ht
      have hjob : s.job p = some j := by
        unfold servedJob at hj
        split at hj
        · obtain ⟨k, hk, he⟩ := Option.map_eq_some_iff.1 hj
          cases he; exact hk
        · cases hj
      exact R.congr (by rw [holdings_settleNotices, holdings_endEngineService])
        (R.page s p j hjob (Bool.not_eq_true _ ▸ ho) h)

/-- Every row keeps the property. -/
theorem StepRules.keeps_exec {t : State} (i : Instr) {s : State} (hs : Pre s) (h : P s) (ht : exec i s = .next t) :
    P t := by
  have frame : ∀ code f, (.next (frameCompletes code f s) : Host.Outcome State Fault Refusal) = .next t →
      P t := by
    intro code f e
    cases e; exact R.keeps_frameCompletes code f h
  cases i with
  | powerUp => exact R.powerUp s t ht
  | startupClearPage =>
    cases ht
    split
    · next hc => exact R.clear s hc h
    · exact h
  | resetNAssert =>
    cases ht
    split
    · exact h
    · exact R.congr (holdings_settleNotices _) (R.assertReset s h)
  | resetNRelease =>
    cases ht
    split
    · exact R.congr (holdings_settleNotices _) (R.releaseReset s h)
    · exact h
  | restartTakesHold => cases ht; exact R.keeps_deselection _ h rfl _
  | leaseTick =>
    cases ht
    split
    · exact R.tick s hs h
    · exact h
  | lapse i =>
    cases ht
    split
    · next hd => exact R.congr (holdings_settleNotices _) (R.lapse s i hs h hd)
    · exact h
  | waitExpiry k =>
    cases ht
    split
    · next e he => exact R.congr (holdings_settleNotices _) (R.expire s e hs h (List.mem_of_find?_eq_some he))
    · exact h
  | selectionBegin p =>
    cases ht
    split
    · exact R.congr (s := s) rfl h
    · split
      · exact R.congr (s := s) rfl h
      · exact h
  | deselectionReceiving p edges =>
    cases ht
    split
    · refine R.congr (s := s) ?_ h
      rw [holdings_toIdle]
      split
      · rfl
      · exact holdings_setError ..
    · exact R.congr (holdings_riseElsewhere ..) h
  | deselectionAnswering p =>
    cases ht
    split
    · exact R.keeps_deselection _ h (by simp) p
    · exact R.congr (holdings_riseElsewhere ..) h
  | deselectionSpent p =>
    cases ht
    split
    · exact R.keeps_deselection _ h (by simp) p
    · exact R.congr (holdings_riseElsewhere ..) h
  | oversizeFrame p code tag len =>
    cases ht
    split
    · refine R.congr (s := s) ?_ h
      simp only
      split
      · rw [holdings_sendReply, holdings_modPort]
      · rw [holdings_answerFrame]
        exact holdings_setError ..
    · exact h
  | read p => cases ht; exact R.keeps_serveAccess .read p h
  | write p => cases ht; exact R.keeps_serveAccess .write p h
  | pageStep => exact R.keeps_pageStep h ht
  | replyLastByteSent x =>
    cases ht
    split
    · exact R.congr (s := s) rfl h
    · exact h
  | selectSeenHigh p =>
    cases ht
    split
    · exact R.congr (s := s) rfl h
    · exact h
  | arbiterRequestArrives l =>
    cases ht
    split
    · exact R.congr (by rw [holdings_settleNotices, holdings_arrive]) (R.keeps_arrivals l (s, []) h)
    · exact h
  | _ => exact frame _ _ ht

/-- Every step keeps the property. -/
theorem StepRules.keeps_step {s t : State} (hs : Pre s) (h : P s) (ht : step s = .next t) : P t := by
  unfold step at ht
  split at ht
  · cases ht
    unfold idle
    split
    · exact R.period s hs h
    · exact h
  · next c rest _ =>
    have hs' : Pre { s with pending := rest } := R.preCongr (s := s) rfl hs
    have h' : P { s with pending := rest } := R.congr (s := s) rfl h
    exact R.keeps_exec c hs' h' ht

end Rules

/-- A property that the lease clock does not enter into is kept by a CLKIN period if a tick keeps it. -/
theorem period_of_tick {Pre P : State → Prop}
    (clockFree : ∀ (s : State) (c : Clock), P s → P { s with clock := c })
    (preFree : ∀ (s : State) (c : Clock), Pre s → Pre { s with clock := c })
    (tick : ∀ s, Pre s → P s → P (endTick s)) (s : State) (hs : Pre s) (h : P s) : P (clkinPeriod s) := by
  unfold clkinPeriod
  simp only
  split
  · exact clockFree _ _ h
  · split
    · exact clockFree _ _ h
    · exact tick _ (preFree _ _ hs) (clockFree _ _ h)

end Sys2Proof.Machine
end


section
/-! PROOFS. What the owning block of an admitted command can do, said once for all commands. -/

namespace Sys2Proof.Machine

/-- A term that a CLAIM or RENEW may set, when DEFAULT_TERM is at most MAX_TERM (R24, R31). -/
def TermAllowed (x : Params) (term : Nat) : Prop := term = x.defaultTerm ∨ 1 ≤ term ∧ term ≤ x.maxTerm

/-- The states that the owner of an admitted command of a port can leave, each with the tests that it has passed. -/
inductive OwnerAct (p : Port) (s : State) : State → Prop where
  /-- A refusal, a report, or a change of the port unit or of the restart mark alone. -/
  | kept (t : State) (h : holdings t = holdings s) : OwnerAct p s t
  | opened (checking : Bool) (mask : NoticeSet) (threshold : Byte) (hd : (s.session p).state = .detached) :
      OwnerAct p s (s.modSession p fun x =>
        { x with state := .attached, checking := checking, mask := mask, warnThreshold := threshold.toNat,
                 evicted := false })
  | tornDown (ha : (s.session p).state = .attached) : OwnerAct p s (teardown s p)
  | claimGranted (m : Mode) (r : Range) (term : Nat) (label : Half) (i : SlotId)
      (ha : (s.session p).state = .attached) (hr : WellFormed r) (ht : TermAllowed s.params term)
      (ho : overlapsSelf s p r = false) (hq : (s.session p).usage < s.params.quota.get p)
      (hf : (slotAt s i).content = .free) (hb : blocked s p m r = false) :
      OwnerAct p s (allocate s p i (.held ⟨p, m, r, label⟩ ⟨term, 0, false⟩ term))
  | claimQueued (m : Mode) (r : Range) (term : Nat) (label : Half) (i : SlotId) (wait : Nat) (tag : Byte)
      (ha : (s.session p).state = .attached) (hr : WellFormed r) (ht : TermAllowed s.params term)
      (hw : 1 ≤ wait ∧ wait ≤ s.params.maxWait) (ho : overlapsSelf s p r = false)
      (hq : (s.session p).usage < s.params.quota.get p) (hf : (slotAt s i).content = .free)
      (hb : blocked s p m r = true) (hn : queueRefusal s p m r = none) :
      OwnerAct p s (appendEntry (allocate s p i (.reserved ⟨p, m, r, label⟩))
        { ticket := slotHandle s i, port := p, kind := .claim term label, mode := m, range := r, waitRemaining := wait,
          tag := tag })
  | renewed (i : SlotId) (c : Claimed) (l : Lease) (n term : Nat) (hc : (slotAt s i).content = .held c l n)
      (ht : term = min l.term s.params.maxTerm ∨ 1 ≤ term ∧ term ≤ s.params.maxTerm) :
      OwnerAct p s (setContent s i (.held c ⟨term, oneMoreRenewal l.renewals, false⟩ term))
  | released (i : SlotId) (c : Claimed) (l : Lease) (n : Nat) (hc : (slotAt s i).content = .held c l n)
      (hp : c.holder = p) (he : engaged s i = false) : OwnerAct p s (grantScan (freeSlot s i))
  | freedLapsed (i : SlotId) (c : Claimed) (l : Lease) (e : EndCause) (hc : (slotAt s i).content = .lapsed c l e)
      (hp : c.holder = p) : OwnerAct p s (freeSlot s i)
  | downgraded (i : SlotId) (c : Claimed) (l : Lease) (n : Nat) (hc : (slotAt s i).content = .held c l n)
      (hp : c.holder = p) (he : engaged s i = false) (hm : c.mode = .exclusive) :
      OwnerAct p s (grantScan (setContent s i (.held { c with mode := .shared } l n)))
  | upgraded (i : SlotId) (c : Claimed) (l : Lease) (n : Nat) (hc : (slotAt s i).content = .held c l n)
      (hp : c.holder = p) (hm : c.mode = .shared) (hu : upgradeWaits s (slotHandle s i) = false)
      (hb : blocked s p .exclusive c.range = false) :
      OwnerAct p s (setContent s i (.held { c with mode := .exclusive } l n))
  | upgradeQueued (i : SlotId) (c : Claimed) (l : Lease) (n wait : Nat) (tag : Byte)
      (ha : (s.session p).state = .attached) (hc : (slotAt s i).content = .held c l n) (hp : c.holder = p)
      (hm : c.mode = .shared) (hu : upgradeWaits s (slotHandle s i) = false)
      (hw : 1 ≤ wait ∧ wait ≤ s.params.maxWait) (hb : blocked s p .exclusive c.range = true)
      (hn : queueRefusal s p .exclusive c.range = none) :
      OwnerAct p s (appendEntry s
        { ticket := slotHandle s i, port := p, kind := .upgrade, mode := .exclusive, range := c.range,
          waitRemaining := wait, tag := tag })
  | trimmed (i : SlotId) (c : Claimed) (l : Lease) (n : Nat) (r : Range) (hc : (slotAt s i).content = .held c l n)
      (hp : c.holder = p) (hr : WellFormed r) (hi : Inside r c.range) (he : engaged s i = false) :
      OwnerAct p s (grantScan (setContent s i (.held { c with range := r } l n)))
  | cancelled (e : WaitEntry) (he : e ∈ s.waitList) (hp : e.port = p) :
      OwnerAct p s (grantScan (dropEntry s e .cancelled))
  | written (x : AccessArgs) : OwnerAct p s { s with array := writeBytes s.array x.address.toNat (x.data.take x.length.toNat) }
  | jobAdmitted (sides : List Side) (j : Job) (ha : (s.session p).state = .attached)
      (hn : admissionRefusal s p sides = none) (hs : jobSides j = sides)
      (hj : j.pagesDone = 0 ∧ j.stop = .none) :
      OwnerAct p s (chooseJob (reservePlace (s.setJob p (some j)) p .job))
  | jobStopped (j : Job) (ha : (s.session p).state = .attached) (hj : s.job p = some j) :
      OwnerAct p s (s.setJob p (some { j with stop := .host }))
  | collected (o : OutcomeRecord) (rest : List OutcomeRecord) (ha : (s.session p).state = .attached)
      (hh : (s.session p).held = o :: rest) : OwnerAct p s (s.modSession p fun x => { x with held := rest })
  | noticeSet (mask : NoticeSet) (threshold : Byte) :
      OwnerAct p s (s.modSession p fun x => { x with mask := mask, warnThreshold := threshold.toNat })
  | configured (v : Half) (x : Param) (hr : paramRangeOk s.params v.toNat x = true)
      (hq : quotaInUse s v.toNat x = false) :
      OwnerAct p s { s with params := setParam s.params v.toNat x, clock := setParamClock s.clock v.toNat x }
  | revoked (i : SlotId) (c : Claimed) (l : Lease) (n : Nat) (hc : (slotAt s i).content = .held c l n) :
      OwnerAct p s (grantScan (revokeSlot s i c l))
  | withdrawn (i : SlotId) (c : Claimed) (hc : (slotAt s i).content = .reserved c) :
      OwnerAct p s (grantScan (withdrawSlot s i))
  | evicted (t : Port) (ha : (s.session t).state = .attached) : OwnerAct p s (setEvicted (teardown s t) t)
  | markedEvicted (t : Port) (hc : (s.session t).state = .closing) : OwnerAct p s (setEvicted s t)

theorem OwnerAct.self (p : Port) (s : State) : OwnerAct p s s := .kept s rfl

/-! ### What a test that is passed says -/

/-- R90: a command other than OPEN, STATUS, REPLAY and ACK_ERRORS is admitted in ATTACHED alone. -/
theorem attached_of_admission {s : State} {p : Port} {c : Command} (h : admission s p c = none)
    (hc : c ≠ .open_ ∧ c ≠ .status ∧ c ≠ .replay ∧ c ≠ .ackErrors) : (s.session p).state = .attached := by
  revert h
  cases hs : (s.session p).state <;> cases c <;> simp_all [admission]

/-- R90: OPEN is admitted in DETACHED alone. -/
theorem detached_of_admission {s : State} {p : Port} (h : admission s p .open_ = none) :
    (s.session p).state = .detached := by
  revert h
  cases hs : (s.session p).state <;> simp [admission, hs]

theorem holder_of_resolve {s : State} {p : Port} {h : Half} {i : SlotId} (hr : resolve s p h = some i) {c : Claimed}
    {l : Lease} {n : Nat} (hc : (slotAt s i).content = .held c l n) : c.holder = p :=
  resolve_owner hr (by rw [hc]; rfl)

theorem resolvedTerm_allowed (s : State) {x : Half} (h : x.toNat ≤ s.params.maxTerm) :
    TermAllowed s.params (resolvedTerm s x.toNat) := by
  unfold resolvedTerm TermAllowed
  split
  · exact .inl rfl
  · next hx => exact .inr ⟨by omega, h⟩

theorem renewTerm_allowed (s : State) (l : Lease) {n : Nat} (h : n ≤ s.params.maxTerm) :
    renewTerm s l n = min l.term s.params.maxTerm ∨ 1 ≤ renewTerm s l n ∧ renewTerm s l n ≤ s.params.maxTerm := by
  unfold renewTerm
  split
  · exact .inl rfl
  · next hx => exact .inr ⟨by omega, h⟩

/-! ### The owners -/

section Owners

variable {s : State} {p : Port}

theorem act_takeOpen (args : List Byte) (hd : (s.session p).state = .detached) :
    OwnerAct p s (takeOpen p args s).1 := by
  unfold takeOpen
  split
  · exact .self p s
  · exact .self p s
  · exact .opened _ _ _ hd

theorem act_claimDecide {m : Mode} {r : Range} {term wait : Nat} {label : Half} {i : SlotId} (tag : Byte)
    (ha : (s.session p).state = .attached) (hr : WellFormed r) (ht : TermAllowed s.params term)
    (hw : wait ≤ s.params.maxWait) (ho : overlapsSelf s p r = false) (hq : (s.session p).usage < s.params.quota.get p)
    (hf : (slotAt s i).content = .free) : OwnerAct p s (claimDecide s p tag m r term wait label i).1 := by
  unfold claimDecide
  split
  · next hb => exact .claimGranted m r term label i ha hr ht ho hq hf (by simpa using hb)
  · next hb =>
    split
    · exact .self p s
    · next hz =>
      split
      · exact .self p s
      · next hn =>
        have := OwnerAct.claimQueued (p := p) (s := s) m r term label i wait tag ha hr ht ⟨by omega, hw⟩ ho hq hf
          (by simpa using hb) hn
        simpa only [claimQueue, slotHandle_allocate] using this

theorem act_takeClaim (tag : Byte) (args : List Byte) (ha : (s.session p).state = .attached) :
    OwnerAct p s (takeClaim p tag args s).1 := by
  unfold takeClaim
  simp only
  split
  · exact .self p s
  · split
    · exact .self p s
    · next hr =>
      split
      · exact .self p s
      · next ht =>
        split
        · exact .self p s
        · next hw =>
          split
          · exact .self p s
          · next ho =>
            split
            · exact .self p s
            · next hq =>
              split
              · exact .self p s
              · next i hf =>
                exact act_claimDecide tag ha (by simpa using hr) (resolvedTerm_allowed s (by omega)) (by omega)
                  (by simpa using ho) (by omega) (lowestFree_iff.1 hf).1

theorem act_takeRenew (args : List Byte) : OwnerAct p s (takeRenew p args s).1 := by
  unfold takeRenew
  simp only
  split
  · exact .self p s
  · next ht =>
    split
    · exact .self p s
    · split
      · exact .self p s
      · exact .self p s
      · exact .self p s
      · next c l n hc =>
        split
        · exact .self p s
        · exact .renewed _ c l n _ hc (renewTerm_allowed s l (by omega))

theorem act_takeRelease (args : List Byte) : OwnerAct p s (takeRelease p args s).1 := by
  unfold takeRelease
  split
  · exact .self p s
  · next i hr =>
    split
    · exact .self p s
    · exact .self p s
    · next c l n hc =>
      split
      · exact .self p s
      · next he => exact .released i c l n hc (holder_of_resolve hr hc) (by simpa using he)
    · next c l e hc => exact .freedLapsed i c l e hc (resolve_owner hr (by rw [hc]; rfl))

theorem act_takeDowngrade (args : List Byte) : OwnerAct p s (takeDowngrade p args s).1 := by
  unfold takeDowngrade
  split
  · exact .self p s
  · next i hr =>
    split
    · exact .self p s
    · exact .self p s
    · exact .self p s
    · next c l n hc =>
      split
      · exact .self p s
      · next he =>
        split
        · exact .self p s
        · next hm =>
          have hx : c.mode = .exclusive := by cases h : c.mode <;> simp_all
          exact .downgraded i c l n hc (holder_of_resolve hr hc) (by simpa using he) hx

theorem act_takeUpgrade (tag : Byte) (args : List Byte) (ha : (s.session p).state = .attached) :
    OwnerAct p s (takeUpgrade p tag args s).1 := by
  unfold takeUpgrade
  simp only
  split
  · exact .self p s
  · next hw =>
    split
    · exact .self p s
    · next i hr =>
      split
      · exact .self p s
      · exact .self p s
      · exact .self p s
      · next c l n hc =>
        split
        · exact .self p s
        · next hm =>
          have hx : c.mode = .shared := by cases h : c.mode <;> simp_all
          split
          · exact .self p s
          · next hu =>
            unfold upgradeDecide
            simp only
            split
            · next hb =>
              exact .upgraded i c l n hc (holder_of_resolve hr hc) hx (by simpa using hu) (by simpa using hb)
            · next hb =>
              split
              · exact .self p s
              · next hz =>
                split
                · exact .self p s
                · next hn =>
                  exact .upgradeQueued i c l n _ tag ha hc (holder_of_resolve hr hc) hx (by simpa using hu)
                    ⟨by omega, by omega⟩ (by simpa using hb) hn

theorem act_takeTrim (args : List Byte) : OwnerAct p s (takeTrim p args s).1 := by
  unfold takeTrim
  simp only
  split
  · exact .self p s
  · next hw =>
    split
    · exact .self p s
    · next i hr =>
      split
      · exact .self p s
      · exact .self p s
      · exact .self p s
      · next c l n hc =>
        split
        · exact .self p s
        · next hi =>
          split
          · exact .self p s
          · next he =>
            exact .trimmed i c l n _ hc (holder_of_resolve hr hc) (by simpa using hw) (by simpa using hi)
              (by simpa using he)

theorem act_takeCancel (args : List Byte) : OwnerAct p s (takeCancel p args s).1 := by
  unfold takeCancel
  split
  · exact .self p s
  · next e he =>
    refine .cancelled e (List.mem_of_find?_eq_some he) ?_
    have := List.find?_some he
    simp only [Bool.and_eq_true, beq_iff_eq] at this
    exact this.1

theorem act_takeAccess (a : Access) (args : List Byte) : OwnerAct p s (takeAccess a p args s).1 := by
  unfold takeAccess
  simp only
  split
  · exact .self p s
  · split
    · exact .self p s
    · split
      · exact .self p s
      · split
        · exact .self p s
        · exact .written (accessArgs args)

theorem act_admitJob {sides : List Side} {j : Job} (ha : (s.session p).state = .attached) (hs : jobSides j = sides)
    (hj : j.pagesDone = 0 ∧ j.stop = .none) : OwnerAct p s (admitJob s p sides j).1 := by
  unfold admitJob
  split
  · exact .self p s
  · next hn => exact .jobAdmitted sides j ha hn hs hj

theorem act_takeStopJob (ha : (s.session p).state = .attached) : OwnerAct p s (takeStopJob p s).1 := by
  unfold takeStopJob
  split
  · exact .self p s
  · next j hj => exact .jobStopped j ha hj

theorem act_takeJobState : OwnerAct p s (takeJobState p s).1 := by
  unfold takeJobState
  split <;> exact .self p s

theorem act_takeCollect (ha : (s.session p).state = .attached) : OwnerAct p s (takeCollect p s).1 := by
  unfold takeCollect
  split
  · exact .self p s
  · next o rest hh => exact .collected o rest ha hh

theorem act_takeSetNotice (args : List Byte) : OwnerAct p s (takeSetNotice p args s).1 := by
  unfold takeSetNotice
  split
  · exact .self p s
  · exact .noticeSet _ _

theorem act_takeClearNotices (args : List Byte) : OwnerAct p s (takeClearNotices p args s).1 := by
  unfold takeClearNotices
  split
  · exact .self p s
  · exact .kept _ rfl

theorem act_takeConfigSet (args : List Byte) : OwnerAct p s (takeConfigSet args s).1 := by
  unfold takeConfigSet
  simp only
  split
  · exact .self p s
  · next x hx =>
    split
    · exact .self p s
    · next hr =>
      split
      · exact .self p s
      · next hq => exact .configured (argHalf args 1) x (by simpa [argNum] using hr) (by simpa [argNum] using hq)

theorem act_takeRevoke (args : List Byte) : OwnerAct p s (takeRevoke args s).1 := by
  unfold takeRevoke
  split
  · exact .self p s
  · next i hr =>
    split
    · exact .self p s
    · exact .self p s
    · next c l n hc => exact .revoked i c l n hc
    · next c hc => exact .withdrawn i c hc

theorem act_takeEvict (args : List Byte) : OwnerAct p s (takeEvict args s).1 := by
  unfold takeEvict
  simp only
  split
  · exact .self p s
  · exact .self p s
  · next t ht _ =>
    split
    · exact .self p s
    · next ha => exact .evicted t ha
    · next hc => exact .markedEvicted t hc

/-- What the owner of an admitted command leaves is one of the states of `OwnerAct`. -/
theorem ownerTakes_act {c : Command} (tag : Byte) (args : List Byte) (h : admission s p c = none) :
    OwnerAct p s (ownerTakes c p tag args s).1 := by
  have attached := attached_of_admission h
  cases c with
  | open_ => exact act_takeOpen args (detached_of_admission h)
  | close => exact .tornDown (attached (by decide))
  | status => exact .self p s
  | replay => exact .self p s
  | ackErrors => exact .kept _ rfl
  | claim => exact act_takeClaim tag args (attached (by decide))
  | renew => exact act_takeRenew args
  | release => exact act_takeRelease args
  | downgrade => exact act_takeDowngrade args
  | upgrade => exact act_takeUpgrade tag args (attached (by decide))
  | trim => exact act_takeTrim args
  | cancel => exact act_takeCancel args
  | probe => change OwnerAct p s (takeProbe args s).1; unfold takeProbe; simp only; split <;> exact .self p s
  | list => change OwnerAct p s (takeList p args s).1; unfold takeList; simp only; split <;> exact .self p s
  | read => exact act_takeAccess .read args
  | write => exact act_takeAccess .write args
  | fill => exact act_admitJob (attached (by decide)) rfl ⟨rfl, rfl⟩
  | copy => exact act_admitJob (attached (by decide)) rfl ⟨rfl, rfl⟩
  | sum => exact act_admitJob (attached (by decide)) rfl ⟨rfl, rfl⟩
  | stopJob => exact act_takeStopJob (attached (by decide))
  | jobState => exact act_takeJobState
  | collect => exact act_takeCollect (attached (by decide))
  | setNotice => exact act_takeSetNotice args
  | clearNotices => exact act_takeClearNotices args
  | configSet => exact act_takeConfigSet args
  | configGet => change OwnerAct p s (takeConfigGet args s).1; unfold takeConfigGet; split <;> exact .self p s
  | revoke => exact act_takeRevoke args
  | evict => exact act_takeEvict args
  | inspect => change OwnerAct p s (takeInspect args s).1; unfold takeInspect; simp only; split <;> exact .self p s
  | waitlist => change OwnerAct p s (takeWaitlist args s).1; unfold takeWaitlist; simp only; split <;> exact .self p s
  | restart => exact .kept _ rfl

end Owners

end Sys2Proof.Machine
end


section
/-! PROOFS. What the operations of the lock manager leave as it is: everything on the board. -/

namespace Sys2Proof.Machine

/-- The parts of the board, one by one. -/
theorem board_parts {s t : State} (h : board t = board s) :
    t.clock = s.clock ∧ t.array = s.array ∧ t.clearNext = s.clearNext ∧ t.arbiter = s.arbiter ∧ t.engine = s.engine ∧
      t.params = s.params ∧ t.restartPending = s.restartPending ∧ t.resetLow = s.resetLow ∧
      t.powerUps = s.powerUps ∧ t.pending = s.pending := by
  simpa only [board, Prod.mk.injEq] using h

theorem array_of_board {s t : State} (h : board t = board s) : t.array = s.array := (board_parts h).2.1
theorem params_of_board {s t : State} (h : board t = board s) : t.params = s.params := by
  obtain ⟨-, -, -, -, -, hp, -⟩ := board_parts h
  exact hp
theorem clock_of_board {s t : State} (h : board t = board s) : t.clock = s.clock := (board_parts h).1
theorem engine_of_board {s t : State} (h : board t = board s) : t.engine = s.engine := by
  obtain ⟨-, -, -, -, he, -⟩ := board_parts h
  exact he
theorem job_of_board {s t : State} (h : board t = board s) (p : Port) : t.job p = s.job p := by
  simp only [State.job, engine_of_board h]

theorem board_foldl {α : Type} {f : State → α → State} (h : ∀ s x, board (f s x) = board s) (l : List α) (s : State) :
    board (l.foldl f s) = board s := by
  induction l generalizing s with
  | nil => rfl
  | cons x l ih => exact (ih _).trans (h s x)

section Board

variable (s : State) (p : Port) (i : SlotId)

@[simp] theorem board_raiseLeaseLow : board (raiseLeaseLow s p) = board s := rfl
@[simp] theorem board_raiseLeaseLost : board (raiseLeaseLost s p) = board s := rfl
@[simp] theorem board_raiseRevoked : board (raiseRevoked s p) = board s := rfl
@[simp] theorem board_raiseContended : board (raiseContended s p) = board s := rfl
@[simp] theorem board_setEvicted : board (setEvicted s p) = board s := rfl
@[simp] theorem board_reservePlace (r : Reservation) : board (reservePlace s p r) = board s := rfl
@[simp] theorem board_fillPlace (r : Reservation) (o : OutcomeRecord) : board (fillPlace s p r o) = board s := rfl
@[simp] theorem board_allocate (c : Content) : board (allocate s p i c) = board s := rfl
@[simp] theorem board_endEntry (e : WaitEntry) (how : WaitEnd) : board (endEntry s e how) = board s := rfl
@[simp] theorem board_removeEntriesOf : board (removeEntriesOf s p) = board s := rfl
@[simp] theorem board_countdown : board (countdown s) = board s := rfl
@[simp] theorem board_countWaits : board (countWaits s) = board s := rfl

@[simp] theorem board_freeSlot : board (freeSlot s i) = board s := by
  unfold freeSlot; split <;> rfl

@[simp] theorem board_freeClaimSlot (e : WaitEntry) : board (freeClaimSlot s e) = board s := by
  unfold freeClaimSlot
  split
  · exact board_freeSlot s _
  · rfl

@[simp] theorem board_dropEntry (e : WaitEntry) (how : WaitEnd) : board (dropEntry s e how) = board s := by
  rw [dropEntry, board_freeClaimSlot, board_endEntry]

@[simp] theorem board_endUpgradeOf (h : Half) : board (endUpgradeOf s h) = board s := by
  unfold endUpgradeOf; split <;> simp

@[simp] theorem board_contendHolders (m : Mode) (r : Range) : board (contendHolders s p m r) = board s :=
  board_foldl board_raiseContended _ _

@[simp] theorem board_appendEntry (e : WaitEntry) : board (appendEntry s e) = board s := by
  simp [appendEntry]

@[simp] theorem board_freeSlotsOf : board (freeSlotsOf s p) = board s :=
  board_foldl (fun s i => by split <;> simp) _ _

@[simp] theorem board_revokeSlot (c : Claimed) (l : Lease) : board (revokeSlot s i c l) = board s := by
  simp [revokeSlot]

@[simp] theorem board_withdrawSlot : board (withdrawSlot s i) = board s := by
  unfold withdrawSlot; split <;> simp

@[simp] theorem board_warnSlot : board (warnSlot s i) = board s := by
  unfold warnSlot
  split
  · split <;> simp
  · rfl

@[simp] theorem board_warnings : board (warnings s) = board s := board_foldl board_warnSlot _ _

@[simp] theorem board_lapseSlot : board (lapseSlot s i) = board s := by
  unfold lapseSlot; split <;> simp

@[simp] theorem board_lapses : board (lapses s) = board s := board_foldl board_lapseSlot _ _

@[simp] theorem board_expireEntry (e : WaitEntry) : board (expireEntry s e) = board s := board_dropEntry s e _

@[simp] theorem board_waitExpiries : board (waitExpiries s) = board s :=
  (board_foldl board_expireEntry _ _).trans (board_countWaits s)

@[simp] theorem board_tickLocks : board (tickLocks s) = board s := by
  unfold tickLocks
  simp only
  split <;> simp

end Board

/-! ### The teardown of a session -/

/-- R96, R97: what a teardown has come to before its grant scan, but for the stop request of the job. -/
def emptied (s : State) (p : Port) : State :=
  ((removeEntriesOf (freeSlotsOf s p) p).modSession p (tornSession (s.job p).isSome)).modPort p
    fun u => { u with notices := .none }

theorem teardown_eq (s : State) (p : Port) : teardown s p = grantScan (closeJob (emptied s p) p) := by
  have hj : (removeEntriesOf (freeSlotsOf s p) p).job p = s.job p := job_of_board (by simp) p
  simp only [teardown, emptied, hj]

theorem closeJob_eq (s : State) (p : Port) :
    closeJob s p = s.setJob p ((s.job p).map fun j => { j with stop := .closed }) := by
  unfold closeJob
  split
  · next j hj => simp [hj]
  · next hj =>
    have he : s.engine.jobs.set p none = s.engine.jobs := by
      refine PerPort.ext_get fun q => ?_
      by_cases hq : q = p
      · subst hq; simpa [State.job] using hj.symm
      · simp [hq]
    simp [State.setJob, hj, he]

@[simp] theorem board_emptied (s : State) (p : Port) : board (emptied s p) = board s := by
  simp [emptied]

/-- R96 to R98: of the board a teardown changes the stop request of the port's job alone. -/
theorem board_teardown (s : State) (p : Port) : board { teardown s p with engine := s.engine } = board s := by
  have hb := board_parts (board_grantScan (closeJob (emptied s p) p))
  have he := board_parts (board_emptied s p)
  rw [← teardown_eq] at hb
  obtain ⟨h1, h2, h3, h4, -, h5, h6, h7, h8, h9⟩ := hb
  obtain ⟨k1, k2, k3, k4, -, k5, k6, k7, k8, k9⟩ := he
  rw [closeJob_eq] at h1 h2 h3 h4 h5 h6 h7 h8 h9
  simp only [board, h1, h2, h3, h4, h5, h6, h7, h8, h9, State.setJob, k1, k2, k3, k4, k5, k6, k7, k8, k9]

theorem engine_teardown (s : State) (p : Port) :
    (teardown s p).engine =
      { s.engine with jobs := s.engine.jobs.set p ((s.job p).map fun j => { j with stop := .closed }) } := by
  have hb := engine_of_board (board_grantScan (closeJob (emptied s p) p))
  have he := engine_of_board (board_emptied s p)
  rw [teardown_eq, hb, closeJob_eq]
  simp only [State.setJob, he, job_of_board (board_emptied s p) p]

end Sys2Proof.Machine
end


section
/-! PROOFS. What every step keeps of the array (R141) and of the NOTICE lines (R137). -/

namespace Sys2Proof.Machine

/-! ### The canonical form of the array -/

theorem wf_servedAccess {s : State} (a : Access) (p : Port) (args : List Byte) (h : Memory.wf s.array = true) :
    Memory.wf (takeAccess a p args s).1.array = true := by
  unfold takeAccess
  simp only
  split
  · exact h
  · split
    · exact h
    · split
      · exact h
      · split
        · exact h
        · exact wf_writeBytes _ _ h

/-- R155: the service that a reset waits for keeps the form. -/
theorem wf_arrayAfterService {s : State} (h : Memory.wf s.array = true) :
    Memory.wf (arrayAfterService s) = true := by
  unfold arrayAfterService
  split
  · exact h
  · split
    · exact h
    · split
      · exact h
      · exact wf_servedAccess _ _ _ h
  · split
    · exact h
    · split
      · exact wf_stepArray _ h
      · exact h

theorem wf_ownerAct {p : Port} {s t : State} (a : OwnerAct p s t) (h : Memory.wf s.array = true) :
    Memory.wf t.array = true := by
  have kept : ∀ {u : State}, board u = board s → Memory.wf u.array = true := fun hb => by
    rw [array_of_board hb]; exact h
  have torn : ∀ q, Memory.wf (teardown s q).array = true := fun q =>
    kept (u := { teardown s q with engine := s.engine }) (board_teardown s q)
  cases a with
  | kept t ht => rw [(holdings_ext ht).2.2.2.1]; exact h
  | tornDown => exact torn p
  | evicted q => exact torn q
  | written x => exact wf_writeBytes _ _ h
  | jobAdmitted sides j =>
    have ht := holdings_chooseJob (reservePlace (s.setJob p (some j)) p .job)
    rw [(holdings_ext ht).2.2.2.1]
    exact h
  | jobStopped => exact h
  | configured => exact h
  | _ => exact kept (by simp)

theorem wf_clearPage {s : State} (h : Memory.wf s.array = true) : Memory.wf (clearPage s).array = true := by
  unfold clearPage
  simp only
  split <;> exact wf_writePage _ _ h

theorem wf_servePageStep {s : State} (p : Port) (j : Job) (h : Memory.wf s.array = true) :
    Memory.wf (servePageStep s p j).array = true := by
  unfold servePageStep
  split
  · exact h
  · exact h
  · simp only
    split <;> exact wf_stepArray _ h

theorem wf_powerUp {s t : State} (h : execPowerUp s = .next t) : Memory.wf t.array = true := by
  have ht : t.array = cellsOf (Config.powerUpByte s.powerUps) := by
    simp only [execPowerUp, Host.Outcome.next.injEq] at h
    rw [← h]
  rw [ht]
  exact wf_cellsOf _

theorem array_endTick (s : State) : (endTick s).array = s.array := by
  simp only [endTick, settleNotices_array, array_of_board (board_tickLocks s)]

/-- The canonical form of the array by the rules of a step. -/
theorem rules_memoryForm : StepRules (fun _ => True) fun s => Memory.wf s.array = true where
  congr ht h := by rw [(holdings_ext ht).2.2.2.1]; exact h
  preCongr _ h := h
  takes _ _ tag args _ ha h := wf_ownerAct (ownerTakes_act tag args ha) h
  restart _ h := wf_arrayAfterService h
  powerUp _ _ ht := wf_powerUp ht
  assertReset _ h := wf_arrayAfterService h
  releaseReset _ h := h
  clear _ _ h := wf_clearPage h
  period := period_of_tick (fun _ _ h => h) (fun _ _ h => h) fun s _ h => (array_endTick s).symm ▸ h
  tick s _ h := (array_endTick s).symm ▸ h
  lapse s i _ h _ := by rw [array_of_board (board_lapseSlot s i)]; exact h
  expire s e _ h _ := by rw [array_of_board (board_expireEntry s e)]; exact h
  page _ p j _ _ h := wf_servePageStep p j h

/-! ### The NOTICE lines -/

/-- What decides a port's NOTICE line is as it was, and so is the line. -/
def SameLine (s t : State) : Prop :=
  t.sessions = s.sessions ∧ t.resetLow = s.resetLow ∧
    ∀ q, (t.port q).notices = (s.port q).notices ∧ (t.port q).noticeLine = (s.port q).noticeLine

theorem linesAgree_of_same {s t : State} (h : SameLine s t) (hl : LinesAgree s) : LinesAgree t := by
  obtain ⟨hs, hr, hp⟩ := h
  intro q
  have hd : noticeDue t q = noticeDue s q := noticeDue_congr (by simp only [State.session, hs]) (hp q).1 hr
  rw [(hp q).2, hl q, hd]

theorem linesAgree_settleNotices (s : State) : LinesAgree (settleNotices s) := by
  intro q
  rw [State.port_settleNotices]
  exact (noticeDue_congr (State.session_settleNotices s q) (by simp) rfl).symm

theorem sameLine_modPort (s : State) (p : Port) {g : PortUnit → PortUnit}
    (h : ∀ u, (g u).notices = u.notices ∧ (g u).noticeLine = u.noticeLine) : SameLine s (s.modPort p g) := by
  refine ⟨rfl, rfl, fun q => ?_⟩
  rw [State.port_modPort]
  split
  · next hq => subst hq; exact h _
  · exact ⟨rfl, rfl⟩

theorem SameLine.refl (s : State) : SameLine s s := ⟨rfl, rfl, fun _ => ⟨rfl, rfl⟩⟩

theorem SameLine.trans {s t u : State} (h : SameLine s t) (k : SameLine t u) : SameLine s u := by
  obtain ⟨hs, hr, hp⟩ := h
  obtain ⟨ks, kr, kp⟩ := k
  exact ⟨ks.trans hs, kr.trans hr, fun q => ⟨(kp q).1.trans (hp q).1, (kp q).2.trans (hp q).2⟩⟩

theorem sameLine_lineHigh (s : State) (p : Port) : SameLine s (lineHigh s p) :=
  sameLine_modPort s p fun _ => ⟨rfl, rfl⟩

theorem sameLine_setError (s : State) (p : Port) (g : StickyErrors → StickyErrors) : SameLine s (setError s p g) := by
  unfold setError
  split
  · exact .refl s
  · exact sameLine_modPort s p fun _ => ⟨rfl, rfl⟩

theorem sameLine_toIdle (s : State) (p : Port) : SameLine s (toIdle s p) := sameLine_modPort s p fun _ => ⟨rfl, rfl⟩

theorem sameLine_riseElsewhere (s : State) (p : Port) : SameLine s (riseElsewhere s p) := by
  unfold riseElsewhere
  split
  · exact sameLine_lineHigh s p
  · exact .refl s

/-- R118: the reply of a selection that still stands, if it is not one that is kept. -/
theorem sendReply_unkept (s : State) (p : Port) (r : Reply) :
    sendReply s p r false false = s.modPort p fun u => { u with answer := some { reply := r, kept := false } } := rfl

theorem sendReply_kept (s : State) (p : Port) (r : Reply) :
    sendReply s p r true false = (s.modPort p fun u => { u with lastReply := some r }).modPort p
      fun u => { u with answer := some { reply := r, kept := true } } := rfl

/-- R118: a kept reply whose selection has ended. -/
theorem sendReply_cut (s : State) (p : Port) (r : Reply) :
    sendReply s p r true true = setReplyCut (s.modPort p fun u => { u with lastReply := some r }) p := rfl

theorem sendReply_dropped (s : State) (p : Port) (r : Reply) : sendReply s p r false true = s := rfl

theorem sameLine_sendReply (s : State) (p : Port) (r : Reply) (kept cut : Bool) :
    SameLine s (sendReply s p r kept cut) := by
  have keep : SameLine s (s.modPort p fun u => { u with lastReply := some r }) := sameLine_modPort s p fun _ => ⟨rfl, rfl⟩
  cases kept <;> cases cut
  · rw [sendReply_unkept]
    exact sameLine_modPort s p fun _ => ⟨rfl, rfl⟩
  · rw [sendReply_dropped]
    exact .refl s
  · rw [sendReply_kept]
    exact keep.trans (sameLine_modPort _ p fun _ => ⟨rfl, rfl⟩)
  · rw [sendReply_cut]
    exact keep.trans (sameLine_setError _ p _)

theorem sameLine_cutReply (s : State) (p : Port) : SameLine s (cutReply s p) := by
  unfold cutReply
  simp only
  split
  · split
    · exact sameLine_setError s p _
    · exact .refl s
  · split
    · exact sameLine_modPort s p fun _ => ⟨rfl, rfl⟩
    · split
      · next r _ =>
        exact (sameLine_modPort s p (g := fun u => { u with request := some { r with cut := true } })
          fun _ => ⟨rfl, rfl⟩).trans (sameLine_setError _ p _)
      · exact .refl s

/-- The lines after power-up: no flag is set and no mask enables one (R105). -/
theorem linesAgree_powerUp {s t : State} (h : execPowerUp s = .next t) : LinesAgree t := by
  cases h
  intro q
  cases q <;> rfl

/-- A happening that changes what a port holds ends with its lines settled. -/
theorem linesAgree_exec {s t : State} (i : Instr) (h : LinesAgree s) (ht : exec i s = .next t) : LinesAgree t := by
  have frame : ∀ code f, (.next (frameCompletes code f s) : Host.Outcome State Fault Refusal) = .next t →
      LinesAgree t := by
    intro code f e
    cases e
    unfold frameCompletes
    split
    · exact linesAgree_settleNotices _
    · exact h
  have serve : ∀ a p, LinesAgree (serveAccess a p s) := by
    intro a p
    unfold serveAccess
    split
    · exact linesAgree_settleNotices _
    · exact h
  cases i with
  | powerUp => exact linesAgree_powerUp ht
  | startupClearPage =>
    cases ht
    split
    · unfold clearPage
      simp only
      split <;> exact linesAgree_of_same (.refl s) h
    · exact h
  | resetNAssert =>
    cases ht
    split
    · exact h
    · exact linesAgree_settleNotices _
  | resetNRelease =>
    cases ht
    split
    · exact linesAgree_settleNotices _
    · exact h
  | restartTakesHold =>
    cases ht
    split
    · exact linesAgree_settleNotices _
    · exact h
  | leaseTick =>
    cases ht
    split
    · exact linesAgree_settleNotices _
    · exact h
  | lapse i =>
    cases ht
    split
    · exact linesAgree_settleNotices _
    · exact h
  | waitExpiry k =>
    cases ht
    split
    · exact linesAgree_settleNotices _
    · exact h
  | selectionBegin p =>
    cases ht
    split
    · exact linesAgree_of_same (sameLine_modPort s p fun _ => ⟨rfl, rfl⟩) h
    · split
      · exact linesAgree_of_same (sameLine_modPort s p fun _ => ⟨rfl, rfl⟩) h
      · exact h
  | deselectionReceiving p edges =>
    cases ht
    split
    · refine linesAgree_of_same (.trans ?_ (sameLine_toIdle _ p)) h
      split
      · exact .refl s
      · exact sameLine_setError s p _
    · exact linesAgree_of_same (sameLine_riseElsewhere s p) h
  | deselectionAnswering p =>
    cases ht
    split
    · split
      · exact linesAgree_settleNotices _
      · exact linesAgree_of_same ((sameLine_cutReply s p).trans (sameLine_toIdle _ p)) h
    · exact linesAgree_of_same (sameLine_riseElsewhere s p) h
  | deselectionSpent p =>
    cases ht
    split
    · split
      · exact linesAgree_settleNotices _
      · exact linesAgree_of_same (sameLine_toIdle s p) h
    · exact linesAgree_of_same (sameLine_riseElsewhere s p) h
  | oversizeFrame p code tag len =>
    cases ht
    split
    · have start : SameLine s (s.modPort p fun u => { u with sel := .answering, answer := none }) :=
        sameLine_modPort s p fun _ => ⟨rfl, rfl⟩
      simp only
      split
      · exact linesAgree_of_same (start.trans (sameLine_sendReply ..)) h
      · exact linesAgree_of_same ((start.trans (sameLine_setError _ p _)).trans (sameLine_sendReply ..)) h
    · exact h
  | read p => cases ht; exact serve .read p
  | write p => cases ht; exact serve .write p
  | pageStep =>
    change execPageStep s = .next t at ht
    unfold execPageStep at ht
    split at ht
    · cases ht; exact h
    · split at ht
      · cases ht
      · cases ht; exact linesAgree_settleNotices _
  | replyLastByteSent x =>
    cases ht
    split
    · exact linesAgree_of_same (sameLine_modPort s _ fun _ => ⟨rfl, rfl⟩) h
    · exact h
  | selectSeenHigh p =>
    cases ht
    split
    · exact linesAgree_of_same (sameLine_lineHigh s p) h
    · exact h
  | arbiterRequestArrives l =>
    cases ht
    split
    · exact linesAgree_settleNotices _
    · exact h
  | _ => exact frame _ _ ht

end Sys2Proof.Machine

namespace Sys2Proof.Proofs

open Sys2Proof.Machine

/-- Settles O7: every write goes through `writeByte`, which keeps the form. -/
theorem memoryFormKept : Obligations.MemoryFormKept := by
  intro s t h ht
  exact rules_memoryForm.keeps_step trivial h ht

/-- Settles O8: a happening that can change a flag or a mask ends with the lines settled, and every other leaves flags,
masks and lines alone. -/
theorem noticeLinesKept : Obligations.NoticeLinesKept := by
  intro s t h ht
  unfold step at ht
  split at ht
  · cases ht
    unfold idle clkinPeriod
    simp only
    split
    · split
      · exact linesAgree_of_same (.refl s) h
      · split
        · exact linesAgree_of_same (.refl s) h
        · exact linesAgree_settleNotices _
    · exact h
  · next c rest _ =>
    have h' : LinesAgree { s with pending := rest } := linesAgree_of_same (s := s) (.refl s) h
    exact linesAgree_exec c h' ht

end Sys2Proof.Proofs
end


section
/-! PROOFS. Properties of each slot and of each wait entry by itself, and the operations that keep them. -/

namespace Sys2Proof.Machine

/-- Every slot has a property, and every wait entry has one. -/
def Cells (Q : Slot → Prop) (E : WaitEntry → Prop) (s : State) : Prop :=
  (∀ i, Q (slotAt s i)) ∧ ∀ e ∈ s.waitList, E e

/-- The operations of the lock manager that end or grant something keep a property of slots and one of entries. -/
structure CellRules (Q : Slot → Prop) (E : WaitEntry → Prop) : Prop where
  freed   : ∀ x, Q x → Q { gen := nextGen x.gen, content := .free }
  granted : ∀ e x, E e → Q x → Q { x with content := grantedContent e x.content }
  lapsed  : ∀ g c l n x, Q ⟨g, .held c l n⟩ → Q ⟨g, .lapsed c l x⟩
  warned  : ∀ g c l n, Q ⟨g, .held c l n⟩ → Q ⟨g, .held c { l with warned := true } n⟩

section Ops

variable {Q : Slot → Prop} {E : WaitEntry → Prop} {s t : State}

theorem cells_congr (ht : t.table = s.table) (hw : t.waitList = s.waitList) (h : Cells Q E s) : Cells Q E t := by
  obtain ⟨hq, he⟩ := h
  exact ⟨fun i => slotAt_eq_of_table ht i ▸ hq i, hw ▸ he⟩

theorem cells_mono {Q' : Slot → Prop} {E' : WaitEntry → Prop} (hQ : ∀ x, Q x → Q' x) (hE : ∀ e, E e → E' e)
    (h : Cells Q E s) : Cells Q' E' s := ⟨fun i => hQ _ (h.1 i), fun e he => hE e (h.2 e he)⟩

/-- Only one slot is another, and the entries are among those before. -/
theorem cells_oneSlot {i : SlotId} {x : Slot} (ht : ∀ j, slotAt t j = if j = i then x else slotAt s j)
    (hw : ∀ e ∈ t.waitList, e ∈ s.waitList) (hx : Q x) (h : Cells Q E s) : Cells Q E t := by
  refine ⟨fun j => ?_, fun e he => h.2 e (hw e he)⟩
  rw [ht j]
  split
  · exact hx
  · exact h.1 j

theorem cells_setSlot {i : SlotId} {x : Slot} (hx : Q x) (h : Cells Q E s) : Cells Q E (setSlot s i x) :=
  cells_oneSlot (i := i) (x := x) (fun j => slotAt_setSlot s i j x) (fun _ he => he) hx h

theorem cells_setContent {i : SlotId} {c : Content} (hx : Q { slotAt s i with content := c }) (h : Cells Q E s) :
    Cells Q E (setContent s i c) := cells_setSlot hx h

theorem cells_setHeld {i : SlotId} {c : Claimed} {l : Lease} {n : Nat} (hc : (slotAt s i).content = .held c l n)
    {x : Content} (hx : ∀ g, Q ⟨g, .held c l n⟩ → Q ⟨g, x⟩) (h : Cells Q E s) : Cells Q E (setContent s i x) := by
  refine cells_setContent (hx _ ?_) h
  have := h.1 i
  rw [← hc]
  exact this

/-- Some entries leave the list. -/
theorem cells_fewer {l : List WaitEntry} (hl : ∀ e ∈ l, e ∈ s.waitList) (h : Cells Q E s) :
    Cells Q E { s with waitList := l } := ⟨h.1, fun e he => h.2 e (hl e he)⟩

theorem cells_endEntry (e : WaitEntry) (how : WaitEnd) (h : Cells Q E s) : Cells Q E (endEntry s e how) :=
  cells_congr (s := { s with waitList := s.waitList.erase e }) rfl rfl
    (cells_fewer (fun _ he => List.mem_of_mem_erase he) h)

theorem cells_endUpgradeOf (k : Half) (h : Cells Q E s) : Cells Q E (endUpgradeOf s k) := by
  unfold endUpgradeOf
  split
  · exact cells_endEntry _ _ h
  · exact h

theorem cells_removeEntriesOf (p : Port) (h : Cells Q E s) : Cells Q E (removeEntriesOf s p) :=
  cells_fewer (fun _ he => List.mem_of_mem_filter he) h

theorem cells_foldl {α : Type} {f : State → α → State} (hf : ∀ s x, Cells Q E s → Cells Q E (f s x)) (l : List α)
    (h : Cells Q E s) : Cells Q E (l.foldl f s) := by
  induction l generalizing s with
  | nil => exact h
  | cons x l ih => exact ih (hf s x h)

variable (R : CellRules Q E)
include R

theorem CellRules.keeps_freeSlot (i : SlotId) (h : Cells Q E s) : Cells Q E (freeSlot s i) := by
  unfold freeSlot
  split
  · exact h
  · exact cells_congr rfl rfl (cells_setSlot (R.freed _ (h.1 i)) h)

theorem CellRules.keeps_dropEntry (e : WaitEntry) (how : WaitEnd) (h : Cells Q E s) : Cells Q E (dropEntry s e how) := by
  have he := cells_endEntry e how h
  unfold dropEntry freeClaimSlot
  split
  · exact R.keeps_freeSlot _ he
  · exact he

theorem CellRules.keeps_grantEntry {e : WaitEntry} (he : E e) (h : Cells Q E s) : Cells Q E (grantEntry s e) := by
  unfold grantEntry
  split
  · exact h
  · exact cells_congr rfl rfl (cells_setContent (R.granted e _ he (h.1 _)) h)

/-- The pass of a scan over entries that all have the property. -/
theorem CellRules.keeps_scanPass {x : Pass} {es : List WaitEntry} (hx : Cells Q E x.state) (hs : ∀ e ∈ x.stay, E e)
    (he : ∀ e ∈ es, E e) : Cells Q E (scanPass x es).state ∧ ∀ e ∈ (scanPass x es).stay, E e := by
  induction es generalizing x with
  | nil => exact ⟨hx, hs⟩
  | cons e es ih =>
    obtain ⟨h1, h2⟩ := List.forall_mem_cons.1 he
    unfold scanPass
    split
    · exact ih (R.keeps_grantEntry h1 hx) hs h2
    · refine ih hx ?_ h2
      intro o ho
      rcases List.mem_append.1 ho with ho | ho
      · exact hs o ho
      · exact List.mem_singleton.1 ho ▸ h1

theorem CellRules.keeps_grantScan (h : Cells Q E s) : Cells Q E (grantScan s) := by
  obtain ⟨h1, h2⟩ := R.keeps_scanPass (x := ⟨s, [], []⟩) h (by simp) h.2
  have c := contendStep_foldl (scanPass ⟨s, [], []⟩ s.waitList).granted
    { (scanPass ⟨s, [], []⟩ s.waitList).state with waitList := (scanPass ⟨s, [], []⟩ s.waitList).stay }
  exact cells_congr c.table c.waitList ⟨h1.1, h2⟩

theorem CellRules.keeps_revokeSlot {i : SlotId} {c : Claimed} {l : Lease} {n : Nat}
    (hc : (slotAt s i).content = .held c l n) (h : Cells Q E s) : Cells Q E (revokeSlot s i c l) :=
  cells_endUpgradeOf _ (cells_congr rfl rfl (cells_setHeld hc (fun g => R.lapsed g c l n .revoked) h))

theorem CellRules.keeps_withdrawSlot (i : SlotId) (h : Cells Q E s) : Cells Q E (withdrawSlot s i) := by
  unfold withdrawSlot
  split
  · exact R.keeps_freeSlot i (cells_endEntry _ _ h)
  · exact R.keeps_freeSlot i h

theorem CellRules.keeps_emptied (p : Port) (h : Cells Q E s) : Cells Q E (emptied s p) := by
  have hf : Cells Q E (freeSlotsOf s p) := cells_foldl (fun s i hs => by split; exacts [R.keeps_freeSlot i hs, hs]) _ h
  exact cells_congr (s := removeEntriesOf (freeSlotsOf s p) p) (by simp [emptied]) (by simp [emptied])
    (cells_removeEntriesOf p hf)

theorem CellRules.keeps_teardown (p : Port) (h : Cells Q E s) : Cells Q E (teardown s p) := by
  rw [teardown_eq, closeJob_eq]
  exact R.keeps_grantScan (cells_congr (s := emptied s p) (by simp) (by simp) (R.keeps_emptied p h))

theorem CellRules.keeps_lapseSlot (i : SlotId) (h : Cells Q E s) : Cells Q E (lapseSlot s i) := by
  unfold lapseSlot
  split
  · next c l hc =>
    exact cells_endUpgradeOf _ (cells_congr rfl rfl (cells_setHeld hc (fun g => R.lapsed g c l 0 .expired) h))
  · exact h

theorem CellRules.keeps_lapses (h : Cells Q E s) : Cells Q E (lapses s) := cells_foldl (fun _ i hs => R.keeps_lapseSlot i hs) _ h

theorem CellRules.keeps_warnings (h : Cells Q E s) : Cells Q E (warnings s) := by
  refine cells_foldl (fun s i hs => ?_) _ h
  unfold warnSlot
  split
  · split
    · next c l n hc => exact cells_congr rfl rfl (cells_setHeld hc (fun g => R.warned g c l n) hs)
    · exact hs
  · exact hs

theorem CellRules.keeps_expiries (l : List WaitEntry) (h : Cells Q E s) : Cells Q E (l.foldl expireEntry s) :=
  cells_foldl (fun _ e hs => R.keeps_dropEntry e .timedOut hs) l h

theorem CellRules.keeps_resetBlocks (x : Params) (c : Clock) (h : Cells Q E s) : Cells Q E (resetBlocks s x c) := by
  refine ⟨fun i => ?_, by simp [resetBlocks]⟩
  have hi : slotAt (resetBlocks s x c) i = resetSlot (slotAt s i) := by
    simp [slotAt, resetBlocks, resetTable]
  rw [hi]
  unfold resetSlot
  split
  · exact h.1 i
  · exact R.freed _ (h.1 i)

end Ops

/-! ### Queueing -/

theorem table_contendHolders (s : State) (p : Port) (m : Mode) (r : Range) :
    (contendHolders s p m r).table = s.table ∧ (contendHolders s p m r).waitList = s.waitList ∧
      (contendHolders s p m r).sessions = s.sessions := by
  unfold contendHolders
  generalize allPorts.filter _ = l
  induction l generalizing s with
  | nil => exact ⟨rfl, rfl, rfl⟩
  | cons q l ih => exact ih (raiseContended s q)

/-- R58: what the queueing of an entry leaves of the table, the list and the sessions. -/
theorem table_appendEntry (s : State) (e : WaitEntry) :
    (appendEntry s e).table = s.table ∧ (appendEntry s e).waitList = s.waitList ++ [e] ∧
      (appendEntry s e).sessions = (reservePlace s e.port (.entry e.ticket)).sessions :=
  table_contendHolders _ _ _ _

theorem cells_appendEntry {Q : Slot → Prop} {E : WaitEntry → Prop} {s : State} {e : WaitEntry} (he : E e)
    (h : Cells Q E s) : Cells Q E (appendEntry s e) := by
  obtain ⟨ht, hw, -⟩ := table_appendEntry s e
  refine cells_congr (s := { s with waitList := s.waitList ++ [e] }) ht hw ⟨h.1, fun o ho => ?_⟩
  rcases List.mem_append.1 ho with ho | ho
  · exact h.2 o ho
  · exact List.mem_singleton.1 ho ▸ he

/-! ### The acts of the owners -/

/-- The commands that make or change records and entries keep the properties, as long as the parameters have `K`. -/
structure ActRules (K : Params → Prop) (Q : Slot → Prop) (E : WaitEntry → Prop) : Prop extends CellRules Q E where
  claimed : ∀ x g p m r term label, K x → Q ⟨g, .free⟩ → WellFormed r → TermAllowed x term →
    Q ⟨g, .held ⟨p, m, r, label⟩ ⟨term, 0, false⟩ term⟩ ∧ Q ⟨g, .reserved ⟨p, m, r, label⟩⟩
  waits   : ∀ x h p m r term label wait tag, K x → WellFormed r → TermAllowed x term → 1 ≤ wait → wait ≤ x.maxWait →
    E ⟨h, p, .claim term label, m, r, wait, tag⟩
  renewed : ∀ x g c l n term, K x → Q ⟨g, .held c l n⟩ →
    (term = min l.term x.maxTerm ∨ 1 ≤ term ∧ term ≤ x.maxTerm) →
    Q ⟨g, .held c ⟨term, oneMoreRenewal l.renewals, false⟩ term⟩
  mode    : ∀ g c l n m, Q ⟨g, .held c l n⟩ → Q ⟨g, .held { c with mode := m } l n⟩
  trimmed : ∀ g c l n r, WellFormed r → Q ⟨g, .held c l n⟩ → Q ⟨g, .held { c with range := r } l n⟩
  upgrade : ∀ x g h p c l n wait tag, K x → Q ⟨g, .held c l n⟩ → 1 ≤ wait → wait ≤ x.maxWait →
    E ⟨h, p, .upgrade, .exclusive, c.range, wait, tag⟩

theorem ActRules.keeps_ownerAct {K : Params → Prop} {Q : Slot → Prop} {E : WaitEntry → Prop} (R : ActRules K Q E) {p : Port}
    {s t : State} (a : OwnerAct p s t) (hk : K s.params) (h : Cells Q E s) : Cells Q E t := by
  have free : ∀ {i}, (slotAt s i).content = .free → Q ⟨(slotAt s i).gen, .free⟩ := fun {i} hf => hf ▸ h.1 i
  cases a with
  | kept t ht =>
    obtain ⟨h1, h2, -⟩ := holdings_ext ht
    exact cells_congr h1 h2 h
  | tornDown => exact R.keeps_teardown p h
  | claimGranted m r term label i _ hr ht _ _ hf =>
    exact cells_congr rfl rfl (cells_setContent (R.claimed _ _ p m r term label hk (free hf) hr ht).1 h)
  | claimQueued m r term label i wait tag _ hr ht hw _ _ hf =>
    refine cells_appendEntry (R.waits _ _ _ _ _ _ _ _ _ hk hr ht hw.1 hw.2) ?_
    exact cells_congr rfl rfl (cells_setContent (R.claimed _ _ p m r term label hk (free hf) hr ht).2 h)
  | renewed i c l n term hc ht => exact cells_setHeld hc (fun g hq => R.renewed _ g c l n term hk hq ht) h
  | released i => exact R.keeps_grantScan (R.keeps_freeSlot i h)
  | freedLapsed i => exact R.keeps_freeSlot i h
  | downgraded i c l n hc => exact R.keeps_grantScan (cells_setHeld hc (fun g => R.mode g c l n .shared) h)
  | upgraded i c l n hc => exact cells_setHeld hc (fun g => R.mode g c l n .exclusive) h
  | upgradeQueued i c l n wait tag _ hc _ _ _ hw =>
    have hi := h.1 i
    refine cells_appendEntry (R.upgrade _ (slotAt s i).gen _ _ c l n wait tag hk ?_ hw.1 hw.2) h
    rw [← hc]
    exact hi
  | trimmed i c l n r hc _ hr => exact R.keeps_grantScan (cells_setHeld hc (fun g => R.trimmed g c l n r hr) h)
  | cancelled e => exact R.keeps_grantScan (R.keeps_dropEntry e .cancelled h)
  | jobAdmitted sides j =>
    obtain ⟨h1, h2, -⟩ := holdings_ext (holdings_chooseJob (reservePlace (s.setJob p (some j)) p .job))
    exact cells_congr h1 h2 h
  | revoked i c l n hc => exact R.keeps_grantScan (R.keeps_revokeSlot hc h)
  | withdrawn i => exact R.keeps_grantScan (R.keeps_withdrawSlot i h)
  | evicted q => exact cells_congr rfl rfl (R.keeps_teardown q h)
  | _ => exact cells_congr rfl rfl h

end Sys2Proof.Machine
end


section
/-! PROOFS. The generations, the wait list's length, the configuration, the leases, the ranges and the jobs stay in their
ranges (R1, R5, R48, R72, R79, R160, R174). -/

namespace Sys2Proof.Machine

/-! ### Parameters and the lease clock -/

theorem paramsOk_reset : ParamsOk Params.reset where
  tickLength := by decide
  maxTerm := by decide
  defaultTerm := by decide
  maxWait := by decide
  renewLimit := by decide
  quota p := by cases p <;> decide

theorem clockOk_reset : ClockOk Clock.reset := ⟨by decide, by decide, by decide, nofun⟩

/-- R174: a value that its range test admits keeps the parameters in their ranges. -/
theorem paramsOk_setParam {x : Params} {v : Nat} {y : Param} (h : ParamsOk x) (hv : paramRangeOk x v y = true) :
    ParamsOk (setParam x v y) := by
  obtain ⟨h1, h2, h3, h4, h5, h6⟩ := h
  cases y with
  | quota p =>
    simp only [paramRangeOk, decide_eq_true_eq] at hv
    refine ⟨h1, h2, h3, h4, h5, fun q => ?_⟩
    simp only [setParam, PerPort.get_set]
    split
    · exact hv
    · exact h6 q
  | enforce => exact ⟨h1, h2, h3, h4, h5, h6⟩
  | tickLength =>
    simp only [paramRangeOk, Bool.and_eq_true, decide_eq_true_eq] at hv
    exact ⟨hv, h2, h3, h4, h5, h6⟩
  | maxTerm =>
    simp only [paramRangeOk, Bool.and_eq_true, decide_eq_true_eq] at hv
    exact ⟨h1, hv.1.2, ⟨h3.1, hv.2⟩, h4, h5, h6⟩
  | defaultTerm =>
    simp only [paramRangeOk, Bool.and_eq_true, decide_eq_true_eq] at hv
    exact ⟨h1, h2, hv, h4, h5, h6⟩
  | maxWait =>
    simp only [paramRangeOk, Bool.and_eq_true, decide_eq_true_eq] at hv
    exact ⟨h1, h2, h3, hv, h5, h6⟩
  | renewLimit =>
    simp only [paramRangeOk, decide_eq_true_eq] at hv
    exact ⟨h1, h2, h3, h4, hv, h6⟩

theorem clockOk_setParamClock {c : Clock} {x : Params} {v : Nat} {y : Param} (h : ClockOk c)
    (hv : paramRangeOk x v y = true) : ClockOk (setParamClock c v y) := by
  cases y with
  | tickLength =>
    simp only [paramRangeOk, Bool.and_eq_true, decide_eq_true_eq] at hv
    refine ⟨h.periodCount, h.baseCount, h.lengthInUse, fun n hn => ?_⟩
    cases hn
    exact hv
  | _ => exact h

/-- Of the parameters and the clock, an owner changes one parameter, within its range, and what this does to the
clock. -/
theorem configuration_ownerAct {p : Port} {s t : State} (a : OwnerAct p s t) :
    (t.params = s.params ∧ t.clock = s.clock) ∨
      ∃ v x, paramRangeOk s.params v x = true ∧ quotaInUse s v x = false ∧ t.params = setParam s.params v x ∧
        t.clock = setParamClock s.clock v x ∧ t.table = s.table ∧ t.sessions = s.sessions := by
  have kept : ∀ {u : State}, board u = board s → u.params = s.params ∧ u.clock = s.clock := fun hb =>
    ⟨params_of_board hb, clock_of_board hb⟩
  have torn : ∀ q, (teardown s q).params = s.params ∧ (teardown s q).clock = s.clock := fun q =>
    kept (u := { teardown s q with engine := s.engine }) (board_teardown s q)
  cases a with
  | configured v x hr hq => exact .inr ⟨_, _, hr, hq, rfl, rfl, rfl, rfl⟩
  | kept t ht =>
    obtain ⟨-, -, hc, -, hp, -⟩ := holdings_ext ht
    exact .inl ⟨hp, hc⟩
  | tornDown => exact .inl (torn p)
  | evicted q => exact .inl (torn q)
  | written x => exact .inl ⟨rfl, rfl⟩
  | jobAdmitted sides j =>
    obtain ⟨-, -, hc, -, hp, -⟩ := holdings_ext (holdings_chooseJob (reservePlace (s.setJob p (some j)) p .job))
    exact .inl ⟨hp, hc⟩
  | jobStopped => exact .inl ⟨rfl, rfl⟩
  | _ => exact .inl (kept (by simp))

theorem paramsOk_ownerAct {p : Port} {s t : State} (a : OwnerAct p s t) (h : ParamsOk s.params) :
    ParamsOk t.params := by
  rcases configuration_ownerAct a with ⟨hp, -⟩ | ⟨v, x, hr, -, hp, -⟩
  · exact hp ▸ h
  · exact hp ▸ paramsOk_setParam h hr

theorem configurationOk_ownerAct {p : Port} {s t : State} (a : OwnerAct p s t) (h : ConfigurationOk s) :
    ConfigurationOk t := by
  refine ⟨paramsOk_ownerAct a h.1, ?_⟩
  rcases configuration_ownerAct a with ⟨-, hc⟩ | ⟨v, x, hr, -, -, hc, -⟩
  · exact hc ▸ h.2
  · exact hc ▸ clockOk_setParamClock h.2 hr

/-- R72, R74: at the end of a tick the next one begins at count 0 with a length of 1 to 250. -/
theorem clockOk_nextTick {c : Clock} (hl : 1 ≤ c.lengthInUse ∧ c.lengthInUse ≤ 250)
    (hp : ∀ n, c.pendingLength = some n → 1 ≤ n ∧ n ≤ 250) : ClockOk (nextTick c) := by
  have h : 1 ≤ (nextTick c).lengthInUse ∧ (nextTick c).lengthInUse ≤ 250 := by
    unfold nextTick
    cases hc : c.pendingLength with
    | none => exact hl
    | some n => exact hp n hc
  exact ⟨by simp [nextTick], h.1, h.2, nofun⟩

theorem length_of_clockOk {c : Clock} (h : ClockOk c) : 1 ≤ c.lengthInUse ∧ c.lengthInUse ≤ 250 :=
  ⟨by have := h.baseCount; omega, h.lengthInUse⟩

theorem params_endTick (s : State) : (endTick s).params = s.params := by
  simp only [endTick, settleNotices_params, params_of_board (board_tickLocks s)]

theorem clock_endTick (s : State) : (endTick s).clock = nextTick s.clock := by
  simp only [endTick, settleNotices_clock, clock_of_board (board_tickLocks s)]

theorem configurationOk_period {s : State} (h : ConfigurationOk s) : ConfigurationOk (clkinPeriod s) := by
  obtain ⟨hp, hc⟩ := h
  have hl := length_of_clockOk hc
  unfold clkinPeriod
  simp only
  split
  · next hn => exact ⟨hp, hn, hc.baseCount, hc.lengthInUse, hc.pending⟩
  · split
    · next hn => exact ⟨hp, by change 0 < 1600; decide, hn, hc.lengthInUse, hc.pending⟩
    · exact ⟨by rw [params_endTick]; exact hp, by rw [clock_endTick]; exact clockOk_nextTick hl hc.pending⟩

theorem rules_configuration : StepRules (fun _ => True) ConfigurationOk where
  congr ht h := by
    obtain ⟨-, -, hc, -, hp, -⟩ := holdings_ext ht
    exact ⟨hp ▸ h.1, hc ▸ h.2⟩
  preCongr _ h := h
  takes _ _ tag args _ ha h := configurationOk_ownerAct (ownerTakes_act tag args ha) h
  restart _ h := ⟨h.1, by change 0 < 1600; decide, h.1.tickLength.1, h.1.tickLength.2, nofun⟩
  powerUp _ _ ht := by cases ht; exact ⟨paramsOk_reset, clockOk_reset⟩
  assertReset _ h := h
  releaseReset _ _ := ⟨paramsOk_reset, clockOk_reset⟩
  clear s _ h := by
    have hl := length_of_clockOk h.2
    unfold clearPage
    simp only
    split
    · exact h
    · exact ⟨h.1, by change 0 < 1600; decide, hl.1, hl.2, h.2.pending⟩
  period s _ h := configurationOk_period h
  tick s _ h := by
    refine ⟨by rw [params_endTick]; exact h.1, ?_⟩
    rw [clock_endTick]
    exact clockOk_nextTick (length_of_clockOk h.2) h.2.pending
  lapse s i _ h _ := by
    rw [ConfigurationOk, params_of_board (board_lapseSlot s i), clock_of_board (board_lapseSlot s i)]
    exact h
  expire s e _ h _ := by
    rw [ConfigurationOk, params_of_board (board_expireEntry s e), clock_of_board (board_expireEntry s e)]
    exact h
  page s p j _ _ h := by
    unfold servePageStep
    split
    · exact h
    · exact h
    · simp only
      split <;> exact h

/-! ### Properties of each slot and each entry, by the rules of a step -/

theorem slotAt_powerUp {s t : State} (h : execPowerUp s = .next t) (i : SlotId) :
    slotAt t i = { gen := 1, content := .free } := by
  have ht : t.table = Table.reset := by
    simp only [execPowerUp, Host.Outcome.next.injEq] at h
    rw [← h]
    rfl
  simp only [slotAt, ht]
  exact List.getElem_replicate _

theorem waitList_powerUp {s t : State} (h : execPowerUp s = .next t) : t.waitList = [] := by
  cases h; rfl

/-- What a page step leaves of the table and the list. -/
theorem table_servePageStep (s : State) (p : Port) (j : Job) :
    (servePageStep s p j).table = s.table ∧ (servePageStep s p j).waitList = s.waitList ∧
      (servePageStep s p j).params = s.params := by
  unfold servePageStep
  split
  · exact ⟨rfl, rfl, rfl⟩
  · exact ⟨rfl, rfl, rfl⟩
  · simp only
    split <;> exact ⟨rfl, rfl, rfl⟩

theorem table_clearPage (s : State) : (clearPage s).table = s.table ∧ (clearPage s).waitList = s.waitList ∧
    (clearPage s).params = s.params ∧ (clearPage s).sessions = s.sessions ∧ (clearPage s).engine = s.engine := by
  unfold clearPage
  simp only
  split <;> exact ⟨rfl, rfl, rfl, rfl, rfl⟩

/-- Properties of each slot and each entry that the operations and a tick keep are kept by every step. -/
theorem ActRules.stepRules {K : Params → Prop} {Q : Slot → Prop} {E : WaitEntry → Prop} (R : ActRules K Q E)
    (keepK : ∀ {p s t}, OwnerAct p s t → K s.params → K t.params) (resetK : K Params.reset)
    (fresh : Q { gen := 1, content := .free })
    (tick : ∀ s, Cells Q E s → Cells Q E (endTick s)) :
    StepRules (fun _ => True) fun s => K s.params ∧ Cells Q E s where
  congr ht h := by
    obtain ⟨h1, h2, -, -, h5, -⟩ := holdings_ext ht
    exact ⟨h5 ▸ h.1, cells_congr h1 h2 h.2⟩
  preCongr _ h := h
  takes _ _ tag args _ ha h :=
    ⟨keepK (ownerTakes_act tag args ha) h.1, R.keeps_ownerAct (ownerTakes_act tag args ha) h.1 h.2⟩
  restart s h := ⟨h.1, R.keeps_resetBlocks _ _ (cells_congr (s := s) rfl rfl h.2)⟩
  powerUp s t ht := by
    refine ⟨?_, fun i => slotAt_powerUp ht i ▸ fresh, by simp [waitList_powerUp ht]⟩
    cases ht
    exact resetK
  assertReset _ h := ⟨h.1, cells_congr rfl rfl h.2⟩
  releaseReset s h := ⟨resetK, cells_congr (s := resetBlocks s .reset .reset) rfl rfl (R.keeps_resetBlocks _ _ h.2)⟩
  clear s _ h := by
    obtain ⟨h1, h2, h3, -⟩ := table_clearPage s
    exact ⟨h3 ▸ h.1, cells_congr h1 h2 h.2⟩
  period := period_of_tick (fun _ _ h => ⟨h.1, cells_congr rfl rfl h.2⟩) (fun _ _ h => h) fun s _ h =>
    ⟨by rw [params_endTick]; exact h.1, tick s h.2⟩
  tick s _ h := ⟨by rw [params_endTick]; exact h.1, tick s h.2⟩
  lapse s i _ h _ := ⟨by rw [params_of_board (board_lapseSlot s i)]; exact h.1, R.keeps_lapseSlot i h.2⟩
  expire s e _ h _ := ⟨by rw [params_of_board (board_expireEntry s e)]; exact h.1, R.keeps_dropEntry e .timedOut h.2⟩
  page s p j _ _ h := by
    obtain ⟨h1, h2, h3⟩ := table_servePageStep s p j
    exact ⟨h3 ▸ h.1, cells_congr h1 h2 h.2⟩

/-! ### A tick -/

theorem slotAt_countdown (s : State) (i : SlotId) : slotAt (countdown s) i = countdownSlot (slotAt s i) := by
  simp [slotAt, countdown]

/-- Steps 1 and 4 of a tick count every record and every entry down. -/
theorem cells_countdown {Q Q' : Slot → Prop} {E : WaitEntry → Prop} {s : State}
    (hq : ∀ x, Q x → Q' (countdownSlot x)) (h : Cells Q E s) : Cells Q' E (countdown s) :=
  ⟨fun i => by rw [slotAt_countdown]; exact hq _ (h.1 i), h.2⟩

theorem cells_countWaits {Q : Slot → Prop} {E E' : WaitEntry → Prop} {s : State}
    (he : ∀ e, E e → E' { e with waitRemaining := e.waitRemaining - 1 }) (h : Cells Q E s) :
    Cells Q E' (countWaits s) := by
  refine ⟨h.1, fun e hm => ?_⟩
  obtain ⟨o, ho, rfl⟩ := List.mem_map.1 hm
  exact he o (h.2 o ho)

theorem table_endTick (s : State) :
    (endTick s).table = (tickLocks s).table ∧ (endTick s).waitList = (tickLocks s).waitList ∧
      (endTick s).sessions = (tickLocks s).sessions := by
  simp only [endTick, settleNotices_table, settleNotices_waitList, settleNotices_sessions, and_self]

/-- Step 5 of a tick. -/
theorem CellRules.keeps_tickScan {Q : Slot → Prop} {E : WaitEntry → Prop} (R : CellRules Q E) {s : State}
    (h : Cells Q E (waitExpiries (lapses (warnings (countdown s))))) : Cells Q E (endTick s) := by
  obtain ⟨h1, h2, -⟩ := table_endTick s
  refine cells_congr h1 h2 ?_
  unfold tickLocks
  simp only
  split
  · exact R.keeps_grantScan h
  · exact h

/-- A property that the counting keeps as well is kept by a tick. -/
theorem CellRules.keeps_tick {Q : Slot → Prop} {E : WaitEntry → Prop} (R : CellRules Q E)
    (hq : ∀ x, Q x → Q (countdownSlot x)) (he : ∀ e, E e → E { e with waitRemaining := e.waitRemaining - 1 })
    (s : State) (h : Cells Q E s) : Cells Q E (endTick s) :=
  R.keeps_tickScan (R.keeps_expiries _ (cells_countWaits he (R.keeps_lapses (R.keeps_warnings (cells_countdown hq h)))))

/-! ### Generations (R5) -/

theorem nextGen_ne_zero (g : Byte) : nextGen g ≠ 0 := by
  unfold nextGen
  split
  · decide
  · next hg =>
    intro hz
    apply hg
    rw [← sub_eq_iff_eq_add.2 hz.symm]
    decide

theorem gen_countdownSlot (x : Slot) : (countdownSlot x).gen = x.gen := by
  unfold countdownSlot; split <;> rfl

theorem rules_generation : ActRules (fun _ => True) (fun x => x.gen ≠ 0) (fun _ => True) where
  freed _ _ := nextGen_ne_zero _
  granted _ _ _ h := h
  lapsed _ _ _ _ _ h := h
  warned _ _ _ _ h := h
  claimed _ _ _ _ _ _ _ _ h _ _ := ⟨h, h⟩
  waits _ _ _ _ _ _ _ _ _ _ _ _ _ _ := trivial
  renewed _ _ _ _ _ _ _ h _ := h
  mode _ _ _ _ _ h := h
  trimmed _ _ _ _ _ _ h := h
  upgrade _ _ _ _ _ _ _ _ _ _ _ _ _ := trivial

theorem stepRules_generation :
    StepRules (fun _ => True) fun s => True ∧ Cells (fun x => x.gen ≠ 0) (fun _ => True) s :=
  rules_generation.stepRules (fun _ _ => trivial) trivial (by decide)
    (rules_generation.keeps_tick (fun x h => by rw [gen_countdownSlot]; exact h) fun _ _ => trivial)

theorem generationsOk_step {s t : State} (h : GenerationsOk s) (ht : step s = .next t) : GenerationsOk t :=
  (stepRules_generation.keeps_step trivial ⟨trivial, h, fun _ _ => trivial⟩ ht).2.1

/-! ### Ranges (R1) -/

/-- R1: the range of a slot's record is well-formed. -/
def RangeOk (x : Slot) : Prop := ∀ c, x.content.claimed = some c → WellFormed c.range

theorem rangesOk_iff {s : State} : RangesOk s ↔ Cells RangeOk (fun e => WellFormed e.range) s :=
  ⟨fun h => ⟨h.records, h.entries⟩, fun h => ⟨h.1, h.2⟩⟩

theorem rangeOk_held {g : Byte} {c : Claimed} {l : Lease} {n : Nat} :
    RangeOk ⟨g, .held c l n⟩ ↔ WellFormed c.range := by simp [RangeOk, Content.claimed]

theorem rangeOk_granted {e : WaitEntry} {x : Slot} (h : RangeOk x) :
    RangeOk { x with content := grantedContent e x.content } := by
  intro c hc
  have hx : ∃ d, x.content.claimed = some d ∧ d.range = c.range := by
    obtain ⟨g, y⟩ := x
    cases hk : e.kind <;> cases y <;> simp only [grantedContent, hk, Content.claimed, Option.some.injEq] at hc ⊢ <;>
      first
      | exact ⟨_, rfl, congrArg Claimed.range hc⟩
      | cases hc; exact ⟨_, rfl, rfl⟩
      | cases hc
  obtain ⟨d, hd, hr⟩ := hx
  exact hr ▸ h d hd

theorem rangeOk_countdown {x : Slot} (h : RangeOk x) : RangeOk (countdownSlot x) := by
  obtain ⟨g, y⟩ := x
  cases y <;> exact h

theorem rules_range : ActRules (fun _ => True) RangeOk (fun e => WellFormed e.range) where
  freed _ _ _ hc := nomatch hc
  granted _ _ _ h := rangeOk_granted h
  lapsed _ _ _ _ _ h := h
  warned _ _ _ _ h := h
  claimed _ _ _ _ _ _ _ _ _ hr _ := by simp [RangeOk, Content.claimed, hr]
  waits _ _ _ _ _ _ _ _ _ _ hr _ _ _ := hr
  renewed _ _ _ _ _ _ _ h _ := h
  mode g c l n m h := by rw [rangeOk_held] at h ⊢; exact h
  trimmed _ _ _ _ _ hr _ := rangeOk_held.2 hr
  upgrade _ _ _ _ _ _ _ _ _ _ h _ _ := rangeOk_held.1 h

theorem rangesOk_step {s t : State} (h : RangesOk s) (ht : step s = .next t) : RangesOk t := by
  have R := rules_range.stepRules (fun _ _ => trivial) trivial (fun _ hc => nomatch hc)
    (rules_range.keeps_tick (fun _ hx => rangeOk_countdown hx) fun _ he => he)
  exact rangesOk_iff.2 (R.keeps_step trivial ⟨trivial, rangesOk_iff.1 h⟩ ht).2

/-! ### Leases and waits (R79, R10, Table 18) -/

/-- R10: a HELD record's counts are in their ranges, its remaining at least `least`. -/
def LeaseOk (least : Nat) (x : Slot) : Prop :=
  ∀ c l n, x.content = .held c l n → least ≤ n ∧ n ≤ l.term ∧ (1 ≤ l.term ∧ l.term ≤ 65535) ∧ l.renewals ≤ 255

/-- Table 18: an entry's counts are in their ranges, its wait remaining at least `least`. -/
def WaitOk (least : Nat) (e : WaitEntry) : Prop :=
  (least ≤ e.waitRemaining ∧ e.waitRemaining ≤ 65535) ∧
    ∀ term label, e.kind = .claim term label → 1 ≤ term ∧ term ≤ 65535

theorem leasesOk_iff {s : State} : LeasesOk s ↔ Cells (LeaseOk 1) (WaitOk 1) s := by
  constructor
  · intro h
    refine ⟨fun i c l n hc => ?_, fun e he => ⟨h.entries e he, h.terms e he⟩⟩
    obtain ⟨h1, h2, h3, h4⟩ := h.held i c l n hc
    exact ⟨h1, h2, ⟨by omega, h3⟩, h4⟩
  · intro h
    refine ⟨fun i c l n hc => ?_, fun e he => (h.2 e he).1, fun e he => (h.2 e he).2⟩
    obtain ⟨h1, h2, h3, h4⟩ := h.1 i c l n hc
    exact ⟨h1, h2, h3.2, h4⟩

theorem leaseOk_held {least : Nat} {g : Byte} {c : Claimed} {l : Lease} {n : Nat} :
    LeaseOk least ⟨g, .held c l n⟩ ↔
      least ≤ n ∧ n ≤ l.term ∧ (1 ≤ l.term ∧ l.term ≤ 65535) ∧ l.renewals ≤ 255 :=
  ⟨fun h => h c l n rfl, fun h _ _ _ hc => by cases hc; exact h⟩

theorem leaseOk_granted {least : Nat} (hl : least ≤ 1) {e : WaitEntry} {x : Slot} (he : WaitOk 0 e)
    (h : LeaseOk least x) : LeaseOk least { x with content := grantedContent e x.content } := by
  obtain ⟨g, y⟩ := x
  cases hk : e.kind with
  | claim term label =>
    cases y with
    | reserved c =>
      have ht := he.2 term label hk
      simp only [grantedContent, hk]
      exact leaseOk_held.2 ⟨by omega, le_refl _, ht, Nat.zero_le _⟩
    | _ => simpa only [grantedContent, hk] using h
  | upgrade =>
    cases y with
    | held c l n =>
      simp only [grantedContent, hk]
      exact leaseOk_held.2 (leaseOk_held.1 h)
    | _ => simpa only [grantedContent, hk] using h

theorem term_allowed_range {x : Params} (hx : ParamsOk x) {term : Nat} (h : TermAllowed x term) :
    1 ≤ term ∧ term ≤ 65535 := by
  have hm := hx.maxTerm
  have hd := hx.defaultTerm
  rcases h with rfl | h <;> omega

theorem renewals_le {n : Nat} : oneMoreRenewal n ≤ 255 := by
  rw [oneMoreRenewal_eq_min]; exact min_le_left _ _

theorem cellRules_lease {least : Nat} (hl : least ≤ 1) (wait : Nat) : CellRules (LeaseOk least) (WaitOk wait) where
  freed _ _ _ _ _ hc := nomatch hc
  granted e x he h := leaseOk_granted hl ⟨⟨Nat.zero_le _, he.1.2⟩, he.2⟩ h
  lapsed _ _ _ _ _ _ _ _ _ hc := nomatch hc
  warned g c l n h := by rw [leaseOk_held] at h ⊢; exact h

theorem rules_lease : ActRules ParamsOk (LeaseOk 1) (WaitOk 1) where
  toCellRules := cellRules_lease le_rfl 1
  claimed x g p m r term label hx _ _ ht := by
    have h := term_allowed_range hx ht
    exact ⟨leaseOk_held.2 ⟨h.1, le_refl _, h, Nat.zero_le _⟩, fun _ _ _ hc => nomatch hc⟩
  waits x h p m r term label wait tag hx _ ht hw1 hw2 := by
    refine ⟨⟨hw1, hw2.trans hx.maxWait.2⟩, fun t l hk => ?_⟩
    cases hk
    exact term_allowed_range hx ht
  renewed x g c l n term hx h ht := by
    obtain ⟨-, -, h3, -⟩ := leaseOk_held.1 h
    have hm := hx.maxTerm
    have hd := hx.defaultTerm
    have hterm : 1 ≤ term ∧ term ≤ 65535 := by omega
    exact leaseOk_held.2 ⟨hterm.1, le_refl _, hterm, renewals_le⟩
  mode _ _ _ _ _ h := leaseOk_held.2 (leaseOk_held.1 h)
  trimmed _ _ _ _ _ _ h := leaseOk_held.2 (leaseOk_held.1 h)
  upgrade x g h p c l n wait tag hx _ hw1 hw2 := ⟨⟨hw1, hw2.trans hx.maxWait.2⟩, nofun⟩

theorem leaseOk_countdown {x : Slot} (h : LeaseOk 1 x) : LeaseOk 0 (countdownSlot x) := by
  obtain ⟨g, y⟩ := x
  cases y with
  | held c l n =>
    obtain ⟨h1, h2, h3⟩ := leaseOk_held.1 h
    exact leaseOk_held.2 ⟨Nat.zero_le _, by omega, h3⟩
  | _ => exact fun _ _ _ hc => nomatch hc

/-- The slots that step 3 of a tick has come to have no record with remaining 0. -/
theorem notDue_lapseSlot (s : State) (i j : SlotId) (h : lapseDue s j = false ∨ j = i) :
    lapseDue (lapseSlot s i) j = false := by
  have other : ∀ {t : State}, slotAt t j = slotAt s j → lapseDue s j = false → lapseDue t j = false := by
    intro t ht hd
    simpa only [lapseDue, ht] using hd
  unfold lapseSlot
  split
  · next c l hc =>
    have ht : ∀ t : State, slotAt (endUpgradeOf t (slotHandle s i)) j = slotAt t j := by
      intro t
      unfold endUpgradeOf
      split <;> rfl
    by_cases hj : j = i
    · subst hj
      simp [lapseDue, ht, raiseLeaseLost]
    · exact other (by rw [ht]; simp [raiseLeaseLost, hj]) (h.resolve_right hj)
  · next hn =>
    rcases h with h | rfl
    · exact h
    · unfold lapseDue
      split
      · next c l hc => exact absurd hc (hn c l)
      · rfl

theorem notDue_lapses (s : State) (i : SlotId) : lapseDue (lapses s) i = false := by
  have all : ∀ (l : List SlotId) (t : State), (lapseDue t i = false ∨ i ∈ l) →
      lapseDue (l.foldl lapseSlot t) i = false := by
    intro l
    induction l with
    | nil => intro t h; exact h.resolve_right (List.not_mem_nil)
    | cons j l ih =>
      intro t h
      refine ih _ ?_
      rcases h with h | h
      · exact .inl (notDue_lapseSlot t j i (.inl h))
      · rcases List.mem_cons.1 h with rfl | h
        · exact .inl (notDue_lapseSlot t i i (.inr rfl))
        · exact .inr h
  exact all _ s (.inr (mem_allSlots i))

theorem waitList_freeSlot_eq (s : State) (i : SlotId) : (freeSlot s i).waitList = s.waitList := by
  unfold freeSlot; split <;> rfl

theorem waitList_dropEntry (s : State) (e : WaitEntry) (how : WaitEnd) :
    (dropEntry s e how).waitList = s.waitList.erase e := by
  unfold dropEntry freeClaimSlot
  split
  · rw [waitList_freeSlot_eq]; rfl
  · rfl

/-- Step 4 of a tick removes the entries whose wait is over, each as often as it is listed. -/
theorem waitList_expiries (l : List WaitEntry) (s : State) :
    (l.foldl expireEntry s).waitList = s.waitList.diff l := by
  induction l generalizing s with
  | nil => simp
  | cons e l ih => rw [List.foldl_cons, ih, expireEntry, waitList_dropEntry, List.diff_cons]

theorem mem_waitExpiries {s : State} {e : WaitEntry} (h : e ∈ (waitExpiries s).waitList) :
    e ∈ (countWaits s).waitList ∧ e.waitRemaining ≠ 0 := by
  unfold waitExpiries at h
  simp only at h
  rw [waitList_expiries] at h
  refine ⟨List.diff_subset _ _ h, fun hz => ?_⟩
  have hc := List.count_pos_iff.2 h
  have hf : (expiredEntries (countWaits s)).count e = (countWaits s).waitList.count e := by
    rw [expiredEntries, List.count_filter (by simpa using hz)]
  rw [List.count_diff, hf] at hc
  omega

theorem leases_tick (s : State) (h : Cells (LeaseOk 1) (WaitOk 1) s) : Cells (LeaseOk 1) (WaitOk 1) (endTick s) := by
  have weak := cellRules_lease (least := 0) (Nat.zero_le _) 0
  have strong := cellRules_lease le_rfl 0
  have lowered : Cells (LeaseOk 0) (WaitOk 0) (countdown s) :=
    cells_mono (fun _ hx => hx) (fun _ he => ⟨⟨Nat.zero_le _, he.1.2⟩, he.2⟩)
      (cells_countdown (fun _ hx => leaseOk_countdown hx) h)
  have lapsed := weak.keeps_lapses (weak.keeps_warnings lowered)
  have running : Cells (LeaseOk 1) (WaitOk 0) (lapses (warnings (countdown s))) := by
    refine ⟨fun i c l n hc => ?_, lapsed.2⟩
    obtain ⟨-, hn⟩ := lapsed.1 i c l n hc
    refine ⟨Nat.one_le_iff_ne_zero.2 ?_, hn⟩
    rintro rfl
    have hd := notDue_lapses (warnings (countdown s)) i
    simp [lapseDue, hc] at hd
  have counted : Cells (LeaseOk 1) (WaitOk 0) (countWaits (lapses (warnings (countdown s)))) :=
    cells_countWaits (fun e he => ⟨⟨Nat.zero_le _, by have := he.1.2; dsimp only; omega⟩, he.2⟩) running
  have ended : Cells (LeaseOk 1) (WaitOk 0) (waitExpiries (lapses (warnings (countdown s)))) :=
    strong.keeps_expiries _ counted
  refine (cellRules_lease le_rfl 1).keeps_tickScan ⟨ended.1, fun e he => ?_⟩
  obtain ⟨hb, ht⟩ := ended.2 e he
  exact ⟨⟨Nat.one_le_iff_ne_zero.2 (mem_waitExpiries he).2, hb.2⟩, ht⟩

theorem leasesOk_step {s t : State} (hp : ParamsOk s.params) (h : LeasesOk s) (ht : step s = .next t) : LeasesOk t := by
  have R := rules_lease.stepRules paramsOk_ownerAct paramsOk_reset (fun _ _ _ hc => nomatch hc) leases_tick
  exact leasesOk_iff.2 (R.keeps_step trivial ⟨hp, leasesOk_iff.1 h⟩ ht).2

end Sys2Proof.Machine
end


section
/-! PROOFS. The length of the wait list (R48) and the pages of the jobs (R160) in every step; and the statements on counts
and ranges. -/

namespace Sys2Proof.Machine

/-! ### The ports of the wait list -/

/-- The wait list has come to hold some of the entries it held, as far as their ports go. -/
def FewerWaits (s t : State) : Prop := (t.waitList.map WaitEntry.port).Sublist (s.waitList.map WaitEntry.port)

theorem portWaits_eq_count (s : State) (p : Port) : portWaits s p = (s.waitList.map WaitEntry.port).count p := by
  rw [portWaits, List.count, List.countP_map, ← List.countP_eq_length_filter]
  rfl

theorem waitListOk_of_fewer {s t : State} (h : FewerWaits s t) (hs : WaitListOk s) : WaitListOk t := by
  refine ⟨?_, fun p => ?_⟩
  · have := h.length_le
    simp only [List.length_map] at this
    exact this.trans hs.1
  · rw [portWaits_eq_count]
    exact (h.count_le p).trans (portWaits_eq_count s p ▸ hs.2 p)

theorem FewerWaits.refl (s : State) : FewerWaits s s := List.Sublist.refl _

theorem FewerWaits.trans {s t u : State} (h : FewerWaits s t) (k : FewerWaits t u) : FewerWaits s u :=
  List.Sublist.trans k h

theorem fewerWaits_of_sublist {s t : State} (h : t.waitList.Sublist s.waitList) : FewerWaits s t := h.map _

theorem fewerWaits_of_eq {s t : State} (h : t.waitList = s.waitList) : FewerWaits s t :=
  fewerWaits_of_sublist (h ▸ List.Sublist.refl _)

theorem fewerWaits_grantScan (s : State) : FewerWaits s (grantScan s) :=
  fewerWaits_of_sublist (grantScan_scanned s).entries

theorem fewerWaits_freeSlot (s : State) (i : SlotId) : FewerWaits s (freeSlot s i) :=
  fewerWaits_of_eq (waitList_freeSlot_eq s i)

theorem fewerWaits_endEntry (s : State) (e : WaitEntry) (how : WaitEnd) : FewerWaits s (endEntry s e how) :=
  fewerWaits_of_sublist List.erase_sublist

theorem fewerWaits_dropEntry (s : State) (e : WaitEntry) (how : WaitEnd) : FewerWaits s (dropEntry s e how) :=
  fewerWaits_of_sublist (waitList_dropEntry s e how ▸ List.erase_sublist)

theorem fewerWaits_endUpgradeOf (s : State) (k : Half) : FewerWaits s (endUpgradeOf s k) := by
  unfold endUpgradeOf
  split
  · exact fewerWaits_endEntry s _ _
  · exact .refl s

theorem fewerWaits_foldl {α : Type} {f : State → α → State} (hf : ∀ s x, FewerWaits s (f s x)) (l : List α)
    (s : State) : FewerWaits s (l.foldl f s) := by
  induction l generalizing s with
  | nil => exact .refl s
  | cons x l ih => exact (hf s x).trans (ih _)

theorem waitList_freeSlotsOf (s : State) (p : Port) : (freeSlotsOf s p).waitList = s.waitList := by
  unfold freeSlotsOf
  generalize allSlots = l
  induction l generalizing s with
  | nil => rfl
  | cons i l ih =>
    rw [List.foldl_cons, ih]
    split
    · exact waitList_freeSlot_eq s i
    · rfl

theorem waitList_emptied (s : State) (p : Port) :
    (emptied s p).waitList = s.waitList.filter fun e => !(e.port == p) := by
  simp only [emptied, State.modPort_waitList, State.modSession_waitList, removeEntriesOf, waitList_freeSlotsOf]

theorem fewerWaits_teardown (s : State) (p : Port) : FewerWaits s (teardown s p) := by
  have h : FewerWaits s (closeJob (emptied s p) p) := by
    refine fewerWaits_of_sublist ?_
    rw [closeJob_eq, State.setJob_waitList, waitList_emptied]
    exact List.filter_sublist
  rw [teardown_eq]
  exact h.trans (fewerWaits_grantScan _)

theorem fewerWaits_revokeSlot (s : State) (i : SlotId) (c : Claimed) (l : Lease) :
    FewerWaits s (revokeSlot s i c l) :=
  (fewerWaits_of_eq rfl).trans (fewerWaits_endUpgradeOf (raiseRevoked (setContent s i (.lapsed c l .revoked)) c.holder) _)

theorem fewerWaits_withdrawSlot (s : State) (i : SlotId) : FewerWaits s (withdrawSlot s i) := by
  unfold withdrawSlot
  split
  · exact (fewerWaits_endEntry s _ _).trans (fewerWaits_freeSlot _ i)
  · exact fewerWaits_freeSlot s i

theorem fewerWaits_lapseSlot (s : State) (i : SlotId) : FewerWaits s (lapseSlot s i) := by
  unfold lapseSlot
  split
  · next c l _ =>
    exact (fewerWaits_of_eq rfl).trans
      (fewerWaits_endUpgradeOf (raiseLeaseLost (setContent s i (.lapsed c l .expired)) c.holder) _)
  · exact .refl s

theorem fewerWaits_warnSlot (s : State) (i : SlotId) : FewerWaits s (warnSlot s i) := by
  unfold warnSlot
  split
  · split
    · exact fewerWaits_of_eq rfl
    · exact .refl s
  · exact .refl s

theorem fewerWaits_countWaits (s : State) : FewerWaits s (countWaits s) := by
  have h : (countWaits s).waitList.map WaitEntry.port = s.waitList.map WaitEntry.port := by
    simp [countWaits, Function.comp_def]
  rw [FewerWaits, h]

theorem fewerWaits_tickLocks (s : State) : FewerWaits s (tickLocks s) := by
  have lapsed : FewerWaits s (lapses (warnings (countdown s))) :=
    (fewerWaits_of_eq (t := countdown s) rfl).trans
      ((fewerWaits_foldl fewerWaits_warnSlot allSlots (countdown s)).trans
        (fewerWaits_foldl fewerWaits_lapseSlot allSlots _))
  have ended : FewerWaits s (waitExpiries (lapses (warnings (countdown s)))) :=
    lapsed.trans ((fewerWaits_countWaits _).trans
      (fewerWaits_foldl (fun s e => fewerWaits_dropEntry s e .timedOut) _ _))
  unfold tickLocks
  simp only
  split
  · exact ended.trans (fewerWaits_grantScan _)
  · exact ended

/-- R54: an entry that passes the queueing checks finds room in the list. -/
theorem room_of_queueRefusal {s : State} {p : Port} {m : Mode} {r : Range} (h : queueRefusal s p m r = none) :
    portWaits s p < 4 ∧ s.waitList.length < 12 ∧ placesUsed s p < 8 ∧ deadlockPort s p m r = none := by
  unfold queueRefusal at h
  split at h
  · cases h
  · next h1 =>
    split at h
    · cases h
    · next h2 =>
      split at h
      · cases h
      · next h3 =>
        exact ⟨not_le.1 h1, not_le.1 h2, not_le.1 h3, by simpa using h⟩

theorem waitListOk_append {s t : State} {e : WaitEntry} (hw : t.waitList = s.waitList ++ [e])
    (h4 : portWaits s e.port < 4) (h12 : s.waitList.length < 12) (h : WaitListOk s) : WaitListOk t := by
  refine ⟨by rw [hw, List.length_append]; simp only [List.length_singleton]; omega, fun q => ?_⟩
  have hq := h.2 q
  rw [portWaits_eq_count] at hq h4 ⊢
  rw [hw, List.map_append, List.count_append]
  by_cases hp : e.port = q
  · subst hp
    simp only [List.map_cons, List.map_nil, List.count_singleton, beq_self_eq_true, if_true]
    omega
  · simp only [List.map_cons, List.map_nil, List.count_singleton, beq_iff_eq, hp, if_false]
    omega

theorem waitListOk_ownerAct {p : Port} {s t : State} (a : OwnerAct p s t) (h : WaitListOk s) : WaitListOk t := by
  cases a with
  | kept t ht => exact waitListOk_of_fewer (fewerWaits_of_eq (holdings_ext ht).2.1) h
  | tornDown => exact waitListOk_of_fewer (fewerWaits_teardown s p) h
  | claimQueued m r term label i wait tag _ _ _ _ _ _ _ _ hn =>
    obtain ⟨h4, h12, -⟩ := room_of_queueRefusal hn
    obtain ⟨-, hw, -⟩ := table_appendEntry (allocate s p i (.reserved ⟨p, m, r, label⟩))
      ⟨slotHandle s i, p, .claim term label, m, r, wait, tag⟩
    exact waitListOk_append (s := s) hw h4 h12 h
  | upgradeQueued i c l n wait tag _ _ _ _ _ _ _ hn =>
    obtain ⟨h4, h12, -⟩ := room_of_queueRefusal hn
    obtain ⟨-, hw, -⟩ := table_appendEntry s ⟨slotHandle s i, p, .upgrade, .exclusive, c.range, wait, tag⟩
    exact waitListOk_append hw h4 h12 h
  | released i => exact waitListOk_of_fewer ((fewerWaits_freeSlot s i).trans (fewerWaits_grantScan _)) h
  | freedLapsed i => exact waitListOk_of_fewer (fewerWaits_freeSlot s i) h
  | downgraded => exact waitListOk_of_fewer ((fewerWaits_of_eq rfl).trans (fewerWaits_grantScan _)) h
  | trimmed => exact waitListOk_of_fewer ((fewerWaits_of_eq rfl).trans (fewerWaits_grantScan _)) h
  | cancelled e => exact waitListOk_of_fewer ((fewerWaits_dropEntry s e _).trans (fewerWaits_grantScan _)) h
  | revoked i c l => exact waitListOk_of_fewer ((fewerWaits_revokeSlot s i c l).trans (fewerWaits_grantScan _)) h
  | withdrawn i => exact waitListOk_of_fewer ((fewerWaits_withdrawSlot s i).trans (fewerWaits_grantScan _)) h
  | evicted q => exact waitListOk_of_fewer ((fewerWaits_teardown s q).trans (fewerWaits_of_eq rfl)) h
  | jobAdmitted sides j =>
    exact waitListOk_of_fewer (fewerWaits_of_eq
      (holdings_ext (holdings_chooseJob (reservePlace (s.setJob p (some j)) p .job))).2.1) h
  | _ => exact waitListOk_of_fewer (fewerWaits_of_eq rfl) h

theorem waitListOk_nil {t : State} (h : t.waitList = []) : WaitListOk t := by
  refine ⟨by simp [h], fun p => by simp [portWaits, h]⟩

theorem fewerWaits_endTick (s : State) : FewerWaits s (endTick s) :=
  (fewerWaits_tickLocks s).trans (fewerWaits_of_eq (table_endTick s).2.1)

theorem rules_waitList : StepRules (fun _ => True) WaitListOk where
  congr ht h := waitListOk_of_fewer (fewerWaits_of_eq (holdings_ext ht).2.1) h
  preCongr _ h := h
  takes _ _ tag args _ ha h := waitListOk_ownerAct (ownerTakes_act tag args ha) h
  restart _ _ := waitListOk_nil rfl
  powerUp _ _ ht := waitListOk_nil (waitList_powerUp ht)
  assertReset _ h := h
  releaseReset _ _ := waitListOk_nil rfl
  clear s _ h := waitListOk_of_fewer (fewerWaits_of_eq (table_clearPage s).2.1) h
  period := period_of_tick (fun _ _ h => h) (fun _ _ h => h) fun s _ h => waitListOk_of_fewer (fewerWaits_endTick s) h
  tick s _ h := waitListOk_of_fewer (fewerWaits_endTick s) h
  lapse s i _ h _ := waitListOk_of_fewer (fewerWaits_lapseSlot s i) h
  expire s e _ h _ := waitListOk_of_fewer (fewerWaits_dropEntry s e _) h
  page s p j _ _ h := waitListOk_of_fewer (fewerWaits_of_eq (table_servePageStep s p j).2.1) h

/-! ### The pages of the jobs -/

/-- R160: a job has pages left to do, all of them pages of the array. -/
def JobOk (j : Job) : Prop := j.pagesDone < j.count ∧ ∀ x ∈ jobSides j, x.range.first + x.range.count ≤ 4096

theorem jobsOk_of_jobs {s t : State} (h : ∀ p j, t.job p = some j → s.job p = some j ∨ JobOk j) (hs : JobsOk s) :
    JobsOk t := by
  intro p j hj
  rcases h p j hj with hk | hk
  · exact hs p j hk
  · exact hk

theorem jobsOk_of_eq {s t : State} (h : t.engine.jobs = s.engine.jobs) (hs : JobsOk s) : JobsOk t :=
  jobsOk_of_jobs (fun p j hj => .inl (by simpa only [State.job, h] using hj)) hs

theorem jobsOk_of_board {s t : State} (h : board t = board s) (hs : JobsOk s) : JobsOk t :=
  jobsOk_of_eq (by rw [engine_of_board h]) hs

/-- One place of the job table is replaced. -/
theorem jobsOk_set {s t : State} {p : Port} {j : Option Job} (h : t.engine.jobs = s.engine.jobs.set p j)
    (hj : ∀ k, j = some k → JobOk k) (hs : JobsOk s) : JobsOk t := by
  refine jobsOk_of_jobs (fun q k hk => ?_) hs
  simp only [State.job, h, PerPort.get_set] at hk
  split at hk
  · exact .inr (hj k hk)
  · exact .inl hk

/-- R98, R166: a stop request changes nothing of a job's pages. -/
theorem jobOk_withStop {j : Job} (r : StopRequest) (h : JobOk j) : JobOk { j with stop := r } := h

theorem jobsOk_teardown (p : Port) {s t : State} (h : t.engine = (teardown s p).engine) (hs : JobsOk s) :
    JobsOk t := by
  rw [engine_teardown] at h
  refine jobsOk_set (p := p) (congrArg Engine.jobs h) (fun k hk => ?_) hs
  obtain ⟨j, hj, rfl⟩ := Option.map_eq_some_iff.1 hk
  exact jobOk_withStop .closed (hs p j hj)

/-- Every job names a record, and the range on each side has the job's count. -/
theorem exists_jobSide (j : Job) : ∃ x, x ∈ jobSides j ∧ x.range.count = j.count := by
  unfold jobSides
  split <;> exact ⟨_, List.mem_cons_self .., rfl⟩

theorem admissionRefusal_none {s : State} {p : Port} {sides : List Side} (h : admissionRefusal s p sides = none) :
    (∀ x ∈ sides, WellFormed x.range) ∧ s.job p = none ∧ placesUsed s p < 8 := by
  unfold admissionRefusal at h
  split at h
  · cases h
  · next h1 =>
    split at h
    · cases h
    · next h2 =>
      split at h
      · cases h
      · split at h
        · cases h
        · split at h
          · cases h
          · split at h
            · cases h
            · split at h
              · cases h
              · next h3 =>
                refine ⟨fun x hx => ?_, by simpa using h2, not_le.1 h3⟩
                simp only [List.any_eq_true, Bool.not_eq_true', not_exists, not_and, Bool.not_eq_false] at h1
                exact (rangeOk_iff _).1 (h1 x hx)

/-- R160: a job that is admitted has pages of the array before it. -/
theorem jobOk_admitted {s : State} {p : Port} {j : Job} (h : admissionRefusal s p (jobSides j) = none)
    (hp : j.pagesDone = 0) : JobOk j := by
  obtain ⟨hr, -⟩ := admissionRefusal_none h
  obtain ⟨x, hx, hc⟩ := exists_jobSide j
  have h1 := (hr x hx).2.1
  exact ⟨by omega, fun y hy => (hr y hy).2.2.2⟩

theorem jobsOk_ownerAct {p : Port} {s t : State} (a : OwnerAct p s t) (h : JobsOk s) : JobsOk t := by
  cases a with
  | kept t ht => exact jobsOk_of_eq (holdings_ext ht).2.2.2.2.2.2 h
  | tornDown => exact jobsOk_teardown p rfl h
  | evicted q => exact jobsOk_teardown q (engine_of_board (board_setEvicted (teardown s q) q)) h
  | written => exact h
  | configured => exact h
  | jobAdmitted sides j _ hn hs hj =>
    have hb := (holdings_ext (holdings_chooseJob (reservePlace (s.setJob p (some j)) p .job))).2.2.2.2.2.2
    refine jobsOk_set (p := p) (j := some j) hb (fun k hk => ?_) h
    cases hk
    exact jobOk_admitted (hs ▸ hn) hj.1
  | jobStopped j _ hj =>
    refine jobsOk_set (p := p) (j := some { j with stop := .host }) rfl (fun k hk => ?_) h
    cases hk
    exact jobOk_withStop .host (h p j hj)
  | _ => exact jobsOk_of_board (by simp) h

theorem jobSides_stepJob (m : Memory) (j : Job) : jobSides (stepJob m j) = jobSides j := by
  unfold jobSides stepJob
  cases j.work <;> rfl

/-- R164: a page step leaves the job ended or with pages left. -/
theorem jobsOk_servePageStep {s : State} {p : Port} {j : Job} (hj : s.job p = some j) (h : JobsOk s) :
    JobsOk (servePageStep s p j) := by
  have ended : ∀ {t : State}, t.engine.jobs = s.engine.jobs.set p none → JobsOk t := fun ht =>
    jobsOk_set ht (fun _ hk => nomatch hk) h
  obtain ⟨hlt, hs⟩ := h p j hj
  unfold servePageStep
  split
  · exact ended rfl
  · exact ended rfl
  · simp only
    split
    · exact ended rfl
    · next hne =>
      refine jobsOk_set (p := p) (j := some (stepJob s.array j)) rfl (fun k hk => ?_) h
      cases hk
      have hc : (stepJob s.array j).count = j.count := rfl
      have hd : (stepJob s.array j).pagesDone = j.pagesDone + 1 := rfl
      exact ⟨by omega, by rw [jobSides_stepJob]; exact hs⟩

theorem jobsOk_noJobs {t : State} (h : t.engine.jobs = .all none) : JobsOk t := by
  intro p j hj
  simp [State.job, h] at hj

theorem engine_endTick (s : State) : (endTick s).engine = s.engine := by
  simp only [endTick, settleNotices_engine, engine_of_board (board_tickLocks s)]

theorem rules_jobs : StepRules (fun _ => True) JobsOk where
  congr ht h := jobsOk_of_eq (holdings_ext ht).2.2.2.2.2.2 h
  preCongr _ h := h
  takes _ _ tag args _ ha h := jobsOk_ownerAct (ownerTakes_act tag args ha) h
  restart _ _ := jobsOk_noJobs rfl
  powerUp _ _ ht := by cases ht; exact jobsOk_noJobs rfl
  assertReset _ h := h
  releaseReset _ _ := jobsOk_noJobs rfl
  clear s _ h := jobsOk_of_eq (by rw [(table_clearPage s).2.2.2.2]) h
  period := period_of_tick (fun _ _ h => h) (fun _ _ h => h) fun s _ h => jobsOk_of_eq (by rw [engine_endTick]) h
  tick s _ h := jobsOk_of_eq (by rw [engine_endTick]) h
  lapse s i _ h _ := jobsOk_of_board (board_lapseSlot s i) h
  expire s e _ h _ := jobsOk_of_board (board_expireEntry s e) h
  page _ _ _ hj _ h := jobsOk_servePageStep hj h

/-! ### No fault -/

/-- R157 to R159: the page that a step takes on a side lies inside the side's range. -/
theorem stepPage_lt {j : Job} (hd : j.pagesDone < j.count) (first : Nat) : stepPage j first < first + j.count := by
  unfold stepPage
  split <;> omega

theorem stepOutside_eq_false {s : State} {p : Port} {j : Job} (h : JobOk j) : stepOutside s p j = false := by
  have hin : ∀ n ∈ stepPages j, n < 4096 := by
    intro n hn
    obtain ⟨x, hx, rfl⟩ := List.mem_map.1 hn
    have hc : x.range.count = j.count := by
      unfold jobSides at hx
      split at hx
      · rw [List.mem_singleton.1 hx]
      · rcases List.mem_cons.1 hx with rfl | hx
        · rfl
        · rw [List.mem_singleton.1 hx]
      · rw [List.mem_singleton.1 hx]
    have h1 := stepPage_lt h.1 x.range.first
    have h2 := h.2 x hx
    omega
  have hout : ((stepPages j).any fun n => decide (Config.pageCount ≤ n)) = false := by
    rw [List.any_eq_false]
    intro n hn
    have := hin n hn
    simp only [decide_eq_true_eq, not_le]
    exact this
  rw [stepOutside, hout, Bool.and_false]

theorem exec_goesOn {s : State} (h : JobsOk s) (i : Instr) : ∃ t, exec i s = .next t := by
  cases i with
  | pageStep =>
    change ∃ t, execPageStep s = .next t
    unfold execPageStep
    split
    · exact ⟨_, rfl⟩
    · next p j hj =>
      have hjob : s.job p = some j := by
        unfold servedJob at hj
        split at hj
        · obtain ⟨k, hk, he⟩ := Option.map_eq_some_iff.1 hj
          cases he; exact hk
        · cases hj
      rw [if_neg (by rw [stepOutside_eq_false (h p j hjob)]; decide)]
      exact ⟨_, rfl⟩
  | _ => exact ⟨_, rfl⟩

theorem step_goesOn {s : State} (h : JobsOk s) : ∃ t, step s = .next t := by
  unfold step
  split
  · exact ⟨_, rfl⟩
  · next c rest _ =>
    have h' : JobsOk { s with pending := rest } := h
    exact exec_goesOn h' c

end Sys2Proof.Machine

namespace Sys2Proof.Proofs

open Sys2Proof.Machine

/-- Settles O9: generations by the rules for each slot, the wait list's length by R54's checks, and the configuration by
the range tests of R175. -/
theorem countsKept : Obligations.CountsKept := by
  intro s t ht
  exact ⟨fun h => generationsOk_step h ht, fun h => rules_waitList.keeps_step trivial h ht,
    fun h => rules_configuration.keeps_step trivial h ht⟩

/-- Settles O10: the rules for each slot and each entry, with what a tick lowers to 0 ended in its steps 3 and 4. -/
theorem leaseBoundsKept : Obligations.LeaseBoundsKept := fun _ _ hp h ht => leasesOk_step hp h ht

/-- Settles O11: a page step alone can fault, and not where the job's pages are pages of the array. -/
theorem rangesKeptNoFault : Obligations.RangesKeptNoFault := by
  intro s hr hj
  obtain ⟨t, ht⟩ := step_goesOn hj
  exact ⟨t, ht, rangesOk_step hr ht, rules_jobs.keeps_step trivial hj ht⟩

end Sys2Proof.Proofs
end


section
/-! PROOFS. One grant scan, whole (R60 to R64): which entries it grants, and what it makes of their slots, their outcomes
and the notice CONTENDED. -/

namespace Sys2Proof.Machine

/-! ### Entries and their slots (R50) -/

theorem isUpgrade_false_iff {e : WaitEntry} : e.isUpgrade = false ↔ ∃ term label, e.kind = .claim term label := by
  cases h : e.kind <;> simp [WaitEntry.isUpgrade, h]

/-- R50: the ticket of an entry is the handle of a slot that is not FREE. -/
theorem InStep.slotOf {s : State} (h : InStep s) {e : WaitEntry} (he : e ∈ s.waitList) :
    ∃ i, e.ticket = slotHandle s i := by
  cases hk : e.kind with
  | claim term label =>
    obtain ⟨i, hi, -⟩ := h.claims e he term label hk
    exact ⟨i, hi⟩
  | upgrade =>
    obtain ⟨-, i, c, hi, -⟩ := h.upgrades e he hk
    exact ⟨i, hi⟩

theorem InStep.claim_content {s : State} (h : InStep s) {e : WaitEntry} (he : e ∈ s.waitList) {term : Nat}
    {label : Half} (hk : e.kind = .claim term label) {i : SlotId} (hi : e.ticket = slotHandle s i) :
    (slotAt s i).content = .reserved ⟨e.port, e.mode, e.range, label⟩ := by
  obtain ⟨j, hj, hc⟩ := h.claims e he term label hk
  rw [hi] at hj
  obtain rfl := (handleOf_inj hj).2
  exact hc

theorem InStep.upgrade_content {s : State} (h : InStep s) {e : WaitEntry} (he : e ∈ s.waitList)
    (hk : e.kind = .upgrade) {i : SlotId} (hi : e.ticket = slotHandle s i) :
    e.mode = .exclusive ∧ ∃ c l n, (slotAt s i).content = .held c l n ∧ c.holder = e.port ∧ c.mode = .shared ∧
      c.range = e.range := by
  obtain ⟨hm, j, c, hj, ⟨l, n, hc⟩, hp, hs, hr⟩ := h.upgrades e he hk
  rw [hi] at hj
  obtain rfl := (handleOf_inj hj).2
  exact ⟨hm, c, l, n, hc, hp, hs, hr⟩

/-- R50: no two entries wait with one ticket. -/
theorem InStep.entry_eq {s : State} (h : InStep s) {e o : WaitEntry} (he : e ∈ s.waitList) (ho : o ∈ s.waitList)
    (ht : e.ticket = o.ticket) : e = o := List.inj_on_of_nodup_map h.tickets he ho ht

theorem InStep.nodup {s : State} (h : InStep s) : s.waitList.Nodup := h.tickets.of_map

theorem slotHandle_inj {s : State} {i j : SlotId} (h : slotHandle s i = slotHandle s j) : i = j := (handleOf_inj h).2

/-! ### One grant -/

/-- R61, R62: a slot whose entry has been granted holds the entry's record. -/
theorem held_of_granted {s : State} (h : InStep s) {e : WaitEntry} (he : e ∈ s.waitList) {i : SlotId}
    (hi : e.ticket = slotHandle s i) {y : Slot} (hg : GrantedSlot e (slotAt s i) y) :
    ∃ c l n, y.content = .held c l n ∧ c.holder = e.port ∧ c.mode = e.mode ∧ c.range = e.range := by
  obtain ⟨-, hclaim, hup⟩ := hg
  cases hk : e.kind with
  | claim term label => exact ⟨_, _, _, hclaim term label hk, rfl, rfl, rfl⟩
  | upgrade =>
    obtain ⟨c, l, n, hc, hy⟩ := hup hk
    obtain ⟨hm, c', l', n', hc', hp, -, hr⟩ := h.upgrade_content he hk hi
    rw [hc] at hc'
    cases hc'
    exact ⟨_, _, _, hy, hp, hm.symm, hr⟩

theorem grantedSlot_granted {s : State} (h : InStep s) {e : WaitEntry} (he : e ∈ s.waitList) {i : SlotId}
    (hi : e.ticket = slotHandle s i) :
    GrantedSlot e (slotAt s i) { slotAt s i with content := grantedContent e (slotAt s i).content } := by
  refine ⟨rfl, fun term label hk => ?_, fun hk => ?_⟩
  · simp only [h.claim_content he hk hi, grantedContent, hk]
  · obtain ⟨-, c, l, n, hc, -⟩ := h.upgrade_content he hk hi
    exact ⟨c, l, n, hc, by simp only [hc, grantedContent, hk]⟩

theorem grantOutcome_granted {s : State} (h : InStep s) {e : WaitEntry} (he : e ∈ s.waitList) {i : SlotId}
    (hi : e.ticket = slotHandle s i) :
    GrantOutcome s e (grantOutcome e (grantedContent e (slotAt s i).content)) := by
  cases hk : e.kind with
  | claim term label =>
    rw [h.claim_content he hk hi]
    simp only [grantedContent, grantOutcome, hk]
    refine ⟨rfl, fun t l hkk => ?_, fun hkk => ?_⟩
    · rw [hk] at hkk; cases hkk; rfl
    · rw [hk] at hkk; cases hkk
  | upgrade =>
    obtain ⟨-, c, l, n, hc, -⟩ := h.upgrade_content he hk hi
    rw [hc]
    simp only [grantedContent, grantOutcome, hk]
    refine ⟨rfl, fun t l hkk => ?_, fun _ => ⟨i, c, l, n, hi, hc, rfl⟩⟩
    rw [hk] at hkk; cases hkk

/-! ### The pass -/

/-- What the table and the outcome lists have become once a scan has granted some entries. -/
structure GrantedIn (s t : State) (granted : List WaitEntry) : Prop where
  grown    : ∀ i, Grown (slotAt s i) (slotAt t i)
  slots    : ∀ e ∈ granted, ∀ i, e.ticket = slotHandle s i → GrantedSlot e (slotAt s i) (slotAt t i)
  others   : ∀ i, (∀ e ∈ granted, e.ticket ≠ slotHandle s i) → slotAt t i = slotAt s i
  sessions : ∀ p, ∃ new, List.Forall₂ (GrantOutcome s) (granted.filter fun e => e.port == p) new ∧
    t.session p = { s.session p with
      reserved := placesWithout (s.session p).reserved (granted.filter fun e => e.port == p)
      held := (s.session p).held ++ new }
  ports    : t.ports = s.ports

theorem placesWithout_append (r : List Reservation) (l k : List WaitEntry) :
    placesWithout r (l ++ k) = placesWithout (placesWithout r l) k := List.foldl_append ..

/-- R61, R62: one more grant. -/
theorem GrantedIn.grant {s t : State} (h : InStep s) {granted : List WaitEntry} (g : GrantedIn s t granted)
    {e : WaitEntry} (he : e ∈ s.waitList) (hsub : ∀ o ∈ granted, o ∈ s.waitList) (hnew : e ∉ granted) :
    GrantedIn s (grantEntry t e) (granted ++ [e]) := by
  obtain ⟨i, hi⟩ := h.slotOf he
  have hother : ∀ o ∈ granted, o.ticket ≠ slotHandle s i := fun o ho ht =>
    hnew (h.entry_eq he (hsub o ho) (hi.trans ht.symm) ▸ ho)
  have hsame : slotAt t i = slotAt s i := g.others i hother
  have hslot : handleSlot e.ticket = some i := by rw [hi, handleSlot_slotHandle]
  have hgrant : grantEntry t e = fillPlace (setContent t i (grantedContent e (slotAt s i).content)) e.port
      (.entry e.ticket) (grantOutcome e (grantedContent e (slotAt s i).content)) := by
    simp only [grantEntry, hslot, slotAt_setContent_same, hsame]
  have step := grantStep t e
  have hat : slotAt (grantEntry t e) i = { slotAt s i with content := grantedContent e (slotAt s i).content } := by
    rw [hgrant, fillPlace, slotAt_modSession, slotAt_setContent_same, hsame]
  have hne : ∀ j, j ≠ i → slotAt (grantEntry t e) j = slotAt t j := fun j hj =>
    step.others j fun hh => hj (by rw [hslot] at hh; exact (Option.some.inj hh).symm)
  refine ⟨fun j => (g.grown j).trans (step.slots j), ?_, ?_, fun p => ?_, step.ports.trans g.ports⟩
  · intro o ho j hj
    rcases List.mem_append.1 ho with ho | ho
    · have hji : j ≠ i := fun hji => hother o ho (hji ▸ hj)
      rw [hne j hji]
      exact g.slots o ho j hj
    · obtain rfl := List.mem_singleton.1 ho
      obtain rfl : i = j := slotHandle_inj (hi.symm.trans hj)
      rw [hat]
      exact grantedSlot_granted h he hi
  · intro j hj
    have hji : j ≠ i := fun hji => hj e (by simp) (hji ▸ hi)
    rw [hne j hji]
    exact g.others j fun o ho => hj o (List.mem_append_left _ ho)
  · obtain ⟨new, hnew', hsess⟩ := g.sessions p
    by_cases hp : e.port = p
    · subst hp
      have hf : (granted ++ [e]).filter (fun o => o.port == e.port) =
          (granted.filter fun o => o.port == e.port) ++ [e] := by simp [List.filter_append]
      refine ⟨new ++ [grantOutcome e (grantedContent e (slotAt s i).content)], ?_, ?_⟩
      · rw [hf]
        exact List.rel_append hnew' (.cons (grantOutcome_granted h he hi) .nil)
      · rw [hf, placesWithout_append, hgrant, fillPlace, State.session_modSession_same, State.session_setContent, hsess]
        simp [placesWithout]
    · have hf : (granted ++ [e]).filter (fun o => o.port == p) = granted.filter fun o => o.port == p := by
        simp [List.filter_append, hp]
      refine ⟨new, ?_, ?_⟩
      · rw [hf]; exact hnew'
      · rw [hf, step.alone p fun hq => hp hq.symm]
        exact hsess

/-- What a pass that began in `s` has come to after the entries `before`. -/
structure PassTracks (s : State) (x : Pass) (before : List WaitEntry) : Prop where
  order  : x.granted.Sublist before
  stay   : x.stay = before.filter fun e => decide (e ∉ x.granted)
  chosen : ∀ older e younger, before = older ++ e :: younger → (e ∈ x.granted ↔ ∀ b, ¬ BlockerOf s older e b)
  made   : GrantedIn s x.state x.granted

/-- R60: the test of an entry in the course of a pass comes to what stood in its way when the scan began: a record that
the scan has made stands in the way exactly as its entry did. -/
theorem PassTracks.grantable_iff {s : State} (h : InStep s) {x : Pass} {before : List WaitEntry}
    (k : PassTracks s x before) (hb : ∀ o ∈ before, o ∈ s.waitList) (e : WaitEntry) :
    grantable x.state x.stay e = true ↔ ∀ b, ¬ BlockerOf s before e b := by
  have record : ∀ o ∈ x.granted, ∃ i c l n, o.ticket = slotHandle s i ∧ (slotAt x.state i).content = .held c l n ∧
      c.holder = o.port ∧ c.mode = o.mode ∧ c.range = o.range := by
    intro o ho
    have hm := hb o (k.order.subset ho)
    obtain ⟨i, hi⟩ := h.slotOf hm
    obtain ⟨c, l, n, hc⟩ := held_of_granted h hm hi (k.made.slots o ho i hi)
    exact ⟨i, c, l, n, hi, hc⟩
  rw [Machine.grantable_iff]
  constructor
  · rintro ⟨hheld, hstay⟩ b (⟨i, c, hc, -, hx⟩ | ⟨o, ho, -, hx⟩)
    · have hg := heldConflict_of_grown (k.made.grown i) (heldConflict_iff.2 ⟨c, hc, hx⟩)
      obtain ⟨c', hc', hx'⟩ := heldConflict_iff.1 hg
      exact hheld i c' hc' hx'
    · by_cases hg : o ∈ x.granted
      · obtain ⟨i, c, l, n, -, hc, hp, hm, hr⟩ := record o hg
        exact hheld i c ⟨l, n, hc⟩ (by rw [hp, hm, hr]; exact hx)
      · exact hstay o (by rw [k.stay, List.mem_filter]; exact ⟨ho, by simpa using hg⟩) hx
  · intro hn
    refine ⟨fun i c hc hx => ?_, fun o ho hx => ?_⟩
    · by_cases hg : ∃ o ∈ x.granted, o.ticket = slotHandle s i
      · obtain ⟨o, ho, hi⟩ := hg
        obtain ⟨j, d, l, n, hj, hd, hp, hm, hr⟩ := record o ho
        obtain rfl : i = j := slotHandle_inj (hi.symm.trans hj)
        obtain ⟨l', n', hc⟩ := hc
        rw [hd] at hc
        cases hc
        rw [hp, hm, hr] at hx
        exact hn o.port (.inr ⟨o, k.order.subset ho, rfl, hx⟩)
      · push Not at hg
        obtain ⟨l, n, hc⟩ := hc
        rw [k.made.others i hg] at hc
        exact hn c.holder (.inl ⟨i, c, ⟨l, n, hc⟩, rfl, hx⟩)
    · rw [k.stay] at ho
      exact hn o.port (.inr ⟨o, List.mem_of_mem_filter ho, rfl, hx⟩)

/-- The choice over one more entry, when its membership follows the rule. -/
theorem chosen_snoc {s : State} {before granted granted' : List WaitEntry} {e : WaitEntry}
    (hc : ∀ older o younger, before = older ++ o :: younger → (o ∈ granted ↔ ∀ b, ¬ BlockerOf s older o b))
    (hg : ∀ o ∈ before, (o ∈ granted' ↔ o ∈ granted)) (he : e ∈ granted' ↔ ∀ b, ¬ BlockerOf s before e b) :
    ∀ older o younger, before ++ [e] = older ++ o :: younger → (o ∈ granted' ↔ ∀ b, ¬ BlockerOf s older o b) := by
  intro older o younger heq
  rcases List.eq_nil_or_concat younger with rfl | ⟨ys, y, rfl⟩
  · obtain ⟨rfl, ho⟩ := List.append_inj' heq rfl
    cases ho
    exact he
  · have heq' : before ++ [e] = (older ++ o :: ys) ++ [y] := by simpa using heq
    obtain ⟨rfl, -⟩ := List.append_inj' heq' rfl
    rw [hg o (by simp)]
    exact hc older o ys rfl

theorem scanPass_tracks {s : State} (h : InStep s) {x : Pass} {before es : List WaitEntry}
    (k : PassTracks s x before) (hl : s.waitList = before ++ es) : PassTracks s (scanPass x es) s.waitList := by
  induction es generalizing x before with
  | nil =>
    rw [List.append_nil] at hl
    rw [hl]
    exact k
  | cons e es ih =>
    have hsub : ∀ o ∈ before, o ∈ s.waitList := fun o ho => by rw [hl]; exact List.mem_append_left _ ho
    have he : e ∈ s.waitList := by rw [hl]; simp
    have hnot : e ∉ before := by
      have hn := h.nodup
      rw [hl] at hn
      exact fun hm => (List.nodup_append.1 hn).2.2 e hm e (by simp) rfl
    have hnew : e ∉ x.granted := fun hm => hnot (k.order.subset hm)
    have test := k.grantable_iff h hsub e
    have hl' : s.waitList = (before ++ [e]) ++ es := by rw [hl]; simp
    unfold scanPass
    split
    · next hg =>
      refine ih ⟨k.order.append_right [e], ?_, ?_, k.made.grant h he (fun o ho => hsub o (k.order.subset ho)) hnew⟩ hl'
      · rw [List.filter_append, k.stay]
        have hne : ∀ o ∈ before, o ≠ e := fun o ho heq => hnot (heq ▸ ho)
        have hf : before.filter (fun o => decide (o ∉ x.granted ++ [e])) =
            before.filter fun o => decide (o ∉ x.granted) :=
          List.filter_congr fun o ho => by simp [hne o ho]
        rw [hf]
        simp
      · refine chosen_snoc k.chosen (fun o ho => ?_) ⟨fun _ => test.1 hg, fun _ => by simp⟩
        simp [show o ≠ e from fun heq => hnot (heq ▸ ho)]
    · next hg =>
      refine ih ⟨k.order.trans (List.sublist_append_left ..), ?_, ?_, k.made⟩ hl'
      · rw [List.filter_append, k.stay]
        simp [hnew]
      · exact chosen_snoc k.chosen (fun _ _ => Iff.rfl) ⟨fun hm => absurd hm hnew, fun hn => absurd (test.2 hn) hg⟩

theorem passTracks_start (s : State) : PassTracks s ⟨s, [], []⟩ [] where
  order := List.Sublist.refl _
  stay := rfl
  chosen older e younger hl := by simp at hl
  made :=
    { grown := fun _ => Grown.refl _
      slots := fun _ he => by simp at he
      others := fun _ _ => rfl
      sessions := fun p => ⟨[], .nil, by simp [placesWithout]⟩
      ports := rfl }

/-! ### CONTENDED -/

/-- A port unit with CONTENDED as in another. -/
def PortUnit.withContended (u : PortUnit) (b : Bool) : PortUnit := { u with notices := { u.notices with contended := b } }

theorem port_raiseContended (s : State) (p q : Port) :
    (raiseContended s p).port q = (s.port q).withContended ((s.port q).notices.contended || q == p) := by
  rw [raiseContended, State.port_modPort]
  by_cases h : q = p
  · subst h; simp [PortUnit.withContended]
  · simp [beq_false_of_ne h, h, PortUnit.withContended]

/-- CONTENDED is set at the ports that a list of entries names, and nothing else changes. -/
theorem port_contendGranted {s : State} {l : List WaitEntry} {held : WaitEntry → Option Claimed}
    (hh : ∀ e ∈ l, ∃ i c, handleSlot e.ticket = some i ∧ held e = some c ∧ (slotAt s i).content.heldRecord = some c)
    (q : Port) : (l.foldl contendGranted s).port q = (s.port q).withContended ((s.port q).notices.contended ||
      l.any fun e => match held e with
        | some c => s.waitList.any (entryConflict c.holder c.mode c.range) && q == c.holder
        | none => false) := by
  induction l generalizing s with
  | nil => simp [PortUnit.withContended]
  | cons e l ih =>
    obtain ⟨i, c, hs, hc, hr⟩ := hh e (List.mem_cons_self ..)
    have hone : contendGranted s e =
        if s.waitList.any (entryConflict c.holder c.mode c.range) then raiseContended s c.holder else s := by
      simp only [contendGranted, hs, hr]
    have hstep := contendStep_granted s e
    have hrest : ∀ o ∈ l, ∃ i c, handleSlot o.ticket = some i ∧ held o = some c ∧
        (slotAt (contendGranted s e) i).content.heldRecord = some c := by
      intro o ho
      obtain ⟨j, d, h1, h2, h3⟩ := hh o (List.mem_cons_of_mem _ ho)
      exact ⟨j, d, h1, h2, by rw [slotAt_eq_of_table hstep.table]; exact h3⟩
    rw [List.foldl_cons, ih hrest, hstep.waitList, hone]
    simp only [List.any_cons, hc]
    by_cases hb : s.waitList.any (entryConflict c.holder c.mode c.range) = true
    · simp [hb, port_raiseContended, PortUnit.withContended, Bool.or_assoc]
    · simp [hb]

/-! ### The scan -/

/-- What a scan grants, and everything that it changes. -/
structure ScanDone (granted : List WaitEntry) (s t : State) : Prop extends Scans granted s t where
  port : ∀ p, { t.port p with
    notices := { (t.port p).notices with contended := (s.port p).notices.contended } } = s.port p
  grown : ∀ i, Grown (slotAt s i) (slotAt t i)

theorem scans_grantScan {s : State} (h : InStep s) : ∃ granted, ScanDone granted s (grantScan s) := by
  have k := scanPass_tracks h (passTracks_start s) (es := s.waitList) rfl
  set x := scanPass ⟨s, [], []⟩ s.waitList with hx
  have c := contendStep_foldl x.granted { x.state with waitList := x.stay }
  have hscan : grantScan s = x.granted.foldl contendGranted { x.state with waitList := x.stay } := rfl
  rw [← hscan] at c
  have hslot : ∀ i, slotAt (grantScan s) i = slotAt x.state i := slotAt_eq_of_table c.table
  have hsess : ∀ p, (grantScan s).session p = x.state.session p := fun p => by simp only [State.session, c.sessions]
  have hport0 : ∀ q, x.state.port q = s.port q := fun q => by simp only [State.port, k.made.ports]
  have hwait : (grantScan s).waitList = s.waitList.filter fun e => decide (e ∉ x.granted) := c.waitList.trans k.stay
  have hheld : ∀ e ∈ x.granted, ∃ i d, handleSlot e.ticket = some i ∧
      some ⟨e.port, e.mode, e.range, d⟩ = (slotAt x.state i).content.heldRecord := by
    intro e he
    have hm := k.order.subset he
    obtain ⟨i, hi⟩ := h.slotOf hm
    obtain ⟨d, l, n, hd, hp, hmode, hr⟩ := held_of_granted h hm hi (k.made.slots e he i hi)
    exact ⟨i, d.label, by rw [hi, handleSlot_slotHandle], by rw [hd, ← hp, ← hmode, ← hr]; rfl⟩
  have hlabel : ∃ label : WaitEntry → Half, ∀ e ∈ x.granted, ∃ i, handleSlot e.ticket = some i ∧
      (slotAt x.state i).content.heldRecord = some ⟨e.port, e.mode, e.range, label e⟩ := by
    classical
    choose! i d hid using hheld
    exact ⟨d, fun e he => ⟨i e, (hid e he).1, (hid e he).2.symm⟩⟩
  obtain ⟨label, hlab⟩ := hlabel
  have hport : ∀ q, (grantScan s).port q = (s.port q).withContended ((s.port q).notices.contended ||
      x.granted.any fun e => x.stay.any (entryConflict e.port e.mode e.range) && q == e.port) := by
    intro q
    have := port_contendGranted (s := { x.state with waitList := x.stay }) (l := x.granted)
      (held := fun e => some ⟨e.port, e.mode, e.range, label e⟩)
      (fun e he => by obtain ⟨i, h1, h2⟩ := hlab e he; exact ⟨i, _, h1, rfl, h2⟩) q
    have hq : State.port { x.state with waitList := x.stay } q = s.port q := hport0 q
    rw [← hscan, hq] at this
    exact this
  refine ⟨x.granted, ⟨k.order, k.chosen, hwait, ?_, ?_, ?_, ?_⟩, fun p => by rw [hport p]; rfl, fun i => ?_⟩
  · intro e he i hi
    rw [hslot]
    exact k.made.slots e he i hi
  · intro i hi
    rw [hslot]
    exact k.made.others i hi
  · intro p
    rw [hsess]
    exact k.made.sessions p
  · intro p
    rw [hport p, c.waitList]
    simp only [PortUnit.withContended, Bool.or_eq_true, List.any_eq_true, Bool.and_eq_true, beq_iff_eq,
      entryConflict_iff]
    refine or_congr_right ⟨?_, ?_⟩
    · rintro ⟨e, he, ho, rfl⟩
      exact ⟨e, he, rfl, ho⟩
    · rintro ⟨e, he, rfl, ho⟩
      exact ⟨e, he, ho, rfl⟩
  · rw [hslot]
    exact k.made.grown i

end Sys2Proof.Machine

namespace Sys2Proof.Proofs

open Sys2Proof.Machine

/-- Settles O20: in the course of the pass the test of an entry comes to what stood in its way when the scan began, since
a record that the scan makes stands in the way exactly as its entry did. -/
theorem scanGrantsOldest : Obligations.ScanGrantsOldest := by
  intro s h t
  obtain ⟨granted, k⟩ := scans_grantScan h
  refine ⟨granted, k.toScans, ?_, ?_, grantScan_blocked s, board_grantScan s, k.port⟩
  · intro e rest hl
    rw [k.chosen [] e rest hl]
    constructor
    · intro hn j c hc hx
      exact hn c.holder (.inl ⟨j, c, hc, rfl, hx⟩)
    · rintro hn b (⟨j, c, hc, -, hx⟩ | ⟨o, ho, -⟩)
      · exact hn j c hc hx
      · cases ho
  · rintro older e younger hl ⟨o, -, ho, hx⟩
    have hnot : e ∉ granted := fun he => (k.chosen older e younger hl).1 he o.port (.inr ⟨o, ho, rfl, hx⟩)
    have hm : e ∈ s.waitList := by rw [hl]; simp
    have : e ∈ t.waitList := by
      rw [k.entries, List.mem_filter]
      exact ⟨hm, by simpa using hnot⟩
    exact this

end Sys2Proof.Proofs
end


section
/-! PROOFS. What the operations that end locks and requests leave: a part of the locks and requests before, in step
(R15, R17, R50, R53). -/

namespace Sys2Proof.Machine

/-! ### Ranges, conflicts and lists -/

theorem Overlap.symm {a b : Range} (h : Overlap a b) : Overlap b a := ⟨h.2, h.1⟩

theorem Overlap.of_inside {a b c : Range} (h : Overlap a b) (hi : Inside b c) : Overlap a c := by
  unfold Overlap Inside at *
  omega

theorem Inside.refl (r : Range) : Inside r r := ⟨le_refl _, le_refl _⟩

theorem Inside.trans {a b c : Range} (h : Inside a b) (k : Inside b c) : Inside a c := by
  unfold Inside at *
  omega

theorem Conflict.symm {p q : Port} {m m' : Mode} {r r' : Range} (h : Conflict p m r q m' r') : Conflict q m' r' p m r := by
  obtain ⟨h1, h2, h3⟩ := h
  exact ⟨h1.symm, h2.symm, fun k => h3 ⟨k.2, k.1⟩⟩

/-- A lock that is no stronger and no wider conflicts with no more. -/
theorem Conflict.of_weaker {p : Port} {m : Mode} {r : Range} {c d : Claimed} (hp : c.holder = d.holder)
    (hm : d.mode = c.mode ∨ d.mode = .shared) (hr : Inside d.range c.range)
    (h : Conflict p m r d.holder d.mode d.range) : Conflict p m r c.holder c.mode c.range := by
  obtain ⟨h1, h2, h3⟩ := h
  refine ⟨hp ▸ h1, h2.of_inside hr, fun k => h3 ⟨k.1, ?_⟩⟩
  rcases hm with hm | hm
  · rw [hm]; exact k.2
  · exact hm

/-- What stands before an element in a part of a list stands before it in the list. -/
theorem sublist_split {α : Type} {l k : List α} (h : l.Sublist k) {a b : List α} {x : α} (hl : l = a ++ x :: b) :
    ∃ a' b', k = a' ++ x :: b' ∧ ∀ y ∈ a, y ∈ a' := by
  subst hl
  obtain ⟨k₁, k₂, rfl, h1, h2⟩ := List.append_sublist_iff.1 h
  obtain ⟨m₁, m₂, rfl, hx, -⟩ := List.cons_sublist_iff.1 h2
  obtain ⟨n₁, n₂, rfl⟩ := List.append_of_mem hx
  exact ⟨k₁ ++ n₁, n₂ ++ m₂, by simp, fun y hy => List.mem_append_left _ (h1.subset hy)⟩

/-! ### States with a part of the locks and requests -/

/-- A slot whose record, if it has one, is the same but for its lease. -/
def SameRecord (x y : Slot) : Prop :=
  y.gen = x.gen ∧ (y.content = x.content ∨ ∃ c l n l' n', x.content = .held c l n ∧ y.content = .held c l' n')

theorem SameRecord.refl (x : Slot) : SameRecord x x := ⟨rfl, .inl rfl⟩

theorem SameRecord.trans {x y z : Slot} (h : SameRecord x y) (k : SameRecord y z) : SameRecord x z := by
  obtain ⟨hg, h⟩ := h
  obtain ⟨kg, k⟩ := k
  refine ⟨kg.trans hg, ?_⟩
  rcases k with k | ⟨c, l, n, l', n', hy, hz⟩
  · rw [k]; exact h
  · rcases h with h | ⟨d, m, o, m', o', hx, hy'⟩
    · exact .inr ⟨c, l, n, l', n', h ▸ hy, hz⟩
    · rw [hy] at hy'
      cases hy'
      exact .inr ⟨c, m, o, l', n', hx, hz⟩

theorem SameRecord.held {s t : State} {i : SlotId} (h : SameRecord (slotAt s i) (slotAt t i)) {c : Claimed}
    (hc : Held s i c) : Held t i c := by
  obtain ⟨l, n, hc⟩ := hc
  rcases h.2 with h | ⟨d, m, o, m', o', hx, hy⟩
  · exact ⟨l, n, h ▸ hc⟩
  · rw [hc] at hx
    cases hx
    exact ⟨m', o', hy⟩

theorem SameRecord.held_of {s t : State} {i : SlotId} (h : SameRecord (slotAt s i) (slotAt t i)) {c : Claimed}
    (hc : Held t i c) : Held s i c := by
  obtain ⟨l, n, hc⟩ := hc
  rcases h.2 with h | ⟨d, m, o, m', o', hx, hy⟩
  · exact ⟨l, n, h ▸ hc⟩
  · rw [hc] at hy
    cases hy
    exact ⟨m, o, hx⟩

theorem SameRecord.reserved {s t : State} {i : SlotId} (h : SameRecord (slotAt s i) (slotAt t i)) {c : Claimed} :
    (slotAt t i).content = .reserved c ↔ (slotAt s i).content = .reserved c := by
  rcases h.2 with h | ⟨d, m, o, m', o', hx, hy⟩
  · rw [h]
  · rw [hx, hy]
    exact ⟨nofun, nofun⟩

theorem slotHandle_of_gen {s t : State} {i : SlotId} (h : (slotAt t i).gen = (slotAt s i).gen) :
    slotHandle t i = slotHandle s i := by rw [slotHandle, slotHandle, h]

/-- Some locks and requests have ended or become weaker, and none has come in. -/
structure Shrinks (s t : State) : Prop where
  list     : t.waitList.Sublist s.waitList
  records  : ∀ i d, Held t i d → ∃ c, Held s i c ∧ c.holder = d.holder ∧ (d.mode = c.mode ∨ d.mode = .shared) ∧
    Inside d.range c.range
  named    : ∀ e ∈ t.waitList, ∀ i, e.ticket = slotHandle s i → SameRecord (slotAt s i) (slotAt t i)
  reserved : ∀ i c, (slotAt t i).content = .reserved c → slotAt t i = slotAt s i ∧
    ∀ e ∈ s.waitList, e.ticket = slotHandle s i → e.isUpgrade = false → e ∈ t.waitList

theorem Shrinks.refl (s : State) : Shrinks s s where
  list := List.Sublist.refl _
  records _ d hd := ⟨d, hd, rfl, .inl rfl, Inside.refl _⟩
  named _ _ _ _ := SameRecord.refl _
  reserved _ _ _ := ⟨rfl, fun _ he _ _ => he⟩

theorem Shrinks.trans {s t u : State} (h : Shrinks s t) (k : Shrinks t u) : Shrinks s u where
  list := k.list.trans h.list
  records i d hd := by
    obtain ⟨c, hc, hp, hm, hr⟩ := k.records i d hd
    obtain ⟨b, hb, hp', hm', hr'⟩ := h.records i c hc
    refine ⟨b, hb, hp'.trans hp, ?_, hr.trans hr'⟩
    rcases hm with hm | hm
    · rw [hm]; exact hm'
    · exact .inr hm
  named e he i hi := by
    have h1 := h.named e (k.list.subset he) i hi
    exact h1.trans (k.named e he i (hi.trans (slotHandle_of_gen h1.1).symm))
  reserved i c hc := by
    obtain ⟨h1, h2⟩ := k.reserved i c hc
    obtain ⟨h3, h4⟩ := h.reserved i c (h1 ▸ hc)
    refine ⟨h1.trans h3, fun e he hi hu => h2 e (h4 e he hi hu) ?_ hu⟩
    rw [hi, slotHandle, slotHandle, h3]

section Kept

variable {s t : State} (h : Shrinks s t)
include h

theorem Shrinks.inStep (hs : InStep s) : InStep t where
  claims e he term label hk := by
    obtain ⟨i, hi, hc⟩ := hs.claims e (h.list.subset he) term label hk
    have same := h.named e he i hi
    exact ⟨i, hi.trans (slotHandle_of_gen same.1).symm, same.reserved.2 hc⟩
  upgrades e he hk := by
    obtain ⟨hm, i, c, hi, hc, hrest⟩ := hs.upgrades e (h.list.subset he) hk
    have same := h.named e he i hi
    exact ⟨hm, i, c, hi.trans (slotHandle_of_gen same.1).symm, same.held hc, hrest⟩
  slots i c hc := by
    obtain ⟨hsame, hin⟩ := h.reserved i c hc
    obtain ⟨e, he, hi, hu⟩ := hs.slots i c (hsame ▸ hc)
    exact ⟨e, hin e he hi hu, by rw [hi, slotHandle, slotHandle, hsame], hu⟩
  tickets := hs.tickets.sublist (h.list.map _)

theorem Shrinks.noConflict (hs : NoConflictHeld s) : NoConflictHeld t := by
  intro i j c d hc hd hx
  obtain ⟨c', hc', hp, hm, hr⟩ := h.records i c hc
  obtain ⟨d', hd', hp', hm', hr'⟩ := h.records j d hd
  exact hs j i d' c' hd' hc' ((hx.of_weaker hp' hm' hr').symm.of_weaker hp hm hr)

theorem Shrinks.noSelfOverlap (hs : NoSelfOverlap s) : NoSelfOverlap t where
  records i j c d hij hc hd hp ho := by
    obtain ⟨c', hc', hpc, -, hrc⟩ := h.records i c hc
    obtain ⟨d', hd', hpd, -, hrd⟩ := h.records j d hd
    exact hs.records j i d' c' hij.symm hd' hc' (by rw [hpc, hpd, hp]) ((ho.of_inside hrd).symm.of_inside hrc)
  mixed i c e he hc hu hp ho := by
    obtain ⟨c', hc', hpc, -, hrc⟩ := h.records i c hc
    exact hs.mixed i c' e (h.list.subset he) hc' hu (hpc.trans hp) (ho.symm.of_inside hrc).symm
  claims := hs.claims.sublist h.list

theorem Shrinks.waits {a b : Port} (hw : Waits t a b) : Waits s a b := by
  obtain ⟨older, e, younger, hl, rfl, hb⟩ := hw
  obtain ⟨older', younger', hl', hsub⟩ := sublist_split h.list hl
  refine ⟨older', e, younger', hl', rfl, ?_⟩
  rcases hb with ⟨i, d, hd, rfl, hx⟩ | ⟨o, ho, hx⟩
  · obtain ⟨c, hc, hp, hm, hr⟩ := h.records i d hd
    exact .inl ⟨i, c, hc, hp, hx.of_weaker hp hm hr⟩
  · exact .inr ⟨o, hsub o ho, hx⟩

end Kept

/-! ### The locks after an operation -/

/-- An operation keeps the locks sound, and the waits-for relation free of cycles. -/
def LocksFollow (s t : State) : Prop := LocksOk s → LocksOk t ∧ (NoCycle s → NoCycle t)

theorem noCycle_of_waits {s t : State} (h : ∀ a b, Waits t a b → Waits s a b) (hs : NoCycle s) : NoCycle t :=
  fun p hp => hs p (Relation.TransGen.mono h _ _ hp)

theorem LocksFollow.trans {s t u : State} (h : LocksFollow s t) (k : LocksFollow t u) : LocksFollow s u := fun hs =>
  have ⟨h1, h2⟩ := h hs
  have ⟨k1, k2⟩ := k h1
  ⟨k1, fun hn => k2 (h2 hn)⟩

theorem Shrinks.follow {s t : State} (h : Shrinks s t) : LocksFollow s t := fun ⟨h1, h2, h3⟩ =>
  ⟨⟨h.inStep h1, h.noConflict h2, h.noSelfOverlap h3⟩, noCycle_of_waits fun _ _ hw => h.waits hw⟩

theorem follow_of_shrinks {s t : State} (h : InStep s → Shrinks s t) : LocksFollow s t := fun hs => (h hs.1).follow hs

/-- The slots and the list are as they were. -/
theorem shrinks_congr {s t : State} (ht : t.table = s.table) (hw : t.waitList = s.waitList) : Shrinks s t where
  list := by rw [hw]
  records i d hd := ⟨d, (by obtain ⟨l, n, hd⟩ := hd; exact ⟨l, n, slotAt_eq_of_table ht i ▸ hd⟩), rfl, .inl rfl, Inside.refl _⟩
  named _ _ i _ := slotAt_eq_of_table ht i ▸ SameRecord.refl _
  reserved i _ _ := ⟨slotAt_eq_of_table ht i, fun _ he _ _ => by rw [hw]; exact he⟩

/-- Every record is the same but for its lease, and the list is as it was. -/
theorem shrinks_of_leases {s t : State} (ht : ∀ i, SameRecord (slotAt s i) (slotAt t i))
    (hw : t.waitList = s.waitList) : Shrinks s t where
  list := by rw [hw]
  records i d hd := ⟨d, (ht i).held_of hd, rfl, .inl rfl, Inside.refl _⟩
  named _ _ i _ := ht i
  reserved i c hc := by
    refine ⟨?_, fun _ he _ _ => by rw [hw]; exact he⟩
    obtain ⟨hg, hx | ⟨d, m, o, m', o', -, hy⟩⟩ := ht i
    · cases hs : slotAt s i; cases h : slotAt t i; simp_all
    · rw [hc] at hy; cases hy

/-- One slot no longer holds what it held, or holds a weaker lock, and the entries that named it are gone. -/
theorem shrinks_of_slot {s t : State} (i : SlotId) (others : ∀ j, j ≠ i → slotAt t j = slotAt s j)
    (list : t.waitList.Sublist s.waitList) (gone : ∀ e ∈ t.waitList, e.ticket ≠ slotHandle s i)
    (stay : ∀ e ∈ s.waitList, e.ticket ≠ slotHandle s i → e ∈ t.waitList)
    (record : ∀ d, Held t i d → ∃ c, Held s i c ∧ c.holder = d.holder ∧ (d.mode = c.mode ∨ d.mode = .shared) ∧
      Inside d.range c.range)
    (notReserved : ∀ c, (slotAt t i).content ≠ .reserved c) : Shrinks s t where
  list := list
  records j d hd := by
    by_cases hj : j = i
    · subst hj; exact record d hd
    · obtain ⟨l, n, hd⟩ := hd
      exact ⟨d, ⟨l, n, others j hj ▸ hd⟩, rfl, .inl rfl, Inside.refl _⟩
  named e he j hj := by
    have hne : j ≠ i := fun hji => gone e he (hji ▸ hj)
    rw [others j hne]
    exact SameRecord.refl _
  reserved j c hc := by
    have hne : j ≠ i := fun hji => notReserved c (hji ▸ hc)
    refine ⟨others j hne, fun e he hj _ => stay e he fun hi => hne (slotHandle_inj (hj.symm.trans hi))⟩

/-! ### Which entries name a slot -/

/-- R50: an entry names a RESERVED slot or a HELD record. -/
theorem InStep.content_of_ticket {s : State} (h : InStep s) {e : WaitEntry} (he : e ∈ s.waitList) {i : SlotId}
    (hi : e.ticket = slotHandle s i) :
    (∃ c, (slotAt s i).content = .reserved c) ∨ e.isUpgrade = true ∧ ∃ c l n, (slotAt s i).content = .held c l n := by
  cases hk : e.kind with
  | claim term label => exact .inl ⟨_, h.claim_content he hk hi⟩
  | upgrade =>
    obtain ⟨-, c, l, n, hc, -⟩ := h.upgrade_content he hk hi
    exact .inr ⟨isUpgrade_iff.2 hk, c, l, n, hc⟩

theorem InStep.unnamed_held {s : State} (h : InStep s) {i : SlotId} {c : Claimed} {l : Lease} {n : Nat}
    (hc : (slotAt s i).content = .held c l n) (hu : upgradeWaits s (slotHandle s i) = false) :
    ∀ e ∈ s.waitList, e.ticket ≠ slotHandle s i := by
  intro e he hi
  rcases h.content_of_ticket he hi with ⟨d, hd⟩ | ⟨hup, -⟩
  · rw [hc] at hd; cases hd
  · have : upgradeWaits s (slotHandle s i) = true := List.any_eq_true.2 ⟨e, he, by simp [hup, hi]⟩
    simp [hu] at this

theorem upgradeWaits_of_engaged {s : State} {i : SlotId} {c : Claimed} {l : Lease} {n : Nat}
    (hc : (slotAt s i).content = .held c l n) (he : engaged s i = false) : upgradeWaits s (slotHandle s i) = false := by
  simp only [engaged, hc, Bool.or_eq_false_iff] at he
  exact he.2

theorem InStep.unnamed_lapsed {s : State} (h : InStep s) {i : SlotId} {c : Claimed} {l : Lease} {x : EndCause}
    (hc : (slotAt s i).content = .lapsed c l x) : ∀ e ∈ s.waitList, e.ticket ≠ slotHandle s i := by
  intro e he hi
  rcases h.content_of_ticket he hi with ⟨d, hd⟩ | ⟨-, d, k, m, hd⟩ <;> rw [hc] at hd <;> cases hd

theorem InStep.unnamed_free {s : State} (h : InStep s) {i : SlotId} (hc : (slotAt s i).content = .free) :
    ∀ e ∈ s.waitList, e.ticket ≠ slotHandle s i := by
  intro e he hi
  rcases h.content_of_ticket he hi with ⟨d, hd⟩ | ⟨-, d, k, m, hd⟩ <;> rw [hc] at hd <;> cases hd

/-! ### The operations -/

theorem not_held_of {s : State} {i : SlotId} {x : Content} (h : (slotAt s i).content = x) (hx : x.heldRecord = none)
    (d : Claimed) : ¬ Held s i d := by
  rintro ⟨l, n, hd⟩
  rw [h] at hd
  subst hd
  cases hx

/-- R14: a slot that no entry names is freed. -/
theorem shrinks_freeSlot {s : State} {i : SlotId} {c : Claimed} (hc : (slotAt s i).content.claimed = some c)
    (hn : ∀ e ∈ s.waitList, e.ticket ≠ slotHandle s i) : Shrinks s (freeSlot s i) := by
  have hx : (slotAt (freeSlot s i) i).content = .free := by rw [slotAt_freeSlot_same hc]
  have hw := waitList_freeSlot_eq s i
  refine shrinks_of_slot i (fun j hj => slotAt_freeSlot_other hc hj) (by rw [hw]) (by rw [hw]; exact hn)
    (fun e he _ => by rw [hw]; exact he) (fun d hd => absurd hd (not_held_of hx rfl d)) (fun d hd => by rw [hx] at hd; cases hd)

/-- R36, R41: a record that no entry names becomes weaker. -/
theorem shrinks_weaken {s : State} {i : SlotId} {c d : Claimed} {l : Lease} {n : Nat}
    (hc : (slotAt s i).content = .held c l n) (hn : ∀ e ∈ s.waitList, e.ticket ≠ slotHandle s i)
    (hp : c.holder = d.holder) (hm : d.mode = c.mode ∨ d.mode = .shared) (hr : Inside d.range c.range) :
    Shrinks s (setContent s i (.held d l n)) := by
  have hx : slotAt (setContent s i (.held d l n)) i = { slotAt s i with content := .held d l n } :=
    slotAt_setContent_same s i _
  refine shrinks_of_slot i (fun j hj => slotAt_setContent_other s _ hj) (List.Sublist.refl _) hn (fun _ he _ => he)
    (fun b hb => ?_) (fun b hb => by rw [hx] at hb; cases hb)
  obtain ⟨l', n', hb⟩ := hb
  rw [hx] at hb
  cases hb
  exact ⟨c, ⟨l, n, hc⟩, hp, hm, hr⟩

@[simp] theorem table_endEntry (s : State) (e : WaitEntry) (how : WaitEnd) : (endEntry s e how).table = s.table := rfl
@[simp] theorem waitList_endEntry (s : State) (e : WaitEntry) (how : WaitEnd) :
    (endEntry s e how).waitList = s.waitList.erase e := rfl

theorem table_endUpgradeOf (s : State) (k : Half) : (endUpgradeOf s k).table = s.table := by
  unfold endUpgradeOf; split <;> rfl

theorem sublist_endUpgradeOf (s : State) (k : Half) : (endUpgradeOf s k).waitList.Sublist s.waitList := by
  unfold endUpgradeOf
  split
  · exact List.erase_sublist
  · exact List.Sublist.refl _

/-- R69: the entries that stay when the waiting upgrade of a record ends. -/
theorem mem_endUpgradeOf {s : State} (ht : (s.waitList.map WaitEntry.ticket).Nodup) {k : Half} {e : WaitEntry} :
    e ∈ (endUpgradeOf s k).waitList ↔ e ∈ s.waitList ∧ ¬ (e.isUpgrade = true ∧ e.ticket = k) := by
  unfold endUpgradeOf
  split
  · next o ho =>
    have hm := List.mem_of_find?_eq_some ho
    have hx := List.find?_some ho
    simp only [Bool.and_eq_true, beq_iff_eq] at hx
    rw [waitList_endEntry, ht.of_map.mem_erase_iff]
    constructor
    · rintro ⟨hne, he⟩
      exact ⟨he, fun hk => hne (List.inj_on_of_nodup_map ht he hm (hk.2.trans hx.2.symm))⟩
    · rintro ⟨he, hk⟩
      exact ⟨fun heq => hk (heq ▸ hx), he⟩
  · next hn =>
    refine ⟨fun he => ⟨he, fun hk => ?_⟩, And.left⟩
    have := List.find?_eq_none.1 hn e he
    simp [hk] at this

/-- R79, R179: a HELD record becomes LAPSED, and the upgrade of it that waits ends. -/
theorem shrinks_lapsed {s m : State} (h : InStep s) {i : SlotId} {c : Claimed} {l : Lease} {n : Nat} {x : EndCause}
    (hc : (slotAt s i).content = .held c l n) (ht : m.table = (setContent s i (.lapsed c l x)).table)
    (hw : m.waitList = s.waitList) : Shrinks s (endUpgradeOf m (slotHandle s i)) := by
  have hslot : ∀ j, slotAt (endUpgradeOf m (slotHandle s i)) j = slotAt (setContent s i (.lapsed c l x)) j :=
    slotAt_eq_of_table ((table_endUpgradeOf ..).trans ht)
  have hi : (slotAt (endUpgradeOf m (slotHandle s i)) i).content = .lapsed c l x := by
    rw [hslot, slotAt_setContent_same]
  have hmem := fun e => mem_endUpgradeOf (s := m) (by rw [hw]; exact h.tickets) (k := slotHandle s i) (e := e)
  rw [hw] at hmem
  refine shrinks_of_slot i (fun j hj => by rw [hslot, slotAt_setContent_other s _ hj])
    ((sublist_endUpgradeOf ..).trans (by rw [hw])) (fun e he hk => ?_) (fun e he hk => (hmem e).2 ⟨he, fun hu => hk hu.2⟩)
    (fun d hd => absurd hd (not_held_of hi rfl d)) (fun d hd => by rw [hi] at hd; cases hd)
  obtain ⟨hin, hnot⟩ := (hmem e).1 he
  rcases h.content_of_ticket hin hk with ⟨d, hd⟩ | ⟨hup, -⟩
  · rw [hc] at hd; cases hd
  · exact hnot ⟨hup, hk⟩

theorem shrinks_lapseSlot {s : State} (h : InStep s) (i : SlotId) : Shrinks s (lapseSlot s i) := by
  unfold lapseSlot
  split
  · next c l hc => exact shrinks_lapsed h hc rfl rfl
  · exact Shrinks.refl s

theorem shrinks_revokeSlot {s : State} (h : InStep s) {i : SlotId} {c : Claimed} {l : Lease} {n : Nat}
    (hc : (slotAt s i).content = .held c l n) : Shrinks s (revokeSlot s i c l) := shrinks_lapsed h hc rfl rfl

/-- R65, R66, R68: the entry of a CLAIM ends and its slot is freed. -/
theorem dropEntry_claim {s : State} {e : WaitEntry} {i : SlotId} (hi : e.ticket = slotHandle s i)
    (hk : e.isUpgrade = false) (how : WaitEnd) : dropEntry s e how = freeSlot (endEntry s e how) i := by
  obtain ⟨term, label, hk⟩ := isUpgrade_false_iff.1 hk
  simp only [dropEntry, freeClaimSlot, hk, hi, handleSlot_slotHandle]

theorem dropEntry_upgrade {s : State} {e : WaitEntry} (hk : e.isUpgrade = true) (how : WaitEnd) :
    dropEntry s e how = endEntry s e how := by
  simp only [dropEntry, freeClaimSlot, isUpgrade_iff.1 hk]

theorem shrinks_dropEntry {s : State} (h : InStep s) {e : WaitEntry} (he : e ∈ s.waitList) (how : WaitEnd) :
    Shrinks s (dropEntry s e how) := by
  have hstay : ∀ o, o ∈ s.waitList.erase e ↔ o ≠ e ∧ o ∈ s.waitList := fun o => h.nodup.mem_erase_iff
  cases hk : e.isUpgrade with
  | true =>
    rw [dropEntry_upgrade hk]
    refine ⟨List.erase_sublist, fun i d hd => ⟨d, hd, rfl, .inl rfl, Inside.refl _⟩, fun _ _ _ _ => SameRecord.refl _, ?_⟩
    exact fun i c _ => ⟨rfl, fun o ho _ hu => (hstay o).2 ⟨fun heq => by simp [heq, hk] at hu, ho⟩⟩
  | false =>
    obtain ⟨i, hi⟩ := h.slotOf he
    obtain ⟨term, label, hkind⟩ := isUpgrade_false_iff.1 hk
    rw [dropEntry_claim hi hk]
    have hc : (slotAt (endEntry s e how) i).content.claimed = some ⟨e.port, e.mode, e.range, label⟩ := by
      have := h.claim_content he hkind hi
      rw [slotAt_eq_of_table (table_endEntry s e how), this]
      rfl
    have hfree : (slotAt (freeSlot (endEntry s e how) i) i).content = .free := by rw [slotAt_freeSlot_same hc]
    have hw : (freeSlot (endEntry s e how) i).waitList = s.waitList.erase e := waitList_freeSlot_eq _ i
    refine shrinks_of_slot i (fun j hj => slotAt_freeSlot_other hc hj) (by rw [hw]; exact List.erase_sublist)
      (fun o ho ht => ?_) (fun o ho ht => ?_) (fun d hd => absurd hd (not_held_of hfree rfl d))
      (fun d hd => by rw [hfree] at hd; cases hd)
    · rw [hw, hstay] at ho
      exact ho.1 (h.entry_eq ho.2 he (ht.trans hi.symm))
    · rw [hw, hstay]
      exact ⟨fun heq => ht (heq ▸ hi), ho⟩

/-- R68: the withdrawal of a waiting claim, by its slot. -/
theorem withdrawSlot_eq {s : State} (h : InStep s) {i : SlotId} {c : Claimed}
    (hc : (slotAt s i).content = .reserved c) :
    ∃ e ∈ s.waitList, e.ticket = slotHandle s i ∧ e.isUpgrade = false ∧ withdrawSlot s i = dropEntry s e .withdrawn := by
  obtain ⟨e, he, hi, hu⟩ := h.slots i c hc
  refine ⟨e, he, hi, hu, ?_⟩
  have hf : (s.waitList.find? fun e => !e.isUpgrade && e.ticket == slotHandle s i) = some e := by
    cases ho : s.waitList.find? fun e => !e.isUpgrade && e.ticket == slotHandle s i with
    | none =>
      have := List.find?_eq_none.1 ho e he
      simp [hu, hi] at this
    | some o =>
      have hx := List.find?_some ho
      simp only [Bool.and_eq_true, beq_iff_eq] at hx
      rw [h.entry_eq (List.mem_of_find?_eq_some ho) he (hx.2.trans hi.symm)]
  rw [dropEntry_claim hi hu]
  simp only [withdrawSlot, hf]

theorem shrinks_withdrawSlot {s : State} (h : InStep s) {i : SlotId} {c : Claimed}
    (hc : (slotAt s i).content = .reserved c) : Shrinks s (withdrawSlot s i) := by
  obtain ⟨e, he, -, -, heq⟩ := withdrawSlot_eq h hc
  rw [heq]
  exact shrinks_dropEntry h he _

/-! ### A teardown before its scan -/

theorem ownedBy_of_claimed {s : State} {p : Port} {i : SlotId} {c : Claimed}
    (h : (slotAt s i).content.claimed = some c) : ownedBy s p i = (c.holder == p) := by simp only [ownedBy, h]

theorem ownedBy_of_slot {s t : State} {p : Port} {i : SlotId} (h : slotAt t i = slotAt s i) :
    ownedBy t p i = ownedBy s p i := by rw [ownedBy, ownedBy, h]

/-- R96: what freeing every slot of a port leaves of each slot. -/
theorem slotAt_freeSlotsOf (s : State) (p : Port) (i : SlotId) : slotAt (freeSlotsOf s p) i =
    if ownedBy s p i then { gen := nextGen (slotAt s i).gen, content := .free } else slotAt s i := by
  have hone : ∀ (s : State) (j : SlotId), slotAt (if ownedBy s p j then freeSlot s j else s) i =
      if i = j ∧ ownedBy s p i then { gen := nextGen (slotAt s i).gen, content := .free } else slotAt s i := by
    intro s j
    by_cases ho : ownedBy s p j = true
    · obtain ⟨c, hc, -⟩ := ownedBy_iff.1 ho
      rw [if_pos ho]
      by_cases hij : i = j
      · subst hij
        rw [slotAt_freeSlot_same hc, if_pos ⟨rfl, ho⟩]
      · rw [slotAt_freeSlot_other hc hij, if_neg (fun hk => hij (And.left hk))]
    · rw [if_neg ho, if_neg (by rintro ⟨rfl, hk⟩; exact ho hk)]
  have hfold : ∀ (l : List SlotId), l.Nodup → ∀ s : State,
      slotAt (l.foldl (fun s i => if ownedBy s p i then freeSlot s i else s) s) i =
        if i ∈ l ∧ ownedBy s p i then { gen := nextGen (slotAt s i).gen, content := .free } else slotAt s i := by
    intro l
    induction l with
    | nil => simp
    | cons j l ih =>
      intro hn s
      obtain ⟨hj, hn⟩ := List.nodup_cons.1 hn
      rw [List.foldl_cons, ih hn]
      by_cases hij : i = j
      · subst hij
        rw [if_neg (fun hk => hj (And.left hk)), hone]
        simp
      · have hsame : slotAt (if ownedBy s p j then freeSlot s j else s) i = slotAt s i := by
          rw [hone s j, if_neg (fun hk => hij (And.left hk))]
        rw [ownedBy_of_slot hsame, hsame]
        simp [hij]
  have := hfold allSlots (List.nodup_finRange 128) s
  rw [freeSlotsOf]
  simpa only [mem_allSlots, true_and] using this

@[simp] theorem slotAt_emptied (s : State) (p : Port) (i : SlotId) : slotAt (emptied s p) i =
    if ownedBy s p i then { gen := nextGen (slotAt s i).gen, content := .free } else slotAt s i := by
  rw [← slotAt_freeSlotsOf]
  exact slotAt_eq_of_table (by simp [emptied, removeEntriesOf]) i

/-- R50: an entry names a record of its own port. -/
theorem InStep.owned_of_ticket {s : State} (h : InStep s) {e : WaitEntry} (he : e ∈ s.waitList) {i : SlotId}
    (hi : e.ticket = slotHandle s i) (p : Port) : ownedBy s p i = (e.port == p) := by
  cases hk : e.kind with
  | claim term label =>
    have := h.claim_content he hk hi
    exact ownedBy_of_claimed (c := ⟨e.port, e.mode, e.range, label⟩) (by rw [this]; rfl)
  | upgrade =>
    obtain ⟨-, c, l, n, hc, hp, -⟩ := h.upgrade_content he hk hi
    rw [← hp]
    exact ownedBy_of_claimed (by rw [hc]; rfl)

theorem shrinks_emptied {s : State} (h : InStep s) (p : Port) : Shrinks s (emptied s p) where
  list := by rw [waitList_emptied]; exact List.filter_sublist
  records i d hd := by
    obtain ⟨l, n, hd⟩ := hd
    rw [slotAt_emptied] at hd
    split at hd
    · cases hd
    · exact ⟨d, ⟨l, n, hd⟩, rfl, .inl rfl, Inside.refl _⟩
  named e he i hi := by
    rw [waitList_emptied, List.mem_filter] at he
    obtain ⟨he, hp⟩ := he
    have hp' : (e.port == p) = false := by simpa using hp
    rw [slotAt_emptied, h.owned_of_ticket he hi, hp']
    exact SameRecord.refl _
  reserved i c hc := by
    rw [slotAt_emptied] at hc ⊢
    split at hc
    · cases hc
    · next ho =>
      rw [if_neg ho]
      refine ⟨rfl, fun e he hi _ => ?_⟩
      rw [waitList_emptied, List.mem_filter]
      refine ⟨he, ?_⟩
      rw [h.owned_of_ticket he hi] at ho
      simpa using ho

/-- R96 to R98: a teardown up to its scan, with the stop request of the job. -/
theorem shrinks_closeJob_emptied {s : State} (h : InStep s) (p : Port) : Shrinks s (closeJob (emptied s p) p) := by
  rw [closeJob_eq]
  exact (shrinks_emptied h p).trans (shrinks_congr (by simp) (by simp))

end Sys2Proof.Machine
end


section
/-! PROOFS. The locks and the waits-for relation after a grant scan, a new record and a new request (R15, R17, R50,
R53, R57). -/

namespace Sys2Proof.Machine

/-! ### After a grant scan -/

/-- R17: two waiting CLAIMs of one port do not overlap, whichever is the older. -/
theorem NoSelfOverlap.claims_apart {s : State} (h : NoSelfOverlap s) {e o : WaitEntry} (he : e ∈ s.waitList)
    (ho : o ∈ s.waitList) (hne : e ≠ o) (hu : e.isUpgrade = false) (hu' : o.isUpgrade = false)
    (hp : e.port = o.port) : ¬ Overlap e.range o.range := by
  have : Std.Symm fun e o : WaitEntry =>
      e.isUpgrade = false → o.isUpgrade = false → e.port = o.port → ¬ Overlap e.range o.range :=
    ⟨fun x y hxy h1 h2 h3 h4 => hxy h2 h1 h3.symm h4.symm⟩
  exact h.claims.forall he ho hne hu hu' hp

section Scan

variable {granted : List WaitEntry} {s t : State} (k : Scans granted s t)
include k

/-- R60: no HELD record stands in the way of an entry that is granted. -/
theorem Scans.free_of_held {e : WaitEntry} (he : e ∈ granted) {i : SlotId} {c : Claimed} (hc : Held s i c) :
    ¬ Conflict e.port e.mode e.range c.holder c.mode c.range := by
  intro hx
  obtain ⟨older, younger, hl⟩ := List.append_of_mem (k.order.subset he)
  exact (k.chosen older e younger hl).1 he c.holder (.inl ⟨i, c, hc, rfl, hx⟩)

/-- R60: no older entry stands in the way of an entry that is granted. -/
theorem Scans.free_of_older {e o : WaitEntry} (he : e ∈ granted) {older younger : List WaitEntry}
    (hl : s.waitList = older ++ e :: younger) (ho : o ∈ older) :
    ¬ Conflict e.port e.mode e.range o.port o.mode o.range := fun hx =>
  (k.chosen older e younger hl).1 he o.port (.inr ⟨o, ho, rfl, hx⟩)

/-- R60: entries that one scan grants do not conflict. -/
theorem Scans.free_of_granted {e o : WaitEntry} (he : e ∈ granted) (ho : o ∈ granted) :
    ¬ Conflict e.port e.mode e.range o.port o.mode o.range := by
  intro hx
  obtain ⟨older, younger, hl⟩ := List.append_of_mem (k.order.subset he)
  have hm := k.order.subset ho
  rw [hl, List.mem_append, List.mem_cons] at hm
  rcases hm with hm | rfl | hm
  · exact k.free_of_older he hl hm hx
  · exact hx.1 rfl
  · obtain ⟨a, b, rfl⟩ := List.append_of_mem hm
    exact k.free_of_older (older := older ++ e :: a) (younger := b) ho (by rw [hl]; simp) (by simp) hx.symm

/-- R61, R62: every HELD record after a scan was HELD before it and is the same, or is that of a granted entry. -/
theorem Scans.record_of (h : InStep s) {i : SlotId} {d : Claimed} (hd : Held t i d) :
    Held s i d ∨ ∃ e ∈ granted, e.ticket = slotHandle s i ∧ d.holder = e.port ∧ d.mode = e.mode ∧ d.range = e.range := by
  by_cases hg : ∃ e ∈ granted, e.ticket = slotHandle s i
  · obtain ⟨e, he, hi⟩ := hg
    obtain ⟨c, l, n, hc, hp, hm, hr⟩ := held_of_granted h (k.order.subset he) hi (k.slots e he i hi)
    obtain ⟨l', n', hd⟩ := hd
    rw [hc] at hd
    cases hd
    exact .inr ⟨e, he, hi, hp, hm, hr⟩
  · push Not at hg
    obtain ⟨l, n, hd⟩ := hd
    exact .inl ⟨l, n, k.others i hg ▸ hd⟩

/-- R61, R62: a HELD record after a scan has the range and holder of one before, or those of a granted CLAIM. -/
theorem Scans.range_of (h : InStep s) {i : SlotId} {d : Claimed} (hd : Held t i d) :
    (∃ c, Held s i c ∧ c.holder = d.holder ∧ c.range = d.range) ∨
      ∃ e ∈ granted, e.ticket = slotHandle s i ∧ e.isUpgrade = false ∧ d.holder = e.port ∧ d.range = e.range := by
  rcases k.record_of h hd with hd | ⟨e, he, hi, hp, -, hr⟩
  · exact .inl ⟨d, hd, rfl, rfl⟩
  · cases hk : e.isUpgrade with
    | false => exact .inr ⟨e, he, hi, hk, hp, hr⟩
    | true =>
      obtain ⟨-, c, l, n, hc, hp', -, hr'⟩ := h.upgrade_content (k.order.subset he) (isUpgrade_iff.1 hk) hi
      exact .inl ⟨c, ⟨l, n, hc⟩, by rw [hp, hp'], by rw [hr, hr']⟩

theorem Scans.mem_waitList {e : WaitEntry} : e ∈ t.waitList ↔ e ∈ s.waitList ∧ e ∉ granted := by
  rw [k.entries, List.mem_filter]
  simp

/-- R50: the slot of an entry that stays is as it was. -/
theorem Scans.slot_of_staying (h : InStep s) {e : WaitEntry} (he : e ∈ t.waitList) {i : SlotId}
    (hi : e.ticket = slotHandle s i) : slotAt t i = slotAt s i := by
  obtain ⟨hm, hn⟩ := k.mem_waitList.1 he
  exact k.others i fun o ho hoi => hn (h.entry_eq (k.order.subset ho) hm (hoi.trans hi.symm) ▸ ho)

theorem Scans.inStep (h : InStep s) : InStep t where
  claims e he term label hk := by
    obtain ⟨i, hi, hc⟩ := h.claims e (k.mem_waitList.1 he).1 term label hk
    have hsame := k.slot_of_staying h he hi
    exact ⟨i, by rw [hi, slotHandle, slotHandle, hsame], hsame ▸ hc⟩
  upgrades e he hk := by
    obtain ⟨hm, i, c, hi, ⟨l, n, hc⟩, hrest⟩ := h.upgrades e (k.mem_waitList.1 he).1 hk
    have hsame := k.slot_of_staying h he hi
    exact ⟨hm, i, c, by rw [hi, slotHandle, slotHandle, hsame], ⟨l, n, hsame ▸ hc⟩, hrest⟩
  slots i c hc := by
    have hnot : ∀ e ∈ granted, e.ticket ≠ slotHandle s i := by
      intro e he hi
      obtain ⟨d, l, n, hd, -⟩ := held_of_granted h (k.order.subset he) hi (k.slots e he i hi)
      rw [hc] at hd
      cases hd
    have hsame := k.others i hnot
    obtain ⟨e, he, hi, hu⟩ := h.slots i c (hsame ▸ hc)
    exact ⟨e, k.mem_waitList.2 ⟨he, fun hg => hnot e hg hi⟩, by rw [hi, slotHandle, slotHandle, hsame], hu⟩
  tickets := by
    rw [k.entries]
    exact h.tickets.sublist (List.filter_sublist.map _)

theorem Scans.noConflict (h : InStep s) (hs : NoConflictHeld s) : NoConflictHeld t := by
  intro i j c d hc hd hx
  rcases k.record_of h hc with hc | ⟨e, he, -, hp, hm, hr⟩ <;> rcases k.record_of h hd with hd | ⟨o, ho, -, hp', hm', hr'⟩
  · exact hs i j c d hc hd hx
  · rw [hp', hm', hr'] at hx
    exact k.free_of_held ho hc hx.symm
  · rw [hp, hm, hr] at hx
    exact k.free_of_held he hd hx
  · rw [hp, hm, hr, hp', hm', hr'] at hx
    exact k.free_of_granted he ho hx

theorem Scans.noSelfOverlap (h : InStep s) (hs : NoSelfOverlap s) : NoSelfOverlap t where
  records i j c d hij hc hd hp ho := by
    rcases k.range_of h hc with ⟨c', hc', hpc, hrc⟩ | ⟨e, he, hi, hu, hpe, hre⟩ <;>
      rcases k.range_of h hd with ⟨d', hd', hpd, hrd⟩ | ⟨o, ho', hj, hu', hpo, hro⟩
    · exact hs.records i j c' d' hij hc' hd' (by rw [hpc, hpd, hp]) (by rw [hrc, hrd]; exact ho)
    · exact hs.mixed i c' o (k.order.subset ho') hc' hu' (by rw [hpc, hp, hpo]) (by rw [hrc, ← hro]; exact ho)
    · exact hs.mixed j d' e (k.order.subset he) hd' hu (by rw [hpd, ← hp, hpe]) (by rw [hrd, ← hre]; exact ho.symm)
    · have hne : e ≠ o := fun heq => hij (slotHandle_inj (hi.symm.trans (heq ▸ hj)))
      exact hs.claims_apart (k.order.subset he) (k.order.subset ho') hne hu hu' (by rw [← hpe, ← hpo, hp])
        (by rw [← hre, ← hro]; exact ho)
  mixed i c e he hc hu hp ho := by
    obtain ⟨hm, hn⟩ := k.mem_waitList.1 he
    rcases k.range_of h hc with ⟨c', hc', hpc, hrc⟩ | ⟨o, ho', hi, hu', hpo, hro⟩
    · exact hs.mixed i c' e hm hc' hu (by rw [hpc, hp]) (by rw [hrc]; exact ho)
    · have hne : o ≠ e := fun heq => hn (heq ▸ ho')
      exact hs.claims_apart (k.order.subset ho') hm hne hu' hu (by rw [← hpo, hp]) (by rw [← hro]; exact ho)
  claims := by
    rw [k.entries]
    exact hs.claims.sublist List.filter_sublist

/-- R53: a port that waits after a scan waited before: a record that a scan makes was in the way as an older entry. -/
theorem Scans.waits (h : InStep s) {a b : Port} (hw : Waits t a b) : Waits s a b := by
  obtain ⟨older, e, younger, hl, rfl, hb⟩ := hw
  have he : e ∈ t.waitList := by rw [hl]; simp
  obtain ⟨hm, hn⟩ := k.mem_waitList.1 he
  have hlist : t.waitList.Sublist s.waitList := by rw [k.entries]; exact List.filter_sublist
  obtain ⟨older', younger', hl', hsub⟩ := sublist_split hlist hl
  refine ⟨older', e, younger', hl', rfl, ?_⟩
  rcases hb with ⟨i, d, hd, rfl, hx⟩ | ⟨o, ho, hx⟩
  · rcases k.record_of h hd with hd | ⟨o, ho, -, hp, hmode, hr⟩
    · exact .inl ⟨i, d, hd, rfl, hx⟩
    · rw [hp, hmode, hr] at hx
      refine .inr ⟨o, ?_, hp.symm, hx⟩
      have hmo := k.order.subset ho
      rw [hl', List.mem_append, List.mem_cons] at hmo
      rcases hmo with hmo | rfl | hmo
      · exact hmo
      · exact absurd ho hn
      · obtain ⟨u, v, rfl⟩ := List.append_of_mem hmo
        exact absurd hx.symm
          (k.free_of_older (older := older' ++ e :: u) (younger := v) ho (by rw [hl']; simp) (by simp))
  · exact .inr ⟨o, hsub o ho, hx⟩

theorem Scans.follow : LocksFollow s t := fun ⟨h1, h2, h3⟩ =>
  ⟨⟨k.inStep h1, k.noConflict h1 h2, k.noSelfOverlap h1 h3⟩, noCycle_of_waits fun _ _ hw => k.waits h1 hw⟩

end Scan

theorem follow_grantScan (s : State) : LocksFollow s (grantScan s) := fun hs =>
  have ⟨_, k⟩ := scans_grantScan hs.1
  k.toScans.follow hs

/-! ### A new record, or a record made EXCLUSIVE -/

theorem not_blocks {s : State} {p : Port} {m : Mode} {r : Range} (h : blocked s p m r = false) :
    ¬ HolderBlocks s p m r ∧ ¬ WaiterBlocks s p m r := by
  rw [← not_or, ← blocked_iff, h]
  simp

theorem overlapsSelf_false {s : State} {p : Port} {r : Range} (h : overlapsSelf s p r = false) :
    (∀ i c, Held s i c → c.holder = p → ¬ Overlap r c.range) ∧
      ∀ e ∈ s.waitList, e.port = p → e.isUpgrade = false → ¬ Overlap r e.range := by
  have hn : ¬ overlapsSelf s p r = true := by simp [h]
  rw [overlapsSelf_iff] at hn
  push Not at hn
  exact hn

/-- A slot that no entry names comes to hold a record that nothing blocks and that overlaps no other lock or claim of its
holder. -/
theorem follow_record {s t : State} {i : SlotId} {d : Claimed} {l : Lease} {n : Nat}
    (ht : t.table = (setContent s i (.held d l n)).table) (hw : t.waitList = s.waitList)
    (unnamed : InStep s → ∀ e ∈ s.waitList, e.ticket ≠ slotHandle s i) (hb : blocked s d.holder d.mode d.range = false)
    (self : NoSelfOverlap s → (∀ j c, j ≠ i → Held s j c → c.holder = d.holder → ¬ Overlap d.range c.range) ∧
      ∀ e ∈ s.waitList, e.port = d.holder → e.isUpgrade = false → ¬ Overlap d.range e.range) : LocksFollow s t := by
  rintro ⟨h1, h2, h3⟩
  obtain ⟨hholder, hwaiter⟩ := not_blocks hb
  obtain ⟨selfHeld, selfWaits⟩ := self h3
  have hi : slotAt t i = { slotAt s i with content := .held d l n } := by
    rw [slotAt_eq_of_table ht, slotAt_setContent_same]
  have hj : ∀ j, j ≠ i → slotAt t j = slotAt s j := fun j hne => by
    rw [slotAt_eq_of_table ht, slotAt_setContent_other s _ hne]
  have held : ∀ {j c}, Held t j c → j = i ∧ c = d ∨ j ≠ i ∧ Held s j c := by
    rintro j c ⟨k, m, hc⟩
    by_cases hne : j = i
    · subst hne
      rw [hi] at hc
      cases hc
      exact .inl ⟨rfl, rfl⟩
    · exact .inr ⟨hne, k, m, hj j hne ▸ hc⟩
  have named : ∀ e ∈ s.waitList, ∀ j, e.ticket = slotHandle s j → slotAt t j = slotAt s j := fun e he j hej =>
    hj j fun hji => unnamed h1 e he (hji ▸ hej)
  refine ⟨⟨⟨?_, ?_, ?_, by rw [hw]; exact h1.tickets⟩, ?_, ⟨?_, ?_, by rw [hw]; exact h3.claims⟩⟩, ?_⟩
  · intro e he term label hk
    rw [hw] at he
    obtain ⟨j, hej, hc⟩ := h1.claims e he term label hk
    have hsame := named e he j hej
    exact ⟨j, by rw [hej, slotHandle, slotHandle, hsame], hsame ▸ hc⟩
  · intro e he hk
    rw [hw] at he
    obtain ⟨hm, j, c, hej, ⟨k, m, hc⟩, hrest⟩ := h1.upgrades e he hk
    have hsame := named e he j hej
    exact ⟨hm, j, c, by rw [hej, slotHandle, slotHandle, hsame], ⟨k, m, hsame ▸ hc⟩, hrest⟩
  · intro j c hc
    by_cases hne : j = i
    · subst hne
      rw [hi] at hc
      cases hc
    · have hsame := hj j hne
      obtain ⟨e, he, hej, hu⟩ := h1.slots j c (hsame ▸ hc)
      exact ⟨e, by rw [hw]; exact he, by rw [hej, slotHandle, slotHandle, hsame], hu⟩
  · intro j k b c hb' hc hx
    rcases held hb' with ⟨rfl, rfl⟩ | ⟨-, hb'⟩ <;> rcases held hc with ⟨rfl, rfl⟩ | ⟨-, hc⟩
    · exact hx.1 rfl
    · exact hholder ⟨k, c, hc, hx⟩
    · exact hholder ⟨j, b, hb', hx.symm⟩
    · exact h2 j k b c hb' hc hx
  · intro j k b c hjk hb' hc hp ho
    rcases held hb' with ⟨rfl, rfl⟩ | ⟨hne, hb'⟩ <;> rcases held hc with ⟨rfl, rfl⟩ | ⟨hne', hc⟩
    · exact hjk rfl
    · exact selfHeld k c hne' hc hp.symm ho
    · exact selfHeld j b hne hb' hp ho.symm
    · exact h3.records j k b c hjk hb' hc hp ho
  · intro j c e he hc hu hp ho
    rw [hw] at he
    rcases held hc with ⟨rfl, rfl⟩ | ⟨-, hc⟩
    · exact selfWaits e he hp.symm hu ho
    · exact h3.mixed j c e he hc hu hp ho
  · refine noCycle_of_waits ?_
    rintro a b ⟨older, e, younger, hl, rfl, hblock⟩
    rw [hw] at hl
    refine ⟨older, e, younger, hl, rfl, ?_⟩
    rcases hblock with ⟨j, c, hc, rfl, hx⟩ | hblock
    · rcases held hc with ⟨rfl, rfl⟩ | ⟨-, hc⟩
      · exact absurd ⟨e, by rw [hl]; simp, hx.symm⟩ hwaiter
      · exact .inl ⟨j, c, hc, rfl, hx⟩
    · exact .inr hblock

/-! ### A new request -/

/-- A relation without a cycle has none after a node gets edges to nodes that do not lead to it. -/
theorem noCycle_of_added {α : Type} {r r' : α → α → Prop} {p : α} {B : α → Prop}
    (hr : ∀ a b, r' a b → r a b ∨ a = p ∧ B b) (hB : ∀ b, B b → b ≠ p ∧ ¬ Relation.TransGen r b p)
    (hn : ∀ a, ¬ Relation.TransGen r a a) (a : α) : ¬ Relation.TransGen r' a a := by
  have leads : ∀ x y, Relation.TransGen r' x y → Relation.TransGen r x y ∨
      Relation.ReflTransGen r x p ∧ ∃ b, B b ∧ Relation.ReflTransGen r b y := by
    intro x y h
    induction h with
    | single h =>
      rcases hr _ _ h with h | ⟨rfl, hb⟩
      · exact .inl (.single h)
      · exact .inr ⟨.refl, _, hb, .refl⟩
    | tail _ h ih =>
      rcases hr _ _ h with h | ⟨rfl, hb⟩
      · rcases ih with ih | ⟨hx, b, hb, hby⟩
        · exact .inl (ih.tail h)
        · exact .inr ⟨hx, b, hb, hby.tail h⟩
      · rcases ih with ih | ⟨hx, -⟩
        · exact .inr ⟨ih.to_reflTransGen, _, hb, .refl⟩
        · exact .inr ⟨hx, _, hb, .refl⟩
  intro h
  rcases leads a a h with h | ⟨hap, b, hb, hba⟩
  · exact hn a h
  · obtain ⟨hne, hnot⟩ := hB b hb
    rcases Relation.reflTransGen_iff_eq_or_transGen.1 (hba.trans hap) with heq | hbp
    · exact hne heq.symm
    · exact hnot hbp

/-- R57: a request that passes the queueing checks closes no cycle. -/
theorem notLeads_of_queueRefusal {s : State} {p : Port} {m : Mode} {r : Range} (h : queueRefusal s p m r = none)
    {q : Port} (hq : InBlockerSet s p m r q) : q ≠ p ∧ ¬ LeadsTo s q p := by
  obtain ⟨-, -, -, hd⟩ := room_of_queueRefusal h
  refine ⟨?_, fun hl => ?_⟩
  · rcases hq with ⟨i, c, -, rfl, hx⟩ | ⟨e, -, rfl, hx⟩ <;> exact hx.1.symm
  · have := List.find?_eq_none.1 hd q (by cases q <;> decide)
    rw [inBlockerSet_iff.2 hq, leadsTo_iff.2 hl] at this
    exact this rfl

/-- A request that passes the queueing checks joins the list with the slot that its ticket names. -/
theorem follow_queue {s t : State} {e : WaitEntry} (hw : t.waitList = s.waitList ++ [e])
    (held : ∀ i c, Held t i c ↔ Held s i c) (inStep : InStep s → InStep t)
    (self : e.isUpgrade = false → overlapsSelf s e.port e.range = false)
    (hq : queueRefusal s e.port e.mode e.range = none) : LocksFollow s t := by
  rintro ⟨h1, h2, h3⟩
  refine ⟨⟨inStep h1, fun i j c d hc hd => h2 i j c d ((held i c).1 hc) ((held j d).1 hd), ⟨?_, ?_, ?_⟩⟩, fun hn => ?_⟩
  · exact fun i j c d hij hc hd => h3.records i j c d hij ((held i c).1 hc) ((held j d).1 hd)
  · intro i c o ho hc hu hp hx
    rw [hw, List.mem_append, List.mem_singleton] at ho
    rcases ho with ho | rfl
    · exact h3.mixed i c o ho ((held i c).1 hc) hu hp hx
    · exact (overlapsSelf_false (self hu)).1 i c ((held i c).1 hc) hp hx.symm
  · rw [hw, List.pairwise_append]
    refine ⟨h3.claims, List.pairwise_singleton .., fun o ho o' ho' hu hu' hp hx => ?_⟩
    obtain rfl := List.mem_singleton.1 ho'
    exact (overlapsSelf_false (self hu')).2 o ho hp hu hx.symm
  · refine fun p => noCycle_of_added (r := Waits s) (p := e.port) (B := InBlockerSet s e.port e.mode e.range) ?_
      (fun b hb => notLeads_of_queueRefusal hq hb) hn p
    rintro a b ⟨older, o, younger, hl, rfl, hb⟩
    have hblock : BlockerOf s older o b := by
      rcases hb with ⟨i, c, hc, hx⟩ | hb
      · exact .inl ⟨i, c, (held i c).1 hc, hx⟩
      · exact .inr hb
    rw [hw] at hl
    rcases List.eq_nil_or_concat younger with rfl | ⟨ys, y, rfl⟩
    · obtain ⟨rfl, ho⟩ := List.append_inj' hl rfl
      cases ho
      exact .inr ⟨rfl, hblock⟩
    · have hl' : s.waitList ++ [e] = (older ++ o :: ys) ++ [y] := by simpa using hl
      obtain ⟨hl', -⟩ := List.append_inj' hl' rfl
      exact .inl ⟨older, o, ys, hl', rfl, hblock⟩

/-- R30, R50: the slot of a queued CLAIM and its entry are in step. -/
theorem inStep_claimQueued {s t : State} (h : InStep s) {i : SlotId} {e : WaitEntry} {term : Nat} {label : Half}
    (hf : (slotAt s i).content = .free) (hk : e.kind = .claim term label) (hi : e.ticket = slotHandle s i)
    (ht : t.table = (setContent s i (.reserved ⟨e.port, e.mode, e.range, label⟩)).table)
    (hw : t.waitList = s.waitList ++ [e]) : InStep t := by
  have hti : slotAt t i = { slotAt s i with content := .reserved ⟨e.port, e.mode, e.range, label⟩ } := by
    rw [slotAt_eq_of_table ht, slotAt_setContent_same]
  have htj : ∀ j, j ≠ i → slotAt t j = slotAt s j := fun j hne => by
    rw [slotAt_eq_of_table ht, slotAt_setContent_other s _ hne]
  have hhandle : ∀ j, slotHandle t j = slotHandle s j := fun j => by
    by_cases hj : j = i
    · subst hj; exact slotHandle_of_gen (by rw [hti])
    · exact slotHandle_of_gen (by rw [htj j hj])
  have unnamed := h.unnamed_free hf
  have named : ∀ o ∈ s.waitList, ∀ j, o.ticket = slotHandle s j → slotAt t j = slotAt s j := fun o ho j hoj =>
    htj j fun hji => unnamed o ho (hji ▸ hoj)
  refine ⟨?_, ?_, ?_, ?_⟩
  · intro o ho term' label' hko
    rw [hw, List.mem_append, List.mem_singleton] at ho
    rcases ho with ho | rfl
    · obtain ⟨j, hoj, hc⟩ := h.claims o ho term' label' hko
      exact ⟨j, by rw [hoj, hhandle], named o ho j hoj ▸ hc⟩
    · rw [hk] at hko
      cases hko
      exact ⟨i, by rw [hi, hhandle], by rw [hti]⟩
  · intro o ho hko
    rw [hw, List.mem_append, List.mem_singleton] at ho
    rcases ho with ho | rfl
    · obtain ⟨hm, j, c, hoj, ⟨l, n, hc⟩, hrest⟩ := h.upgrades o ho hko
      exact ⟨hm, j, c, by rw [hoj, hhandle], ⟨l, n, named o ho j hoj ▸ hc⟩, hrest⟩
    · rw [hk] at hko
      cases hko
  · intro j c hc
    by_cases hj : j = i
    · subst hj
      exact ⟨e, by rw [hw]; simp, by rw [hi, hhandle], isUpgrade_false_iff.2 ⟨_, _, hk⟩⟩
    · obtain ⟨o, ho, hoj, hu⟩ := h.slots j c (htj j hj ▸ hc)
      exact ⟨o, by rw [hw]; exact List.mem_append_left _ ho, by rw [hoj, hhandle], hu⟩
  · rw [hw, List.map_append, List.nodup_append]
    refine ⟨h.tickets, List.nodup_singleton _, fun k hk' k' hk'' heq => ?_⟩
    obtain ⟨o, ho, rfl⟩ := List.mem_map.1 hk'
    simp only [List.map_cons, List.map_nil, List.mem_singleton] at hk''
    exact unnamed o ho (heq.trans (hk''.trans hi))

/-- R49, R50: a queued UPGRADE and its record are in step. -/
theorem inStep_upgradeQueued {s t : State} (h : InStep s) {i : SlotId} {e : WaitEntry} {c : Claimed} {l : Lease}
    {n : Nat} (hc : (slotAt s i).content = .held c l n) (hk : e.kind = .upgrade) (hi : e.ticket = slotHandle s i)
    (hp : c.holder = e.port) (hm : c.mode = .shared) (he : e.mode = .exclusive) (hr : c.range = e.range)
    (hu : upgradeWaits s (slotHandle s i) = false) (ht : t.table = s.table) (hw : t.waitList = s.waitList ++ [e]) :
    InStep t := by
  have hslot := slotAt_eq_of_table ht
  have hhandle : ∀ j, slotHandle t j = slotHandle s j := fun j => by rw [slotHandle, slotHandle, hslot]
  have unnamed := h.unnamed_held hc hu
  refine ⟨?_, ?_, ?_, ?_⟩
  · intro o ho term label hko
    rw [hw, List.mem_append, List.mem_singleton] at ho
    rcases ho with ho | rfl
    · obtain ⟨j, hoj, hcj⟩ := h.claims o ho term label hko
      exact ⟨j, by rw [hoj, hhandle], by rw [hslot]; exact hcj⟩
    · rw [hk] at hko
      cases hko
  · intro o ho hko
    rw [hw, List.mem_append, List.mem_singleton] at ho
    rcases ho with ho | rfl
    · obtain ⟨hmo, j, d, hoj, ⟨l', n', hd⟩, hrest⟩ := h.upgrades o ho hko
      exact ⟨hmo, j, d, by rw [hoj, hhandle], ⟨l', n', by rw [hslot]; exact hd⟩, hrest⟩
    · exact ⟨he, i, c, by rw [hi, hhandle], ⟨l, n, by rw [hslot]; exact hc⟩, hp, hm, hr⟩
  · intro j d hd
    obtain ⟨o, ho, hoj, hup⟩ := h.slots j d (hslot j ▸ hd)
    exact ⟨o, by rw [hw]; exact List.mem_append_left _ ho, by rw [hoj, hhandle], hup⟩
  · rw [hw, List.map_append, List.nodup_append]
    refine ⟨h.tickets, List.nodup_singleton _, fun k hk' k' hk'' heq => ?_⟩
    obtain ⟨o, ho, rfl⟩ := List.mem_map.1 hk'
    simp only [List.map_cons, List.map_nil, List.mem_singleton] at hk''
    exact unnamed o ho (heq.trans (hk''.trans hi))

end Sys2Proof.Machine
end


section
/-! PROOFS. The soundness of the locks and of the wait list over every step (R15, R17, R50, R57, R60). -/

namespace Sys2Proof.Machine

/-! ### The counting of the waits -/

theorem split_map {α β : Type} {f : α → β} {l : List α} {a b : List β} {x : β} (h : l.map f = a ++ x :: b) :
    ∃ a' x' b', l = a' ++ x' :: b' ∧ a'.map f = a ∧ f x' = x := by
  obtain ⟨a', r, rfl, ha, hr⟩ := List.map_eq_append_iff.1 h
  obtain ⟨x', b', rfl, hx, -⟩ := List.map_eq_cons_iff.1 hr
  exact ⟨a', x', b', rfl, ha, hx⟩

theorem inStep_countWaits {s : State} (h : InStep s) : InStep (countWaits s) where
  claims e he term label hk := by
    obtain ⟨o, ho, rfl⟩ := List.mem_map.1 he
    exact h.claims o ho term label hk
  upgrades e he hk := by
    obtain ⟨o, ho, rfl⟩ := List.mem_map.1 he
    exact h.upgrades o ho hk
  slots i c hc := by
    obtain ⟨e, he, hi, hu⟩ := h.slots i c hc
    exact ⟨_, List.mem_map_of_mem he, hi, hu⟩
  tickets := by
    have : (countWaits s).waitList.map WaitEntry.ticket = s.waitList.map WaitEntry.ticket := by
      simp [countWaits]
    rw [this]
    exact h.tickets

theorem follow_countWaits (s : State) : LocksFollow s (countWaits s) := by
  rintro ⟨h1, h2, h3⟩
  refine ⟨⟨inStep_countWaits h1, h2, h3.records, fun i c e he hc hu hp => ?_, List.pairwise_map.2 h3.claims⟩,
    noCycle_of_waits ?_⟩
  · obtain ⟨o, ho, rfl⟩ := List.mem_map.1 he
    exact h3.mixed i c o ho hc hu hp
  · rintro a b ⟨older, e, younger, hl, rfl, hb⟩
    obtain ⟨older', o, younger', hl', rfl, rfl⟩ := split_map hl
    refine ⟨older', o, younger', hl', rfl, ?_⟩
    rcases hb with hb | ⟨x, hx, hb⟩
    · exact .inl hb
    · obtain ⟨y, hy, rfl⟩ := List.mem_map.1 hx
      exact .inr ⟨y, hy, hb⟩

/-! ### A tick -/

theorem follow_foldl {α : Type} {f : State → α → State} (hf : ∀ s x, LocksFollow s (f s x)) (l : List α) (s : State) :
    LocksFollow s (l.foldl f s) := by
  induction l generalizing s with
  | nil => exact (Shrinks.refl s).follow
  | cons x l ih => exact (hf s x).trans (ih _)

theorem sameRecord_countdown (x : Slot) : SameRecord x (countdownSlot x) := by
  obtain ⟨g, c⟩ := x
  cases c with
  | held c l n => exact ⟨rfl, .inr ⟨c, l, n, l, n - 1, rfl, rfl⟩⟩
  | _ => exact SameRecord.refl _

theorem sameRecord_setLease {s : State} {i : SlotId} {c : Claimed} {l l' : Lease} {n n' : Nat}
    (hc : (slotAt s i).content = .held c l n) (j : SlotId) :
    SameRecord (slotAt s j) (slotAt (setContent s i (.held c l' n')) j) := by
  by_cases hj : j = i
  · subst hj
    rw [slotAt_setContent_same]
    exact ⟨rfl, .inr ⟨c, l, n, l', n', hc, rfl⟩⟩
  · rw [slotAt_setContent_other s _ hj]
    exact SameRecord.refl _

/-- R78: a warning changes a record's lease and a notice flag alone. -/
theorem warnSlot_leases (s : State) (i : SlotId) :
    (∀ j, SameRecord (slotAt s j) (slotAt (warnSlot s i) j)) ∧ (warnSlot s i).waitList = s.waitList := by
  unfold warnSlot
  split
  · split
    · next c l n hc => exact ⟨sameRecord_setLease hc, rfl⟩
    · exact ⟨fun _ => SameRecord.refl _, rfl⟩
  · exact ⟨fun _ => SameRecord.refl _, rfl⟩

theorem warnings_leases (s : State) :
    (∀ j, SameRecord (slotAt s j) (slotAt (warnings s) j)) ∧ (warnings s).waitList = s.waitList := by
  unfold warnings
  generalize allSlots = l
  induction l generalizing s with
  | nil => exact ⟨fun _ => SameRecord.refl _, rfl⟩
  | cons i l ih =>
    obtain ⟨h1, h2⟩ := warnSlot_leases s i
    obtain ⟨k1, k2⟩ := ih (warnSlot s i)
    exact ⟨fun j => (h1 j).trans (k1 j), k2.trans h2⟩

/-- R77, R78: steps 1 and 2 of a tick change leases and notice flags alone. -/
theorem counted_leases (s : State) : (∀ j, SameRecord (slotAt s j) (slotAt (warnings (countdown s)) j)) ∧
    (warnings (countdown s)).waitList = s.waitList := by
  obtain ⟨h1, h2⟩ := warnings_leases (countdown s)
  refine ⟨fun j => ?_, h2⟩
  have hd := sameRecord_countdown (slotAt s j)
  rw [← slotAt_countdown] at hd
  exact hd.trans (h1 j)

theorem follow_expiries (l : List WaitEntry) (s : State) (hn : l.Nodup) (hl : ∀ e ∈ l, e ∈ s.waitList) :
    LocksFollow s (l.foldl expireEntry s) := by
  induction l generalizing s with
  | nil => exact (Shrinks.refl s).follow
  | cons e l ih =>
    obtain ⟨hnot, hn⟩ := List.nodup_cons.1 hn
    obtain ⟨he, hl⟩ := List.forall_mem_cons.1 hl
    refine (follow_of_shrinks fun h => shrinks_dropEntry h he .timedOut).trans (ih _ hn fun o ho => ?_)
    have hne : o ≠ e := fun heq => hnot (heq ▸ ho)
    have hw := waitList_dropEntry s e .timedOut
    have hm : o ∈ (dropEntry s e .timedOut).waitList := by
      rw [hw]
      exact (List.mem_erase_of_ne hne).2 (hl o ho)
    exact hm

theorem follow_waitExpiries (s : State) : LocksFollow s (waitExpiries s) := by
  refine fun hs => ((follow_countWaits s).trans (follow_expiries _ _ ?_ fun e he => List.mem_of_mem_filter he)) hs
  exact (inStep_countWaits hs.1).nodup.sublist List.filter_sublist

theorem follow_tickLocks (s : State) : LocksFollow s (tickLocks s) := by
  obtain ⟨h1, h2⟩ := counted_leases s
  have ended : LocksFollow s (waitExpiries (lapses (warnings (countdown s)))) :=
    ((shrinks_of_leases h1 h2).follow.trans
      (follow_foldl (fun s i => follow_of_shrinks fun h => shrinks_lapseSlot h i) allSlots _)).trans
      (follow_waitExpiries _)
  unfold tickLocks
  simp only
  split
  · exact ended.trans (follow_grantScan _)
  · exact ended

theorem follow_endTick (s : State) : LocksFollow s (endTick s) := by
  obtain ⟨h1, h2, -⟩ := table_endTick s
  exact (follow_tickLocks s).trans (shrinks_congr h1 h2).follow

/-! ### The acts of the owners -/

theorem follow_congr {s t : State} (ht : t.table = s.table) (hw : t.waitList = s.waitList) : LocksFollow s t :=
  (shrinks_congr ht hw).follow

theorem follow_teardown (s : State) (p : Port) : LocksFollow s (teardown s p) := by
  rw [teardown_eq]
  exact (follow_of_shrinks fun h => shrinks_closeJob_emptied h p).trans (follow_grantScan _)

theorem held_appendEntry {s : State} {e : WaitEntry} {i : SlotId} {c : Claimed} :
    Held (appendEntry s e) i c ↔ Held s i c := by
  obtain ⟨ht, -⟩ := table_appendEntry s e
  simp only [Held, slotAt_eq_of_table ht]

theorem held_allocate_reserved {s : State} {p : Port} {i j : SlotId} {b c : Claimed} (hf : (slotAt s i).content = .free) :
    Held (allocate s p i (.reserved b)) j c ↔ Held s j c := by
  by_cases hj : j = i
  · subst hj
    simp [Held, hf]
  · simp [Held, slotAt_allocate_other s p _ hj]

theorem follow_ownerAct {p : Port} {s t : State} (a : OwnerAct p s t) : LocksFollow s t := by
  cases a with
  | kept t ht =>
    obtain ⟨h1, h2, -⟩ := holdings_ext ht
    exact follow_congr h1 h2
  | tornDown => exact follow_teardown s p
  | claimGranted m r term label i _ _ _ ho _ hf hb =>
    obtain ⟨h1, h2⟩ := overlapsSelf_false ho
    exact follow_record (i := i) (d := ⟨p, m, r, label⟩) rfl rfl (fun h => h.unnamed_free hf) hb
      fun _ => ⟨fun j c _ => h1 j c, h2⟩
  | claimQueued m r term label i wait tag _ _ _ _ ho _ hf _ hn =>
    obtain ⟨ht, hw, -⟩ := table_appendEntry (allocate s p i (.reserved ⟨p, m, r, label⟩))
      ⟨slotHandle s i, p, .claim term label, m, r, wait, tag⟩
    exact follow_queue hw (fun j c => held_appendEntry.trans (held_allocate_reserved hf))
      (fun h => inStep_claimQueued (e := ⟨slotHandle s i, p, .claim term label, m, r, wait, tag⟩) h hf rfl rfl ht hw) (fun _ => ho) hn
  | renewed i c l n term hc => exact (shrinks_of_leases (sameRecord_setLease hc) rfl).follow
  | released i c l n hc _ he =>
    refine (follow_of_shrinks fun h => ?_).trans (follow_grantScan _)
    exact shrinks_freeSlot (c := c) (by rw [hc]; rfl) (h.unnamed_held hc (upgradeWaits_of_engaged hc he))
  | freedLapsed i c l x hc =>
    exact follow_of_shrinks fun h => shrinks_freeSlot (c := c) (by rw [hc]; rfl) (h.unnamed_lapsed hc)
  | downgraded i c l n hc _ he =>
    refine (follow_of_shrinks fun h => ?_).trans (follow_grantScan _)
    exact shrinks_weaken hc (h.unnamed_held hc (upgradeWaits_of_engaged hc he)) rfl (.inr rfl) (Inside.refl _)
  | upgraded i c l n hc hp hm hu hb =>
    refine follow_record (i := i) (d := { c with mode := .exclusive }) rfl rfl (fun h => h.unnamed_held hc hu)
      (by rw [hp]; exact hb) fun h => ?_
    exact ⟨fun j b hj hb' hp' ho => h.records j i b c hj hb' ⟨l, n, hc⟩ hp' ho.symm,
      fun e he hp' hu' ho => h.mixed i c e he ⟨l, n, hc⟩ hu' hp'.symm ho⟩
  | upgradeQueued i c l n wait tag _ hc hp hm hu _ _ hn =>
    obtain ⟨ht, hw, -⟩ := table_appendEntry s ⟨slotHandle s i, p, .upgrade, .exclusive, c.range, wait, tag⟩
    exact follow_queue hw (fun j c => held_appendEntry)
      (fun h => inStep_upgradeQueued h hc rfl rfl hp hm rfl rfl hu ht hw) nofun hn
  | trimmed i c l n r hc _ _ hi he =>
    refine (follow_of_shrinks fun h => ?_).trans (follow_grantScan _)
    exact shrinks_weaken hc (h.unnamed_held hc (upgradeWaits_of_engaged hc he)) rfl (.inl rfl) hi
  | cancelled e he =>
    exact (follow_of_shrinks fun h => shrinks_dropEntry h he .cancelled).trans (follow_grantScan _)
  | jobAdmitted sides j =>
    obtain ⟨h1, h2, -⟩ := holdings_ext (holdings_chooseJob (reservePlace (s.setJob p (some j)) p .job))
    exact follow_congr h1 h2
  | revoked i c l n hc => exact (follow_of_shrinks fun h => shrinks_revokeSlot h hc).trans (follow_grantScan _)
  | withdrawn i c hc => exact (follow_of_shrinks fun h => shrinks_withdrawSlot h hc).trans (follow_grantScan _)
  | evicted q => exact (follow_teardown s q).trans (follow_congr rfl rfl)
  | _ => exact follow_congr rfl rfl

/-! ### Every step -/

/-- Every slot is FREE and nothing waits. -/
structure AllFree (s : State) : Prop where
  slots : ∀ i, (slotAt s i).content = .free
  waits : s.waitList = []

theorem AllFree.not_held {s : State} (h : AllFree s) {i : SlotId} {c : Claimed} : ¬ Held s i c := by
  rintro ⟨l, n, hc⟩
  rw [h.slots i] at hc
  cases hc

theorem AllFree.locksOk {s : State} (h : AllFree s) : LocksOk s := by
  obtain ⟨hs, hw⟩ := id h
  refine ⟨⟨by simp [hw], by simp [hw], fun i c hc => ?_, by simp [hw]⟩, fun i j c d hc => absurd hc h.not_held,
    fun i j c d _ hc => absurd hc h.not_held, fun i c e he => by simp [hw] at he, by simp [hw]⟩
  rw [hs i] at hc
  cases hc

theorem AllFree.noCycle {s : State} (h : AllFree s) : NoCycle s := by
  have hno : ∀ a b, ¬ Waits s a b := by
    rintro a b ⟨older, e, younger, hl, -⟩
    rw [h.waits] at hl
    simp at hl
  intro p hp
  obtain ⟨q, hq, -⟩ := Relation.TransGen.head'_iff.1 hp
  exact hno _ _ hq

theorem slotAt_resetBlocks (s : State) (x : Params) (c : Clock) (i : SlotId) :
    slotAt (resetBlocks s x c) i = resetSlot (slotAt s i) := by
  simp [slotAt, resetBlocks, resetTable]

theorem allFree_resetBlocks (s : State) (x : Params) (c : Clock) : AllFree (resetBlocks s x c) := by
  refine ⟨fun i => ?_, rfl⟩
  rw [slotAt_resetBlocks, resetSlot]
  split
  · next h => exact h
  · rfl

theorem allFree_powerUp {s t : State} (h : execPowerUp s = .next t) : AllFree t :=
  ⟨fun i => by rw [slotAt_powerUp h i], waitList_powerUp h⟩

/-- The rules for the soundness of the locks, and for the freedom from cycles of a step that begins without one. -/
theorem rules_locks (begun : Prop) : StepRules (fun _ => True) fun s => LocksOk s ∧ (begun → NoCycle s) := by
  have follow : ∀ {s t : State}, LocksFollow s t → LocksOk s ∧ (begun → NoCycle s) → LocksOk t ∧ (begun → NoCycle t) :=
    fun h ⟨hs, hn⟩ =>
      have ⟨h1, h2⟩ := h hs
      ⟨h1, fun hb => h2 (hn hb)⟩
  have fresh : ∀ {t : State}, AllFree t → LocksOk t ∧ (begun → NoCycle t) := fun h => ⟨h.locksOk, fun _ => h.noCycle⟩
  exact {
    congr := fun ht h => by
      obtain ⟨h1, h2, -⟩ := holdings_ext ht
      exact follow (follow_congr h1 h2) h
    preCongr := fun _ h => h
    takes := fun _ _ tag args _ ha h => follow (follow_ownerAct (ownerTakes_act tag args ha)) h
    restart := fun s _ => fresh (allFree_resetBlocks { s with array := arrayAfterService s } _ _)
    powerUp := fun _ _ ht => fresh (allFree_powerUp ht)
    assertReset := fun s h => follow (follow_congr (s := s) rfl rfl) h
    releaseReset := fun s h => follow (follow_congr (s := resetBlocks s .reset .reset) rfl rfl) (fresh (allFree_resetBlocks ..))
    clear := fun s _ h => by
      obtain ⟨h1, h2, -⟩ := table_clearPage s
      exact follow (follow_congr h1 h2) h
    period := period_of_tick (fun s _ h => follow (follow_congr (s := s) rfl rfl) h) (fun _ _ h => h)
      fun s _ h => follow (follow_endTick s) h
    tick := fun s _ h => follow (follow_endTick s) h
    lapse := fun s i _ h _ => follow (follow_of_shrinks fun k => shrinks_lapseSlot k i) h
    expire := fun s e _ h he =>
      follow (follow_of_shrinks fun k => shrinks_dropEntry k (List.mem_of_mem_filter he) .timedOut) h
    page := fun s p j _ _ h => by
      obtain ⟨h1, h2, -⟩ := table_servePageStep s p j
      exact follow (follow_congr h1 h2) h }

theorem locksOk_step {s t : State} (h : LocksOk s) (ht : step s = .next t) : LocksOk t :=
  ((rules_locks False).keeps_step trivial ⟨h, False.elim⟩ ht).1

/-! ### Every entry stays blocked (R60) -/

/-- A record stands in the way of every request that another stood in the way of. -/
def StandsIn (c d : Claimed) : Prop :=
  ∀ p m r, Conflict p m r c.holder c.mode c.range → Conflict p m r d.holder d.mode d.range

theorem StandsIn.refl (c : Claimed) : StandsIn c c := fun _ _ _ h => h

/-- The list is as it was and every HELD record still stands in the way. -/
theorem eachBlocked_of_held {s t : State} (hw : t.waitList = s.waitList)
    (hh : ∀ i c, Held s i c → ∃ d, Held t i d ∧ StandsIn c d) (h : EachEntryBlocked s) : EachEntryBlocked t := by
  intro older e younger hl
  rcases h older e younger (hw ▸ hl) with ⟨i, c, hc, hx⟩ | ho
  · obtain ⟨d, hd, hcd⟩ := hh i c hc
    exact .inl ⟨i, d, hd, hcd _ _ _ hx⟩
  · exact .inr ho

theorem eachBlocked_of_leases {s t : State} (hw : t.waitList = s.waitList)
    (ht : ∀ i, SameRecord (slotAt s i) (slotAt t i)) (h : EachEntryBlocked s) : EachEntryBlocked t :=
  eachBlocked_of_held hw (fun i c hc => ⟨c, (ht i).held hc, .refl c⟩) h

theorem eachBlocked_congr {s t : State} (ht : t.table = s.table) (hw : t.waitList = s.waitList)
    (h : EachEntryBlocked s) : EachEntryBlocked t :=
  eachBlocked_of_leases hw (fun i => slotAt_eq_of_table ht i ▸ SameRecord.refl _) h

/-- One slot that held no record, or one that the new one stands in for, is another. -/
theorem eachBlocked_of_slot {s t : State} {i : SlotId} (hw : t.waitList = s.waitList)
    (hj : ∀ j, j ≠ i → slotAt t j = slotAt s j) (hi : ∀ c, Held s i c → ∃ d, Held t i d ∧ StandsIn c d)
    (h : EachEntryBlocked s) : EachEntryBlocked t := by
  refine eachBlocked_of_held hw (fun j c hc => ?_) h
  by_cases hne : j = i
  · subst hne; exact hi c hc
  · obtain ⟨l, n, hc⟩ := hc
    exact ⟨c, ⟨l, n, hj j hne ▸ hc⟩, .refl c⟩

theorem eachBlocked_countWaits {s : State} (h : EachEntryBlocked s) : EachEntryBlocked (countWaits s) := by
  intro older e younger hl
  obtain ⟨older', o, younger', hl', rfl, rfl⟩ := split_map hl
  rcases h older' o younger' hl' with hb | ⟨x, hx, hb⟩
  · exact .inl hb
  · exact .inr ⟨_, List.mem_map_of_mem hx, hb⟩

/-- A blocked request joins the list. -/
theorem eachBlocked_queue {s t : State} {e : WaitEntry} (hw : t.waitList = s.waitList ++ [e])
    (held : ∀ i c, Held t i c ↔ Held s i c) (hb : blocked s e.port e.mode e.range = true) (h : EachEntryBlocked s) :
    EachEntryBlocked t := by
  intro older o younger hl
  rw [hw] at hl
  rcases List.eq_nil_or_concat younger with rfl | ⟨ys, y, rfl⟩
  · obtain ⟨rfl, ho⟩ := List.append_inj' hl rfl
    cases ho
    rcases blocked_iff.1 hb with ⟨i, c, hc, hx⟩ | hx
    · exact .inl ⟨i, c, (held i c).2 hc, hx⟩
    · exact .inr hx
  · have hl' : s.waitList ++ [e] = (older ++ o :: ys) ++ [y] := by simpa using hl
    obtain ⟨hl', -⟩ := List.append_inj' hl' rfl
    rcases h older o ys hl' with ⟨i, c, hc, hx⟩ | hx
    · exact .inl ⟨i, c, (held i c).2 hc, hx⟩
    · exact .inr hx

theorem eachBlocked_teardown (s : State) (p : Port) : EachEntryBlocked (teardown s p) := by
  rw [teardown_eq]
  exact grantScan_blocked _

theorem eachBlocked_ownerAct {p : Port} {s t : State} (a : OwnerAct p s t) (h : EachEntryBlocked s) :
    EachEntryBlocked t := by
  cases a with
  | kept t ht =>
    obtain ⟨h1, h2, -⟩ := holdings_ext ht
    exact eachBlocked_congr h1 h2 h
  | tornDown => exact eachBlocked_teardown s p
  | claimGranted m r term label i _ _ _ _ _ hf =>
    refine eachBlocked_of_slot (s := s) (i := i) rfl (fun j hj => slotAt_allocate_other s p _ hj) (fun c hc => ?_) h
    exact absurd hc (not_held_of hf rfl c)
  | claimQueued m r term label i wait tag _ _ _ _ _ _ hf hb =>
    obtain ⟨-, hw, -⟩ := table_appendEntry (allocate s p i (.reserved ⟨p, m, r, label⟩))
      ⟨slotHandle s i, p, .claim term label, m, r, wait, tag⟩
    exact eachBlocked_queue (s := s) hw (fun j c => held_appendEntry.trans (held_allocate_reserved hf)) hb h
  | renewed i c l n term hc => exact eachBlocked_of_leases (s := s) rfl (sameRecord_setLease hc) h
  | freedLapsed i c l x hc =>
    refine eachBlocked_of_slot (waitList_freeSlot_eq s i)
      (fun j hj => slotAt_freeSlot_other (c := c) (by rw [hc]; rfl) hj) (fun d hd => ?_) h
    exact absurd hd (not_held_of hc rfl d)
  | upgraded i c l n hc hp hm =>
    refine eachBlocked_of_slot (s := s) (i := i) rfl (fun j hj => slotAt_setContent_other s _ hj) (fun d hd => ?_) h
    obtain ⟨l', n', hd⟩ := hd
    rw [hc] at hd
    cases hd
    refine ⟨{ c with mode := .exclusive }, ⟨l, n, by rw [slotAt_setContent_same]⟩, fun q m r ⟨h1, h2, _⟩ => ⟨h1, h2, ?_⟩⟩
    exact fun hx => nomatch hx.2
  | upgradeQueued i c l n wait tag _ _ _ _ _ _ hb =>
    obtain ⟨-, hw, -⟩ := table_appendEntry s ⟨slotHandle s i, p, .upgrade, .exclusive, c.range, wait, tag⟩
    exact eachBlocked_queue hw (fun j c => held_appendEntry) hb h
  | jobAdmitted sides j =>
    obtain ⟨h1, h2, -⟩ := holdings_ext (holdings_chooseJob (reservePlace (s.setJob p (some j)) p .job))
    exact eachBlocked_congr h1 h2 h
  | evicted q => exact eachBlocked_congr rfl rfl (eachBlocked_teardown s q)
  | released => exact grantScan_blocked _
  | downgraded => exact grantScan_blocked _
  | trimmed => exact grantScan_blocked _
  | cancelled => exact grantScan_blocked _
  | revoked => exact grantScan_blocked _
  | withdrawn => exact grantScan_blocked _
  | _ => exact eachBlocked_congr rfl rfl h

theorem lapseSlot_of_not_due {s : State} {i : SlotId} (h : lapseDue s i = false) : lapseSlot s i = s := by
  unfold lapseSlot
  split
  · next c l hc => simp [lapseDue, hc] at h
  · rfl

theorem lapses_of_none_due {s : State} (h : allSlots.any (lapseDue s) = false) : lapses s = s := by
  unfold lapses
  generalize allSlots = l at h
  induction l with
  | nil => rfl
  | cons i l ih =>
    rw [List.any_cons, Bool.or_eq_false_iff] at h
    rw [List.foldl_cons, lapseSlot_of_not_due h.1, ih h.2]

/-- R81: a tick at which nothing lapses and nothing times out needs no scan. -/
theorem eachBlocked_tickLocks {s : State} (h : EachEntryBlocked s) : EachEntryBlocked (tickLocks s) := by
  obtain ⟨h1, h2⟩ := counted_leases s
  unfold tickLocks
  simp only
  split
  · exact grantScan_blocked _
  · next hnone =>
    rw [Bool.not_eq_true, Bool.or_eq_false_iff, Bool.not_eq_false'] at hnone
    obtain ⟨hdue, hexp⟩ := hnone
    rw [lapses_of_none_due hdue] at hexp ⊢
    have he : waitExpiries (warnings (countdown s)) = countWaits (warnings (countdown s)) := by
      rw [waitExpiries]
      simp only [List.isEmpty_iff.1 hexp, List.foldl_nil]
    rw [he]
    exact eachBlocked_countWaits (eachBlocked_of_leases h2 h1 h)

theorem eachBlocked_endTick {s : State} (h : EachEntryBlocked s) : EachEntryBlocked (endTick s) := by
  obtain ⟨h1, h2, -⟩ := table_endTick s
  exact eachBlocked_congr h1 h2 (eachBlocked_tickLocks h)

theorem AllFree.eachBlocked {s : State} (h : AllFree s) : EachEntryBlocked s := by
  intro older e younger hl
  rw [h.waits] at hl
  simp at hl

theorem LeasesOk.not_lapseDue {s : State} (h : LeasesOk s) (i : SlotId) : lapseDue s i ≠ true := by
  unfold lapseDue
  split
  · next c l hc => exact fun _ => absurd (h.held i c l 0 hc).1 (by decide)
  · simp

theorem LeasesOk.not_expired {s : State} (h : LeasesOk s) (e : WaitEntry) : e ∉ expiredEntries s := by
  intro he
  obtain ⟨hm, hz⟩ := List.mem_filter.1 he
  have := (h.entries e hm).1
  simp only [decide_eq_true_eq] at hz
  omega

/-- At the start of a step nothing is due to lapse or to time out but at a tick. -/
theorem rules_blocked : StepRules LeasesOk EachEntryBlocked where
  congr ht h := by
    obtain ⟨h1, h2, -⟩ := holdings_ext ht
    exact eachBlocked_congr h1 h2 h
  preCongr ht h := by
    obtain ⟨h1, h2, -⟩ := holdings_ext ht
    rw [leasesOk_iff] at h ⊢
    exact cells_congr h1 h2 h
  takes _ _ tag args _ ha h := eachBlocked_ownerAct (ownerTakes_act tag args ha) h
  restart s _ := (allFree_resetBlocks { s with array := arrayAfterService s } _ _).eachBlocked
  powerUp _ _ ht := (allFree_powerUp ht).eachBlocked
  assertReset _ h := eachBlocked_congr rfl rfl h
  releaseReset s _ := eachBlocked_congr (s := resetBlocks s .reset .reset) rfl rfl (allFree_resetBlocks ..).eachBlocked
  clear s _ h := by
    obtain ⟨h1, h2, -⟩ := table_clearPage s
    exact eachBlocked_congr h1 h2 h
  period := period_of_tick (fun _ _ h => eachBlocked_congr rfl rfl h)
    (fun s c h => by rw [leasesOk_iff] at h ⊢; exact cells_congr rfl rfl h) fun _ _ h => eachBlocked_endTick h
  tick _ _ h := eachBlocked_endTick h
  lapse _ i hs _ hd := absurd hd (hs.not_lapseDue i)
  expire _ e hs _ he := absurd he (hs.not_expired e)
  page s p j _ _ h := by
    obtain ⟨h1, h2, -⟩ := table_servePageStep s p j
    exact eachBlocked_congr h1 h2 h

end Sys2Proof.Machine

namespace Sys2Proof.Proofs

open Sys2Proof.Machine

/-- Settles O12: locks end and weaken, a scan grants only what nothing blocks, and what joins the list passes the
DEADLOCK check. -/
theorem locksKept : Obligations.LocksKept := fun s _ h ht =>
  (rules_locks (NoCycle s)).keeps_step trivial ⟨h, id⟩ ht

/-- Settles O14: whatever takes a lock or an older entry away ends in a scan. -/
theorem entriesStayBlocked : Obligations.EntriesStayBlocked := fun _ _ _ hl h ht => rules_blocked.keeps_step hl h ht

end Sys2Proof.Proofs
end


section
/-! PROOFS. The usage of each port over every step (R18, R19). -/

namespace Sys2Proof.Machine

/-- R18: the slots of a port that are not FREE. -/
def ownedCount (s : State) (p : Port) : Nat := (allSlots.filter (ownedBy s p)).length

/-- The number of a port's slots after one slot has changed. -/
theorem ownedCount_oneSlot {s t : State} {p : Port} (i : SlotId) (h : ∀ j, j ≠ i → ownedBy t p j = ownedBy s p j) :
    ownedCount t p + (if ownedBy s p i then 1 else 0) = ownedCount s p + (if ownedBy t p i then 1 else 0) := by
  have hnodup : allSlots.Nodup := List.nodup_finRange 128
  have hperm := List.perm_cons_erase (mem_allSlots i)
  have hrest : (allSlots.erase i).countP (ownedBy t p) = (allSlots.erase i).countP (ownedBy s p) :=
    List.countP_congr fun j hj => by rw [h j (hnodup.mem_erase_iff.1 hj).1]
  unfold ownedCount
  rw [← List.countP_eq_length_filter, ← List.countP_eq_length_filter, hperm.countP_eq, hperm.countP_eq,
    List.countP_cons, List.countP_cons, hrest]
  omega

/-- The slots of every port, their usage and their quotas are as they were. -/
theorem usageOk_congr {s t : State} (ho : ∀ p i, ownedBy t p i = ownedBy s p i)
    (hu : ∀ p, (t.session p).usage = (s.session p).usage) (hq : t.params = s.params) (h : UsageOk s) : UsageOk t := by
  intro p
  obtain ⟨h1, h2⟩ := h p
  have : ownedBy t p = ownedBy s p := funext (ho p)
  exact ⟨by rw [hu, h1, this], by rw [hu, hq]; exact h2⟩

/-- An operation keeps the count of each port's slots in step with its usage. -/
def UsageFollows (s t : State) : Prop := UsageOk s → UsageOk t

theorem UsageFollows.trans {s t u : State} (h : UsageFollows s t) (k : UsageFollows t u) : UsageFollows s u :=
  fun hs => k (h hs)

theorem usageFollows_foldl {α : Type} {f : State → α → State} (hf : ∀ s x, UsageFollows s (f s x)) (l : List α)
    (s : State) : UsageFollows s (l.foldl f s) := by
  induction l generalizing s with
  | nil => exact id
  | cons x l ih => exact (hf s x).trans (ih _)

theorem ownedBy_of_table {s t : State} (ht : t.table = s.table) (p : Port) (i : SlotId) : ownedBy t p i = ownedBy s p i :=
  ownedBy_of_slot (slotAt_eq_of_table ht i)

/-- The table is as it was. -/
theorem usageFollows_table {s t : State} (ht : t.table = s.table) (hu : ∀ p, (t.session p).usage = (s.session p).usage)
    (hq : t.params = s.params) : UsageFollows s t := usageOk_congr (ownedBy_of_table ht) hu hq

theorem ownedBy_of_same_holder {s t : State} {i : SlotId} {c d : Claimed} (hs : (slotAt s i).content.claimed = some c)
    (ht : (slotAt t i).content.claimed = some d) (hp : d.holder = c.holder) (p : Port) :
    ownedBy t p i = ownedBy s p i := by
  rw [ownedBy_of_claimed hs, ownedBy_of_claimed ht, hp]

/-- One slot's content is another, of the same holder. -/
theorem ownedBy_setContent {s : State} {i : SlotId} {x : Content} {c d : Claimed}
    (hs : (slotAt s i).content.claimed = some c) (hx : x.claimed = some d) (hp : d.holder = c.holder) (p : Port)
    (j : SlotId) : ownedBy (setContent s i x) p j = ownedBy s p j := by
  by_cases hj : j = i
  · subst hj
    exact ownedBy_of_same_holder hs (by rw [slotAt_setContent_same]; exact hx) hp p
  · exact ownedBy_of_slot (slotAt_setContent_other s _ hj)

theorem ownedBy_scanned {s t : State} {i : SlotId} (h : ScannedSlot s t i) (p : Port) : ownedBy t p i = ownedBy s p i := by
  cases hc : (slotAt s i).content with
  | free => rw [ownedBy, ownedBy, hc, h.free hc]
  | reserved c =>
    rcases h.reserved c hc with ht | ⟨m, term, ht⟩
    · rw [ownedBy, ownedBy, hc, ht]
    · exact ownedBy_of_same_holder (c := c) (d := { c with mode := m }) (by rw [hc]; rfl) (by rw [ht]; rfl) rfl p
  | held c l n =>
    obtain ⟨m, ht, -⟩ := h.held c l n hc
    exact ownedBy_of_same_holder (c := c) (d := { c with mode := m }) (by rw [hc]; rfl) (by rw [ht]; rfl) rfl p
  | lapsed c l x => rw [ownedBy, ownedBy, hc, h.lapsed c l x hc]

theorem ownedBy_grantScan (s : State) (p : Port) (i : SlotId) : ownedBy (grantScan s) p i = ownedBy s p i :=
  ownedBy_scanned ((grantScan_scanned s).slots i) p

theorem usage_of_scanned {x y : Session} (h : ScannedSession x y) :
    y.usage = x.usage ∧ y.state = x.state := by
  obtain ⟨-, h⟩ := h
  rw [← h]
  exact ⟨rfl, rfl⟩

theorem usageFollows_grantScan (s : State) : UsageFollows s (grantScan s) :=
  usageOk_congr (ownedBy_grantScan s) (fun p => (usage_of_scanned ((grantScan_scanned s).sessions p)).1)
    (params_of_board (board_grantScan s))

theorem usageFollows_freeSlot (s : State) (i : SlotId) : UsageFollows s (freeSlot s i) := by
  intro h p
  cases hc : (slotAt s i).content.claimed with
  | none =>
    have : freeSlot s i = s := by simp only [freeSlot, hc]
    rw [this]
    exact h p
  | some c =>
    obtain ⟨h1, h2⟩ := h p
    have hone := ownedCount_oneSlot (t := freeSlot s i) (p := p) i fun j hj => ownedBy_of_slot (slotAt_freeSlot_other hc hj)
    have hfree : ownedBy (freeSlot s i) p i = false := by rw [ownedBy, slotAt_freeSlot_same hc]; rfl
    rw [hfree, ownedBy_of_claimed hc] at hone
    change (s.session p).usage = ownedCount s p at h1
    rw [params_of_board (board_freeSlot s i)]
    change ((freeSlot s i).session p).usage = ownedCount (freeSlot s i) p ∧ _
    by_cases hp : p = c.holder
    · subst hp
      rw [session_freeSlot_holder hc]
      simp only [beq_self_eq_true, if_true, Bool.false_eq_true, if_false] at hone ⊢
      omega
    · rw [freeSlot_of_claimed hc, State.session_modSession_other _ _ hp, State.session_setSlot, ← freeSlot_of_claimed hc]
      have hne : (c.holder == p) = false := by simpa using fun heq => hp heq.symm
      simp only [hne, Bool.false_eq_true, if_false] at hone
      omega

/-- R13, R19: a FREE slot is allocated to a port below its quota. -/
theorem usageFollows_allocate {s : State} {p : Port} {i : SlotId} {x : Content} {c : Claimed}
    (hf : (slotAt s i).content = .free) (hx : x.claimed = some c) (hp : c.holder = p)
    (hq : (s.session p).usage < s.params.quota.get p) : UsageFollows s (allocate s p i x) := by
  intro h q
  obtain ⟨h1, h2⟩ := h q
  have hone := ownedCount_oneSlot (t := allocate s p i x) (p := q) i fun j hj =>
    ownedBy_of_slot (slotAt_allocate_other s p _ hj)
  have hs : ownedBy s q i = false := by rw [ownedBy, hf]; rfl
  have ht : ownedBy (allocate s p i x) q i = (p == q) := by
    rw [← hp]
    exact ownedBy_of_claimed (by rw [slotAt_allocate_same]; exact hx)
  rw [hs, ht] at hone
  change (s.session q).usage = ownedCount s q at h1
  change ((allocate s p i x).session q).usage = ownedCount (allocate s p i x) q ∧ _ ≤ s.params.quota.get q
  by_cases hqp : q = p
  · subst hqp
    rw [session_allocate_same]
    simp only [beq_self_eq_true, if_true, Bool.false_eq_true, if_false] at hone ⊢
    omega
  · have hsess : (allocate s p i x).session q = s.session q := State.session_modSession_other _ _ hqp
    have hne : (p == q) = false := by simpa using fun heq => hqp heq.symm
    rw [hsess]
    simp only [hne, Bool.false_eq_true, if_false] at hone
    omega

/-! ### The other operations -/

theorem usage_modSession {s : State} {p : Port} {g : Session → Session} (hg : (g (s.session p)).usage = (s.session p).usage)
    (q : Port) : ((s.modSession p g).session q).usage = (s.session q).usage := by
  rw [State.session_modSession]
  split
  · next h => subst h; exact hg
  · rfl

theorem usageFollows_setContent {s : State} {i : SlotId} {x : Content} {c d : Claimed}
    (hs : (slotAt s i).content.claimed = some c) (hx : x.claimed = some d) (hp : d.holder = c.holder) :
    UsageFollows s (setContent s i x) := usageOk_congr (ownedBy_setContent hs hx hp) (fun _ => rfl) rfl

theorem usageFollows_modPort (s : State) (p : Port) (g : PortUnit → PortUnit) : UsageFollows s (s.modPort p g) :=
  usageFollows_table (by simp) (by simp) (by simp)

theorem usageFollows_modSession {s : State} {p : Port} {g : Session → Session}
    (hg : (g (s.session p)).usage = (s.session p).usage) : UsageFollows s (s.modSession p g) :=
  usageFollows_table (by simp) (usage_modSession hg) (by simp)

theorem usageFollows_setHeld {s : State} {i : SlotId} {c d : Claimed} {l l' : Lease} {n n' : Nat}
    (hc : (slotAt s i).content = .held c l n) (hp : d.holder = c.holder) :
    UsageFollows s (setContent s i (.held d l' n')) :=
  usageFollows_setContent (c := c) (d := d) (by rw [hc]; rfl) rfl hp

/-- A HELD record changes, and its holder is told. -/
theorem usageFollows_told {s : State} {i : SlotId} {c d : Claimed} {l : Lease} {n : Nat} {x : Content}
    (hc : (slotAt s i).content = .held c l n) (hx : x.claimed = some d) (hp : d.holder = c.holder) (p : Port)
    (g : PortUnit → PortUnit) : UsageFollows s ((setContent s i x).modPort p g) :=
  (usageFollows_setContent (c := c) (by rw [hc]; rfl) hx hp).trans (usageFollows_modPort _ p g)

theorem usageFollows_endEntry (s : State) (e : WaitEntry) (how : WaitEnd) : UsageFollows s (endEntry s e how) :=
  usageFollows_table rfl (usage_modSession (s := { s with waitList := s.waitList.erase e }) rfl) rfl

theorem usageFollows_dropEntry (s : State) (e : WaitEntry) (how : WaitEnd) : UsageFollows s (dropEntry s e how) := by
  refine (usageFollows_endEntry s e how).trans ?_
  unfold dropEntry freeClaimSlot
  split
  · exact usageFollows_freeSlot _ _
  · exact id

theorem usageFollows_endUpgradeOf (s : State) (k : Half) : UsageFollows s (endUpgradeOf s k) := by
  unfold endUpgradeOf
  split
  · exact usageFollows_endEntry _ _ _
  · exact id

theorem usageFollows_lapseSlot (s : State) (i : SlotId) : UsageFollows s (lapseSlot s i) := by
  unfold lapseSlot
  split
  · next c l hc =>
    exact (usageFollows_told (x := .lapsed c l .expired) hc rfl rfl _ _).trans (usageFollows_endUpgradeOf _ _)
  · exact id

theorem usageFollows_revokeSlot {s : State} {i : SlotId} {c : Claimed} {l : Lease} {n : Nat}
    (hc : (slotAt s i).content = .held c l n) : UsageFollows s (revokeSlot s i c l) :=
  (usageFollows_told (x := .lapsed c l .revoked) hc rfl rfl _ _).trans (usageFollows_endUpgradeOf _ _)

theorem usageFollows_withdrawSlot (s : State) (i : SlotId) : UsageFollows s (withdrawSlot s i) := by
  unfold withdrawSlot
  split
  · exact (usageFollows_endEntry _ _ _).trans (usageFollows_freeSlot _ _)
  · exact usageFollows_freeSlot _ _

theorem usageFollows_warnSlot (s : State) (i : SlotId) : UsageFollows s (warnSlot s i) := by
  unfold warnSlot
  split
  · split
    · next c l n hc =>
      exact usageFollows_told (x := .held c { l with warned := true } n) hc rfl rfl _ _
    · exact id
  · exact id

theorem ownedBy_countdown (s : State) (p : Port) (i : SlotId) : ownedBy (countdown s) p i = ownedBy s p i := by
  unfold ownedBy
  rw [slotAt_countdown]
  cases h : (slotAt s i).content <;> simp only [countdownSlot, h, Content.claimed]

theorem usageFollows_tickLocks (s : State) : UsageFollows s (tickLocks s) := by
  have counted : UsageFollows s (countdown s) := usageOk_congr (ownedBy_countdown s) (fun _ => rfl) rfl
  have ended : UsageFollows s (waitExpiries (lapses (warnings (countdown s)))) :=
    ((counted.trans (usageFollows_foldl usageFollows_warnSlot _ _)).trans
      (usageFollows_foldl usageFollows_lapseSlot _ _)).trans
      (UsageFollows.trans (usageFollows_table (t := countWaits _) rfl (fun _ => rfl) rfl)
        (usageFollows_foldl (fun s e => usageFollows_dropEntry s e .timedOut) _ _))
  unfold tickLocks
  simp only
  split
  · exact ended.trans (usageFollows_grantScan _)
  · exact ended

theorem usageFollows_endTick (s : State) : UsageFollows s (endTick s) := by
  obtain ⟨h1, -, h3⟩ := table_endTick s
  refine (usageFollows_tickLocks s).trans (usageFollows_table h1 (fun p => by simp only [State.session, h3]) ?_)
  rw [params_endTick, params_of_board (board_tickLocks s)]

/-- R96 to R98: what a teardown does after it has freed the slots, before its scan. -/
theorem usageFollows_torn (s : State) (p : Port) (b : Bool) (g : PortUnit → PortUnit) (j : Option Job) :
    UsageFollows s ((((removeEntriesOf s p).modSession p (tornSession b)).modPort p g).setJob p j) :=
  usageFollows_table rfl (usage_modSession (s := s) rfl) rfl

theorem usageFollows_teardown (s : State) (p : Port) : UsageFollows s (teardown s p) := by
  rw [teardown_eq, closeJob_eq]
  refine UsageFollows.trans ?_ (usageFollows_grantScan _)
  have freed : UsageFollows s (freeSlotsOf s p) := by
    refine usageFollows_foldl (fun s i => ?_) _ s
    split
    · exact usageFollows_freeSlot s i
    · exact id
  exact freed.trans (usageFollows_torn _ p _ _ _)

theorem usageFollows_appendEntry (s : State) (e : WaitEntry) : UsageFollows s (appendEntry s e) := by
  obtain ⟨ht, -, hs⟩ := table_appendEntry s e
  refine usageFollows_table ht (fun p => ?_) (params_of_board (board_appendEntry s e))
  have : (appendEntry s e).session p = (reservePlace s e.port (.entry e.ticket)).session p := by
    simp only [State.session, hs]
  rw [this]
  exact usage_modSession (s := s) rfl p

theorem usageOk_configured {s : State} {v : Nat} {x : Param} (hq : quotaInUse s v x = false) (h : UsageOk s) :
    UsageOk { s with params := setParam s.params v x, clock := setParamClock s.clock v x } := by
  intro p
  obtain ⟨h1, h2⟩ := h p
  refine ⟨h1, ?_⟩
  change (s.session p).usage ≤ (setParam s.params v x).quota.get p
  cases x with
  | quota q =>
    simp only [quotaInUse, decide_eq_false_iff_not, not_lt] at hq
    simp only [setParam]
    rw [PerPort.get_set]
    split
    · next hp => subst hp; exact hq
    · exact h2
  | _ => exact h2

theorem usageFollows_ownerAct {p : Port} {s t : State} (a : OwnerAct p s t) : UsageFollows s t := by
  cases a with
  | kept t ht =>
    obtain ⟨h1, -, -, -, h5, h6, -⟩ := holdings_ext ht
    exact usageFollows_table h1 (fun p => by simp only [State.session, h6]) h5
  | tornDown => exact usageFollows_teardown s p
  | claimGranted m r term label i _ _ _ _ hq hf => exact usageFollows_allocate (c := ⟨p, m, r, label⟩) hf rfl rfl hq
  | claimQueued m r term label i wait tag _ _ _ _ _ hq hf =>
    exact (usageFollows_allocate (c := ⟨p, m, r, label⟩) hf rfl rfl hq).trans (usageFollows_appendEntry _ _)
  | renewed i c l n term hc => exact usageFollows_setHeld hc rfl
  | released i => exact (usageFollows_freeSlot s i).trans (usageFollows_grantScan _)
  | freedLapsed i => exact usageFollows_freeSlot s i
  | downgraded i c l n hc =>
    exact (usageFollows_setHeld (d := { c with mode := .shared }) hc rfl).trans (usageFollows_grantScan _)
  | upgraded i c l n hc => exact usageFollows_setHeld hc rfl
  | upgradeQueued => exact usageFollows_appendEntry _ _
  | trimmed i c l n r hc =>
    exact (usageFollows_setHeld (d := { c with range := r }) hc rfl).trans (usageFollows_grantScan _)
  | cancelled e => exact (usageFollows_dropEntry s e _).trans (usageFollows_grantScan _)
  | jobAdmitted sides j =>
    obtain ⟨h1, -, -, -, h5, h6, -⟩ := holdings_ext (holdings_chooseJob (reservePlace (s.setJob p (some j)) p .job))
    refine UsageFollows.trans (t := reservePlace (s.setJob p (some j)) p .job)
      (usageFollows_table rfl (usage_modSession (s := s.setJob p (some j)) rfl) rfl)
      (usageFollows_table h1 (fun p => by simp only [State.session, h6]) h5)
  | jobStopped => exact usageFollows_table rfl (fun _ => rfl) rfl
  | revoked i c l n hc => exact (usageFollows_revokeSlot hc).trans (usageFollows_grantScan _)
  | withdrawn i => exact (usageFollows_withdrawSlot s i).trans (usageFollows_grantScan _)
  | evicted q => exact (usageFollows_teardown s q).trans (usageFollows_modSession rfl)
  | configured v x _ hq => exact usageOk_configured hq
  | written => exact usageFollows_table rfl (fun _ => rfl) rfl
  | _ => exact usageFollows_modSession rfl

theorem AllFree.usageOk {t : State} (h : AllFree t) (hs : t.sessions = .all .reset) : UsageOk t := by
  intro p
  have hu : (t.session p).usage = 0 := by simp [State.session, hs, Session.reset]
  have hn : ∀ i, ownedBy t p i = false := fun i => by rw [ownedBy, h.slots i]; rfl
  have hf : allSlots.filter (ownedBy t p) = [] := List.filter_eq_nil_iff.2 fun i _ => by rw [hn i]; simp
  rw [hu, hf]
  exact ⟨rfl, Nat.zero_le _⟩

theorem usageFollows_servePageStep (s : State) (p : Port) (j : Job) : UsageFollows s (servePageStep s p j) := by
  have ended : ∀ (m : Memory) (k : Job) (o : OutcomeBody), UsageFollows s (endJob { s with array := m } p k o) :=
    fun m k o => usageFollows_table rfl (usage_modSession (s := State.setJob { s with array := m } p none) rfl) rfl
  unfold servePageStep
  split
  · exact usageFollows_table rfl (usage_modSession (s := s.setJob p none) rfl) rfl
  · exact ended s.array j _
  · simp only
    split
    · exact ended _ _ _
    · exact usageFollows_table rfl (fun _ => rfl) rfl

theorem rules_usage : StepRules (fun _ => True) UsageOk where
  congr ht h := by
    obtain ⟨h1, -, -, -, h5, h6, -⟩ := holdings_ext ht
    exact usageFollows_table h1 (fun p => by simp only [State.session, h6]) h5 h
  preCongr _ h := h
  takes _ _ tag args _ ha h := usageFollows_ownerAct (ownerTakes_act tag args ha) h
  restart s _ := (allFree_resetBlocks { s with array := arrayAfterService s } _ _).usageOk rfl
  powerUp s t ht := (allFree_powerUp ht).usageOk (by cases ht; rfl)
  assertReset s h := usageFollows_table (s := s) rfl (fun _ => rfl) rfl h
  releaseReset s _ := usageFollows_table (s := resetBlocks s .reset .reset) rfl (fun _ => rfl) rfl
    ((allFree_resetBlocks s .reset .reset).usageOk rfl)
  clear s _ h := by
    obtain ⟨h1, -, h3, h4, -⟩ := table_clearPage s
    exact usageFollows_table h1 (fun p => by simp only [State.session, h4]) h3 h
  period := period_of_tick (fun s _ h => usageFollows_table (s := s) rfl (fun _ => rfl) rfl h) (fun _ _ h => h)
    fun s _ h => usageFollows_endTick s h
  tick s _ h := usageFollows_endTick s h
  lapse s i _ h _ := usageFollows_lapseSlot s i h
  expire s e _ h _ := usageFollows_dropEntry s e .timedOut h
  page s p j _ _ h := usageFollows_servePageStep s p j h

end Sys2Proof.Machine
end


section
/-! PROOFS. What the sessions own over every step: their outcome places, and nothing where they are not ATTACHED (R98,
R100, R126, R128). -/

namespace Sys2Proof.Machine

/-! ### One port -/

/-- The tickets of a port's wait entries, oldest first. -/
def workTickets (s : State) (p : Port) : List Half := (s.waitList.filter fun e => e.port == p).map WaitEntry.ticket

/-- The places of the entries with these tickets are no longer reserved. -/
def without (r : List Reservation) (tickets : List Half) : List Reservation :=
  tickets.foldl (fun r h => r.erase (.entry h)) r

theorem placesWithout_eq (r : List Reservation) (l : List WaitEntry) :
    placesWithout r l = without r (l.map WaitEntry.ticket) := by
  simp only [placesWithout, without, List.foldl_map]

theorem portWaits_eq_length (s : State) (p : Port) : portWaits s p = (workTickets s p).length := by
  simp [portWaits, workTickets]

/-- The place of the active job of an ATTACHED port. -/
def jobPlace (s : State) (p : Port) : List Reservation :=
  if (s.job p).isSome && (s.session p).state == .attached then [.job] else []

theorem workPlaces_eq (s : State) (p : Port) :
    workPlaces s p = (workTickets s p).map Reservation.entry ++ jobPlace s p := by
  simp only [workPlaces, workTickets, jobPlace, List.map_map, Function.comp_def]

/-- R100, R126 for one port. -/
structure PortOk (s : State) (p : Port) : Prop where
  places   : (s.session p).reserved.Perm (workPlaces s p)
  atMost8  : placesUsed s p ≤ 8
  detached : (s.session p).state = .detached →
    s.job p = none ∧ (s.session p).held = [] ∧ portWaits s p = 0 ∧ ∀ i, ownedBy s p i = false
  closing  : (s.session p).state = .closing →
    (∃ j, s.job p = some j ∧ j.stop = .closed) ∧ (s.session p).held = [] ∧ portWaits s p = 0 ∧
      ∀ i, ownedBy s p i = false
  attached : (s.session p).state = .attached → ∀ j, s.job p = some j → j.stop ≠ .closed

theorem portsOk_iff {s : State} : PortsOk s ↔ ∀ p, PortOk s p :=
  ⟨fun h p => ⟨h.places p, h.atMost8 p, h.detached p, h.closing p, h.attached p⟩,
    fun h => ⟨fun p => (h p).places, fun p => (h p).atMost8, fun p => (h p).detached, fun p => (h p).closing,
      fun p => (h p).attached⟩⟩

/-- Some of a port's entries have ended, each with at most one outcome in the place reserved for it; its session state
and its job are as they were, and it has no new record unless it is ATTACHED. -/
structure EndsWork (s t : State) (p : Port) : Prop where
  ended : ∃ tickets, (workTickets s p).Perm (tickets ++ workTickets t p) ∧
    (t.session p).reserved = without (s.session p).reserved tickets ∧
    (t.session p).held.length ≤ (s.session p).held.length + tickets.length
  state : (t.session p).state = (s.session p).state
  job   : t.job p = s.job p
  owned : (s.session p).state ≠ .attached → ∀ i, ownedBy t p i = true → ownedBy s p i = true

theorem perm_without {r w : List Reservation} {tickets : List Half}
    (h : r.Perm (tickets.map Reservation.entry ++ w)) : (without r tickets).Perm w := by
  induction tickets generalizing r with
  | nil => exact h
  | cons k l ih =>
    refine ih ?_
    have := h.erase (.entry k)
    simpa using this

theorem length_without {r w : List Reservation} {tickets : List Half}
    (h : r.Perm (tickets.map Reservation.entry ++ w)) : r.length = tickets.length + (without r tickets).length := by
  rw [(perm_without h).length_eq, h.length_eq]
  simp

theorem EndsWork.refl (s : State) (p : Port) : EndsWork s s p :=
  ⟨⟨[], List.Perm.refl _, rfl, le_refl _⟩, rfl, rfl, fun _ _ h => h⟩

theorem EndsWork.trans {s t u : State} {p : Port} (h : EndsWork s t p) (k : EndsWork t u p) : EndsWork s u p := by
  obtain ⟨a, ha, hra, hla⟩ := h.ended
  obtain ⟨b, hb, hrb, hlb⟩ := k.ended
  refine ⟨⟨a ++ b, ?_, ?_, ?_⟩, k.state.trans h.state, k.job.trans h.job, fun hs i hu =>
    h.owned hs i (k.owned (h.state ▸ hs) i hu)⟩
  · rw [List.append_assoc]
    exact ha.trans (hb.append_left a)
  · rw [hrb, hra, without, without, without, List.foldl_append]
  · rw [List.length_append]
    omega

theorem EndsWork.keeps {s t : State} {p : Port} (h : EndsWork s t p) (hs : PortOk s p) : PortOk t p := by
  obtain ⟨tickets, hperm, hres, hheld⟩ := h.ended
  have hjob : jobPlace t p = jobPlace s p := by rw [jobPlace, jobPlace, h.job, h.state]
  have hplaces : (s.session p).reserved.Perm (tickets.map Reservation.entry ++ workPlaces t p) := by
    refine hs.places.trans ?_
    rw [workPlaces_eq, workPlaces_eq, hjob, ← List.append_assoc, ← List.map_append]
    exact (hperm.map _).append_right _
  have idle : portWaits s p = 0 → (s.session p).held = [] → portWaits t p = 0 ∧ (t.session p).held = [] := by
    intro hw hh
    rw [portWaits_eq_length, List.length_eq_zero_iff] at hw
    rw [hw] at hperm
    obtain ⟨ht, hw'⟩ := List.append_eq_nil_iff.1 hperm.nil_eq.symm
    rw [hh, ht] at hheld
    exact ⟨by rw [portWaits_eq_length, hw']; rfl, List.length_eq_zero_iff.1 (Nat.le_zero.1 hheld)⟩
  have unowned : (s.session p).state ≠ .attached → (∀ i, ownedBy s p i = false) → ∀ i, ownedBy t p i = false := by
    intro hne hno i
    by_contra hi
    have := h.owned hne i (by simpa using hi)
    rw [hno i] at this
    cases this
  refine ⟨?_, ?_, fun hd => ?_, fun hc => ?_, fun ha => ?_⟩
  · rw [hres]
    exact perm_without hplaces
  · have hlen := length_without hplaces
    have h8 := hs.atMost8
    rw [placesUsed] at h8 ⊢
    rw [hres]
    omega
  · rw [h.state] at hd
    obtain ⟨hj, hh, hw, ho⟩ := hs.detached hd
    obtain ⟨hw', hh'⟩ := idle hw hh
    exact ⟨h.job.trans hj, hh', hw', unowned (by rw [hd]; decide) ho⟩
  · rw [h.state] at hc
    obtain ⟨hj, hh, hw, ho⟩ := hs.closing hc
    obtain ⟨hw', hh'⟩ := idle hw hh
    exact ⟨by rw [h.job]; exact hj, hh', hw', unowned (by rw [hc]; decide) ho⟩
  · rw [h.job]
    exact hs.attached (h.state ▸ ha)

/-! ### The operations that end work -/

theorem session_modSession_if (s : State) (p q : Port) (g : Session → Session) :
    (s.modSession p g).session q = if q = p then g (s.session q) else s.session q := by
  rw [State.session_modSession]
  split
  · next h => rw [h]
  · rfl

/-- R127: the session contexts when a place is reserved. -/
theorem session_reservePlace (s : State) (p q : Port) (r : Reservation) :
    (reservePlace s p r).session q =
      if q = p then { s.session q with reserved := (s.session q).reserved ++ [r] } else s.session q :=
  session_modSession_if ..

/-- R128: the session contexts when an outcome fills its place. -/
theorem session_fillPlace (s : State) (p q : Port) (r : Reservation) (o : OutcomeRecord) :
    (fillPlace s p r o).session q =
      if q = p then { s.session q with reserved := (s.session q).reserved.erase r, held := (s.session q).held ++ [o] }
      else s.session q :=
  session_modSession_if ..


/-- Nothing of a port's work has changed but its records and what it has collected. -/
theorem endsWork_same {s t : State} {p : Port} (hw : workTickets t p = workTickets s p)
    (hs : (t.session p).reserved = (s.session p).reserved ∧
      (t.session p).held.length ≤ (s.session p).held.length ∧ (t.session p).state = (s.session p).state)
    (hj : t.job p = s.job p) (ho : (s.session p).state ≠ .attached → ∀ i, ownedBy t p i = true → ownedBy s p i = true) :
    EndsWork s t p := by
  obtain ⟨h1, h2, h3⟩ := hs
  refine ⟨⟨[], by rw [hw]; exact List.Perm.refl _, h1, by simpa using h2⟩, h3, hj, ho⟩

theorem workTickets_of_waitList {s t : State} (h : t.waitList = s.waitList) (p : Port) :
    workTickets t p = workTickets s p := by rw [workTickets, workTickets, h]

theorem owned_of_table {s t : State} (h : t.table = s.table) (p : Port) (i : SlotId) (ho : ownedBy t p i = true) :
    ownedBy s p i = true := (ownedBy_of_table h p i) ▸ ho

theorem endsWork_congr {s t : State} (ht : t.table = s.table) (hw : t.waitList = s.waitList)
    (hs : t.sessions = s.sessions) (hj : t.engine.jobs = s.engine.jobs) (p : Port) : EndsWork s t p := by
  have hsess : t.session p = s.session p := by simp only [State.session, hs]
  refine endsWork_same (workTickets_of_waitList hw p) (by rw [hsess]; exact ⟨rfl, le_refl _, rfl⟩)
    (by simp only [State.job, hj]) fun _ i => owned_of_table ht p i

/-- An entry leaves the list with its outcome (R128). -/
theorem endsWork_endEntry {s : State} {e : WaitEntry} (he : e ∈ s.waitList) (how : WaitEnd) (p : Port) :
    EndsWork s (endEntry s e how) p := by
  have hperm := ((List.perm_cons_erase he).filter fun o => o.port == p).map WaitEntry.ticket
  have hsess : (endEntry s e how).session p = if p = e.port then { s.session p with
      reserved := (s.session p).reserved.erase (.entry e.ticket),
      held := (s.session p).held ++ [{ tag := e.tag, body := .ended e.waitKind how e.ticket }] } else s.session p := by
    rw [endEntry, session_fillPlace]
    rfl
  by_cases hp : p = e.port
  · subst hp
    rw [if_pos rfl] at hsess
    rw [List.filter_cons_of_pos (by simp)] at hperm
    exact ⟨⟨[e.ticket], hperm, by rw [hsess]; rfl, by rw [hsess]; simp⟩, by rw [hsess], rfl, fun _ _ h => h⟩
  · rw [if_neg hp] at hsess
    rw [List.filter_cons_of_neg (by simpa using fun heq => hp heq.symm)] at hperm
    exact ⟨⟨[], hperm, by rw [hsess]; rfl, by rw [hsess]; exact le_refl _⟩, by rw [hsess], rfl, fun _ _ h => h⟩

theorem session_freeSlot (s : State) (i : SlotId) (p : Port) :
    ∃ n, (freeSlot s i).session p = { s.session p with usage := n } := by
  cases hc : (slotAt s i).content.claimed with
  | none =>
    have : freeSlot s i = s := by simp only [freeSlot, hc]
    exact ⟨(s.session p).usage, by rw [this]⟩
  | some c =>
    by_cases hp : p = c.holder
    · subst hp
      exact ⟨_, session_freeSlot_holder hc⟩
    · refine ⟨(s.session p).usage, ?_⟩
      rw [freeSlot_of_claimed hc, State.session_modSession_other _ _ hp]
      rfl

theorem ownedBy_freeSlot {s : State} {i : SlotId} {p : Port} {j : SlotId} (h : ownedBy (freeSlot s i) p j = true) :
    ownedBy s p j = true := by
  cases hc : (slotAt s i).content.claimed with
  | none =>
    have : freeSlot s i = s := by simp only [freeSlot, hc]
    exact this ▸ h
  | some c =>
    by_cases hj : j = i
    · subst hj
      rw [ownedBy, slotAt_freeSlot_same hc] at h
      cases h
    · rw [ownedBy_of_slot (slotAt_freeSlot_other hc hj)] at h
      exact h

theorem endsWork_freeSlot (s : State) (i : SlotId) (p : Port) : EndsWork s (freeSlot s i) p := by
  obtain ⟨n, hn⟩ := session_freeSlot s i p
  refine endsWork_same (workTickets_of_waitList (waitList_freeSlot_eq s i) p) (by rw [hn]; exact ⟨rfl, le_refl _, rfl⟩)
    (job_of_board (board_freeSlot s i) p) fun _ j => ownedBy_freeSlot

/-- A HELD record changes, and its holder is told. -/
theorem endsWork_setHeld {s m : State} {i : SlotId} {c d : Claimed} {l : Lease} {n : Nat} {x : Content}
    (hc : (slotAt s i).content = .held c l n) (hx : x.claimed = some d) (hp : d.holder = c.holder)
    (ht : m.table = (setContent s i x).table) (hw : m.waitList = s.waitList) (hs : m.sessions = s.sessions)
    (hj : m.engine.jobs = s.engine.jobs) (p : Port) : EndsWork s m p := by
  have hsess : m.session p = s.session p := by simp only [State.session, hs]
  refine endsWork_same (workTickets_of_waitList hw p) (by rw [hsess]; exact ⟨rfl, le_refl _, rfl⟩)
    (by simp only [State.job, hj]) fun _ j ho => ?_
  rw [ownedBy_of_table ht, ownedBy_setContent (by rw [hc]; rfl) hx hp] at ho
  exact ho

theorem endsWork_dropEntry {s : State} {e : WaitEntry} (he : e ∈ s.waitList) (how : WaitEnd) (p : Port) :
    EndsWork s (dropEntry s e how) p := by
  refine (endsWork_endEntry he how p).trans ?_
  unfold dropEntry freeClaimSlot
  split
  · exact endsWork_freeSlot _ _ p
  · exact EndsWork.refl _ p

theorem endsWork_endUpgradeOf (s : State) (k : Half) (p : Port) : EndsWork s (endUpgradeOf s k) p := by
  unfold endUpgradeOf
  split
  · next e he => exact endsWork_endEntry (List.mem_of_find?_eq_some he) _ p
  · exact EndsWork.refl s p

theorem endsWork_lapseSlot (s : State) (i : SlotId) (p : Port) : EndsWork s (lapseSlot s i) p := by
  unfold lapseSlot
  split
  · next c l hc =>
    exact (endsWork_setHeld (m := raiseLeaseLost (setContent s i (.lapsed c l .expired)) c.holder)
      (x := .lapsed c l .expired) hc rfl rfl rfl rfl rfl rfl p).trans (endsWork_endUpgradeOf _ _ p)
  · exact EndsWork.refl s p

theorem endsWork_revokeSlot {s : State} {i : SlotId} {c : Claimed} {l : Lease} {n : Nat}
    (hc : (slotAt s i).content = .held c l n) (p : Port) : EndsWork s (revokeSlot s i c l) p :=
  (endsWork_setHeld (m := raiseRevoked (setContent s i (.lapsed c l .revoked)) c.holder)
    (x := .lapsed c l .revoked) hc rfl rfl rfl rfl rfl rfl p).trans (endsWork_endUpgradeOf _ _ p)

theorem endsWork_warnSlot (s : State) (i : SlotId) (p : Port) : EndsWork s (warnSlot s i) p := by
  unfold warnSlot
  split
  · split
    · next c l n hc =>
      exact endsWork_setHeld (m := raiseLeaseLow (setContent s i (.held c { l with warned := true } n)) c.holder)
        (x := .held c { l with warned := true } n) hc rfl rfl rfl rfl rfl rfl p
    · exact EndsWork.refl s p
  · exact EndsWork.refl s p

theorem endsWork_foldl {α : Type} {f : State → α → State} {p : Port} (hf : ∀ s x, EndsWork s (f s x) p) (l : List α)
    (s : State) : EndsWork s (l.foldl f s) p := by
  induction l generalizing s with
  | nil => exact EndsWork.refl s p
  | cons x l ih => exact (hf s x).trans (ih _)

theorem endsWork_expiries {l : List WaitEntry} {s : State} (hn : l.Nodup) (hl : ∀ e ∈ l, e ∈ s.waitList) (p : Port) :
    EndsWork s (l.foldl expireEntry s) p := by
  induction l generalizing s with
  | nil => exact EndsWork.refl s p
  | cons e l ih =>
    obtain ⟨hnot, hn⟩ := List.nodup_cons.1 hn
    obtain ⟨he, hl⟩ := List.forall_mem_cons.1 hl
    refine (endsWork_dropEntry he .timedOut p).trans (ih hn fun o ho => ?_)
    have hne : o ≠ e := fun heq => hnot (heq ▸ ho)
    have hw := waitList_dropEntry s e .timedOut
    have hm : o ∈ (dropEntry s e .timedOut).waitList := by
      rw [hw]
      exact (List.mem_erase_of_ne hne).2 (hl o ho)
    exact hm

theorem endsWork_countWaits (s : State) (p : Port) : EndsWork s (countWaits s) p := by
  refine endsWork_same ?_ ⟨rfl, le_refl _, rfl⟩ rfl fun _ _ h => h
  simp [workTickets, countWaits, List.filter_map, Function.comp_def]

/-- A list without repetition is a part of it and the rest. -/
theorem perm_append_rest {α : Type} [DecidableEq α] {l g : List α} (hn : l.Nodup) (hg : g.Sublist l) :
    l.Perm (g ++ l.filter fun x => decide (x ∉ g)) := by
  have hin : (l.filter fun x => decide (x ∈ g)).Perm g := by
    rw [List.perm_ext_iff_of_nodup (hn.sublist List.filter_sublist) (hn.sublist hg)]
    intro x
    rw [List.mem_filter, decide_eq_true_eq]
    exact ⟨And.right, fun hx => ⟨hg.subset hx, hx⟩⟩
  have hall := List.filter_append_perm (fun x => decide (x ∈ g)) l
  refine hall.symm.trans ?_
  refine (hin.append_right _).trans (List.Perm.of_eq ?_)
  congr 1
  exact List.filter_congr fun x _ => by simp

theorem endsWork_grantScan {s : State} (h : InStep s) (p : Port) : EndsWork s (grantScan s) p := by
  obtain ⟨granted, k⟩ := scans_grantScan h
  obtain ⟨new, hnew, hsess⟩ := k.sessions p
  have hperm := ((perm_append_rest h.nodup k.order).filter fun e => e.port == p).map WaitEntry.ticket
  rw [← k.entries, List.filter_append, List.map_append] at hperm
  have hlen := hnew.length_eq
  refine ⟨⟨_, hperm, ?_, ?_⟩, by rw [hsess],
    job_of_board (board_grantScan s) p, fun _ i ho => ownedBy_grantScan s p i ▸ ho⟩
  · rw [hsess]
    exact placesWithout_eq _ _
  · rw [hsess, List.length_map, List.length_append]
    omega

/-! ### The teardown -/

theorem session_freeSlotsOf (s : State) (p q : Port) :
    ∃ n, (freeSlotsOf s p).session q = { s.session q with usage := n } := by
  unfold freeSlotsOf
  generalize allSlots = l
  induction l generalizing s with
  | nil => exact ⟨_, rfl⟩
  | cons i l ih =>
    obtain ⟨n, hn⟩ := ih (if ownedBy s p i then freeSlot s i else s)
    rw [List.foldl_cons, hn]
    split
    · obtain ⟨m, hm⟩ := session_freeSlot s i q
      exact ⟨n, by rw [hm]⟩
    · exact ⟨n, rfl⟩

theorem session_emptied (s : State) (p q : Port) : ∃ n, (emptied s p).session q =
    if q = p then tornSession (s.job p).isSome { s.session q with usage := n } else { s.session q with usage := n } := by
  obtain ⟨n, hn⟩ := session_freeSlotsOf s p q
  refine ⟨n, ?_⟩
  have : (removeEntriesOf (freeSlotsOf s p) p).session q = (freeSlotsOf s p).session q := by
    generalize freeSlotsOf s p = t
    rfl
  rw [emptied, State.session_modPort, session_modSession_if, this, hn]

theorem workTickets_emptied_same (s : State) (p : Port) : workTickets (emptied s p) p = [] := by
  rw [workTickets, waitList_emptied]
  simp

theorem workTickets_emptied_other (s : State) {p q : Port} (hq : q ≠ p) :
    workTickets (emptied s p) q = workTickets s q := by
  rw [workTickets, waitList_emptied, List.filter_filter, workTickets]
  congr 1
  refine List.filter_congr fun e _ => ?_
  by_cases he : e.port = q
  · simp [he, hq]
  · simp [he]

theorem ownedBy_emptied (s : State) (p q : Port) (i : SlotId) :
    ownedBy (emptied s p) q i = (ownedBy s q i && !ownedBy s p i) := by
  rw [ownedBy, slotAt_emptied]
  by_cases ho : ownedBy s p i = true
  · rw [if_pos ho, ho]
    simp [Content.claimed]
  · rw [if_neg ho, Bool.eq_false_iff.2 ho]
    simp [ownedBy]

theorem portOk_torn {s : State} (h : PortsOk s) (p q : Port) : PortOk (closeJob (emptied s p) p) q := by
  obtain ⟨n, hn⟩ := session_emptied s p q
  have hjob : (emptied s p).job q = s.job q := job_of_board (board_emptied s p) q
  rw [closeJob_eq]
  by_cases hq : q = p
  · subst hq
    rw [if_pos rfl] at hn
    have hno : ∀ i, ownedBy (emptied s q) q i = false := fun i => by rw [ownedBy_emptied]; simp
    have hwaits : workTickets (emptied s q) q = [] := workTickets_emptied_same s q
    have hjobs : ((emptied s q).setJob q (((emptied s q).job q).map fun j => { j with stop := .closed })).job q =
        (s.job q).map fun j => { j with stop := .closed } := by rw [State.job_setJob_same, hjob]
    have hsess : ((emptied s q).setJob q (((emptied s q).job q).map fun j => { j with stop := .closed })).session q =
        tornSession (s.job q).isSome { s.session q with usage := n } := by rw [State.session_setJob, hn]
    have hw0 : ∀ j, portWaits ((emptied s q).setJob q j) q = 0 := fun j => by
      rw [portWaits_eq_length, workTickets_of_waitList (State.setJob_waitList ..), hwaits]
      rfl
    have hown : ∀ j i, ownedBy ((emptied s q).setJob q j) q i = false := fun j i => by
      rw [ownedBy_of_table (State.setJob_table ..), hno]
    refine ⟨?_, ?_, fun hd => ⟨?_, ?_, hw0 _, hown _⟩, fun hc => ⟨?_, ?_, hw0 _, hown _⟩, fun ha => ?_⟩
    · have hplace : jobPlace ((emptied s q).setJob q (((emptied s q).job q).map fun j => { j with stop := .closed })) q
          = [] := by
        rw [jobPlace, hsess]
        cases (s.job q).isSome <;> simp [tornSession]
      rw [workPlaces_eq, hplace, workTickets_of_waitList (State.setJob_waitList ..), hwaits, hsess]
      exact List.Perm.refl _
    · rw [placesUsed, hsess]
      exact Nat.zero_le _
    · rw [hsess] at hd
      rw [hjobs]
      cases hj : s.job q with
      | none => rfl
      | some j => simp [tornSession, hj] at hd
    · rw [hsess]; rfl
    · rw [hsess] at hc
      rw [hjobs]
      cases hj : s.job q with
      | none => simp [tornSession, hj] at hc
      | some j => exact ⟨_, rfl, rfl⟩
    · rw [hsess]; rfl
    · rw [hsess] at ha
      cases hj : s.job q <;> simp [tornSession, hj] at ha
  · rw [if_neg hq] at hn
    have kept : EndsWork s ((emptied s p).setJob p (((emptied s p).job p).map fun j => { j with stop := .closed })) q := by
      refine endsWork_same ?_ ?_ ?_ fun _ i ho => ?_
      · rw [workTickets_of_waitList (State.setJob_waitList ..), workTickets_emptied_other s hq]
      · rw [State.session_setJob, hn]
        exact ⟨rfl, le_refl _, rfl⟩
      · rw [State.job_setJob_other _ _ hq, hjob]
      · rw [ownedBy_of_table (State.setJob_table ..), ownedBy_emptied] at ho
        exact (Bool.and_eq_true_iff.1 ho).1
    exact kept.keeps (portsOk_iff.1 h q)

/-! ### The operations that begin work -/

/-- R30, R58: a request joins the list with its place reserved. -/
theorem portOk_appendEntry {s : State} {e : WaitEntry} (ha : (s.session e.port).state = .attached)
    (hroom : placesUsed s e.port < 8) (h : PortsOk s) (q : Port) : PortOk (appendEntry s e) q := by
  obtain ⟨ht, hw, hs⟩ := table_appendEntry s e
  have hsess : (appendEntry s e).session q = if q = e.port then { s.session q with
      reserved := (s.session q).reserved ++ [.entry e.ticket] } else s.session q := by
    have : (appendEntry s e).session q = (reservePlace s e.port (.entry e.ticket)).session q := by
      simp only [State.session, hs]
    rw [this, session_reservePlace]
  have hjob : (appendEntry s e).job q = s.job q := job_of_board (board_appendEntry s e) q
  have hq := portsOk_iff.1 h q
  by_cases hp : q = e.port
  · subst hp
    rw [if_pos rfl] at hsess
    have htickets : workTickets (appendEntry s e) e.port = workTickets s e.port ++ [e.ticket] := by
      simp [workTickets, hw, List.filter_append]
    have hplace : jobPlace (appendEntry s e) e.port = jobPlace s e.port := by rw [jobPlace, jobPlace, hjob, hsess]
    refine ⟨?_, ?_, fun hd => ?_, fun hc => ?_, fun _ => ?_⟩
    · rw [workPlaces_eq, htickets, hplace, hsess, List.map_append]
      refine (hq.places.append_right _).trans ?_
      rw [workPlaces_eq, List.append_assoc, List.append_assoc]
      exact List.perm_append_comm.append_left _
    · rw [placesUsed] at hroom ⊢
      simp only [hsess, List.length_append, List.length_singleton]
      omega
    · rw [hsess] at hd
      exact absurd (ha.symm.trans hd) (by decide)
    · rw [hsess] at hc
      exact absurd (ha.symm.trans hc) (by decide)
    · rw [hjob]
      exact hq.attached ha
  · rw [if_neg hp] at hsess
    refine EndsWork.keeps (endsWork_same ?_ (by rw [hsess]; exact ⟨rfl, le_refl _, rfl⟩) hjob
      fun _ i => owned_of_table ht q i) hq
    simp only [workTickets, hw, List.filter_append]
    simp [show (e.port == q) = false by simpa using fun heq => hp heq.symm]

/-- R161: a job enters the table with its place reserved. -/
theorem portOk_jobAdmitted {s : State} {p : Port} {j : Job} (ha : (s.session p).state = .attached)
    (hjob : s.job p = none) (hroom : placesUsed s p < 8) (hstop : j.stop = .none) (h : PortsOk s) (q : Port) :
    PortOk (reservePlace (s.setJob p (some j)) p .job) q := by
  have hsess : (reservePlace (s.setJob p (some j)) p .job).session q = if q = p then { s.session q with
      reserved := (s.session q).reserved ++ [.job] } else s.session q := by
    rw [session_reservePlace, State.session_setJob]
  have hq := portsOk_iff.1 h q
  have hw : workTickets (reservePlace (s.setJob p (some j)) p .job) q = workTickets s q := rfl
  by_cases hp : q = p
  · subst hp
    rw [if_pos rfl] at hsess
    have hj : (reservePlace (s.setJob q (some j)) q .job).job q = some j := by
      rw [reservePlace, State.job_modSession, State.job_setJob_same]
    refine ⟨?_, ?_, fun hd => ?_, fun hc => ?_, fun _ k hk => ?_⟩
    · have hbefore : jobPlace s q = [] := by simp [jobPlace, hjob]
      have hafter : jobPlace (reservePlace (s.setJob q (some j)) q .job) q = [.job] := by
        rw [jobPlace, hj, hsess]
        simp [ha]
      rw [workPlaces_eq, hw, hafter, hsess]
      have := hq.places
      rw [workPlaces_eq, hbefore, List.append_nil] at this
      exact this.append_right _
    · rw [placesUsed] at hroom ⊢
      simp only [hsess, List.length_append, List.length_singleton]
      omega
    · rw [hsess] at hd
      exact absurd (ha.symm.trans hd) (by decide)
    · rw [hsess] at hc
      exact absurd (ha.symm.trans hc) (by decide)
    · rw [hj] at hk
      cases hk
      rw [hstop]
      decide
  · rw [if_neg hp] at hsess
    refine EndsWork.keeps (endsWork_same hw (by rw [hsess]; exact ⟨rfl, le_refl _, rfl⟩) ?_ fun _ _ ho => ho) hq
    rw [reservePlace, State.job_modSession, State.job_setJob_other _ _ hp]

/-! ### The jobs -/

/-- R166: the job of a port is another, and it stays out of CLOSED as it was. -/
theorem portOk_setJob {s : State} {p : Port} {j k : Job} (hj : s.job p = some j)
    (hstop : k.stop = .closed ↔ j.stop = .closed) (h : PortsOk s) (q : Port) : PortOk (s.setJob p (some k)) q := by
  have hq := portsOk_iff.1 h q
  by_cases hp : q = p
  · subst hp
    have hk : (s.setJob q (some k)).job q = some k := State.job_setJob_same ..
    have hplace : jobPlace (s.setJob q (some k)) q = jobPlace s q := by rw [jobPlace, jobPlace, hk, hj]; rfl
    refine ⟨?_, hq.atMost8, fun hd => ?_, fun hc => ?_, fun ha m hm => ?_⟩
    · rw [workPlaces_eq, hplace]
      have := hq.places
      rw [workPlaces_eq] at this
      exact this
    · have := (hq.detached hd).1
      rw [hj] at this
      cases this
    · obtain ⟨⟨m, hm, hms⟩, hrest⟩ := hq.closing hc
      rw [hj] at hm
      cases hm
      exact ⟨⟨k, hk, hstop.2 hms⟩, hrest⟩
    · rw [hk] at hm
      cases hm
      exact fun hc => hq.attached ha j hj (hstop.1 hc)
  · refine EndsWork.keeps (s := s) (endsWork_same rfl ⟨rfl, le_refl _, rfl⟩ ?_ fun _ _ ho => ho) hq
    rw [State.job_setJob_other _ _ hp]

/-- R168: a job of an ATTACHED port ends with its outcome in its place. -/
theorem portOk_endJob {s : State} {p : Port} {j : Job} (hj : s.job p = some j) (hstop : j.stop ≠ .closed)
    (k : Job) (o : OutcomeBody) (h : PortsOk s) (q : Port) : PortOk (endJob s p k o) q := by
  have hq := portsOk_iff.1 h q
  have hsess : (endJob s p k o).session q = if q = p then { s.session q with
      reserved := (s.session q).reserved.erase .job, held := (s.session q).held ++ [{ tag := k.tag, body := o }] }
      else s.session q := by
    rw [endJob, session_fillPlace, State.session_setJob]
  have hw : workTickets (endJob s p k o) q = workTickets s q := rfl
  by_cases hp : q = p
  · subst hp
    rw [if_pos rfl] at hsess
    have ha : (s.session q).state = .attached := by
      cases hst : (s.session q).state with
      | attached => rfl
      | detached =>
        have := (hq.detached hst).1
        rw [hj] at this
        cases this
      | closing =>
        obtain ⟨⟨m, hm, hms⟩, -⟩ := hq.closing hst
        rw [hj] at hm
        cases hm
        exact absurd hms hstop
    have hnone : (endJob s q k o).job q = none := by
      rw [endJob, fillPlace, State.job_modSession, State.job_setJob_same]
    have hbefore : jobPlace s q = [.job] := by simp [jobPlace, hj, ha]
    have hplaces : (s.session q).reserved.Perm (.job :: (workTickets s q).map Reservation.entry) := by
      refine hq.places.trans ?_
      rw [workPlaces_eq, hbefore]
      exact List.perm_append_comm
    have herase := hplaces.erase .job
    rw [List.erase_cons_head] at herase
    refine ⟨?_, ?_, fun hd => ?_, fun hc => ?_, fun _ m hm => ?_⟩
    · have hafter : jobPlace (endJob s q k o) q = [] := by simp [jobPlace, hnone]
      rw [workPlaces_eq, hw, hafter, hsess, List.append_nil]
      exact herase
    · have h8 := hq.atMost8
      rw [placesUsed, hplaces.length_eq] at h8
      rw [placesUsed, hsess]
      simp only [List.length_append, List.length_cons, List.length_nil] at h8 ⊢
      rw [herase.length_eq]
      omega
    · rw [hsess] at hd
      exact absurd (ha.symm.trans hd) (by decide)
    · rw [hsess] at hc
      exact absurd (ha.symm.trans hc) (by decide)
    · rw [hnone] at hm
      cases hm
  · rw [if_neg hp] at hsess
    refine EndsWork.keeps (endsWork_same hw (by rw [hsess]; exact ⟨rfl, le_refl _, rfl⟩) ?_ fun _ _ ho => ho) hq
    rw [endJob, fillPlace, State.job_modSession, State.job_setJob_other _ _ hp]

/-- R99, R169: the job of a CLOSING port ends, and the port is DETACHED. -/
theorem portOk_reportJobEnded {s : State} {p : Port} {j : Job} (hj : s.job p = some j) (hstop : j.stop = .closed)
    (h : PortsOk s) (q : Port) : PortOk (reportJobEnded s p) q := by
  have hq := portsOk_iff.1 h q
  have hsess : (reportJobEnded s p).session q = if q = p then { s.session q with state := .detached }
      else s.session q := by
    rw [reportJobEnded, session_modSession_if, State.session_setJob]
  by_cases hp : q = p
  · subst hp
    rw [if_pos rfl] at hsess
    have hc : (s.session q).state = .closing := by
      cases hst : (s.session q).state with
      | closing => rfl
      | detached =>
        have := (hq.detached hst).1
        rw [hj] at this
        cases this
      | attached => exact absurd hstop (hq.attached hst j hj)
    obtain ⟨-, hheld, hwaits, hown⟩ := hq.closing hc
    have hnone : (reportJobEnded s q).job q = none := by
      rw [reportJobEnded, State.job_modSession, State.job_setJob_same]
    refine ⟨?_, ?_, fun _ => ⟨hnone, by rw [hsess]; exact hheld, hwaits, hown⟩, fun hc' => ?_, fun ha => ?_⟩
    · have hbefore : jobPlace s q = [] := by simp [jobPlace, hc]
      have hafter : jobPlace (reportJobEnded s q) q = [] := by simp [jobPlace, hnone]
      have := hq.places
      rw [workPlaces_eq, hbefore] at this
      rw [workPlaces_eq, hafter, hsess]
      exact this
    · have := hq.atMost8
      rw [placesUsed] at this ⊢
      rw [hsess]
      exact this
    · rw [hsess] at hc'
      cases hc'
    · rw [hsess] at ha
      cases ha
  · rw [if_neg hp] at hsess
    refine EndsWork.keeps (s := s) (endsWork_same rfl (by rw [hsess]; exact ⟨rfl, le_refl _, rfl⟩) ?_ fun _ _ ho => ho) hq
    rw [reportJobEnded, State.job_modSession, State.job_setJob_other _ _ hp]

end Sys2Proof.Machine
end


section
/-! PROOFS. What each port owns, over every step (R18, R19, R100, R126). -/

namespace Sys2Proof.Machine

/-- An operation keeps the soundness of the locks and what each port owns. -/
def OwnFollows (s t : State) : Prop := LocksOk s ∧ PortsOk s → LocksOk t ∧ PortsOk t

theorem OwnFollows.trans {s t u : State} (h : OwnFollows s t) (k : OwnFollows t u) : OwnFollows s u := fun hs => k (h hs)

theorem own_of_ports {s t : State} (h : LocksFollow s t) (k : LocksOk s → PortsOk s → ∀ p, PortOk t p) :
    OwnFollows s t := fun ⟨hl, hp⟩ => ⟨(h hl).1, portsOk_iff.2 (k hl hp)⟩

theorem own_of_ends {s t : State} (h : LocksFollow s t) (k : LocksOk s → ∀ p, EndsWork s t p) : OwnFollows s t :=
  own_of_ports h fun hl hp p => (k hl p).keeps (portsOk_iff.1 hp p)

theorem own_congr {s t : State} (ht : t.table = s.table) (hw : t.waitList = s.waitList)
    (hs : t.sessions = s.sessions) (hj : t.engine.jobs = s.engine.jobs) : OwnFollows s t :=
  own_of_ends (follow_congr ht hw) fun _ p => endsWork_congr ht hw hs hj p

theorem own_of_holdings {s t : State} (h : holdings t = holdings s) : OwnFollows s t := by
  obtain ⟨h1, h2, -, -, -, h6, h7⟩ := holdings_ext h
  exact own_congr h1 h2 h6 h7

theorem own_grantScan (s : State) : OwnFollows s (grantScan s) :=
  own_of_ends (follow_grantScan s) fun hl p => endsWork_grantScan hl.1 p

theorem own_dropEntry {s : State} {e : WaitEntry} (he : e ∈ s.waitList) (how : WaitEnd) :
    OwnFollows s (dropEntry s e how) :=
  own_of_ends (follow_of_shrinks fun h => shrinks_dropEntry h he how) fun _ p => endsWork_dropEntry he how p

theorem own_lapseSlot (s : State) (i : SlotId) : OwnFollows s (lapseSlot s i) :=
  own_of_ends (follow_of_shrinks fun h => shrinks_lapseSlot h i) fun _ p => endsWork_lapseSlot s i p

theorem own_foldl {α : Type} {f : State → α → State} (hf : ∀ s x, OwnFollows s (f s x)) (l : List α) (s : State) :
    OwnFollows s (l.foldl f s) := by
  induction l generalizing s with
  | nil => exact id
  | cons x l ih => exact (hf s x).trans (ih _)

theorem own_teardown (s : State) (p : Port) : OwnFollows s (teardown s p) := by
  rw [teardown_eq]
  exact (own_of_ports (follow_of_shrinks fun h => shrinks_closeJob_emptied h p) fun _ hp q => portOk_torn hp p q).trans
    (own_grantScan _)

/-! ### A tick -/

theorem own_countdown (s : State) : OwnFollows s (countdown s) := by
  refine own_of_ends (shrinks_of_leases (s := s) (t := countdown s) (fun i => ?_) rfl).follow fun _ p =>
    endsWork_same rfl ⟨rfl, le_refl _, rfl⟩ rfl fun _ i ho => ownedBy_countdown s p i ▸ ho
  rw [slotAt_countdown]
  exact sameRecord_countdown _

theorem own_warnSlot (s : State) (i : SlotId) : OwnFollows s (warnSlot s i) := by
  obtain ⟨h1, h2⟩ := warnSlot_leases s i
  exact own_of_ends (shrinks_of_leases h1 h2).follow fun _ p => endsWork_warnSlot s i p

theorem own_waitExpiries (s : State) : OwnFollows s (waitExpiries s) := by
  refine own_of_ends (follow_waitExpiries s) fun hl p => (endsWork_countWaits s p).trans (endsWork_expiries ?_ ?_ p)
  · exact (inStep_countWaits hl.1).nodup.sublist List.filter_sublist
  · exact fun e he => List.mem_of_mem_filter he

theorem own_endTick (s : State) : OwnFollows s (endTick s) := by
  obtain ⟨h1, h2, h3⟩ := table_endTick s
  have ended : OwnFollows s (waitExpiries (lapses (warnings (countdown s)))) :=
    (((own_countdown s).trans (own_foldl own_warnSlot _ _)).trans (own_foldl own_lapseSlot _ _)).trans
      (own_waitExpiries _)
  have tick : OwnFollows s (tickLocks s) := by
    unfold tickLocks
    simp only
    split
    · exact ended.trans (own_grantScan _)
    · exact ended
  refine tick.trans (own_congr h1 h2 h3 ?_)
  rw [engine_endTick, engine_of_board (board_tickLocks s)]

/-! ### The acts of the owners -/

/-- A record of a port changes: none is new. -/
theorem endsWork_setContent {s : State} {i : SlotId} {c d : Claimed} {l : Lease} {n : Nat} {x : Content}
    (hc : (slotAt s i).content = .held c l n) (hx : x.claimed = some d) (hp : d.holder = c.holder) (p : Port) :
    EndsWork s (setContent s i x) p := endsWork_setHeld hc hx hp rfl rfl rfl rfl p

/-- R13: an ATTACHED port has a new record. -/
theorem endsWork_allocate {s : State} {p : Port} (ha : (s.session p).state = .attached) {i : SlotId} {x : Content}
    {c : Claimed} (hx : x.claimed = some c) (hp : c.holder = p) (q : Port) : EndsWork s (allocate s p i x) q := by
  have hsess : (allocate s p i x).session q =
      if q = p then { s.session q with usage := (s.session q).usage + 1 } else s.session q :=
    session_modSession_if (setContent s i x) p q _
  refine endsWork_same rfl ?_ rfl fun hne j ho => ?_
  · rw [hsess]
    split <;> exact ⟨rfl, le_refl _, rfl⟩
  · have hqp : q ≠ p := fun h => hne (h ▸ ha)
    by_cases hj : j = i
    · subst hj
      rw [ownedBy_of_claimed (c := c) (by rw [slotAt_allocate_same]; exact hx), hp] at ho
      exact absurd (beq_iff_eq.1 ho).symm hqp
    · rw [ownedBy_of_slot (slotAt_allocate_other s p _ hj)] at ho
      exact ho

theorem endsWork_modSession {s : State} {p : Port} {g : Session → Session}
    (hg : ∀ x, (g x).reserved = x.reserved ∧ (g x).state = x.state) (hh : (g (s.session p)).held.length ≤ (s.session p).held.length)
    (q : Port) : EndsWork s (s.modSession p g) q := by
  refine endsWork_same rfl ?_ rfl fun _ _ ho => ho
  rw [session_modSession_if]
  split
  · next h => exact ⟨(hg _).1, h ▸ hh, (hg _).2⟩
  · exact ⟨rfl, le_refl _, rfl⟩

/-- R94: a session is opened: the port owned nothing. -/
theorem portOk_opened {s : State} {p : Port} (hd : (s.session p).state = .detached) {g : Session → Session}
    (hg : ∀ x, (g x).state = .attached ∧ (g x).reserved = x.reserved ∧ (g x).held = x.held) (h : PortsOk s) (q : Port) :
    PortOk (s.modSession p g) q := by
  have hq := portsOk_iff.1 h q
  by_cases hp : q = p
  · subst hp
    obtain ⟨h1, h2, h3⟩ := hg (s.session q)
    obtain ⟨hjob, -⟩ := hq.detached hd
    have hplace : jobPlace (s.modSession q g) q = jobPlace s q := by simp [jobPlace, hjob]
    refine ⟨?_, ?_, fun hx => ?_, fun hx => ?_, fun _ j hj => ?_⟩
    · rw [workPlaces_eq, hplace, State.session_modSession_same, h2]
      have := hq.places
      rw [workPlaces_eq] at this
      exact this
    · rw [placesUsed, State.session_modSession_same, h2, h3]
      exact hq.atMost8
    · rw [State.session_modSession_same, h1] at hx
      cases hx
    · rw [State.session_modSession_same, h1] at hx
      cases hx
    · rw [State.job_modSession, hjob] at hj
      cases hj
  · have hsess := State.session_modSession_other s g hp
    refine EndsWork.keeps (s := s) (endsWork_same rfl (by rw [hsess]; exact ⟨rfl, le_refl _, rfl⟩) rfl fun _ _ ho => ho) hq

theorem own_ownerAct {p : Port} {s t : State} (a : OwnerAct p s t) : OwnFollows s t := by
  have follow := follow_ownerAct a
  cases a with
  | kept t ht => exact own_of_holdings ht
  | opened checking mask threshold hd =>
    exact own_of_ports follow fun _ hp => portOk_opened hd (fun _ => ⟨rfl, rfl, rfl⟩) hp
  | tornDown => exact own_teardown s p
  | claimGranted m r term label i ha =>
    exact own_of_ends follow fun _ => endsWork_allocate (c := ⟨p, m, r, label⟩) ha rfl rfl
  | claimQueued m r term label i wait tag ha _ _ _ _ _ _ _ hn =>
    obtain ⟨-, -, hroom, -⟩ := room_of_queueRefusal hn
    refine own_of_ports follow fun _ hp q => portOk_appendEntry ?_ ?_ ?_ q
    · rw [session_allocate_same]
      exact ha
    · rw [placesUsed, session_allocate_same]
      exact hroom
    · exact portsOk_iff.2 fun q =>
        (endsWork_allocate (c := ⟨p, m, r, label⟩) ha rfl rfl q).keeps (portsOk_iff.1 hp q)
  | renewed i c l n term hc => exact own_of_ends follow fun _ => endsWork_setContent (d := c) hc rfl rfl
  | released i c l n hc _ he =>
    refine OwnFollows.trans (own_of_ends (follow_of_shrinks fun h => ?_) fun _ => endsWork_freeSlot s i) (own_grantScan _)
    exact shrinks_freeSlot (c := c) (by rw [hc]; rfl) (h.unnamed_held hc (upgradeWaits_of_engaged hc he))
  | freedLapsed i => exact own_of_ends follow fun _ => endsWork_freeSlot s i
  | downgraded i c l n hc _ he =>
    refine OwnFollows.trans (own_of_ends (follow_of_shrinks fun h => ?_) fun _ =>
      endsWork_setContent (d := { c with mode := .shared }) hc rfl rfl) (own_grantScan _)
    exact shrinks_weaken hc (h.unnamed_held hc (upgradeWaits_of_engaged hc he)) rfl (.inr rfl) (Inside.refl _)
  | upgraded i c l n hc =>
    exact own_of_ends follow fun _ => endsWork_setContent (d := { c with mode := .exclusive }) hc rfl rfl
  | upgradeQueued i c l n wait tag ha _ _ _ _ _ _ hn =>
    obtain ⟨-, -, hroom, -⟩ := room_of_queueRefusal hn
    exact own_of_ports follow fun _ hp q => portOk_appendEntry ha hroom hp q
  | trimmed i c l n r hc _ _ hi he =>
    refine OwnFollows.trans (own_of_ends (follow_of_shrinks fun h => ?_) fun _ =>
      endsWork_setContent (d := { c with range := r }) hc rfl rfl) (own_grantScan _)
    exact shrinks_weaken hc (h.unnamed_held hc (upgradeWaits_of_engaged hc he)) rfl (.inl rfl) hi
  | cancelled e he => exact (own_dropEntry he .cancelled).trans (own_grantScan _)
  | written => exact own_congr rfl rfl rfl rfl
  | jobAdmitted sides j ha hn _ hj =>
    obtain ⟨-, hnone, hroom⟩ := admissionRefusal_none hn
    refine OwnFollows.trans (t := reservePlace (s.setJob p (some j)) p .job)
      (own_of_ports (follow_congr rfl rfl) fun _ hp q => portOk_jobAdmitted ha hnone hroom hj.2 hp q)
      (own_of_holdings (holdings_chooseJob _))
  | jobStopped j ha hj =>
    refine own_of_ports follow fun _ hp q => portOk_setJob hj ?_ hp q
    exact ⟨nofun, fun h => absurd h ((portsOk_iff.1 hp p).attached ha j hj)⟩
  | collected o rest ha hh =>
    exact own_of_ends follow fun _ => endsWork_modSession (fun _ => ⟨rfl, rfl⟩) (by rw [hh]; simp)
  | noticeSet => exact own_of_ends follow fun _ => endsWork_modSession (fun _ => ⟨rfl, rfl⟩) (le_refl _)
  | configured => exact own_congr rfl rfl rfl rfl
  | revoked i c l n hc =>
    exact (own_of_ends (follow_of_shrinks fun h => shrinks_revokeSlot h hc) fun _ => endsWork_revokeSlot hc).trans
      (own_grantScan _)
  | withdrawn i c hc =>
    refine OwnFollows.trans (fun hs => ?_) (own_grantScan _)
    obtain ⟨e, he, -, -, heq⟩ := withdrawSlot_eq hs.1.1 hc
    rw [heq]
    exact own_dropEntry he .withdrawn hs
  | evicted q =>
    exact (own_teardown s q).trans (own_of_ends (follow_congr rfl rfl) fun _ =>
      endsWork_modSession (fun _ => ⟨rfl, rfl⟩) (le_refl _))
  | markedEvicted => exact own_of_ends follow fun _ => endsWork_modSession (fun _ => ⟨rfl, rfl⟩) (le_refl _)

/-! ### Every step -/

theorem own_servePageStep {s : State} {p : Port} {j : Job} (hj : s.job p = some j) :
    OwnFollows s (servePageStep s p j) := by
  obtain ⟨h1, h2, -⟩ := table_servePageStep s p j
  refine own_of_ports (follow_congr h1 h2) fun _ hp q => ?_
  have harray : PortsOk { s with array := stepArray s.array j } :=
    portsOk_iff.2 fun q => (endsWork_congr (s := s) (t := { s with array := stepArray s.array j }) rfl rfl rfl rfl q).keeps
      (portsOk_iff.1 hp q)
  unfold servePageStep
  by_cases hstop : j.stop = .closed
  · have hf : stepFinding s p j = .closed := by simp [stepFinding, hstop]
    rw [hf]
    exact portOk_reportJobEnded hj hstop hp q
  · split
    · next hf =>
      simp only [stepFinding, hstop, if_false] at hf
      split at hf
      · cases hf
      · split at hf <;> cases hf
    · exact portOk_endJob hj hstop j _ hp q
    · simp only
      split
      · exact portOk_endJob (s := { s with array := stepArray s.array j }) hj hstop _ _ harray q
      · exact portOk_setJob (s := { s with array := stepArray s.array j }) (k := stepJob s.array j) hj Iff.rfl harray q

theorem AllFree.portsOk {t : State} (h : AllFree t) (hs : t.sessions = .all .reset) (hj : t.engine.jobs = .all none) :
    PortsOk t := by
  have hsess : ∀ p, t.session p = Session.reset := fun p => by simp [State.session, hs]
  have hjob : ∀ p, t.job p = none := fun p => by simp [State.job, hj]
  have hown : ∀ p i, ownedBy t p i = false := fun p i => by rw [ownedBy, h.slots i]; rfl
  have hwait : ∀ p, portWaits t p = 0 := fun p => by simp [portWaits, h.waits]
  refine portsOk_iff.2 fun p => ⟨?_, ?_, fun _ => ⟨hjob p, by rw [hsess]; rfl, hwait p, hown p⟩, fun hc => ?_, fun ha => ?_⟩
  · rw [hsess, workPlaces]
    simp [h.waits, hjob, Session.reset]
  · rw [placesUsed, hsess]
    decide
  · rw [hsess] at hc
    cases hc
  · rw [hsess] at ha
    cases ha

theorem rules_own : StepRules (fun _ => True) fun s => LocksOk s ∧ PortsOk s where
  congr ht h := own_of_holdings ht h
  preCongr _ h := h
  takes _ _ tag args _ ha h := own_ownerAct (ownerTakes_act tag args ha) h
  restart s _ :=
    have free := allFree_resetBlocks { s with array := arrayAfterService s } s.params (restartClock s.params)
    ⟨free.locksOk, free.portsOk rfl rfl⟩
  powerUp s t ht := ⟨(allFree_powerUp ht).locksOk, (allFree_powerUp ht).portsOk (by cases ht; rfl) (by cases ht; rfl)⟩
  assertReset s h := own_congr (s := s) rfl rfl rfl rfl h
  releaseReset s _ :=
    have free := allFree_resetBlocks s .reset .reset
    own_congr (s := resetBlocks s .reset .reset) rfl rfl rfl rfl ⟨free.locksOk, free.portsOk rfl rfl⟩
  clear s _ h := by
    obtain ⟨h1, h2, -, h4, h5⟩ := table_clearPage s
    exact own_congr h1 h2 h4 (by rw [h5]) h
  period := period_of_tick (fun s _ h => own_congr (s := s) rfl rfl rfl rfl h) (fun _ _ h => h)
    fun s _ h => own_endTick s h
  tick s _ h := own_endTick s h
  lapse s i _ h _ := own_lapseSlot s i h
  expire _ _ _ h he := own_dropEntry (List.mem_of_mem_filter he) .timedOut h
  page _ _ _ hj _ h := own_servePageStep hj h

end Sys2Proof.Machine

namespace Sys2Proof.Proofs

open Sys2Proof.Machine

/-- Settles O13: each operation changes a port's usage with the slots it frees or allocates, and a port's places with the
work it begins or ends. -/
theorem ownershipKept : Obligations.OwnershipKept := fun _ _ ht =>
  ⟨fun h => rules_usage.keeps_step trivial h ht, fun hl hp => (rules_own.keeps_step trivial ⟨hl, hp⟩ ht).2⟩

end Sys2Proof.Proofs
end


section
/-! PROOFS. What the session context, supervision and the notices answer to a port's commands, without a scan (Chapters 5,
7 and 10). -/

namespace Sys2Proof.Machine

/-! ### Commands that change the port's own session context alone -/

/-- A command whose owner has touched the port's own session context alone. -/
theorem onlyPort_of_touchesOwnOnly {p : Port} {s t : State} (h : TouchesOwnOnly p (beginAnswer s p) t)
    (ht : t.table = s.table) (hw : t.waitList = s.waitList) (hl : LinesAgree s) (tag : Byte) (a : Answer) :
    OnlyPort p s (replying t p tag a) ∧ Replied p tag a.code a.results (s.port p) (replying t p tag a) := by
  obtain ⟨hothers, hboard, hreply⟩ := replying_of_touchesOwnOnly h hl tag a
  exact ⟨⟨ht, hw, hboard, hothers⟩, hreply⟩

theorem touchesOwnOnly_refl (p : Port) (s : State) : TouchesOwnOnly p s s := ⟨rfl, fun _ _ => rfl, rfl⟩

/-- The session context changes, and nothing else but the reply. -/
theorem onlyPort_replying_modSession {s : State} (p : Port) (hl : LinesAgree s) (g : Session → Session) (tag : Byte)
    (a : Answer) : OnlyPort p s (replying ((beginAnswer s p).modSession p g) p tag a) ∧
      Replied p tag a.code a.results (s.port p) (replying ((beginAnswer s p).modSession p g) p tag a) :=
  onlyPort_of_touchesOwnOnly (touchesOwnOnly_modSession (touchesOwnOnly_refl p _) g) rfl rfl hl tag a

theorem session_replying_modSession (s : State) (p : Port) (g : Session → Session) (tag : Byte) (a : Answer) :
    (replying ((beginAnswer s p).modSession p g) p tag a).session p = g (s.session p) := by
  rw [replying_session, State.session_modSession_same, session_beginAnswer]

@[simp] theorem job_replying (s : State) (p q : Port) (tag : Byte) (a : Answer) :
    (replying s p tag a).job q = s.job q := by simp only [State.job, replying_engine]

/-! ### Admission (R90) -/

theorem admission_closing {s : State} {p : Port} {c : Command} (hs : (s.session p).state = .closing)
    (hc : c ≠ .status ∧ c ≠ .replay ∧ c ≠ .ackErrors) : admission s p c = some .closing := by
  unfold admission
  split
  · simp at hc
  · simp at hc
  · simp at hc
  · simp only [hs]
  · simp only [hs]

theorem admission_detached {s : State} {p : Port} {c : Command} (hs : (s.session p).state = .detached)
    (hc : c ≠ .status ∧ c ≠ .replay ∧ c ≠ .ackErrors ∧ c ≠ .open_) :
    admission s p c = some (if (s.session p).evicted then .evicted else .notAttached) := by
  unfold admission
  split
  · simp at hc
  · simp at hc
  · simp at hc
  · simp at hc
  · simp only [hs]

theorem admission_open_attached {s : State} {p : Port} (hs : (s.session p).state = .attached) :
    admission s p .open_ = some .alreadyAttached := by simp only [admission, hs]

/-- R90: OPEN is admitted in DETACHED. -/
theorem takeCommand_open {s : State} {p : Port} (hs : (s.session p).state = .detached) (tag : Byte)
    (args : List Byte) : takeCommand .open_ p tag args s = takeOpen p args s := by
  have ha : admission s p .open_ = none := by simp only [admission, hs]
  simp only [takeCommand, ha]
  rfl

theorem boolOfByte_none {b : Byte} (h : 2 ≤ b.toNat) : boolOfByte b = none := by
  have h0 : b ≠ 0 := by rintro rfl; exact absurd h (by decide)
  have h1 : b ≠ 1 := by rintro rfl; exact absurd h (by decide)
  rw [boolOfByte, if_neg h0, if_neg h1]

/-! ### Parameters (R174 to R177) -/

theorem paramValue_setParam_same {x : Params} {v : Nat} {y : Param} (h : paramRangeOk x v y = true) :
    paramValue (setParam x v y) y = v := by
  cases y with
  | enforce =>
    have hv : v ≤ 2 := by simpa [paramRangeOk] using h
    have : v = 0 ∨ v = 1 ∨ v = 2 := by omega
    rcases this with rfl | rfl | rfl <;> rfl
  | quota p => simp [setParam, paramValue]
  | _ => rfl

theorem paramValue_setParam_other {x : Params} {v : Nat} {y z : Param} (h : z ≠ y) :
    paramValue (setParam x v y) z = paramValue x z := by
  cases y with
  | quota p =>
    cases z with
    | quota q =>
      have hq : q ≠ p := fun hqp => h (by rw [hqp])
      simp [setParam, paramValue, hq]
    | _ => rfl
  | _ => cases z <;> first | rfl | exact absurd rfl h

theorem setParamClock_eq (c : Clock) (v : Nat) (y : Param) :
    setParamClock c v y = if y = .tickLength then { c with pendingLength := some v } else c := by
  cases y <;> rfl

theorem takeConfigSet_some {s : State} {id : Byte} {v : Half} {x : Param} (hx : paramOfByte id = some x) :
    takeConfigSet (id :: bytes2 v) s =
      if paramRangeOk s.params v.toNat x = false then refuse s .badValue
      else if quotaInUse s v.toNat x then refuse s .quotaInUse
      else ({ s with params := setParam s.params v.toNat x, clock := setParamClock s.clock v.toNat x },
        { code := .ok, results := id :: bytes2 v }) := by
  have hid : argByte (id :: bytes2 v) 0 = id := rfl
  have hv : argHalf (id :: bytes2 v) 1 = v := ofBytes2_bytes2 v
  simp only [takeConfigSet, hid, argNum, hv, hx, num2_toNat, Bool.not_eq_true', List.singleton_append]

theorem paramOfByte_eq_lookup (id : Byte) :
    paramOfByte id = ([(0x01, .tickLength), (0x02, .maxTerm), (0x03, .defaultTerm), (0x04, .maxWait),
      (0x05, .renewLimit), (0x06, .enforce), (0x10, .quota .p0), (0x11, .quota .p1), (0x12, .quota .p2),
      (0x13, .quota .p3)] : List (Byte × Param)).lookup id := by
  revert id
  decide

/-! ### INSPECT (R182) -/

theorem takeInspect_eq {s : State} {b : Byte} {i : SlotId} (hi : i.val = b.toNat) :
    takeInspect [b] s = (s, { code := .ok, results := inspectBytes s i }) := by
  have hb : (argByte [b] 0).toNat < 128 := hi ▸ i.isLt
  have hfin : (⟨(argByte [b] 0).toNat, hb⟩ : SlotId) = i := Fin.ext hi.symm
  simp only [takeInspect, dif_pos hb, hfin]

theorem num2_zero : num2 0 = [0, 0] := by decide

end Sys2Proof.Machine

namespace Sys2Proof.Proofs

open Sys2Proof.Machine

/-- Settles O26: the answers are those of the admission test, whatever the command. -/
theorem admissionAnswers : Obligations.AdmissionAnswers := by
  intro s c f hp hlen hl h1 h2 h3 h4 h5
  refine ⟨fun hs => ?_, fun hc hs => ?_, fun hc hs => ?_⟩
  · exact answers_of_admission hp hl hlen ⟨h4, h5, h2⟩ (admission_closing hs ⟨h1, h2, h3⟩)
  · subst hc
    exact answers_of_admission hp hl hlen ⟨h4, h5, h2⟩ (admission_open_attached hs)
  · exact answers_of_admission hp hl hlen ⟨h4, h5, h2⟩ (admission_detached hs ⟨h1, h2, h3, hc⟩)

/-- Settles O27: an OPEN in DETACHED is admitted, and its two values are tested before the session is touched. -/
theorem openTaken : Obligations.OpenTaken := by
  refine ⟨fun s f x y z hp hl hs hargs hbad => ?_, fun s f checking mask threshold hp hl hs hargs => ?_⟩
  · have hlen : lengthOk .open_ f.args = true := by rw [hargs]; rfl
    refine answers_of_take (a := { code := .badValue }) hp hl hlen (by decide) ?_
    rw [takeCommand_open (s := beginAnswer s f.port) hs, hargs]
    rcases hbad with hx | hy
    · simp [takeOpen, argByte, boolOfByte_none hx, refuse]
    · cases hb : boolOfByte x <;> simp [takeOpen, argByte, hb, noticeOfByte_none hy, refuse]
  · have hlen : lengthOk .open_ f.args = true := by rw [hargs]; rfl
    have htake : takeCommand .open_ f.port f.tag f.args (beginAnswer s f.port) =
        ((beginAnswer s f.port).modSession f.port fun x =>
          { x with state := .attached, checking := checking, mask := mask, warnThreshold := threshold.toNat,
                   evicted := false },
          { code := .ok, results := openResults s f.port }) := by
      rw [takeCommand_open (s := beginAnswer s f.port) hs, hargs]
      simp [takeOpen, argByte, openResults]
    obtain ⟨honly, hreply⟩ := onlyPort_replying_modSession f.port hl (fun x =>
      { x with state := .attached, checking := checking, mask := mask, warnThreshold := threshold.toNat,
               evicted := false }) f.tag { code := .ok, results := openResults s f.port }
    exact ⟨_, exec_command hp hlen (by decide) htake, honly, session_replying_modSession .., hreply⟩

/-- Settles O29: STATUS is admitted in every state, and every item is read from the state as it stands. -/
theorem statusReported : Obligations.StatusReported := by
  intro s f hp hargs hl
  have hlen : lengthOk .status f.args = true := by rw [hargs]; rfl
  have htake : takeCommand .status f.port f.tag f.args (beginAnswer s f.port) =
      (beginAnswer s f.port, (takeStatus f.port (beginAnswer s f.port)).2) := rfl
  have h := answers_of_take hp hl hlen (by decide) htake
  simp only [takeStatus, port_beginAnswer_same, noticeFlags_beginAnswer] at h
  exact h

/-- Settles O54: both commands read the port's job first; STOP_JOB then rewrites its stop request alone. -/
theorem stopJobAndJobState : Obligations.StopJobAndJobState := by
  intro s f hargs hl
  refine ⟨fun c hc hadm hj => ?_, fun j hadm hj => ?_, fun j hadm hj hstop => ?_⟩
  · rcases hc with rfl | rfl
    · refine answers_of_owner (a := { code := .noJob }) hadm hl (by rw [hargs]; rfl) (by decide) ?_
      simp [ownerTakes, takeStopJob, hj, refuse]
    · refine answers_of_owner (a := { code := .noJob }) hadm hl (by rw [hargs]; rfl) (by decide) ?_
      simp [ownerTakes, takeJobState, hj, refuse]
  · have htake : ownerTakes .stopJob f.port f.tag f.args (beginAnswer s f.port) =
        ((beginAnswer s f.port).setJob f.port (some { j with stop := .host }),
          { code := .ok, results := [jobKindByte j.work.kind] ++ num2 j.count ++ num2 j.pagesDone }) := by
      simp [ownerTakes, takeStopJob, hj]
    have hexec := exec_admitted hadm (by rw [hargs]; rfl) (by decide) htake
    have hothers : OthersKept f.port s (replying ((beginAnswer s f.port).setJob f.port (some { j with stop := .host }))
        f.port f.tag { code := .ok, results := [jobKindByte j.work.kind] ++ num2 j.count ++ num2 j.pagesDone }) :=
      othersKept_replying f.tag _ hl rfl fun q hq => ⟨rfl, port_beginAnswer_other s hq⟩
    refine ⟨_, hexec, ?_, fun q hq => ?_, rfl, rfl, ⟨?_, ?_, ?_, ?_⟩, ?_, ?_⟩
    · rw [job_replying, State.job_setJob_same]
    · rw [job_replying, State.job_setJob_other _ _ hq, job_beginAnswer]
    · simp
    · simp
    · simp [board]
    · exact hothers
    · simp
    · exact replied_replying f.tag _ (port_beginAnswer_same s f.port)
  · have hbyte : stopRequestByte j.stop = if j.stop = .host then 0x01 else 0x00 := by
      cases h : j.stop <;> simp_all [stopRequestByte]
    rw [← hbyte]
    refine answers_of_owner (a := { code := .ok, results := _ }) hadm hl (by rw [hargs]; rfl) (by decide) ?_
    simp [ownerTakes, takeJobState, hj]

/-- Settles O55: the head of the outcome list leaves it and is the reply. -/
theorem collectTakesOldest : Obligations.CollectTakesOldest := by
  intro s f hadm hargs hl
  have hlen : lengthOk .collect f.args = true := by rw [hargs]; rfl
  refine ⟨fun hh => ?_, fun o rest hh => ?_⟩
  · refine answers_of_owner (a := { code := .noOutcome }) hadm hl hlen (by decide) ?_
    simp [ownerTakes, takeCollect, hh, refuse]
  · have htake : ownerTakes .collect f.port f.tag f.args (beginAnswer s f.port) =
        ((beginAnswer s f.port).modSession f.port fun x => { x with held := rest },
          { code := .ok, results := num1 rest.length ++ outcomeBytes o }) := by
      simp [ownerTakes, takeCollect, hh]
    obtain ⟨honly, hreply⟩ := onlyPort_replying_modSession f.port hl (fun x => { x with held := rest }) f.tag
      { code := .ok, results := num1 rest.length ++ outcomeBytes o }
    refine ⟨_, exec_admitted hadm hlen (by decide) htake, honly, session_replying_modSession .., ?_, hreply⟩
    rw [noticeFlags_replying, noticeFlags, State.session_modSession_same]

/-- Settles O56: SET_NOTICE rewrites the session context, CLEAR_NOTICES the sticky flags, each after the test of its set. -/
theorem noticeCommands : Obligations.NoticeCommands := by
  refine ⟨fun s f x y hadm hargs hl => ⟨fun hx => ?_, fun mask hx => ?_⟩,
    fun s f x hadm hargs hl => ⟨fun hx => ?_, fun set hx => ?_⟩⟩
  · refine answers_of_owner (a := { code := .badValue }) hadm hl (by rw [hargs]; rfl) (by decide) ?_
    simp [ownerTakes, takeSetNotice, hargs, argByte, noticeOfByte_none hx, refuse]
  · subst hx
    have htake : ownerTakes .setNotice f.port f.tag f.args (beginAnswer s f.port) =
        ((beginAnswer s f.port).modSession f.port fun z => { z with mask := mask, warnThreshold := y.toNat },
          { code := .ok, results := [noticeByte (noticeFlags s f.port), noticeByte mask] }) := by
      simp [ownerTakes, takeSetNotice, hargs, argByte]
    obtain ⟨honly, hreply⟩ := onlyPort_replying_modSession f.port hl
      (fun z => { z with mask := mask, warnThreshold := y.toNat }) f.tag
      { code := .ok, results := [noticeByte (noticeFlags s f.port), noticeByte mask] }
    exact ⟨_, exec_admitted hadm (by rw [hargs]; rfl) (by decide) htake, honly, session_replying_modSession .., hreply⟩
  · refine answers_of_owner (a := { code := .badValue }) hadm hl (by rw [hargs]; rfl) (by decide) ?_
    simp [ownerTakes, takeClearNotices, hargs, argByte, noticeOfByte_none hx, refuse]
  · subst hx
    intro n after cleared still
    have htake : ownerTakes .clearNotices f.port f.tag f.args (beginAnswer s f.port) =
        ((beginAnswer s f.port).modPort f.port fun u => { u with notices := u.notices.without set },
          { code := .ok, results := [noticeByte cleared, noticeByte still] }) := by
      simp [ownerTakes, takeClearNotices, hargs, argByte, noticeFlags, clearedFlags, StickyNotices.without, cleared,
        still, after, n]
    have hport : ((beginAnswer s f.port).modPort f.port fun u => { u with notices := u.notices.without set }).port f.port =
        { { s.port f.port with notices := after } with sel := .answering, answer := none } := by
      rw [State.port_modPort_same, port_beginAnswer_same]
      rfl
    have hreply := replied_replying f.tag { code := .ok, results := [noticeByte cleared, noticeByte still] } hport
    refine ⟨_, exec_admitted hadm (by rw [hargs]; rfl) (by decide) htake, onlyPort_replying_modPort f.port hl _ f.tag _,
      rfl, ?_, hreply⟩
    rw [notices_replying, hport]

/-- Settles O57: the tests of CONFIG_SET in their order, and the one parameter that it writes. -/
theorem configSetAndGet : Obligations.ConfigSetAndGet := by
  refine ⟨fun s f id v hl => ⟨paramOfByte_eq_lookup id, fun hnone => ⟨fun hadm hargs => ?_, fun hadm hargs => ?_⟩⟩,
    fun s f id v x hx hl => ⟨fun hadm hargs => ⟨fun hr => ?_, fun q hr hq hu => ?_, fun hr hu => ?_⟩, fun hadm hargs => ?_⟩⟩
  · refine answers_of_owner (a := { code := .badValue }) hadm hl (by rw [hargs]; rfl) (by decide) ?_
    have hid : argByte (id :: bytes2 v) 0 = id := rfl
    simp only [ownerTakes, takeConfigSet, hargs, hid, hnone, refuse]
  · refine answers_of_owner (a := { code := .badValue }) hadm hl (by rw [hargs]; rfl) (by decide) ?_
    have hid : argByte [id] 0 = id := rfl
    simp only [ownerTakes, takeConfigGet, hargs, hid, hnone, refuse]
  · refine answers_of_owner (a := { code := .badValue }) hadm hl (by rw [hargs]; rfl) (by decide) ?_
    rw [hargs, ownerTakes, takeConfigSet_some hx, params_beginAnswer, if_pos hr]
    rfl
  · subst hq
    refine answers_of_owner (a := { code := .quotaInUse }) hadm hl (by rw [hargs]; rfl) (by decide) ?_
    have hin : quotaInUse (beginAnswer s f.port) v.toNat (.quota q) = true := decide_eq_true hu
    rw [hargs, ownerTakes, takeConfigSet_some hx, params_beginAnswer, if_neg (by simp [hr]), if_pos hin]
    rfl
  · have hnot : quotaInUse (beginAnswer s f.port) v.toNat x = false := by
      cases x with
      | quota q => exact decide_eq_false (not_lt.2 (hu q rfl))
      | _ => rfl
    have htake : ownerTakes .configSet f.port f.tag f.args (beginAnswer s f.port) =
        ({ beginAnswer s f.port with
            params := setParam s.params v.toNat x, clock := setParamClock s.clock v.toNat x },
          { code := .ok, results := id :: bytes2 v }) := by
      rw [hargs, ownerTakes, takeConfigSet_some hx, params_beginAnswer, if_neg (by simp [hr]), if_neg (by simp [hnot]),
        clock_beginAnswer]
    refine ⟨_, exec_admitted hadm (by rw [hargs]; rfl) (by decide) htake, paramValue_setParam_same hr,
      fun y hy => paramValue_setParam_other hy, setParamClock_eq .., rfl, rfl, rfl, ?_, rfl, ?_⟩
    · exact othersKept_replying f.tag _ hl rfl fun q hq => ⟨rfl, port_beginAnswer_other s hq⟩
    · exact replied_replying f.tag _ (port_beginAnswer_same s f.port)
  · refine answers_of_owner (a := { code := .ok, results := _ }) hadm hl (by rw [hargs]; rfl) (by decide) ?_
    have hid : argByte [id] 0 = id := rfl
    simp only [ownerTakes, takeConfigGet, hargs, hid, hx, params_beginAnswer, List.singleton_append]

/-- Settles O60: INSPECT's bytes by the content of the slot, and WAITLIST's items, of which at most 12 stand in the list. -/
theorem inspectAndWaitlist : Obligations.InspectAndWaitlist := by
  intro s f b hargs hl
  refine ⟨fun hadm => ?_, fun hadm => ?_⟩
  · have hlen : lengthOk .inspect f.args = true := by rw [hargs]; rfl
    have report : ∀ i : SlotId, i.val = b.toNat → Answers .inspect f s .ok (inspectBytes s i) := fun i hi =>
      answers_of_owner (a := { code := .ok, results := inspectBytes s i }) hadm hl hlen (by decide)
        (by rw [hargs]; exact takeInspect_eq hi)
    refine ⟨fun hb => ?_, fun i hi => ?_⟩
    · refine answers_of_owner (a := { code := .badValue }) hadm hl hlen (by decide) ?_
      have hn : ¬ (argByte [b] 0).toNat < 128 := not_lt.2 hb
      rw [hargs]
      simp only [ownerTakes, takeInspect, dif_neg hn, refuse]
    · have h := report i hi
      have head : BitVec.ofNat 8 i.val = b := by rw [hi]; simp
      refine ⟨fun hc => ?_, fun c hc => ?_, fun c l n hc => ⟨engaged s i, engaged_iff, ?_⟩, fun c l x hc => ?_⟩
      · simpa [inspectBytes, hc, head, contentByte, num1] using h
      · simpa [inspectBytes, hc, head, contentByte, recordBytes, absentLease, num1, num2_zero, boolByte, slotHandle] using h
      · simpa [inspectBytes, hc, head, contentByte, recordBytes, num1, slotHandle] using h
      · have hx : endCauseByte x = if x = .expired then 0x01 else 0x02 := by cases x <;> rfl
        simpa [inspectBytes, hc, head, contentByte, recordBytes, num1, num2_zero, slotHandle, hx] using h
  · have hlen : lengthOk .waitlist f.args = true := by rw [hargs]; rfl
    refine ⟨fun hb => ?_, fun hb hw => ?_⟩
    · refine answers_of_owner (a := { code := .badValue }) hadm hl hlen (by decide) ?_
      have hn : 11 < (argByte [b] 0).toNat := hb
      rw [hargs]
      simp only [ownerTakes, takeWaitlist, if_pos hn, refuse]
    · refine answers_of_owner (a := { code := .ok, results := _ }) hadm hl hlen (by decide) ?_
      have hn : ¬ 11 < b.toNat := not_lt.2 hb
      have hb0 : argByte [b] 0 = b := rfl
      have h12 := hw.1
      have hall : (s.waitList.drop b.toNat).take Config.maxItems = s.waitList.drop b.toNat :=
        List.take_of_length_le (by rw [List.length_drop]; change _ ≤ 16; omega)
      rw [hargs]
      simp only [ownerTakes, takeWaitlist, hb0, if_neg hn, waitList_beginAnswer, hall, num1, List.length_drop,
        List.cons_append, List.nil_append]

end Sys2Proof.Proofs
end


section
/-! PROOFS. The refusals of the lock manager's commands and its reports, which change nothing (R20, R21, R25, R29, R34,
R36, R37, R41, R57). -/

namespace Sys2Proof.Machine

/-! ### The first of a list in order -/

/-- The first element of a list in order that passes a test. -/
theorem filter_eq_cons {α : Type} {lt : α → α → Prop} {l : List α} {f : α → Bool} {a : α} (hs : l.Pairwise lt)
    (ha : a ∈ l) (hf : f a = true) (hlow : ∀ b ∈ l, lt b a → f b = false) : ∃ rest, l.filter f = a :: rest := by
  obtain ⟨before, rest, rfl⟩ := List.append_of_mem ha
  have hbefore : before.filter f = [] := List.filter_eq_nil_iff.2 fun b hb => by
    rw [hlow b (List.mem_append_left _ hb) ((List.pairwise_append.1 hs).2.2 b hb a (by simp))]
    simp
  exact ⟨rest.filter f, by rw [List.filter_append, hbefore, List.filter_cons_of_pos hf, List.nil_append]⟩

/-- R26: the holder blocker in the lowest slot. -/
theorem holderBlockers_lowest {s : State} {p : Port} {m : Mode} {r : Range} {i : SlotId} {c : Claimed} (hc : Held s i c)
    (hx : Conflict p m r c.holder c.mode c.range)
    (hlow : ∀ j d, j < i → Held s j d → ¬ Conflict p m r d.holder d.mode d.range) :
    ∃ rest, holderBlockers s p m r = i :: rest := by
  refine filter_eq_cons (List.pairwise_lt_finRange 128) (mem_allSlots i) (heldConflict_iff.2 ⟨c, hc, hx⟩) fun j _ hj => ?_
  rw [← Bool.not_eq_true, heldConflict_iff]
  rintro ⟨d, hd, hdx⟩
  exact hlow j d hj hd hdx

/-- R27: the oldest waiter blocker. -/
theorem waiterBlockers_oldest {s : State} {p : Port} {m : Mode} {r : Range} {older younger : List WaitEntry}
    {e : WaitEntry} (hl : s.waitList = older ++ e :: younger) (hx : Conflict p m r e.port e.mode e.range)
    (ho : ∀ o ∈ older, ¬ Conflict p m r o.port o.mode o.range) : ∃ rest, waiterBlockers s p m r = e :: rest := by
  have hnone : older.filter (entryConflict p m r) = [] := List.filter_eq_nil_iff.2 fun o h => by
    rw [entryConflict_iff]
    exact ho o h
  exact ⟨_, by rw [waiterBlockers, hl, List.filter_append, hnone, List.nil_append,
    List.filter_cons_of_pos ((entryConflict_iff ..).2 hx)]⟩

/-- R29: CONFLICT names the holder blocker in the lowest slot. -/
theorem conflictAnswer_holder {s : State} {p : Port} {m : Mode} {r : Range} {i : SlotId} {c : Claimed} (hc : Held s i c)
    (hx : Conflict p m r c.holder c.mode c.range)
    (hlow : ∀ j d, j < i → Held s j d → ¬ Conflict p m r d.holder d.mode d.range) :
    conflictAnswer s p m r = {
      code := .conflict
      results := [0x01, BitVec.ofNat 8 (portNumber c.holder)] ++ bytes2 (handleOf (slotAt s i).gen i) } := by
  obtain ⟨rest, hb⟩ := holderBlockers_lowest hc hx hlow
  obtain ⟨l, n, hc⟩ := hc
  simp [conflictAnswer, hb, hc, Content.claimed, num1, slotHandle]

/-- R29: without a holder blocker CONFLICT names the oldest waiter blocker. -/
theorem conflictAnswer_waiter {s : State} {p : Port} {m : Mode} {r : Range} (hn : ¬ HolderBlocks s p m r)
    {older younger : List WaitEntry} {e : WaitEntry} (hl : s.waitList = older ++ e :: younger)
    (hx : Conflict p m r e.port e.mode e.range) (ho : ∀ o ∈ older, ¬ Conflict p m r o.port o.mode o.range) :
    conflictAnswer s p m r = { code := .conflict, results := [0x02, BitVec.ofNat 8 (portNumber e.port), 0, 0] } := by
  obtain ⟨rest, hb⟩ := waiterBlockers_oldest hl hx ho
  have hnone : holderBlockers s p m r = [] := by
    rw [← List.isEmpty_iff, ← Bool.not_eq_false, holderBlockers_isEmpty]
    exact hn
  simp [conflictAnswer, hnone, hb, num1]

/-! ### The queueing checks (R54 to R57) -/

/-- R57: the port that DEADLOCK names. -/
theorem deadlockPort_lowest {s : State} {p q : Port} {m : Mode} {r : Range} (hb : InBlockerSet s p m r q)
    (hl : LeadsTo s q p) (hlow : ∀ o, portNumber o < portNumber q → InBlockerSet s p m r o → ¬ LeadsTo s o p) :
    deadlockPort s p m r = some q := by
  obtain ⟨rest, hf⟩ := filter_eq_cons (l := allPorts) (f := fun q => inBlockerSet s p m r q && leadsTo s q p)
    (a := q) (lt := fun a b => portNumber a < portNumber b) (by decide) (by cases q <;> decide)
    (by rw [inBlockerSet_iff.2 hb, leadsTo_iff.2 hl]; rfl) fun o _ ho => by
      rw [← Bool.not_eq_true, Bool.and_eq_true, inBlockerSet_iff, leadsTo_iff]
      exact fun h => hlow o ho h.1 h.2
  rw [deadlockPort, ← List.head?_filter, hf]
  rfl

/-- R57: no port of the blocker set leads to the port of the request. -/
theorem deadlockPort_none {s : State} {p : Port} {m : Mode} {r : Range}
    (h : ∀ q, InBlockerSet s p m r q → ¬ LeadsTo s q p) : deadlockPort s p m r = none := by
  refine List.find?_eq_none.2 fun q _ => ?_
  rw [Bool.and_eq_true, inBlockerSet_iff, leadsTo_iff]
  exact fun hq => h q hq.1 hq.2

/-- R54, Table 19: the answer of the queueing checks, by the first that fails. -/
theorem queueRefusal_cases (s : State) (p : Port) (m : Mode) (r : Range) :
    (4 ≤ portWaits s p → queueRefusal s p m r = some { code := .portWaitsFull }) ∧
    (portWaits s p < 4 → 12 ≤ s.waitList.length → queueRefusal s p m r = some { code := .waitlistFull }) ∧
    (portWaits s p < 4 → s.waitList.length < 12 → 8 ≤ placesUsed s p →
      queueRefusal s p m r = some { code := .outcomesFull }) ∧
    (portWaits s p < 4 → s.waitList.length < 12 → placesUsed s p < 8 →
      queueRefusal s p m r =
        (deadlockPort s p m r).map fun q => { code := .deadlock, results := num1 (portNumber q) }) := by
  refine ⟨fun h1 => ?_, fun h1 h2 => ?_, fun h1 h2 h3 => ?_, fun h1 h2 h3 => ?_⟩
  · exact if_pos h1
  · rw [queueRefusal, if_neg (not_le.2 h1), if_pos h2]
  · rw [queueRefusal, if_neg (not_le.2 h1), if_neg (not_le.2 h2), if_pos h3]
  · rw [queueRefusal, if_neg (not_le.2 h1), if_neg (not_le.2 h2), if_neg (not_le.2 h3)]

/-! ### CLAIM (R25, R29) -/

/-- R25: at conflict determination a blocked CLAIM with wait limit 0 is refused. -/
theorem claimDecide_of_blocked {s : State} {p : Port} {m : Mode} {r : Range} (hb : blocked s p m r = true) (tag : Byte)
    (term : Nat) (label : Half) (i : SlotId) :
    claimDecide s p tag m r term 0 label i = (s, conflictAnswer s p m r) := by simp [claimDecide, hb]

/-- R30: a blocked CLAIM with a wait limit comes to the queueing checks. -/
theorem claimDecide_of_waiting {s : State} {p : Port} {m : Mode} {r : Range} (hb : blocked s p m r = true) (tag : Byte)
    (term : Nat) {wait : Nat} (hw : wait ≠ 0) (label : Half) (i : SlotId) :
    claimDecide s p tag m r term wait label i = match queueRefusal s p m r with
      | some a => (s, a)
      | none => claimQueue s p tag m r term wait label i := by
  simp only [claimDecide, hb, hw] <;> rfl

theorem modeOfByte_some {b : Byte} (h : ¬ 1 < b.toNat) : ∃ m, b = modeByte m := by
  have : b.toNat = 0 ∨ b.toNat = 1 := by omega
  rcases this with h | h
  · exact ⟨.shared, BitVec.eq_of_toNat_eq h⟩
  · exact ⟨.exclusive, BitVec.eq_of_toNat_eq h⟩

/-! ### Commands on a handle (Table 14) -/

/-- A command that names a record of its port by handle, with its values in their ranges. -/
inductive OnHandle (s : State) (h x y : Half) : Command → List Byte → Prop where
  | renew (hx : x.toNat ≤ s.params.maxTerm) : OnHandle s h x y .renew (bytes2 h ++ bytes2 x)
  | release : OnHandle s h x y .release (bytes2 h)
  | downgrade : OnHandle s h x y .downgrade (bytes2 h)
  | upgrade (hx : x.toNat ≤ s.params.maxWait) : OnHandle s h x y .upgrade (bytes2 h ++ bytes2 x)
  | trim (hr : WellFormed ⟨x.toNat, y.toNat⟩) : OnHandle s h x y .trim (bytes2 h ++ bytes2 x ++ bytes2 y)

section Handle

variable {s : State} {h x y : Half} {c : Command} {args : List Byte} {p : Port} {tag : Byte}

theorem OnHandle.stale (k : OnHandle s h x y c args) (hr : resolve s p h = none) :
    ownerTakes c p tag args s = refuse s .staleHandle := by
  cases k with
  | renew hx => simp [ownerTakes, takeRenew, hx.not_gt, hr]
  | release => simp [ownerTakes, takeRelease, hr]
  | downgrade => simp [ownerTakes, takeDowngrade, hr]
  | upgrade hx => simp [ownerTakes, takeUpgrade, hx.not_gt, hr]
  | trim hw => simp only [ownerTakes, takeTrim, spanArgs_bytes, (rangeOk_iff _).2 hw, hr, Bool.not_true]; rfl

theorem OnHandle.waiting (k : OnHandle s h x y c args) {i : SlotId} {d : Claimed} (hr : resolve s p h = some i)
    (hc : (slotAt s i).content = .reserved d) : ownerTakes c p tag args s = refuse s .waiting := by
  cases k with
  | renew hx => simp [ownerTakes, takeRenew, hx.not_gt, hr, hc]
  | release => simp [ownerTakes, takeRelease, hr, hc]
  | downgrade => simp [ownerTakes, takeDowngrade, hr, hc]
  | upgrade hx => simp [ownerTakes, takeUpgrade, hx.not_gt, hr, hc]
  | trim hw => simp only [ownerTakes, takeTrim, spanArgs_bytes, (rangeOk_iff _).2 hw, hr, hc, Bool.not_true]; rfl

theorem OnHandle.lapsed (k : OnHandle s h x y c args) {i : SlotId} {d : Claimed} {l : Lease} {e : EndCause}
    (hr : resolve s p h = some i) (hc : (slotAt s i).content = .lapsed d l e) (hne : c ≠ .release) :
    ownerTakes c p tag args s = refuse s .lapsed := by
  cases k with
  | renew hx => simp [ownerTakes, takeRenew, hx.not_gt, hr, hc]
  | release => exact absurd rfl hne
  | downgrade => simp [ownerTakes, takeDowngrade, hr, hc]
  | upgrade hx => simp [ownerTakes, takeUpgrade, hx.not_gt, hr, hc]
  | trim hw => simp only [ownerTakes, takeTrim, spanArgs_bytes, (rangeOk_iff _).2 hw, hr, hc, Bool.not_true]; rfl

theorem OnHandle.engaged (k : OnHandle s h x y c args) {i : SlotId} {d : Claimed} (hr : resolve s p h = some i)
    (hd : Held s i d) (he : Engaged s i)
    (hc : c = .release ∨ c = .downgrade ∨ c = .trim ∧ Inside ⟨x.toNat, y.toNat⟩ d.range) :
    ownerTakes c p tag args s = refuse s .engaged := by
  obtain ⟨l, n, hd⟩ := hd
  have he' := engaged_iff.2 he
  cases k with
  | renew => simp at hc
  | release => simp [ownerTakes, takeRelease, hr, hd, he']
  | downgrade => simp [ownerTakes, takeDowngrade, hr, hd, he']
  | upgrade => simp at hc
  | trim hw =>
    have hi : Inside ⟨x.toNat, y.toNat⟩ d.range := by simpa using hc
    simp only [ownerTakes, takeTrim, spanArgs_bytes, (rangeOk_iff _).2 hw, hr, hd, (insideRange_iff _ _).2 hi, he',
      Bool.not_true]
    rfl

end Handle

theorem OnHandle.notOther {s : State} {h x y : Half} {c : Command} {args : List Byte} (k : OnHandle s h x y c args) :
    lengthOk c args = true ∧ c ≠ .read ∧ c ≠ .write ∧ c ≠ .replay ∧ c ≠ .open_ := by
  cases k <;> exact ⟨rfl, by decide⟩

/-! ### PROBE and LIST (R20, R21) -/

/-- R20: the HELD records that overlap a range, in slot order, with their fields. -/
def overlapping (s : State) (r : Range) : List (SlotId × Claimed) :=
  (heldOver s r).filterMap fun i => (slotAt s i).content.heldRecord.map fun c => (i, c)

theorem mem_heldOver {s : State} {r : Range} {i : SlotId} :
    i ∈ heldOver s r ↔ ∃ c, (slotAt s i).content.heldRecord = some c ∧ Overlap r c.range := by
  rw [heldOver, List.mem_filter]
  cases h : (slotAt s i).content.heldRecord with
  | none => simp
  | some c => simp [mem_allSlots]

theorem map_overlapping {α : Type} (s : State) (r : Range) (g : SlotId → α) (k : SlotId × Claimed → α)
    (hg : ∀ i c, (slotAt s i).content.heldRecord = some c → g i = k (i, c)) :
    (overlapping s r).map k = (heldOver s r).map g := by
  have hall : ∀ i ∈ heldOver s r, ∃ c, (slotAt s i).content.heldRecord = some c := fun i hi =>
    (mem_heldOver.1 hi).imp fun _ h => h.1
  unfold overlapping
  generalize heldOver s r = l at hall
  induction l with
  | nil => rfl
  | cons i l ih =>
    obtain ⟨c, hc⟩ := hall i (List.mem_cons_self ..)
    rw [List.filterMap_cons, hc]
    simp only [Option.map_some, List.map_cons]
    rw [ih fun j hj => hall j (List.mem_cons_of_mem _ hj), hg i c hc]

theorem fst_overlapping (s : State) (r : Range) : (overlapping s r).map Prod.fst = heldOver s r := by
  rw [map_overlapping s r id Prod.fst fun _ _ _ => rfl, List.map_id]

theorem mem_overlapping {s : State} {r : Range} {i : SlotId} {c : Claimed} :
    (i, c) ∈ overlapping s r ↔ Held s i c ∧ Overlap r c.range := by
  rw [overlapping, List.mem_filterMap, held_iff]
  constructor
  · rintro ⟨j, hj, hx⟩
    obtain ⟨d, hd, ho⟩ := mem_heldOver.1 hj
    rw [hd, Option.map_some, Option.some.injEq, Prod.mk.injEq] at hx
    obtain ⟨rfl, rfl⟩ := hx
    exact ⟨hd, ho⟩
  · rintro ⟨hc, ho⟩
    exact ⟨i, mem_heldOver.2 ⟨c, hc, ho⟩, by rw [hc]; rfl⟩

theorem sorted_heldOver (s : State) (r : Range) : (heldOver s r).Pairwise (· < ·) :=
  (List.pairwise_lt_finRange 128).sublist List.filter_sublist

/-- R191: one PROBE item. -/
theorem probeEntry_of_held {s : State} {i : SlotId} {c : Claimed} (h : (slotAt s i).content.heldRecord = some c) :
    probeEntry s i = bytes2 (handleOf (slotAt s i).gen i) ++ [BitVec.ofNat 8 (portNumber c.holder), modeByte c.mode] ++
      num2 c.range.first ++ num2 c.range.count ++ bytes2 c.label := by
  simp [probeEntry, h, probeItem, num1, slotHandle]

/-- R20: the results of a PROBE. -/
theorem takeProbe_eq {s : State} {x y : Half} (hr : WellFormed ⟨x.toNat, y.toNat⟩) :
    takeProbe (bytes2 x ++ bytes2 y) s = (s, {
      code := .ok
      results := [BitVec.ofNat 8 (min 16 (overlapping s ⟨x.toNat, y.toNat⟩).length),
        BitVec.ofNat 8 ((overlapping s ⟨x.toNat, y.toNat⟩).length - 16),
        BitVec.ofNat 8 (s.waitList.filter fun e => overlaps ⟨x.toNat, y.toNat⟩ e.range).length] ++
        ((overlapping s ⟨x.toNat, y.toNat⟩).take 16).flatMap fun x => bytes2 (handleOf (slotAt s x.1).gen x.1) ++
          [BitVec.ofNat 8 (portNumber x.2.holder), modeByte x.2.mode] ++ num2 x.2.range.first ++
          num2 x.2.range.count ++ bytes2 x.2.label }) := by
  have hargs : argRange (bytes2 x ++ bytes2 y) 0 2 = ⟨x.toNat, y.toNat⟩ := by
    rw [argRange, argNum_first, argNum_second]
  have hlen : (heldOver s ⟨x.toNat, y.toNat⟩).length = (overlapping s ⟨x.toNat, y.toNat⟩).length := by
    rw [← fst_overlapping, List.length_map]
  have hitems := map_overlapping s ⟨x.toNat, y.toNat⟩ (probeEntry s) (fun x => bytes2 (handleOf (slotAt s x.1).gen x.1) ++
    [BitVec.ofNat 8 (portNumber x.2.holder), modeByte x.2.mode] ++ num2 x.2.range.first ++
    num2 x.2.range.count ++ bytes2 x.2.label) fun i c h => probeEntry_of_held h
  have hmin : (overlapping s ⟨x.toNat, y.toNat⟩).length - min 16 (overlapping s ⟨x.toNat, y.toNat⟩).length =
      (overlapping s ⟨x.toNat, y.toNat⟩).length - 16 := by omega
  simp only [takeProbe, hargs, (rangeOk_iff _).2 hr, Bool.not_true, Bool.false_eq_true, if_false, List.length_take,
    hlen, hmin, num1, waitingOver, List.flatMap_def, List.map_take, hitems, List.cons_append, List.nil_append]

/-- R21: the slots that LIST goes through. -/
theorem mem_ownedFrom {s : State} {p : Port} {start : Nat} {i : SlotId} :
    i ∈ ownedFrom s p start ↔ start ≤ i.val ∧ ∃ c, (slotAt s i).content.claimed = some c ∧ c.holder = p := by
  simp [ownedFrom, ← ownedBy_iff, mem_allSlots]

theorem sorted_ownedFrom (s : State) (p : Port) (start : Nat) : (ownedFrom s p start).Pairwise (· < ·) :=
  (List.pairwise_lt_finRange 128).sublist List.filter_sublist

/-- R191: the results of a LIST of the slots found. -/
theorem listBytes_take (s : State) (found : List SlotId) :
    listBytes s (found.take 16) (decide (16 < found.length)) =
      [(if 16 < found.length then 0x80 else 0x00) ||| BitVec.ofNat 8 (min 16 found.length)] ++
        bitWord ((found.take 16).map fun i => (listEntry s i).2.1) ++
        bitWord ((found.take 16).map fun i => (listEntry s i).2.2) ++
        (found.take 16).flatMap fun i => (listEntry s i).1 := by
  simp [listBytes, List.map_map, Function.comp_def, List.flatMap_def]

end Sys2Proof.Machine

namespace Sys2Proof.Proofs

open Sys2Proof.Machine

/-- Settles O32: one equation of `takeClaim` per check of Table 15, and the first blocker of each list for CONFLICT. -/
theorem claimRefusedInOrder : Obligations.ClaimRefusedInOrder := by
  intro s f a hadm hargs hl r p badMode badTerm badWait overlap overQuota full
  have hlen : lengthOk .claim f.args = true := by rw [hargs]; rfl
  have answers : ∀ x : Answer, takeClaim p f.tag (claimBytes a) (beginAnswer s p) = (beginAnswer s p, x) →
      Answers .claim f s x.code x.results := fun x hx =>
    answers_of_owner hadm hl hlen (by decide) (by rw [hargs]; exact hx)
  have rangeGood (hr : WellFormed r) : rangeOk ⟨a.first.toNat, a.count.toNat⟩ = true := (rangeOk_iff r).2 hr
  have rangeBad (hr : ¬ WellFormed r) : rangeOk ⟨a.first.toNat, a.count.toNat⟩ = false :=
    Bool.eq_false_iff.2 (mt (rangeOk_iff r).1 hr)
  have self (ho : overlap) : overlapsSelf s p ⟨a.first.toNat, a.count.toNat⟩ = true := overlapsSelf_iff.2 ho
  have notSelf (ho : ¬ overlap) : overlapsSelf s p ⟨a.first.toNat, a.count.toNat⟩ = false :=
    Bool.eq_false_iff.2 (mt overlapsSelf_iff.1 ho)
  refine ⟨fun h => ?_, fun h hr => ?_, fun h hr ht => ?_, fun h hr ht hw => ?_, fun h hr ht hw ho => ?_,
    fun h hr ht hw ho hq => ?_, fun h hr ht hw ho hq hf => ?_, fun h hr ht hw ho hq hf m hm => ?_⟩
  · exact answers { code := .badMode } (by simp only [takeClaim, claimArgs_claimBytes, modeOfByte_none h, refuse])
  · obtain ⟨m, hm⟩ := modeOfByte_some h
    exact answers { code := .badRange } (by simp [takeClaim, hm, -rangeOk_iff, rangeBad hr, refuse])
  · obtain ⟨m, hm⟩ := modeOfByte_some h
    exact answers { code := .badTerm } (by simp [takeClaim, hm, -rangeOk_iff, rangeGood hr, show _ < _ from ht, refuse])
  · obtain ⟨m, hm⟩ := modeOfByte_some h
    exact answers { code := .badWait } (by
      simp [takeClaim, hm, -rangeOk_iff, rangeGood hr, show ¬ _ < _ from ht, show _ < _ from hw, refuse])
  · obtain ⟨m, hm⟩ := modeOfByte_some h
    exact answers { code := .overlapSelf } (by
      simp [takeClaim, hm, -rangeOk_iff, rangeGood hr, show ¬ _ < _ from ht, show ¬ _ < _ from hw, self ho, refuse])
  · obtain ⟨m, hm⟩ := modeOfByte_some h
    exact answers { code := .quotaExceeded } (by
      simp [takeClaim, hm, -rangeOk_iff, rangeGood hr, show ¬ _ < _ from ht, show ¬ _ < _ from hw, notSelf ho, show _ ≤ _ from hq,
        refuse])
  · obtain ⟨m, hm⟩ := modeOfByte_some h
    exact answers { code := .tableFull } (by
      simp [takeClaim, hm, -rangeOk_iff, rangeGood hr, show ¬ _ < _ from ht, show ¬ _ < _ from hw, notSelf ho, show ¬ _ ≤ _ from hq,
        lowestFree_none.2 hf, refuse])
  · obtain ⟨i, hi⟩ : ∃ i, lowestFree s = some i := Option.ne_none_iff_exists'.1 (mt lowestFree_none.1 hf)
    have decided : blocked s p m r = true → Answers .claim f s (conflictAnswer s p m r).code (conflictAnswer s p m r).results :=
      fun hb => answers _ <| by
        rw [takeClaim_of_passes (s := beginAnswer s p) f.tag hm hr (not_lt.1 ht) (by rw [hw]; exact Nat.zero_le _)
          (notSelf ho) (not_le.1 hq) hi, hw]
        exact claimDecide_of_blocked (s := beginAnswer s p) hb ..
    refine ⟨fun j c hc hx hlow => ?_, fun hn older e younger hlist hx holder => ?_⟩
    · have h := decided (blocked_iff.2 (.inl ⟨j, c, hc, hx⟩))
      rwa [conflictAnswer_holder hc hx hlow] at h
    · have h := decided (blocked_iff.2 (.inr ⟨e, by rw [hlist]; simp, hx⟩))
      rwa [conflictAnswer_waiter hn hlist hx holder] at h

/-- Settles O35: the four checks of Table 19 in their order, of a CLAIM that has passed those of Table 15. -/
theorem queueingRefusals : Obligations.QueueingRefusals := by
  intro s f a m hadm hargs hl hm hr ht hw hheld hwait hquota hfree hblock hwait0
  obtain ⟨i, hi⟩ : ∃ i, lowestFree s = some i := by
    rw [← Option.ne_none_iff_exists', Ne, lowestFree_none]
    exact fun h => hfree.elim h
  have hb : blocked s f.port m ⟨a.first.toNat, a.count.toNat⟩ = true := blocked_iff.2 hblock
  have hw0 : a.wait.toNat ≠ 0 := fun h => hwait0 (BitVec.eq_of_toNat_eq h)
  have answers : ∀ x : Answer, queueRefusal s f.port m ⟨a.first.toNat, a.count.toNat⟩ = some x →
      Answers .claim f s x.code x.results := fun x hx => by
    refine answers_of_owner hadm hl (by rw [hargs]; rfl) (by decide) ?_
    rw [hargs]
    refine (takeClaim_of_passes (s := beginAnswer s f.port) f.tag hm hr ht hw (overlapsSelf_eq_false hheld hwait) hquota
      hi).trans ?_
    rw [claimDecide_of_waiting (s := beginAnswer s f.port) hb _ _ hw0]
    simp only [queueRefusal_beginAnswer, hx]
  obtain ⟨full, list, places, lead⟩ := queueRefusal_cases s f.port m ⟨a.first.toNat, a.count.toNat⟩
  refine ⟨fun h1 => answers _ (full h1), fun h1 h2 => answers _ (list h1 h2), fun h1 h2 h3 => answers _ (places h1 h2 h3),
    fun h1 h2 h3 q hq hlq hlow => answers { code := .deadlock, results := num1 (portNumber q) } ?_⟩
  rw [lead h1 h2 h3, deadlockPort_lowest hq hlq hlow]
  rfl

/-- Settles O36: each command's values first, and then what the handle finds, for all five commands at once. -/
theorem handleAnswers : Obligations.HandleAnswers := by
  refine ⟨fun s f h x y hl => ⟨fun hadm hargs hx => ?_, fun hadm hargs hx => ?_, fun hadm hargs hr => ?_⟩,
    fun s c f h x y hadm hl hk => ?_⟩
  · refine answers_of_owner (a := { code := .badTerm }) hadm hl (by rw [hargs]; rfl) (by decide) ?_
    simp [hargs, ownerTakes, takeRenew, hx, refuse]
  · refine answers_of_owner (a := { code := .badWait }) hadm hl (by rw [hargs]; rfl) (by decide) ?_
    simp [hargs, ownerTakes, takeUpgrade, hx, refuse]
  · refine answers_of_owner (a := { code := .badRange }) hadm hl (by rw [hargs]; rfl) (by decide) ?_
    simp only [hargs, ownerTakes, takeTrim, spanArgs_bytes, Bool.eq_false_iff.2 (mt (rangeOk_iff _).1 hr), Bool.not_false,
      if_true, refuse]
  · have k : OnHandle (beginAnswer s f.port) h x y c f.args := by
      obtain ⟨rfl, ha, hx⟩ | ⟨rfl | rfl, ha⟩ | ⟨rfl, ha, hx⟩ | ⟨rfl, ha, hr⟩ := hk <;> rw [ha]
      exacts [.renew hx, .release, .downgrade, .upgrade hx, .trim hr]
    obtain ⟨hlen, hother⟩ := k.notOther
    have answers : ∀ code, ownerTakes c f.port f.tag f.args (beginAnswer s f.port) = refuse (beginAnswer s f.port) code →
        Answers c f s code [] := fun code hx => answers_of_owner (a := { code := code }) hadm hl hlen hother hx
    exact ⟨fun hr => answers _ (k.stale hr), fun i d hr hc => answers _ (k.waiting hr hc),
      fun i d l e hr hc hne => answers _ (k.lapsed hr hc hne), fun i d hr hd he hc => answers _ (k.engaged hr hd he hc)⟩

/-- Settles O45: PROBE and LIST go through the slots in order. -/
theorem probeAndList : Obligations.ProbeAndList := by
  refine fun s f hl => ⟨fun x y hadm hargs hr => ?_, fun x y hadm hargs hr => ?_, fun start hadm hargs => ?_⟩
  · refine answers_of_owner (a := { code := .badRange }) hadm hl (by rw [hargs]; rfl) (by decide) ?_
    have hr' : argRange (bytes2 x ++ bytes2 y) 0 2 = ⟨x.toNat, y.toNat⟩ := by
      rw [argRange, argNum_first, argNum_second]
    simp only [hargs, ownerTakes, takeProbe, hr', Bool.eq_false_iff.2 (mt (rangeOk_iff _).1 hr), Bool.not_false, if_true,
      refuse]
  · refine ⟨overlapping s ⟨x.toNat, y.toNat⟩, by rw [fst_overlapping]; exact sorted_heldOver .., fun i c =>
      mem_overlapping, ?_⟩
    exact answers_of_owner (a := { code := .ok, results := _ }) hadm hl (by rw [hargs]; rfl) (by decide)
      (by rw [hargs]; exact takeProbe_eq hr)
  · have hlen : lengthOk .list f.args = true := by rw [hargs]; rfl
    refine ⟨fun hb => ?_, fun hb => ⟨ownedFrom s f.port start.toNat, sorted_ownedFrom .., fun i => mem_ownedFrom, ?_⟩⟩
    · refine answers_of_owner (a := { code := .badValue }) hadm hl hlen (by decide) ?_
      rw [hargs]
      exact if_pos hb
    · refine answers_of_owner (a := { code := .ok, results := _ }) hadm hl hlen (by decide) ?_
      rw [hargs, ← listBytes_take]
      exact if_neg (not_lt.2 hb)

end Sys2Proof.Proofs
end


section
/-! PROOFS. The queueing of a blocked CLAIM and of a blocked UPGRADE (R30, R39, R54 to R59). -/

namespace Sys2Proof.Machine

/-! ### CONTENDED at the ports whose records conflict (R59) -/

theorem port_foldl_raiseContended (l : List Port) (s : State) (q : Port) :
    (l.foldl raiseContended s).port q = (s.port q).withContended ((s.port q).notices.contended || l.contains q) := by
  induction l generalizing s with
  | nil => simp [PortUnit.withContended]
  | cons p l ih =>
    rw [List.foldl_cons, ih, port_raiseContended, List.contains_cons]
    simp only [PortUnit.withContended, Bool.or_assoc]

/-- R58, R59: the port units when an entry joins the list. -/
theorem port_appendEntry (s : State) (e : WaitEntry) (q : Port) :
    (appendEntry s e).port q =
      (s.port q).withContended ((s.port q).notices.contended || heldByBlocks s e.port e.mode e.range q) := by
  have hq : (allPorts.filter (heldByBlocks s e.port e.mode e.range)).contains q =
      heldByBlocks s e.port e.mode e.range q := by
    have hall : q ∈ allPorts := by cases q <;> decide
    rw [Bool.eq_iff_iff, List.contains_iff_mem, List.mem_filter, and_iff_right hall]
  rw [← hq]
  exact port_foldl_raiseContended _ _ q

/-- A record of the port that asks never conflicts with its request. -/
theorem heldByBlocks_self (s : State) (p : Port) (m : Mode) (r : Range) : heldByBlocks s p m r p = false := by
  rw [← Bool.not_eq_true, heldByBlocks_iff]
  rintro ⟨i, c, -, rfl, hne, -⟩
  exact hne rfl

theorem withContended_self (u : PortUnit) : u.withContended u.notices.contended = u := rfl

theorem scannedPort_withContended (u : PortUnit) (b : Bool) :
    ScannedPort u (u.withContended (u.notices.contended || b)) :=
  ⟨fun h => by rw [PortUnit.withContended, h]; rfl, rfl⟩

/-- What the queueing of a request leaves, and the reply that says so. -/
structure QueuedFrom (s s1 : State) (p : Port) (tag : Byte) (e : WaitEntry) (t : State) : Prop where
  table    : t.table = s1.table
  waitList : t.waitList = s1.waitList ++ [e]
  session  : t.session p = { s1.session p with reserved := (s1.session p).reserved ++ [.entry e.ticket] }
  others   : ∀ q, q ≠ p → t.session q = s.session q ∧ ScannedPort (s.port q) (t.port q) ∧
    ((t.port q).notices.contended = true ↔ (s.port q).notices.contended = true ∨
      ∃ j c, Held s1 j c ∧ c.holder = q ∧ Conflict p e.mode e.range c.holder c.mode c.range)
  board    : board t = board s
  replied  : Replied p tag .pending (bytes2 e.ticket) (s.port p) t

/-- The end of a command that has queued its request: its own port unit holds no record in conflict, so that only the
other ports are told. -/
theorem queuedFrom_replying {s s1 : State} {p : Port} (h : TouchesOwnOnly p (beginAnswer s p) s1) (tag : Byte)
    {e : WaitEntry} (hp : e.port = p) :
    QueuedFrom s s1 p tag e (replying (appendEntry s1 e) p tag { code := .pending, results := bytes2 e.ticket }) := by
  subst hp
  obtain ⟨ht, hw, hs⟩ := table_appendEntry s1 e
  have hsess (q : Port) : (appendEntry s1 e).session q = (reservePlace s1 e.port (.entry e.ticket)).session q := by
    simp only [State.session, hs]
  have hport (q : Port) : s1.port q = (beginAnswer s e.port).port q := by simp only [State.port, h.ports]
  refine ⟨ht, hw, ?_, fun q hq => ⟨?_, ?_, ?_⟩, ?_, ?_⟩
  · rw [replying_session, hsess, session_reservePlace, if_pos rfl]
  · rw [replying_session, hsess, session_reservePlace, if_neg hq, h.sessions q hq, session_beginAnswer]
  · rw [port_replying_other _ _ _ _ hq, port_appendEntry, hport, port_beginAnswer_other s hq]
    exact scannedPort_line (scannedPort_withContended ..) _
  · rw [notices_replying, port_appendEntry, hport, port_beginAnswer_other s hq]
    simp only [PortUnit.withContended, Bool.or_eq_true, heldByBlocks_iff]
  · rw [replying_board, board_appendEntry, h.board, board_beginAnswer]
  · refine replied_replying tag { code := .pending, results := bytes2 e.ticket } ?_
    rw [port_appendEntry, heldByBlocks_self, Bool.or_false, withContended_self, hport, port_beginAnswer_same]

/-- R30: the slot is allocated, and the entry carries its handle. -/
theorem claimQueue_eq (s : State) (p : Port) (tag : Byte) (m : Mode) (r : Range) (term wait : Nat) (label : Half)
    (i : SlotId) : claimQueue s p tag m r term wait label i =
      (appendEntry (allocate s p i (.reserved ⟨p, m, r, label⟩))
        ⟨slotHandle s i, p, .claim term label, m, r, wait, tag⟩,
        { code := .pending, results := bytes2 (slotHandle s i) }) := by
  simp only [claimQueue, slotHandle_allocate]

/-! ### UPGRADE at conflict determination -/

theorem upgradeDecide_of_blocked {s : State} {p : Port} {c : Claimed} (hb : blocked s p .exclusive c.range = true)
    (tag : Byte) (i : SlotId) (l : Lease) (n : Nat) :
    upgradeDecide s p tag i c l n 0 = (s, conflictAnswer s p .exclusive c.range) := by simp [upgradeDecide, hb]

theorem upgradeDecide_of_waiting {s : State} {p : Port} {c : Claimed} (hb : blocked s p .exclusive c.range = true)
    (tag : Byte) (i : SlotId) (l : Lease) (n : Nat) {wait : Nat} (hw : wait ≠ 0) :
    upgradeDecide s p tag i c l n wait = match queueRefusal s p .exclusive c.range with
      | some a => (s, a)
      | none => (appendEntry s ⟨slotHandle s i, p, .upgrade, .exclusive, c.range, wait, tag⟩,
          { code := .pending, results := bytes2 (slotHandle s i) }) := by
  simp only [upgradeDecide, hb, Bool.not_true, Bool.false_eq_true, if_false, hw] <;> rfl

theorem takeUpgrade_refused {s : State} {p : Port} {h x : Half} {i : SlotId} {c : Claimed} (tag : Byte)
    (hw : x.toNat ≤ s.params.maxWait) (hr : resolve s p h = some i) (hc : Held s i c) :
    (c.mode = .exclusive → takeUpgrade p tag (bytes2 h ++ bytes2 x) s = (s, { code := .alreadyExclusive })) ∧
    (c.mode = .shared → (∃ e ∈ s.waitList, e.kind = .upgrade ∧ e.ticket = h) →
      takeUpgrade p tag (bytes2 h ++ bytes2 x) s = (s, { code := .alreadyWaiting })) := by
  obtain ⟨l, n, hc⟩ := hc
  refine ⟨fun hm => by simp [takeUpgrade, hw.not_gt, hr, hc, hm, refuse], fun hm hu => ?_⟩
  rw [resolve_handle hr] at hu
  simp [takeUpgrade, hw.not_gt, hr, hc, hm, upgradeWaits_iff.2 hu, refuse]

/-- An UPGRADE entry engages the record that its ticket names (R43). -/
theorem engaged_of_upgrade {s : State} {i : SlotId} {c : Claimed} (hc : Held s i c) {e : WaitEntry}
    (he : e ∈ s.waitList) (hk : e.kind = .upgrade) (ht : e.ticket = slotHandle s i) : Engaged s i :=
  ⟨c, hc, .inr ⟨e, he, hk, ht⟩⟩

theorem conflict_exclusive_iff {p q : Port} {m : Mode} {r r' : Range} (hq : q ≠ p) :
    Conflict p .exclusive r q m r' ↔ Overlap r r' := by simp [Conflict, hq.symm]

end Sys2Proof.Machine

namespace Sys2Proof.Proofs

open Sys2Proof.Machine

/-- Settles O34: the slot is allocated and then the entry joins the list; the other slots hold what they held. -/
theorem claimQueued : Obligations.ClaimQueued := by
  intro s f a m i hadm hargs hl hm hr ht hw hheld hwait hquota hfree hlow hblock hwait0 hown hlist hplaces hlead h
  have hterm := resolvedTerm_toNat s a.term
  have hb : blocked s f.port m ⟨a.first.toNat, a.count.toNat⟩ = true := blocked_iff.2 hblock
  have hw0 : a.wait.toNat ≠ 0 := fun h => hwait0 (BitVec.eq_of_toNat_eq h)
  have hqueue : queueRefusal s f.port m ⟨a.first.toNat, a.count.toNat⟩ = none := by
    rw [(queueRefusal_cases ..).2.2.2 hown hlist hplaces, deadlockPort_none hlead]
    rfl
  have htake : takeClaim f.port f.tag (claimBytes a) (beginAnswer s f.port) = claimQueue (beginAnswer s f.port) f.port
      f.tag m ⟨a.first.toNat, a.count.toNat⟩ (resolvedTerm s a.term.toNat) a.wait.toNat a.label i := by
    refine (takeClaim_of_passes (s := beginAnswer s f.port) f.tag hm hr ht hw (overlapsSelf_eq_false hheld hwait) hquota
      (lowestFree_iff.2 ⟨hfree, hlow⟩)).trans ?_
    rw [claimDecide_of_waiting (s := beginAnswer s f.port) hb _ _ hw0]
    simp only [queueRefusal_beginAnswer, hqueue, resolvedTerm_beginAnswer]
  rw [hterm, claimQueue_eq] at htake
  have hd := queuedFrom_replying (touchesOwnOnly_allocate f.port (beginAnswer s f.port) i
    (.reserved ⟨f.port, m, ⟨a.first.toNat, a.count.toNat⟩, a.label⟩)) f.tag
    (e := { ticket := h, port := f.port
            kind := .claim (if a.term = 0 then s.params.defaultTerm else a.term.toNat) a.label
            mode := m, range := ⟨a.first.toNat, a.count.toNat⟩, waitRemaining := a.wait.toNat, tag := f.tag }) rfl
  refine ⟨_, exec_admitted hadm (by rw [hargs]; rfl) (by decide) (by rw [hargs]; exact htake), ?_, fun j hj => ?_,
    hd.waitList, ?_, fun q hq => ?_, hd.board, hd.replied⟩
  · exact (slotAt_eq_of_table hd.table i).trans (slotAt_allocate_same ..)
  · exact (slotAt_eq_of_table hd.table j).trans (slotAt_allocate_other _ _ _ hj)
  · refine hd.session.trans ?_
    rw [session_allocate_same, session_beginAnswer]
  · obtain ⟨hsess, hscan, hcont⟩ := hd.others q hq
    refine ⟨hsess, hscan, hcont.trans (or_congr_right ?_)⟩
    simp only [held_allocate_reserved (s := beginAnswer s f.port) hfree, held_beginAnswer]

/-- Settles O42: the checks of an UPGRADE in their order, and the queueing of one that passes them. -/
theorem upgradeBlocked : Obligations.UpgradeBlocked := by
  intro s f h x i c hadm hargs hl hw hr hc p upgradeWaits room
  obtain rfl := resolve_handle hr
  have hlen : lengthOk .upgrade f.args = true := by rw [hargs]; rfl
  have answers : ∀ a : Answer, takeUpgrade p f.tag (bytes2 (slotHandle s i) ++ bytes2 x) (beginAnswer s p) =
      (beginAnswer s p, a) → Answers .upgrade f s a.code a.results := fun a ha =>
    answers_of_owner hadm hl hlen (by decide) (by rw [hargs]; exact ha)
  obtain ⟨exclusive, waiting⟩ := takeUpgrade_refused (s := beginAnswer s p) f.tag hw hr hc
  obtain ⟨l, n, hcontent⟩ := hc
  have decided (hm : c.mode = .shared) (hu : ¬ upgradeWaits) :
      takeUpgrade p f.tag (bytes2 (slotHandle s i) ++ bytes2 x) (beginAnswer s p) =
        upgradeDecide (beginAnswer s p) p f.tag i c l n x.toNat :=
    takeUpgrade_of_shared (s := beginAnswer s p) f.tag hw hr hcontent hm fun e he hk ht => hu ⟨e, he, hk, ht⟩
  refine ⟨fun hm => answers _ (exclusive hm), fun hm hu => answers _ (waiting hm hu), fun hm hu hx => ?_,
    fun hm hu hx hblock => ?_⟩
  · have conflict (hb : blocked s p .exclusive c.range = true) : Answers .upgrade f s
        (conflictAnswer s p .exclusive c.range).code (conflictAnswer s p .exclusive c.range).results := by
      refine answers _ ((decided hm hu).trans ?_)
      rw [hx]
      exact upgradeDecide_of_blocked (s := beginAnswer s p) hb ..
    refine ⟨fun j d hd hconf hlow => ?_, fun hn older e younger hlist hconf ho => ?_⟩
    · have h := conflict (blocked_iff.2 (.inl ⟨j, d, hd, hconf⟩))
      rwa [conflictAnswer_holder hd hconf hlow] at h
    · have h := conflict (blocked_iff.2 (.inr ⟨e, by rw [hlist]; simp, hconf⟩))
      rwa [conflictAnswer_waiter hn hlist hconf ho] at h
  · have hx0 : x.toNat ≠ 0 := fun h => hx (BitVec.eq_of_toNat_eq h)
    have queueing := (decided hm hu).trans
      (upgradeDecide_of_waiting (s := beginAnswer s p) (blocked_iff.2 hblock) f.tag i l n hx0)
    rw [queueRefusal_beginAnswer] at queueing
    have refused (a : Answer) (ha : queueRefusal s p .exclusive c.range = some a) :
        Answers .upgrade f s a.code a.results := answers a (by rw [queueing, ha])
    obtain ⟨full, list, places, lead⟩ := queueRefusal_cases s p .exclusive c.range
    refine ⟨fun h1 => refused _ (full h1), fun h1 h2 => refused _ (list h1 h2),
      fun h1 h2 h3 => refused _ (places h1 h2 h3), fun ⟨h1, h2, h3⟩ q hq hlq hlow => ?_, fun ⟨h1, h2, h3⟩ hlead => ?_⟩
    · refine refused { code := .deadlock, results := num1 (portNumber q) } ?_
      rw [lead h1 h2 h3, deadlockPort_lowest hq hlq hlow]
      rfl
    · rw [lead h1 h2 h3, deadlockPort_none hlead] at queueing
      have hd := queuedFrom_replying (touchesOwnOnly_refl p (beginAnswer s p)) f.tag
        (e := ⟨slotHandle s i, p, .upgrade, .exclusive, c.range, x.toNat, f.tag⟩) rfl
      refine ⟨_, exec_admitted hadm hlen (by decide) (by rw [hargs]; exact queueing), hd.table, hd.waitList, hd.session,
        fun q hq => ?_, ?_, hd.board, hd.replied⟩
      · obtain ⟨hsess, hscan, hcont⟩ := hd.others q hq
        refine ⟨hsess, hscan, hcont.trans (or_congr_right ?_)⟩
        refine exists_congr fun j => exists_congr fun d => and_congr_right fun _ => and_congr_right fun hdq => ?_
        exact conflict_exclusive_iff (hdq.trans_ne hq)
      · refine engaged_of_upgrade (c := c) ⟨l, n, ?_⟩
          (by rw [hd.waitList]; exact List.mem_append_right _ (List.mem_singleton_self _)) rfl
          (congrArg (fun x => handleOf x.gen i) (slotAt_eq_of_table hd.table i)).symm
        rw [slotAt_eq_of_table hd.table i]
        exact hcontent

end Sys2Proof.Proofs
end


section
/-! PROOFS. The commands that end in a grant scan: RELEASE, DOWNGRADE, TRIM and CANCEL (R34, R36, R42, R60, R66). -/

namespace Sys2Proof.Machine

/-! ### A command that ends in a grant scan -/

/-- What a scan reads and writes: a scan between two states is one between any two that agree with them there. -/
structure SameForScan (s t : State) : Prop where
  table     : t.table = s.table
  waitList  : t.waitList = s.waitList
  session   : ∀ p, t.session p = s.session p
  contended : ∀ p, (t.port p).notices.contended = (s.port p).notices.contended

theorem InStep.congr {s t : State} (h : InStep s) (ht : t.table = s.table) (hw : t.waitList = s.waitList) : InStep t := by
  have hslot : ∀ i, slotAt t i = slotAt s i := slotAt_eq_of_table ht
  have hhandle : ∀ i, slotHandle t i = slotHandle s i := fun i => slotHandle_of_gen (by rw [hslot i])
  refine ⟨fun e he => ?_, fun e he => ?_, fun i c hc => ?_, by rw [hw]; exact h.tickets⟩
  · simpa only [hslot, hhandle] using h.claims e (hw ▸ he)
  · simpa only [hslot, hhandle, Held] using h.upgrades e (hw ▸ he)
  · rw [hw, hhandle]
    exact h.slots i c (hslot i ▸ hc)

theorem Scans.congr {granted : List WaitEntry} {s t s' t' : State} (h : Scans granted s t) (hs : SameForScan s s')
    (ht : SameForScan t t') : Scans granted s' t' := by
  have hslot : ∀ i, slotAt s' i = slotAt s i := slotAt_eq_of_table hs.table
  have hslot' : ∀ i, slotAt t' i = slotAt t i := slotAt_eq_of_table ht.table
  have hhandle : ∀ i, slotHandle s' i = slotHandle s i := fun i => slotHandle_of_gen (by rw [hslot i])
  refine ⟨hs.waitList ▸ h.order, fun older e younger hl => ?_, ?_, ?_, ?_, fun p => ?_, fun p => ?_⟩
  · simpa only [BlockerOf, Held, hslot] using h.chosen older e younger (hs.waitList ▸ hl)
  · rw [ht.waitList, hs.waitList]; exact h.entries
  · simpa only [hhandle, hslot, hslot'] using h.slots
  · simpa only [hhandle, hslot, hslot'] using h.others
  · obtain ⟨new, hnew, hsess⟩ := h.sessions p
    refine ⟨new, hnew.imp fun e o ho => ?_, ?_⟩
    · simpa only [GrantOutcome, hhandle, hslot] using ho
    · rw [ht.session, hs.session, hsess]
  · rw [ht.contended, hs.contended, ht.waitList]
    exact h.contended p

/-- The whole of a command whose owner has come to `m` before the scan. -/
structure EndsInScan (p : Port) (tag : Byte) (a : Answer) (m t : State) : Prop where
  scanned : Scanned (some p) m t
  blocked : EachEntryBlocked t
  scan    : InStep m → ScannedFrom m t
  replied : ∃ u, ScannedPort (m.port p) u ∧ Replied p tag a.code a.results u t

theorem sameForScan_beginAnswer (s : State) (p : Port) : SameForScan (beginAnswer s p) s :=
  ⟨rfl, rfl, fun _ => rfl, fun q => by rw [notices_beginAnswer]⟩

theorem sameForScan_replying (s : State) (p : Port) (tag : Byte) (a : Answer) : SameForScan s (replying s p tag a) :=
  ⟨rfl, rfl, fun _ => rfl, fun q => by rw [notices_replying]⟩

theorem endsInScan_replying (m : State) (p : Port) (tag : Byte) (a : Answer) :
    EndsInScan p tag a m (replying (grantScan (beginAnswer m p)) p tag a) := by
  have k := grantScan_scanned (beginAnswer m p)
  refine ⟨⟨fun i => ?_, k.entries, k.sessions, fun q hq => ?_, k.board⟩, ?_, fun h => ?_, ?_⟩
  · have x := k.slots i
    exact ⟨x.gen, x.free, x.lapsed, x.unnamed, x.reserved, x.held⟩
  · have hq' : q ≠ p := fun h => hq (congrArg some h.symm)
    have := scannedPort_replying tag a hq' (k.ports q nofun)
    rwa [port_beginAnswer_other m hq'] at this
  · exact grantScan_blocked (beginAnswer m p)
  · obtain ⟨granted, hs⟩ := scans_grantScan (s := beginAnswer m p) (h.congr rfl rfl)
    exact ⟨granted, hs.toScans.congr (sameForScan_beginAnswer m p) (sameForScan_replying _ p tag a)⟩
  · exact replied_scanned tag a (port_beginAnswer_same m p) (k.ports p nofun)

/-- A slot that the owner has not touched: what the scan may make of it is told from the state before. -/
theorem ScannedSlot.of_untouched {s m t : State} {i : SlotId} (h : ScannedSlot m t i) (hs : slotAt m i = slotAt s i)
    (hw : ∀ e ∈ m.waitList, e ∈ s.waitList) : ScannedSlot s t i := by
  refine ⟨?_, ?_, ?_, fun hn => ?_, ?_, ?_⟩
  · rw [h.gen, hs]
  · rw [← hs]; exact h.free
  · rw [← hs]; exact h.lapsed
  · rw [h.unnamed fun e he => hn e (hw e he), hs]
  · rw [← hs]; exact h.reserved
  · rw [← hs]; exact h.held

/-- A scan leaves a FREE slot as it is. -/
theorem ScannedSlot.of_free {m t : State} {i : SlotId} {x : Slot} (h : ScannedSlot m t i) (hx : slotAt m i = x)
    (hf : x.content = .free) : slotAt t i = x := by
  subst hx
  have hc : (slotAt t i).content = (slotAt m i).content := (h.free hf).trans hf.symm
  calc slotAt t i = ⟨(slotAt t i).gen, (slotAt t i).content⟩ := rfl
    _ = slotAt m i := by rw [h.gen, hc]

/-- The command of a port that is admitted, from the state its owner has come to before the scan. -/
theorem exec_endsInScan {c : Command} {f : Frame} {s m : State} {a : Answer} (h : Admitted c f s)
    (hlen : lengthOk c f.args = true) (hc : c ≠ .read ∧ c ≠ .write ∧ c ≠ .replay ∧ c ≠ .open_)
    (ht : ownerTakes c f.port f.tag f.args (beginAnswer s f.port) = (grantScan (beginAnswer m f.port), a)) :
    ∃ t, exec (rowOf c f) s = .next t ∧ EndsInScan f.port f.tag a m t :=
  ⟨_, exec_admitted h hlen hc ht, endsInScan_replying m f.port f.tag a⟩

/-! ### RELEASE, DOWNGRADE, TRIM -/

theorem not_engaged {s : State} {i : SlotId} (h : ¬ Engaged s i) : engaged s i = false :=
  Bool.eq_false_iff.2 (mt engaged_iff.1 h)

theorem takeRelease_of_held {s : State} {p : Port} {h : Half} {i : SlotId} {c : Claimed}
    (hr : resolve s p h = some i) (hc : Held s i c) (he : ¬ Engaged s i) :
    takeRelease p (bytes2 h) s = (grantScan (freeSlot s i), { code := .ok, results := [0x02, 0x00] }) := by
  obtain ⟨l, n, hc⟩ := hc
  simp [takeRelease, hr, hc, not_engaged he]

theorem takeDowngrade_of_held {s : State} {p : Port} {h : Half} {i : SlotId} {c : Claimed} {l : Lease} {n : Nat}
    (hr : resolve s p h = some i) (hc : (slotAt s i).content = .held c l n) (he : ¬ Engaged s i) :
    takeDowngrade p (bytes2 h) s = if c.mode = .shared then (s, { code := .alreadyShared })
      else (grantScan (setContent s i (.held { c with mode := .shared } l n)), { code := .ok }) := by
  simp [takeDowngrade, hr, hc, not_engaged he, refuse]

theorem takeTrim_of_held {s : State} {p : Port} {h x y : Half} {i : SlotId} {c : Claimed} {l : Lease} {n : Nat}
    (hw : WellFormed ⟨x.toNat, y.toNat⟩) (hr : resolve s p h = some i) (hc : (slotAt s i).content = .held c l n) :
    takeTrim p (bytes2 h ++ bytes2 x ++ bytes2 y) s =
      if insideRange ⟨x.toNat, y.toNat⟩ c.range = false then (s, { code := .badRange })
      else if engaged s i then (s, { code := .engaged })
      else (grantScan (setContent s i (.held { c with range := ⟨x.toNat, y.toNat⟩ } l n)), { code := .ok }) := by
  simp only [takeTrim, spanArgs_bytes, (rangeOk_iff _).2 hw, hr, hc, Bool.not_true, Bool.false_eq_true, if_false,
    refuse, Bool.not_eq_true']

/-- A record that is not engaged is HELD in step with the list, and stays so when its content is weakened. -/
theorem inStep_weaken {s : State} (h : InStep s) {i : SlotId} {c d : Claimed} {l : Lease} {n : Nat}
    (hc : (slotAt s i).content = .held c l n) (he : ¬ Engaged s i) (hd : c.holder = d.holder)
    (hm : d.mode = c.mode ∨ d.mode = .shared) (hi : Inside d.range c.range) : InStep (setContent s i (.held d l n)) :=
  (shrinks_weaken hc (h.unnamed_held hc (upgradeWaits_of_engaged hc (not_engaged he))) hd hm hi).inStep h

end Sys2Proof.Machine

namespace Sys2Proof.Proofs

open Sys2Proof.Machine

/-- Settles O38: the slot is freed first, and then the scan runs over a list that names it nowhere. -/
theorem releaseOfHeld : Obligations.ReleaseOfHeld := by
  intro s f h i c hadm hargs hl hr hc he
  obtain ⟨l, n, hcontent⟩ := hc
  have hclaimed : (slotAt s i).content.claimed = some c := by rw [hcontent]; rfl
  have hp : c.holder = f.port := resolve_owner hr hclaimed
  have hfree : freeSlot (beginAnswer s f.port) i =
      beginAnswer ((setSlot s i { gen := nextGen (slotAt s i).gen, content := .free }).modSession f.port fun x =>
        { x with usage := x.usage - 1 }) f.port := by
    rw [freeSlot_of_claimed (s := beginAnswer s f.port) hclaimed, hp]
    rfl
  obtain ⟨t, hexec, k⟩ := exec_endsInScan hadm (by rw [hargs]; rfl) (by decide)
    (by rw [hargs, ← hfree]; exact takeRelease_of_held (s := beginAnswer s f.port) hr ⟨l, n, hcontent⟩ he)
  have hin : InStep s → InStep (freeSlot s i) := fun hs => (shrinks_freeSlot hclaimed
    (hs.unnamed_held hcontent (upgradeWaits_of_engaged hcontent (not_engaged he)))).inStep hs
  rw [freeSlot_of_claimed hclaimed, hp] at hin
  refine ⟨t, hexec, ?_, fun j hj => ?_, k.scanned.entries, k.blocked, ?_, fun q hq => ⟨?_, ?_⟩, k.scanned.board,
    fun hs => k.scan (hin hs), k.replied⟩
  · refine (k.scanned.slots i).of_free ?_ rfl
    rw [slotAt_modSession, slotAt_setSlot_same]
  · refine (k.scanned.slots j).of_untouched ?_ fun e he => he
    rw [slotAt_modSession, slotAt_setSlot_other s _ hj]
  · have h := k.scanned.sessions f.port
    rwa [State.session_modSession_same] at h
  · have h := k.scanned.sessions q
    rwa [State.session_modSession_other _ _ hq] at h
  · exact k.scanned.ports q fun h => hq (Option.some.inj h).symm

/-- Settles O40: one slot is rewritten, and then the scan runs. -/
theorem downgradeTaken : Obligations.DowngradeTaken := by
  intro s f h i c l n hadm hargs hl hr hc he
  have hlen : lengthOk .downgrade f.args = true := by rw [hargs]; rfl
  have htake := takeDowngrade_of_held (s := beginAnswer s f.port) hr hc he
  refine ⟨fun hm => ?_, fun hm => ?_⟩
  · rw [if_pos hm] at htake
    exact answers_of_owner (a := { code := .alreadyShared }) hadm hl hlen (by decide) (by rw [hargs]; exact htake)
  · rw [if_neg (by rw [hm]; decide)] at htake
    obtain ⟨t, hexec, k⟩ := exec_endsInScan (m := setContent s i (.held { c with mode := .shared } l n)) hadm hlen
      (by decide) (by rw [hargs]; exact htake)
    obtain ⟨u, hu, hreply⟩ := k.replied
    exact ⟨t, u, hexec, k.scanned, k.blocked,
      fun hs => k.scan (inStep_weaken hs hc he rfl (.inr rfl) (Inside.refl _)),
      fun hn => ((k.scanned.slots i).unnamed hn).trans (slotAt_setContent_same ..), hu, hreply⟩

/-- Settles O43: one slot is rewritten, and then the scan runs. -/
theorem trimTaken : Obligations.TrimTaken := by
  intro s f h x y i c l n hadm hargs hl hw hr hc
  have hlen : lengthOk .trim f.args = true := by rw [hargs]; rfl
  have htake := takeTrim_of_held (s := beginAnswer s f.port) hw hr hc
  refine ⟨fun hi => ?_, fun hi he => ?_⟩
  · rw [if_pos (Bool.eq_false_iff.2 (mt (insideRange_iff _ _).1 hi))] at htake
    exact answers_of_owner (a := { code := .badRange }) hadm hl hlen (by decide) (by rw [hargs]; exact htake)
  · rw [(insideRange_iff _ _).2 hi, if_neg (by decide), engaged_beginAnswer, not_engaged he, if_neg (by decide)] at htake
    obtain ⟨t, hexec, k⟩ := exec_endsInScan (m := setContent s i (.held { c with range := ⟨x.toNat, y.toNat⟩ } l n)) hadm
      hlen (by decide) (by rw [hargs]; exact htake)
    obtain ⟨u, hu, hreply⟩ := k.replied
    exact ⟨t, u, hexec, k.scanned, k.blocked, fun hs => k.scan (inStep_weaken hs hc he rfl (.inl rfl) hi),
      fun hn => ((k.scanned.slots i).unnamed hn).trans (slotAt_setContent_same ..), hu, hreply⟩

end Sys2Proof.Proofs
end


section
/-! PROOFS. The end of one wait entry: CANCEL (R66), and the expiry of one entry and the lapse of one record (R65, R69,
R79). -/

namespace Sys2Proof.Machine

/-! ### An entry that leaves the list -/

/-- R128: the session contexts when an entry ends. -/
theorem session_endEntry (s : State) (e : WaitEntry) (how : WaitEnd) (q : Port) :
    (endEntry s e how).session q = if q = e.port then
      { s.session q with
        reserved := (s.session q).reserved.erase (.entry e.ticket)
        held := (s.session q).held ++ [{ tag := e.tag, body := .ended e.waitKind how e.ticket }] }
      else s.session q := session_fillPlace ..

/-- R65, R66, R68: what the end of an entry leaves, whose ticket names a slot. -/
structure Dropped (s : State) (e : WaitEntry) (how : WaitEnd) (i : SlotId) (t : State) : Prop where
  waitList : t.waitList = s.waitList.erase e
  slot     : slotAt t i = if e.isUpgrade then slotAt s i else { gen := nextGen (slotAt s i).gen, content := .free }
  others   : OtherSlotsKept i s t
  session  : t.session e.port = { s.session e.port with
    reserved := (s.session e.port).reserved.erase (.entry e.ticket)
    held := (s.session e.port).held ++ [{ tag := e.tag, body := .ended e.waitKind how e.ticket }]
    usage := if e.isUpgrade then (s.session e.port).usage else (s.session e.port).usage - 1 }
  sessions : ∀ q, q ≠ e.port → t.session q = s.session q
  ports    : t.ports = s.ports

theorem dropped_dropEntry {s : State} (h : InStep s) {e : WaitEntry} (he : e ∈ s.waitList) (how : WaitEnd) {i : SlotId}
    (hi : e.ticket = slotHandle s i) : Dropped s e how i (dropEntry s e how) := by
  cases hk : e.isUpgrade with
  | true =>
    rw [dropEntry_upgrade hk]
    refine ⟨rfl, by rw [hk]; rfl, fun _ _ => rfl, ?_, fun q hq => ?_, rfl⟩
    · rw [session_endEntry, if_pos rfl, if_pos hk]
    · rw [session_endEntry, if_neg hq]
  | false =>
    obtain ⟨term, label, hkind⟩ := isUpgrade_false_iff.1 hk
    have hc : (slotAt (endEntry s e how) i).content.claimed = some ⟨e.port, e.mode, e.range, label⟩ := by
      rw [slotAt_eq_of_table (table_endEntry s e how), h.claim_content he hkind hi]
      rfl
    rw [dropEntry_claim hi hk]
    refine ⟨waitList_freeSlot hc, ?_, fun j hj => slotAt_freeSlot_other hc hj, ?_, fun q hq => ?_, ?_⟩
    · rw [slotAt_freeSlot_same hc, hk]; rfl
    · rw [session_freeSlot_holder hc, session_endEntry, if_pos rfl, hk]
      rfl
    · rw [(touchesOwnOnly_freeSlot hc).sessions q hq, session_endEntry, if_neg hq]
    · exact (touchesOwnOnly_freeSlot hc).ports

theorem freeSlot_beginAnswer (s : State) (p : Port) (i : SlotId) :
    freeSlot (beginAnswer s p) i = beginAnswer (freeSlot s i) p := by
  cases hc : (slotAt s i).content.claimed with
  | none => simp only [freeSlot, slotAt_beginAnswer, hc]
  | some c =>
    rw [freeSlot_of_claimed hc, freeSlot_of_claimed (s := beginAnswer s p) hc]
    rfl

theorem dropEntry_beginAnswer (s : State) (p : Port) (e : WaitEntry) (how : WaitEnd) :
    dropEntry (beginAnswer s p) e how = beginAnswer (dropEntry s e how) p := by
  have hend : endEntry (beginAnswer s p) e how = beginAnswer (endEntry s e how) p := rfl
  simp only [dropEntry, freeClaimSlot, hend]
  split
  · exact freeSlot_beginAnswer ..
  · rfl

/-- Once an entry has left the list, no entry names its slot. -/
theorem InStep.unnamed_of_erase {s : State} (h : InStep s) {e : WaitEntry} (he : e ∈ s.waitList) {i : SlotId}
    (hi : e.ticket = slotHandle s i) : ∀ o ∈ s.waitList.erase e, handleSlot o.ticket ≠ some i := by
  intro o ho hoi
  obtain ⟨hne, hmem⟩ := h.nodup.mem_erase_iff.1 ho
  obtain ⟨j, hj⟩ := h.slotOf hmem
  rw [hj, handleSlot_slotHandle, Option.some.injEq] at hoi
  exact hne (h.entry_eq hmem he (by rw [hj, hi, hoi]))

theorem ScannedFrom.congr {m m' t : State} (h : ScannedFrom m t) (hm : SameForScan m m') : ScannedFrom m' t := by
  obtain ⟨granted, hs⟩ := h
  exact ⟨granted, hs.congr hm ⟨rfl, rfl, fun _ => rfl, fun _ => rfl⟩⟩

/-! ### CANCEL (R66) -/

/-- The entry of a port that carries a ticket. -/
theorem takeCancel_of_entry {s : State} (h : InStep s) {e : WaitEntry} (he : e ∈ s.waitList) :
    takeCancel e.port (bytes2 e.ticket) s = (grantScan (dropEntry s e .cancelled),
      { code := .ok, results := [waitKindByte e.waitKind] ++ bytes2 e.ticket }) := by
  have hfind : s.waitList.find? (fun o => o.port == e.port && o.ticket == argHalf (bytes2 e.ticket) 0) = some e := by
    rw [argHalf_bytes2]
    cases hf : s.waitList.find? fun o => o.port == e.port && o.ticket == e.ticket with
    | none => simpa using List.find?_eq_none.1 hf e he
    | some o =>
      have hm := List.mem_of_find?_eq_some hf
      have ht := List.find?_some hf
      simp only [Bool.and_eq_true, beq_iff_eq] at ht
      rw [h.entry_eq hm he ht.2]
  simp only [takeCancel, hfind]

/-! ### The upgrade of a record that waits (R69) -/

theorem endUpgradeOf_of_none {s : State} {k : Half} (h : ∀ e ∈ s.waitList, e.kind = .upgrade → e.ticket ≠ k) :
    endUpgradeOf s k = s := by
  have hfind : s.waitList.find? (fun e => e.isUpgrade && e.ticket == k) = none := List.find?_eq_none.2 fun e he => by
    simpa [isUpgrade_iff] using h e he
  simp only [endUpgradeOf, hfind]

theorem endUpgradeOf_of_first {s : State} {k : Half} {older younger : List WaitEntry} {e : WaitEntry}
    (hl : s.waitList = older ++ e :: younger) (hk : e.kind = .upgrade) (ht : e.ticket = k)
    (ho : ∀ o ∈ older, o.kind = .upgrade → o.ticket ≠ k) :
    endUpgradeOf s k = endEntry s e .recordEnded ∧ s.waitList.erase e = older ++ younger := by
  have hnone : older.find? (fun e => e.isUpgrade && e.ticket == k) = none := List.find?_eq_none.2 fun o h => by
    simpa [isUpgrade_iff] using ho o h
  have hfind : s.waitList.find? (fun e => e.isUpgrade && e.ticket == k) = some e := by
    rw [hl, List.find?_append, hnone, Option.none_or, List.find?_cons_of_pos (by simp [isUpgrade_iff, hk, ht])]
  refine ⟨by simp only [endUpgradeOf, hfind], ?_⟩
  rw [hl, List.erase_append_right _ fun h => ho e h hk ht, List.erase_cons_head]

theorem port_endUpgradeOf (s : State) (k : Half) (q : Port) : (endUpgradeOf s k).port q = s.port q := by
  unfold endUpgradeOf
  split <;> rfl

/-! ### The lapse of one record (R79) -/

/-- R137: the port units at the end of a happening, told from that end. -/
theorem port_settled (s : State) (q : Port) :
    (settleNotices s).port q = { s.port q with noticeLine := noticeDue (settleNotices s) q } := by
  rw [← linesAgree_settleNotices s q, State.port_settleNotices]

theorem port_raiseLeaseLost (s : State) (p q : Port) : (raiseLeaseLost s p).port q = { s.port q with
    notices := if q = p then { (s.port q).notices with leaseLost := true } else (s.port q).notices } := by
  rw [raiseLeaseLost, State.port_modPort]
  by_cases h : q = p
  · subst h; simp
  · simp [h]

theorem lapseSlot_of_due {s : State} {i : SlotId} {c : Claimed} {l : Lease} (h : (slotAt s i).content = .held c l 0) :
    lapseSlot s i = endUpgradeOf (raiseLeaseLost (setContent s i (.lapsed c l .expired)) c.holder) (slotHandle s i) := by
  simp only [lapseSlot, h]

theorem expired_find {s : State} (h : InStep s) {e : WaitEntry} (he : e ∈ s.waitList) (hw : e.waitRemaining = 0) :
    (expiredEntries s).find? (fun o => o.ticket == e.ticket) = some e := by
  have hmem : e ∈ expiredEntries s := List.mem_filter.2 ⟨he, by simp [hw]⟩
  cases hf : (expiredEntries s).find? fun o => o.ticket == e.ticket with
  | none => simpa using List.find?_eq_none.1 hf e hmem
  | some o =>
    have ho := (List.mem_filter.1 (List.mem_of_find?_eq_some hf)).1
    rw [h.entry_eq ho he (by simpa using List.find?_some hf)]

end Sys2Proof.Machine

namespace Sys2Proof.Proofs

open Sys2Proof.Machine

/-- Settles O44: the entry ends as at its expiry, and the scan runs over a list that no longer names its slot. -/
theorem cancelTaken : Obligations.CancelTaken := by
  intro s f h hadm hargs hl hs
  have hlen : lengthOk .cancel f.args = true := by rw [hargs]; rfl
  refine ⟨fun hn => ?_, ?_⟩
  · refine answers_of_owner (a := { code := .notWaiting }) hadm hl hlen (by decide) ?_
    have hfind : s.waitList.find? (fun o => o.port == f.port && o.ticket == argHalf (bytes2 h) 0) = none :=
      List.find?_eq_none.2 fun o ho => by
        simpa using fun hop => hn o ho hop
    rw [hargs]
    simp only [ownerTakes, takeCancel, waitList_beginAnswer, hfind, refuse]
  · intro e he hp ht ended before
    subst ht
    obtain ⟨i, hi⟩ := hs.slotOf he
    have d := dropped_dropEntry hs he .cancelled hi
    obtain ⟨t, hexec, k⟩ := exec_endsInScan (m := dropEntry s e .cancelled) hadm hlen (by decide) (by
      rw [hargs, ← dropEntry_beginAnswer, ← hp]
      exact takeCancel_of_entry (s := beginAnswer s e.port) (hs.congr rfl rfl) he)
    obtain ⟨u, hu, hreply⟩ := k.replied
    have hport (q : Port) : (dropEntry s e .cancelled).port q = s.port q := by simp only [State.port, d.ports]
    have hunnamed : slotAt t i = slotAt (dropEntry s e .cancelled) i :=
      (k.scanned.slots i).unnamed (by rw [d.waitList]; exact hs.unnamed_of_erase he hi)
    have hfrom := k.scan ((shrinks_dropEntry hs he .cancelled).inStep hs)
    have hended : (dropEntry s e .cancelled).session f.port = ended := by
      rw [← hp, d.session]
      simp only [ended, hp]
    have hsess (q : Port) : before.session q = (dropEntry s e .cancelled).session q := by
      by_cases hq : q = f.port
      · rw [hq, hended]
        exact State.session_modSession_same ..
      · rw [d.sessions q (hp ▸ hq)]
        exact State.session_modSession_other _ _ hq
    refine ⟨t, u, hexec, d.waitList ▸ k.scanned.entries, k.blocked, fun j hj => ?_, ?_, fun q hq => ⟨?_, ?_⟩, ?_,
      hport f.port ▸ hu, ?_⟩
    · obtain rfl : j = i := slotHandle_inj (hj.symm.trans hi)
      refine ⟨fun hk => ⟨?_, hfrom.congr ⟨table_ext fun n => ?_, d.waitList.symm, hsess, fun q => by rw [hport q]; rfl⟩⟩,
        fun hk => ⟨?_, hfrom.congr ⟨table_ext fun n => ?_, d.waitList.symm, hsess, fun q => by rw [hport q]; rfl⟩⟩,
        fun n hn => ?_⟩
      · rw [hunnamed, d.slot, if_pos hk]
      · by_cases hn : n = j
        · rw [hn, d.slot, if_pos hk]; rfl
        · rw [d.others n hn]; rfl
      · rw [hunnamed, d.slot, hk]; rfl
      · by_cases hn : n = j
        · rw [hn, d.slot, hk, slotAt_setSlot_same]; rfl
        · rw [d.others n hn, slotAt_setSlot_other _ _ hn]; rfl
      · refine (k.scanned.slots n).of_untouched (d.others n hn) fun o ho => ?_
        rw [d.waitList] at ho
        exact List.mem_of_mem_erase ho
    · rw [← hended]
      exact k.scanned.sessions f.port
    · rw [← d.sessions q (hp ▸ hq)]
      exact k.scanned.sessions q
    · rw [← hport q]
      exact k.scanned.ports q fun h => hq (Option.some.inj h).symm
    · rw [k.scanned.board, board_dropEntry]
    · have : waitKindByte e.waitKind = if e.isUpgrade then 0x02 else 0x01 := by
        cases hk : e.isUpgrade <;> simp [WaitEntry.waitKind, hk, waitKindByte]
      simpa only [this] using hreply

/-- Settles O19: the record is rewritten and then its upgrade ends; an entry that expires is dropped. -/
theorem lapseAndWaitExpiry : Obligations.LapseAndWaitExpiry := by
  refine ⟨fun s i c l hc => ?_, fun s e hs he hw => ?_⟩
  · have hdue : lapseDue s i = true := by simp only [lapseDue, hc]
    set m := raiseLeaseLost (setContent s i (.lapsed c l .expired)) c.holder with hm
    have hlapse : lapseSlot s i = endUpgradeOf m (slotHandle s i) := lapseSlot_of_due hc
    have hexec : exec (.lapse i) s = .next (settleNotices (endUpgradeOf m (slotHandle s i))) := by
      rw [← hlapse]
      exact congrArg _ (if_pos hdue)
    have hslot : ∀ j, slotAt (endUpgradeOf m (slotHandle s i)) j = slotAt (setContent s i (.lapsed c l .expired)) j :=
      fun j => slotAt_eq_of_table (table_endUpgradeOf ..) j
    refine ⟨_, hexec, ?_, fun j hj => ?_, fun q => ?_, fun hn => ?_, fun older e younger hlist hk ht ho => ?_, ?_⟩
    · rw [slotAt_settleNotices, hslot, slotAt_setContent_same]
    · rw [slotAt_settleNotices, hslot, slotAt_setContent_other _ _ hj]
    · rw [port_settled, port_endUpgradeOf, hm, port_raiseLeaseLost, State.port_setContent]
    · rw [endUpgradeOf_of_none (s := m) hn]
      exact ⟨rfl, rfl⟩
    · obtain ⟨hend, herase⟩ := endUpgradeOf_of_first (s := m) hlist hk ht ho
      have hkind : e.waitKind = .upgrade := if_pos (isUpgrade_iff.2 hk)
      rw [hend]
      refine ⟨herase, fun q hq => ?_, ?_⟩
      · rw [State.session_settleNotices, session_endEntry, if_neg hq]
        rfl
      · rw [State.session_settleNotices, session_endEntry, if_pos rfl, hkind]
        rfl
    · rw [board_settleNotices, board_endUpgradeOf, hm, board_raiseLeaseLost]
      rfl
  · obtain ⟨i, hi⟩ := hs.slotOf he
    have d := dropped_dropEntry hs he .timedOut hi
    have hexec : exec (.waitExpiry e.ticket) s = .next (settleNotices (dropEntry s e .timedOut)) := by
      change Host.Outcome.next _ = _
      rw [expired_find hs he hw]
      rfl
    refine ⟨_, hexec, d.waitList, fun hk => ?_, fun term label hk j hj => ?_, ?_, d.sessions, fun q => ?_, ?_⟩
    · rw [dropEntry_upgrade (isUpgrade_iff.2 hk)]
      rfl
    · obtain rfl : j = i := slotHandle_inj (hj.symm.trans hi)
      have hn : e.isUpgrade = false := isUpgrade_false_iff.2 ⟨term, label, hk⟩
      exact ⟨by rw [slotAt_settleNotices, d.slot, hn]; rfl, d.others⟩
    · simp only [State.session_settleNotices, d.session, isUpgrade_iff]
    · rw [port_settled]
      simp only [State.port, d.ports]
    · rw [board_settleNotices, board_dropEntry]

end Sys2Proof.Proofs
end


section
/-! PROOFS. REVOKE (R68, R178, R179). -/

namespace Sys2Proof.Machine

/-! ### The entries with a ticket -/

/-- No two entries share a ticket: those that carry one are its entry alone. -/
theorem InStep.filter_ticket {s : State} (h : InStep s) {e : WaitEntry} (he : e ∈ s.waitList) :
    s.waitList.filter (fun o => o.ticket == e.ticket) = [e] ∧
      s.waitList.filter (fun o => !(o.ticket == e.ticket)) = s.waitList.erase e := by
  obtain ⟨older, younger, hl⟩ := List.append_of_mem he
  have hnd := h.nodup
  rw [hl, List.nodup_middle, List.nodup_cons] at hnd
  have hother : ∀ o ∈ older ++ younger, o.ticket ≠ e.ticket := fun o ho ht => by
    have hm : o ∈ s.waitList := by rw [hl]; simpa using Or.imp_right Or.inr (List.mem_append.1 ho)
    exact hnd.1 (h.entry_eq hm he ht ▸ ho)
  have hold : ∀ o ∈ older, o.ticket ≠ e.ticket := fun o ho => hother o (List.mem_append_left _ ho)
  have hyoung : ∀ o ∈ younger, o.ticket ≠ e.ticket := fun o ho => hother o (List.mem_append_right _ ho)
  have herase : s.waitList.erase e = older ++ younger := by
    rw [hl, List.erase_append_right _ fun hm => hold e hm rfl, List.erase_cons_head]
  have none_of {l : List WaitEntry} (hx : ∀ o ∈ l, o.ticket ≠ e.ticket) :
      l.filter (fun o => o.ticket == e.ticket) = [] ∧ l.filter (fun o => !(o.ticket == e.ticket)) = l :=
    ⟨List.filter_eq_nil_iff.2 fun o ho => by simpa using hx o ho, List.filter_eq_self.2 fun o ho => by simpa using hx o ho⟩
  constructor
  · rw [hl, List.filter_append, (none_of hold).1, List.filter_cons_of_pos (by simp), (none_of hyoung).1]
    rfl
  · rw [herase, hl, List.filter_append, (none_of hold).2, List.filter_cons_of_neg (by simp), (none_of hyoung).2]

/-- A session context whose entries with a ticket have ended, each in its reserved place (R128). -/
def Session.ended (x : Session) (entries : List WaitEntry) (kind : WaitKind) (how : WaitEnd) (h : Half) : Session :=
  { x with
    reserved := placesWithout x.reserved entries
    held := x.held ++ entries.map fun e => { tag := e.tag, body := .ended kind how h } }

/-- R69: the end of the waiting upgrade of a HELD record, if there is one: all entries with the record's handle go. -/
theorem endUpgradeOf_held {s m : State} (h : InStep s) (hw : m.waitList = s.waitList)
    (hs : ∀ q, m.session q = s.session q) {i : SlotId} {c : Claimed} {l : Lease} {n : Nat}
    (hc : (slotAt s i).content = .held c l n) :
    (endUpgradeOf m (slotHandle s i)).waitList = s.waitList.filter (fun e => !(e.ticket == slotHandle s i)) ∧
    (endUpgradeOf m (slotHandle s i)).session c.holder = (s.session c.holder).ended
      (s.waitList.filter fun e => e.ticket == slotHandle s i) .upgrade .recordEnded (slotHandle s i) ∧
    ∀ q, q ≠ c.holder → (endUpgradeOf m (slotHandle s i)).session q = s.session q := by
  by_cases hx : ∃ e ∈ s.waitList, e.ticket = slotHandle s i
  · obtain ⟨e, he, hi⟩ := hx
    have hk : e.isUpgrade = true := by
      rcases h.content_of_ticket he hi with ⟨d, hd⟩ | ⟨hup, -⟩
      · rw [hc] at hd; cases hd
      · exact hup
    obtain ⟨-, d, l', n', hd, hholder, -⟩ := h.upgrade_content he (isUpgrade_iff.1 hk) hi
    obtain rfl : d = c := by rw [hc] at hd; cases hd; rfl
    obtain ⟨older, younger, hl⟩ := List.append_of_mem he
    have hnd := h.tickets
    rw [hl, List.map_append, List.map_cons, List.nodup_middle, List.nodup_cons] at hnd
    obtain ⟨hend, -⟩ := endUpgradeOf_of_first (s := m) (hw.trans hl) (isUpgrade_iff.1 hk) hi fun o ho _ ht =>
      hnd.1 (List.mem_append_left _ (List.mem_map.2 ⟨o, ho, ht.trans hi.symm⟩))
    obtain ⟨hone, hrest⟩ := h.filter_ticket he
    rw [hi] at hone hrest
    rw [hend, hone, hrest, waitList_endEntry, hw]
    refine ⟨rfl, ?_, fun q hq => ?_⟩
    · rw [session_endEntry, if_pos hholder, hs, WaitEntry.waitKind, if_pos hk, hi]
      simp only [Session.ended, placesWithout, List.foldl_cons, List.foldl_nil, List.map_cons, List.map_nil, hi]
    · rw [session_endEntry, if_neg fun hqe => hq (hqe.trans hholder.symm), hs]
  · have hn : ∀ e ∈ s.waitList, e.ticket ≠ slotHandle s i := fun e he ht => hx ⟨e, he, ht⟩
    have hnone : s.waitList.filter (fun e => e.ticket == slotHandle s i) = [] :=
      List.filter_eq_nil_iff.2 fun o ho => by simpa using hn o ho
    have hall : s.waitList.filter (fun e => !(e.ticket == slotHandle s i)) = s.waitList :=
      List.filter_eq_self.2 fun o ho => by simpa using hn o ho
    rw [endUpgradeOf_of_none (s := m) fun e he _ => hn e (hw ▸ he), hnone, hall]
    refine ⟨hw, ?_, fun q _ => hs q⟩
    rw [hs, Session.ended, List.map_nil, List.append_nil]
    rfl

/-! ### REVOKE of a HELD record -/

theorem port_raiseRevoked (s : State) (p q : Port) : (raiseRevoked s p).port q = { s.port q with
    notices := { (s.port q).notices with revoked := (s.port q).notices.revoked || q == p } } := by
  rw [raiseRevoked, State.port_modPort]
  by_cases h : q = p
  · subst h; simp
  · simp [h, beq_false_of_ne h]

theorem endUpgradeOf_beginAnswer (s : State) (p : Port) (k : Half) :
    endUpgradeOf (beginAnswer s p) k = beginAnswer (endUpgradeOf s k) p := by
  simp only [endUpgradeOf, waitList_beginAnswer]
  split <;> rfl

theorem revokeSlot_beginAnswer (s : State) (p : Port) (i : SlotId) (c : Claimed) (l : Lease) :
    revokeSlot (beginAnswer s p) i c l = beginAnswer (revokeSlot s i c l) p := by
  have hmark (q : Port) : raiseRevoked (setContent (beginAnswer s p) i (.lapsed c l .revoked)) q =
      beginAnswer (raiseRevoked (setContent s i (.lapsed c l .revoked)) q) p := by cases p <;> cases q <;> rfl
  rw [revokeSlot, hmark, slotHandle_beginAnswer, endUpgradeOf_beginAnswer, revokeSlot]

/-- R179: what a REVOKE of a HELD record leaves before its scan. -/
structure RevokedHeld (s : State) (i : SlotId) (c : Claimed) (l : Lease) (m : State) : Prop where
  slot     : slotAt m i = { gen := (slotAt s i).gen, content := .lapsed c l .revoked }
  others   : OtherSlotsKept i s m
  waitList : m.waitList = s.waitList.filter fun e => !(e.ticket == slotHandle s i)
  session  : m.session c.holder = (s.session c.holder).ended (s.waitList.filter fun e => e.ticket == slotHandle s i)
    .upgrade .recordEnded (slotHandle s i)
  sessions : ∀ q, q ≠ c.holder → m.session q = s.session q
  ports    : ∀ q, m.port q = { s.port q with
    notices := { (s.port q).notices with revoked := (s.port q).notices.revoked || q == c.holder } }

theorem revokedHeld_revokeSlot {s : State} (h : InStep s) {i : SlotId} {c : Claimed} {l : Lease} {n : Nat}
    (hc : (slotAt s i).content = .held c l n) : RevokedHeld s i c l (revokeSlot s i c l) := by
  have hslot : ∀ j, slotAt (revokeSlot s i c l) j = slotAt (setContent s i (.lapsed c l .revoked)) j :=
    fun j => slotAt_eq_of_table (table_endUpgradeOf ..) j
  obtain ⟨hw, hsess, hsessions⟩ := endUpgradeOf_held
    (m := raiseRevoked (setContent s i (.lapsed c l .revoked)) c.holder) h rfl (fun _ => rfl) hc
  refine ⟨?_, fun j hj => ?_, hw, hsess, hsessions, fun q => ?_⟩
  · rw [hslot, slotAt_setContent_same]
  · rw [hslot, slotAt_setContent_other _ _ hj]
  · rw [revokeSlot, port_endUpgradeOf, port_raiseRevoked, State.port_setContent]

/-! ### REVOKE of a RESERVED slot -/

theorem withdrawSlot_beginAnswer (s : State) (p : Port) (i : SlotId) :
    withdrawSlot (beginAnswer s p) i = beginAnswer (withdrawSlot s i) p := by
  simp only [withdrawSlot, waitList_beginAnswer, slotHandle_beginAnswer]
  split
  · exact freeSlot_beginAnswer (endEntry s _ .withdrawn) p i
  · exact freeSlot_beginAnswer s p i

/-! ### REVOKE at the parser of handles -/

theorem takeRevoke_cases {s : State} {h : Half} {i : SlotId} (hr : resolveAny s h = some i) :
    (∀ c l e, (slotAt s i).content = .lapsed c l e → takeRevoke (bytes2 h) s = (s, { code := .lapsed })) ∧
    (∀ c l n, (slotAt s i).content = .held c l n → takeRevoke (bytes2 h) s =
      (grantScan (revokeSlot s i c l), { code := .ok, results := [0x02, BitVec.ofNat 8 (portNumber c.holder)] })) ∧
    ∀ c, (slotAt s i).content = .reserved c → takeRevoke (bytes2 h) s =
      (grantScan (withdrawSlot s i), { code := .ok, results := [0x01, BitVec.ofNat 8 (portNumber c.holder)] }) := by
  refine ⟨fun c l e hc => ?_, fun c l n hc => ?_, fun c hc => ?_⟩ <;>
    simp only [takeRevoke, argHalf_bytes2, hr, hc, refuse, num1, List.cons_append, List.nil_append]

theorem ScannedSlot.of_lapsed {m t : State} {i : SlotId} {x : Slot} (h : ScannedSlot m t i) (hx : slotAt m i = x)
    {c : Claimed} {l : Lease} {e : EndCause} (hf : x.content = .lapsed c l e) : slotAt t i = x := by
  subst hx
  have hc : (slotAt t i).content = (slotAt m i).content := (h.lapsed c l e hf).trans hf.symm
  calc slotAt t i = ⟨(slotAt t i).gen, (slotAt t i).content⟩ := rfl
    _ = slotAt m i := by rw [h.gen, hc]

/-- A scan changes nothing of a session context but its outcome list. -/
theorem ScannedSession.usage {x y : Session} (h : ScannedSession x y) : y.usage = x.usage := by
  obtain ⟨-, hsame⟩ := h
  rw [← hsame]

end Sys2Proof.Machine

namespace Sys2Proof.Proofs

open Sys2Proof.Machine

/-- Settles O58: the record lapses and its upgrade ends, or the waiting claim is dropped, and then the scan runs. -/
theorem revokeTaken : Obligations.RevokeTaken := by
  intro s f h hadm hargs hl hs
  have hlen : lengthOk .revoke f.args = true := by rw [hargs]; rfl
  refine ⟨fun hr => ?_, fun i c l e hr hc => ?_, fun i c l n hr hc => ?_, fun i c hr hc => ?_⟩
  · refine answers_of_owner (a := { code := .staleHandle }) hadm hl hlen (by decide) ?_
    simp [hargs, ownerTakes, takeRevoke, hr, refuse]
  · exact answers_of_owner (a := { code := .lapsed }) hadm hl hlen (by decide)
      (by rw [hargs]; exact (takeRevoke_cases (s := beginAnswer s f.port) hr).1 c l e hc)
  · intro marked ends
    obtain ⟨rfl, -⟩ := resolveAny_iff.1 hr
    obtain ⟨t, hexec, k⟩ := exec_endsInScan (m := revokeSlot s i c l) hadm hlen (by decide) (by
      rw [hargs, ← revokeSlot_beginAnswer]
      exact (takeRevoke_cases (s := beginAnswer s f.port) hr).2.1 c l n hc)
    have d := revokedHeld_revokeSlot hs hc
    obtain ⟨u, hu, hreply⟩ := k.replied
    have hsess := k.scanned.sessions c.holder
    rw [d.session] at hsess
    have hport (q : Port) : (revokeSlot s i c l).port q = marked q := d.ports q
    refine ⟨t, u, hexec, (k.scanned.slots i).of_lapsed d.slot rfl, fun j hj => ?_, k.blocked, d.waitList ▸ k.scanned.entries,
      fun e he ht => ?_, fun q hq => ?_, hsess.usage, ?_, fun q hq => ?_, by rw [← hport]; exact hu, ?_, hreply⟩
    · refine (k.scanned.slots j).of_untouched (d.others j hj) fun e he => ?_
      rw [d.waitList] at he
      exact (List.mem_filter.1 he).1
    · refine hsess.1.subset (List.mem_append_right _ (List.mem_map.2 ⟨e, List.mem_filter.2 ⟨he, ?_⟩, rfl⟩))
      simpa using ht
    · rw [← d.sessions q hq]
      exact k.scanned.sessions q
    · refine (k.scan ((shrinks_revokeSlot hs hc).inStep hs)).congr
        ⟨table_ext fun j => ?_, d.waitList.symm, fun q => ?_, fun q => by rw [hport]; rfl⟩
      · by_cases hj : j = i
        · rw [hj, d.slot, slotAt_modSession, slotAt_setSlot_same]
        · rw [d.others j hj, slotAt_modSession, slotAt_setSlot_other _ _ hj]
          rfl
      · by_cases hq : q = c.holder
        · rw [hq, d.session, State.session_modSession_same]
          rfl
        · rw [d.sessions q hq, State.session_modSession_other _ _ hq]
          rfl
    · rw [← hport]
      exact k.scanned.ports q fun h => hq (Option.some.inj h).symm
    · rw [k.scanned.board, board_revokeSlot]
  · intro ends
    obtain ⟨rfl, -⟩ := resolveAny_iff.1 hr
    obtain ⟨e, he, hi, hu, hdrop⟩ := withdrawSlot_eq hs hc
    obtain ⟨t, hexec, k⟩ := exec_endsInScan (m := dropEntry s e .withdrawn) hadm hlen (by decide) (by
      rw [hargs, ← hdrop, ← withdrawSlot_beginAnswer]
      exact (takeRevoke_cases (s := beginAnswer s f.port) hr).2.2 c hc)
    have d := dropped_dropEntry hs he .withdrawn hi
    obtain ⟨u, hu', hreply⟩ := k.replied
    have hport (q : Port) : (dropEntry s e .withdrawn).port q = s.port q := by simp only [State.port, d.ports]
    obtain ⟨hone, hrest⟩ := hs.filter_ticket he
    rw [hi] at hone hrest
    have hholder : e.port = c.holder := by
      obtain ⟨term, label, hkind⟩ := isUpgrade_false_iff.1 hu
      have hx := hs.claim_content he hkind hi
      rw [hc] at hx
      cases hx; rfl
    have hkind : e.waitKind = .claim := if_neg (by rw [hu]; decide)
    have hsession : (dropEntry s e .withdrawn).session c.holder =
        { (s.session c.holder).ended [e] .claim .withdrawn (slotHandle s i) with
          usage := (s.session c.holder).usage - 1 } := by
      rw [← hholder, d.session, hu, hkind, hi]
      simp only [Session.ended, placesWithout, List.foldl_cons, List.foldl_nil, List.map_cons, List.map_nil, hi]
      rfl
    have hsess := k.scanned.sessions c.holder
    rw [hsession] at hsess
    refine ⟨t, u, hexec, (k.scanned.slots i).of_free (by rw [d.slot, hu]; rfl) rfl, fun j hj => ?_, k.blocked, ?_,
      fun o ho ht => ?_, fun q hq => ?_, hsess.usage, ?_, fun q hq => ?_, hport f.port ▸ hu', ?_, hreply⟩
    · refine (k.scanned.slots j).of_untouched (d.others j hj) fun o ho => ?_
      rw [d.waitList] at ho
      exact List.mem_of_mem_erase ho
    · rw [hrest, ← d.waitList]
      exact k.scanned.entries
    · rw [hs.entry_eq ho he (ht.trans hi.symm)]
      exact hsess.1.subset (List.mem_append_right _ (List.mem_singleton_self _))
    · rw [← d.sessions q (hholder ▸ hq)]
      exact k.scanned.sessions q
    · refine (k.scan ((shrinks_dropEntry hs he .withdrawn).inStep hs)).congr
        ⟨table_ext fun j => ?_, ?_, fun q => ?_, fun q => by rw [hport]; rfl⟩
      · by_cases hj : j = i
        · rw [hj, d.slot, hu, slotAt_modSession, slotAt_setSlot_same]
          rfl
        · rw [d.others j hj, slotAt_modSession, slotAt_setSlot_other _ _ hj]
          rfl
      · rw [d.waitList, ← hrest]
        rfl
      · by_cases hq : q = c.holder
        · rw [hq, hsession, State.session_modSession_same]
          simp only [ends, hone]
          rfl
        · rw [d.sessions q (hholder ▸ hq), State.session_modSession_other _ _ hq]
          rfl
    · rw [← hport q]
      exact k.scanned.ports q fun h => hq (Option.some.inj h).symm
    · rw [k.scanned.board, board_dropEntry]

end Sys2Proof.Proofs
end


section
/-! PROOFS. The teardown of a session: CLOSE and EVICT (R95 to R98, R101, R181). -/

namespace Sys2Proof.Machine

/-! ### A scan leaves a port that owns nothing alone -/

theorem session_scanPass_none {p : Port} {es : List WaitEntry} (h : ∀ e ∈ es, e.port ≠ p) (x : Pass) :
    (scanPass x es).state.session p = x.state.session p := by
  induction es generalizing x with
  | nil => rfl
  | cons e es ih =>
    have hes := fun o ho => h o (List.mem_cons_of_mem _ ho)
    rw [scanPass]
    split
    · rw [ih hes]
      exact (grantStep x.state e).alone p (h e (List.mem_cons_self ..)).symm
    · rw [ih hes]

theorem port_contendGranted_none {p : Port} {s : State} (h : ∀ i, ownedBy s p i = false) (l : List WaitEntry) :
    (l.foldl contendGranted s).port p = s.port p := by
  induction l generalizing s with
  | nil => rfl
  | cons e l ih =>
    have hstep := contendStep_granted s e
    rw [List.foldl_cons, ih fun i => by rw [ownedBy_of_table hstep.table, h i]]
    unfold contendGranted
    split
    · rfl
    · next i _ =>
      split
      · next c hc =>
        split
        · have hne : p ≠ c.holder := by
            rintro rfl
            have hn := h i
            obtain ⟨l, n, hx⟩ := held_iff.2 hc
            rw [ownedBy_of_claimed (c := c) (by rw [hx]; rfl)] at hn
            simp at hn
          exact State.port_modPort_other _ _ hne
        · rfl
      · rfl

/-- No entry of the port waits, and no slot is its own. -/
def OwnsNone (s : State) (p : Port) : Prop := (∀ e ∈ s.waitList, e.port ≠ p) ∧ ∀ i, ownedBy s p i = false

theorem grantScan_ownsNone {s : State} {p : Port} (h : OwnsNone s p) :
    (grantScan s).session p = s.session p ∧ (grantScan s).port p = s.port p := by
  have k := scanPass_ok (passOk_start s)
  have hscan : grantScan s = (scanPass ⟨s, [], []⟩ s.waitList).granted.foldl contendGranted
    { (scanPass ⟨s, [], []⟩ s.waitList).state with waitList := (scanPass ⟨s, [], []⟩ s.waitList).stay } := rfl
  have hpass := session_scanPass_none (p := p) h.1 ⟨s, [], []⟩
  generalize scanPass ⟨s, [], []⟩ s.waitList = x at k hscan hpass
  have c := contendStep_foldl x.granted { x.state with waitList := x.stay }
  rw [hscan]
  refine ⟨?_, ?_⟩
  · have : ∀ t : State, t.sessions = x.state.sessions → t.session p = s.session p := fun t ht => by
      rw [← hpass]; simp only [State.session, ht]
    exact this _ c.sessions
  · rw [port_contendGranted_none (p := p) fun i => ?_]
    · have : x.state.port p = s.port p := by simp only [State.port, k.ports]
      exact this
    · have ho := ownedBy_grantScan s p i
      rw [hscan, ownedBy_of_table c.table, h.2 i] at ho
      exact ho

/-! ### The slots of a port freed, and its usage (R96) -/

theorem session_freeSlotsOf_eq (s : State) (p q : Port) : (freeSlotsOf s p).session q =
    if q = p then { s.session q with usage := (s.session q).usage - ownedCount s p } else s.session q := by
  have hfold : ∀ (l : List SlotId) (s : State), l.Nodup →
      (l.foldl (fun s i => if ownedBy s p i then freeSlot s i else s) s).session q =
        if q = p then { s.session q with usage := (s.session q).usage - (l.filter (ownedBy s p)).length }
        else s.session q := by
    intro l
    induction l with
    | nil => intro s _; simp
    | cons i l ih =>
      intro s hn
      obtain ⟨hi, hl⟩ := List.nodup_cons.1 hn
      rw [List.foldl_cons, ih _ hl]
      by_cases ho : ownedBy s p i = true
      · obtain ⟨c, hc, rfl⟩ := ownedBy_iff.1 ho
        have hrest : l.filter (ownedBy (freeSlot s i) c.holder) = l.filter (ownedBy s c.holder) :=
          List.filter_congr fun j hj => ownedBy_of_slot (slotAt_freeSlot_other hc (ne_of_mem_of_not_mem hj hi))
        rw [if_pos ho, hrest, List.filter_cons_of_pos ho]
        by_cases hq : q = c.holder
        · subst hq
          rw [if_pos rfl, if_pos rfl, session_freeSlot_holder hc, List.length_cons]
          simp only [Nat.sub_sub, Nat.add_comm]
        · rw [if_neg hq, if_neg hq, (touchesOwnOnly_freeSlot hc).sessions q hq]
      · rw [if_neg ho, List.filter_cons_of_neg ho]
  exact hfold allSlots s (List.nodup_finRange 128)

theorem port_freeSlotsOf (s : State) (p q : Port) : (freeSlotsOf s p).port q = s.port q := by
  unfold freeSlotsOf
  generalize allSlots = l
  induction l generalizing s with
  | nil => rfl
  | cons i l ih =>
    rw [List.foldl_cons, ih]
    split
    · next ho =>
      obtain ⟨c, hc, -⟩ := ownedBy_iff.1 ho
      simp only [State.port, (touchesOwnOnly_freeSlot hc).ports]
    · rfl

theorem freeSlotsOf_beginAnswer (s : State) (q p : Port) :
    freeSlotsOf (beginAnswer s q) p = beginAnswer (freeSlotsOf s p) q := by
  unfold freeSlotsOf
  generalize allSlots = l
  induction l generalizing s with
  | nil => rfl
  | cons i l ih =>
    have hown : ownedBy (beginAnswer s q) p i = ownedBy s p i := rfl
    rw [List.foldl_cons, List.foldl_cons, hown]
    split
    · rw [freeSlot_beginAnswer, ih]
    · rw [ih]

/-! ### A teardown up to its scan -/

/-- R96 to R98: a teardown before its scan. -/
def tornBeforeScan (s : State) (p : Port) : State := closeJob (emptied s p) p

theorem tornBeforeScan_beginAnswer (s : State) (q p : Port) :
    tornBeforeScan (beginAnswer s q) p = beginAnswer (tornBeforeScan s p) q := by
  have hempty : emptied (beginAnswer s q) p = beginAnswer (emptied s p) q := by
    rw [emptied, freeSlotsOf_beginAnswer, emptied]
    generalize freeSlotsOf s p = t
    cases p <;> cases q <;> rfl
  rw [tornBeforeScan, hempty, tornBeforeScan, closeJob_eq, closeJob_eq]
  generalize emptied s p = t
  rfl

theorem slotAt_tornBeforeScan (s : State) (p : Port) (i : SlotId) : slotAt (tornBeforeScan s p) i =
    if ownedBy s p i then { gen := nextGen (slotAt s i).gen, content := .free } else slotAt s i := by
  rw [tornBeforeScan, closeJob_eq, slotAt_setJob, slotAt_emptied]

theorem waitList_tornBeforeScan (s : State) (p : Port) :
    (tornBeforeScan s p).waitList = s.waitList.filter fun e => !(e.port == p) := by
  rw [tornBeforeScan, closeJob_eq, State.setJob_waitList, waitList_emptied]

theorem session_tornBeforeScan (s : State) (p q : Port) : (tornBeforeScan s p).session q =
    if q = p then
      { Session.reset with
        state := if (s.job p).isSome then .closing else .detached
        usage := (s.session p).usage - ownedCount s p, evicted := (s.session p).evicted }
    else s.session q := by
  have hlist : (removeEntriesOf (freeSlotsOf s p) p).session q = (freeSlotsOf s p).session q := by
    generalize freeSlotsOf s p = t
    rfl
  rw [tornBeforeScan, closeJob_eq, State.session_setJob, emptied, State.session_modPort, session_modSession_if, hlist,
    session_freeSlotsOf_eq]
  by_cases hq : q = p
  · rw [if_pos hq, if_pos hq, if_pos hq, hq]
    rfl
  · rw [if_neg hq, if_neg hq, if_neg hq]

theorem port_tornBeforeScan (s : State) (p q : Port) : (tornBeforeScan s p).port q =
    { s.port q with notices := if q = p then .none else (s.port q).notices } := by
  have hlist (q : Port) : (removeEntriesOf (freeSlotsOf s p) p).port q = s.port q := by
    rw [← port_freeSlotsOf s p q]
    generalize freeSlotsOf s p = t
    rfl
  rw [tornBeforeScan, closeJob_eq, State.port_setJob, emptied, State.port_modPort, State.port_modSession,
    State.port_modSession, hlist, hlist]
  by_cases hq : q = p
  · rw [if_pos hq, if_pos hq, hq]
  · rw [if_neg hq, if_neg hq]

theorem ownsNone_tornBeforeScan (s : State) (p : Port) : OwnsNone (tornBeforeScan s p) p := by
  refine ⟨fun e he => ?_, fun i => ?_⟩
  · rw [waitList_tornBeforeScan] at he
    simpa using (List.mem_filter.1 he).2
  · rw [ownedBy, slotAt_tornBeforeScan]
    by_cases ho : ownedBy s p i = true
    · rw [if_pos ho]; rfl
    · rw [if_neg ho]
      exact Bool.eq_false_iff.2 ho

theorem board_withEngine {s t : State} (h : board t = board s) (e : Engine) :
    board { t with engine := e } = board { s with engine := e } := by
  obtain ⟨h1, h2, h3, h4, -, h5, h6, h7, h8, h9⟩ := board_parts h
  simp only [board, h1, h2, h3, h4, h5, h6, h7, h8, h9]

theorem ScannedSlot.into {s t t' : State} {i : SlotId} (h : ScannedSlot s t i) (ht : slotAt t' i = slotAt t i) :
    ScannedSlot s t' i := by
  refine ⟨?_, ?_, ?_, ?_, ?_, ?_⟩ <;> rw [ht]
  exacts [h.gen, h.free, h.lapsed, h.unnamed, h.reserved, h.held]

/-- The end of a happening that has torn a session down: the scan's state, with only the evicted indication of that
session and the port units changed since, but not their notice flags. -/
theorem tornDown_of_scan {s t : State} {p q : Port} {x : State} (hx : x = grantScan (beginAnswer (tornBeforeScan s p) q))
    (ht : t.table = x.table) (hw : t.waitList = x.waitList) (hb : board t = board x)
    (hs : ∀ r, r ≠ p → t.session r = x.session r) (hp : ∃ ev, t.session p = { x.session p with evicted := ev })
    (hn : ∀ r, (t.port r).notices = (x.port r).notices) : TornDown p s t := by
  have k := grantScan_scanned (beginAnswer (tornBeforeScan s p) q)
  have hblocked := grantScan_blocked (beginAnswer (tornBeforeScan s p) q)
  obtain ⟨hnone, hnonePort⟩ := grantScan_ownsNone (s := beginAnswer (tornBeforeScan s p) q)
    (ownsNone_tornBeforeScan s p)
  have hjobs : x = teardown (beginAnswer s q) p := by
    rw [hx, teardown_eq, ← tornBeforeScan, tornBeforeScan_beginAnswer]
  have hscan (h : InStep s) : ∃ granted, ScanDone granted (beginAnswer (tornBeforeScan s p) q) x := by
    rw [hx]
    exact scans_grantScan (InStep.congr ((shrinks_closeJob_emptied h p).inStep h) rfl rfl)
  rw [← hx] at k hblocked hnone hnonePort
  have hslot : ∀ i, slotAt t i = slotAt x i := slotAt_eq_of_table ht
  have hmslot (i : SlotId) := slotAt_tornBeforeScan s p i
  have hmsess := session_tornBeforeScan s p
  have hmport := port_tornBeforeScan s p
  have hmwait := waitList_tornBeforeScan s p
  have hscanned (i : SlotId) : ScannedSlot (tornBeforeScan s p) t i :=
    ((k.slots i).of_untouched (s := tornBeforeScan s p) rfl fun _ h => h).into (hslot i)
  obtain ⟨ev, hev⟩ := hp
  rw [hnone, session_beginAnswer, hmsess, if_pos rfl] at hev
  refine ⟨fun i ho => ?_, fun i ho => ?_, ?_, eachBlocked_congr ht hw hblocked, ?_, ⟨_, ev, hev, ?_⟩, ?_, fun r hr => ?_,
    fun h => ?_, ?_⟩
  · exact (hscanned i).of_free ((hmslot i).trans (if_pos ho)) rfl
  · refine (hscanned i).of_untouched ((hmslot i).trans (if_neg (by rw [ho]; decide))) fun e he => ?_
    rw [hmwait] at he
    exact (List.mem_filter.1 he).1
  · rw [hw, ← hmwait]
    exact k.entries
  · rw [engine_of_board hb, hjobs, engine_teardown]
    rfl
  · change (s.session p).usage - ownedCount s p + ownedCount s p = max (s.session p).usage (ownedCount s p)
    omega
  · rw [hn, hnonePort, notices_beginAnswer, hmport, if_pos rfl]
  · have z := k.sessions r
    rw [session_beginAnswer, hmsess, if_neg hr] at z
    rw [hs r hr]
    exact z
  · obtain ⟨granted, hdone⟩ := hscan h
    refine ⟨tornBeforeScan s p, granted, hdone.toScans.congr (sameForScan_beginAnswer _ q) ⟨ht, hw, fun r => ?_, fun r => ?_⟩,
      hmslot, hmwait, fun r hr => ⟨?_, ?_⟩, ?_⟩
    · refine (PerPort.get_set t.sessions p r _).trans ?_
      by_cases hr : r = p
      · rw [if_pos hr, hr, hnone, session_beginAnswer]
      · rw [if_neg hr]
        exact hs r hr
    · exact congrArg StickyNotices.contended (hn r)
    · rw [hmsess, if_neg hr]
    · rw [hmport, if_neg hr]
    · rw [hmport, if_pos rfl]
  · have hboard := board_teardown (beginAnswer s q) p
    rw [← hjobs] at hboard
    exact (board_withEngine hb s.engine).trans hboard

/-- R181: the ports that EVICT names. -/
theorem portOfNumber_portNumber (p : Port) : portOfNumber (portNumber p) = some p := by cases p <;> rfl

theorem portOfNumber_none {n : Nat} (h : 4 ≤ n) : portOfNumber n = none := by
  obtain ⟨k, rfl⟩ := Nat.exists_eq_add_of_le' h
  rfl

theorem takeEvict_of_target {s : State} {b : Byte} {target : Port} (ht : target ≠ .p0)
    (hb : b.toNat = portNumber target) : takeEvict [b] s = match (s.session target).state with
      | .detached => (s, { code := .notAttached })
      | .attached => (setEvicted (teardown s target) target, { code := .ok, results :=
          [b, sessionStateByte ((teardown s target).session target).state] })
      | .closing => (setEvicted s target, { code := .ok, results := [b, sessionStateByte (s.session target).state] }) := by
  have hport : portOfNumber (argByte [b] 0).toNat = some target := by
    change portOfNumber b.toNat = _
    rw [hb, portOfNumber_portNumber]
  have hnum : num1 (portNumber target) = [b] := by simp [num1, ← hb]
  have hstate (t : State) : ((setEvicted t target).session target).state = (t.session target).state := by
    simp [setEvicted]
  simp only [takeEvict, hport]
  cases target with
  | p0 => exact absurd rfl ht
  | p1 | p2 | p3 => cases h : (s.session _).state <;> simp only [hnum, hstate, h, refuse, List.cons_append, List.nil_append]

/-- The evicted indication is no notice flag. -/
theorem noticeDue_setEvicted (s : State) (target q : Port) : noticeDue (setEvicted s target) q = noticeDue s q := by
  have hsess : (setEvicted s target).session q =
      if q = target then { s.session q with evicted := true } else s.session q := session_modSession_if ..
  have hmask : ((setEvicted s target).session q).mask = (s.session q).mask := by rw [hsess]; split <;> rfl
  have hheld : ((setEvicted s target).session q).held = (s.session q).held := by rw [hsess]; split <;> rfl
  have hport : (setEvicted s target).port q = s.port q := State.port_modSession ..
  have hreset : (setEvicted s target).resetLow = s.resetLow := rfl
  simp only [noticeDue, noticeActive, noticeFlags, hmask, hheld, hport, hreset]

/-- A session that a teardown has closed enables no notice flag. -/
theorem noticeDue_of_maskNone {s : State} {p : Port} (h : (s.session p).mask = .none) : noticeDue s p = false := by
  simp [noticeDue, noticeActive, h, NoticeSet.inter, NoticeSet.any, NoticeSet.none]

end Sys2Proof.Machine

namespace Sys2Proof.Proofs

open Sys2Proof.Machine

/-- Settles O28: the port that closes owns nothing any more when the scan runs, so that the scan leaves it alone. -/
theorem closeTaken : Obligations.CloseTaken := by
  intro s f hadm hargs hl
  obtain ⟨hsess, hport⟩ := grantScan_ownsNone (s := beginAnswer (tornBeforeScan s f.port) f.port)
    (ownsNone_tornBeforeScan s f.port)
  rw [session_beginAnswer, session_tornBeforeScan, if_pos rfl] at hsess
  rw [port_beginAnswer_same, port_tornBeforeScan, if_pos rfl] at hport
  have htear : teardown (beginAnswer s f.port) f.port = grantScan (beginAnswer (tornBeforeScan s f.port) f.port) := by
    rw [teardown_eq, ← tornBeforeScan, tornBeforeScan_beginAnswer]
  have htake : ownerTakes .close f.port f.tag f.args (beginAnswer s f.port) =
      (grantScan (beginAnswer (tornBeforeScan s f.port) f.port),
        { code := .ok, results := [if (s.job f.port).isSome then 0x02 else 0x00] }) := by
    have hstate : sessionStateByte (if (s.job f.port).isSome then SessionState.closing else .detached) =
        if (s.job f.port).isSome then 0x02 else 0x00 := by split <;> rfl
    rw [← hstate]
    simp only [ownerTakes, takeClose, htear, hsess]
  have k := endsInScan_replying (tornBeforeScan s f.port) f.port f.tag
    { code := .ok, results := [if (s.job f.port).isSome then 0x02 else 0x00] }
  refine ⟨_, exec_admitted hadm (by rw [hargs]; rfl) (by decide) htake,
    tornDown_of_scan (q := f.port) rfl rfl rfl rfl (fun _ _ => rfl) ⟨_, rfl⟩ (fun r => notices_replying ..), ?_, ?_,
    fun q hq => ?_⟩
  · rw [replying_session, hsess]
  · exact replied_replying f.tag _ hport
  · have h := k.scanned.ports q fun h => hq (Option.some.inj h).symm
    rwa [port_tornBeforeScan, if_neg hq] at h

/-- Settles O59: the teardown is that of CLOSE, at a port other than the one that answers. -/
theorem evictTaken : Obligations.EvictTaken := by
  intro s f b hadm hargs hl
  have hlen : lengthOk .evict f.args = true := by rw [hargs]; rfl
  have hfp : f.port = .p0 := hadm.role.resolve_left (by decide)
  have hbyte : argByte [b] 0 = b := rfl
  refine ⟨fun hb => ?_, fun target ht hb => ⟨fun hst => ?_, fun hst => ?_, fun hst => ?_⟩⟩
  · refine answers_of_owner (a := { code := .badValue }) hadm hl hlen (by decide) ?_
    rw [hargs]
    rcases hb with h0 | h4
    · simp only [ownerTakes, takeEvict, hbyte, h0]
      rfl
    · simp only [ownerTakes, takeEvict, hbyte, portOfNumber_none h4, refuse]
  · refine answers_of_owner (a := { code := .notAttached }) hadm hl hlen (by decide) ?_
    rw [hargs]
    refine (takeEvict_of_target (s := beginAnswer s f.port) ht hb).trans ?_
    simp only [session_beginAnswer, hst]
  · have htake : ownerTakes .evict f.port f.tag f.args (beginAnswer s f.port) =
        (setEvicted (beginAnswer s f.port) target, { code := .ok, results := [b, 0x02] }) := by
      rw [hargs]
      refine (takeEvict_of_target (s := beginAnswer s f.port) ht hb).trans ?_
      simp only [session_beginAnswer, hst]
      rfl
    have hne : target ≠ f.port := hfp ▸ ht
    have hmark : ∀ q, q ≠ target → (setEvicted (beginAnswer s f.port) target).session q = s.session q := fun q hq =>
      State.session_modSession_other _ _ hq
    have hsame : (setEvicted (beginAnswer s f.port) target).session target = { s.session target with evicted := true } :=
      State.session_modSession_same ..
    refine ⟨_, exec_admitted hadm hlen (by decide) htake, ?_, fun q hq => ?_, fun q hq => ?_, ?_, ?_, ?_, ?_⟩
    · rw [replying_session, hsame]
    · rw [replying_session, hmark q hq]
    · have hdue := noticeDue_setEvicted (beginAnswer s f.port) target q
      rw [noticeDue_congr (s := s) (t := beginAnswer s f.port) rfl (notices_beginAnswer ..) rfl] at hdue
      have hport : (setEvicted (beginAnswer s f.port) target).port q = s.port q :=
        (State.port_modSession ..).trans (port_beginAnswer_other s hq)
      rw [port_replying_other _ _ _ _ hq, hdue, ← hl q, hport]
    · rw [replying_table]; rfl
    · rw [replying_waitList]; rfl
    · rw [replying_board, board_setEvicted, board_beginAnswer]
    · exact replied_replying f.tag { code := .ok, results := [b, 0x02] } (port_beginAnswer_same s f.port)
  · have hne : target ≠ f.port := hfp ▸ ht
    have htear : teardown (beginAnswer s f.port) target =
        grantScan (beginAnswer (tornBeforeScan s target) f.port) := by
      rw [teardown_eq, ← tornBeforeScan, tornBeforeScan_beginAnswer]
    obtain ⟨hsess, hport⟩ := grantScan_ownsNone (s := beginAnswer (tornBeforeScan s target) f.port)
      (ownsNone_tornBeforeScan s target)
    have hstate : sessionStateByte (if (s.job target).isSome then SessionState.closing else .detached) =
        if (s.job target).isSome then 0x02 else 0x00 := by split <;> rfl
    have htake : ownerTakes .evict f.port f.tag f.args (beginAnswer s f.port) =
        (setEvicted (grantScan (beginAnswer (tornBeforeScan s target) f.port)) target,
          { code := .ok, results := [b, if (s.job target).isSome then 0x02 else 0x00] }) := by
      rw [hargs]
      refine (takeEvict_of_target (s := beginAnswer s f.port) ht hb).trans ?_
      simp only [session_beginAnswer, hst, htear, hsess, session_tornBeforeScan, if_true, hstate]
    have k := grantScan_scanned (beginAnswer (tornBeforeScan s target) f.port)
    obtain ⟨x, hx⟩ : ∃ x, x = grantScan (beginAnswer (tornBeforeScan s target) f.port) := ⟨_, rfl⟩
    rw [← hx] at k htake hsess hport
    have hports : ∀ q, (setEvicted x target).port q = x.port q := fun q => State.port_modSession ..
    have hmark : (setEvicted x target).session target = { x.session target with evicted := true } :=
      State.session_modSession_same ..
    have hother : ∀ q, q ≠ target → (setEvicted x target).session q = x.session q := fun q hq =>
      State.session_modSession_other _ _ hq
    obtain ⟨u, hu, hreply⟩ := replied_scanned (s1 := beginAnswer (tornBeforeScan s target) f.port)
      (s2 := setEvicted x target) f.tag { code := .ok, results := [b, if (s.job target).isSome then 0x02 else 0x00] }
      (port_beginAnswer_same (tornBeforeScan s target) f.port) (k.ports f.port nofun)
    rw [port_tornBeforeScan, if_neg hne.symm] at hu
    refine ⟨_, u, exec_admitted hadm hlen (by decide) htake, tornDown_of_scan (q := f.port) hx rfl rfl rfl
      (fun r hr => ?_) ⟨true, ?_⟩ (fun r => by rw [notices_replying, hports]), ?_, ?_, fun q hq hqt => ?_, hu, hreply⟩
    · rw [replying_session, hother r hr]
    · rw [replying_session, hmark]
    · rw [replying_session, hmark]
    · rw [port_replying_other _ _ _ _ hne, noticeDue_of_maskNone]
      · rw [hports, hport, port_beginAnswer_other _ hne, port_tornBeforeScan, if_pos rfl]
      · rw [hmark, hsess, session_beginAnswer, session_tornBeforeScan, if_pos rfl]
        rfl
    · have h := scannedPort_replying (s2 := setEvicted x target) f.tag
        { code := .ok, results := [b, if (s.job target).isSome then 0x02 else 0x00] } hq (k.ports q nofun)
      rwa [port_beginAnswer_other _ hq, port_tornBeforeScan, if_neg hqt] at h

end Sys2Proof.Proofs
end


section
/-! PROOFS. The queue, the lease clock on an empty queue, handles, the state right after reset, and the selections of a
port unit (R6, R7, R72, R106, R107, R109, R117, R118). -/

namespace Sys2Proof.Machine

/-! ### Right after reset -/

theorem slotAt_reset (i : SlotId) : slotAt State.reset i = { gen := 1, content := .free } := List.getElem_replicate _

theorem allFree_reset : AllFree State.reset := ⟨fun i => by rw [slotAt_reset], rfl⟩

/-! ### The bytes of a selection -/

theorem length_replyBytes (r : Reply) : (replyBytes r).length = r.results.length + 6 := by
  simp [replyBytes, replyBody]

theorem replySent_iff {u : PortUnit} {a : Sending} (h : u.answer = some a) (edges : List ClockEdge) :
    replySent u edges = true ↔ 8 * (a.reply.results.length + 6) ≤ (sampled edges).length := by
  simp only [replySent, h, decide_eq_true_iff, length_replyBytes, bytesSent]
  omega

/-- R106: no byte has been taken as long as fewer than eight bits have been sampled. -/
theorem bytesOfEdges_isEmpty (edges : List ClockEdge) :
    (bytesOfEdges edges).isEmpty = !decide (8 ≤ (sampled edges).length) := by
  have h := length_bytesTaken (sampled edges)
  rw [Bool.eq_iff_iff, List.isEmpty_iff, ← List.length_eq_zero_iff, bytesOfEdges, h]
  simp

/-! ### Deselections -/

theorem port_toIdle (s : State) (p : Port) :
    (toIdle s p).port p = { s.port p with sel := .idle, seenHigh := true, answer := none } :=
  State.port_modPort_same ..

theorem port_setError (s : State) (p : Port) (g : StickyErrors → StickyErrors) : (setError s p g).port p =
    { s.port p with errors := if clearing s then (s.port p).errors else g (s.port p).errors } := by
  unfold setError
  split
  · rfl
  · exact State.port_modPort_same ..

/-- A port unit has changed, and nothing else of the part. -/
structure OnlyUnit (p : Port) (s t : State) : Prop where
  sessions : t.sessions = s.sessions
  table    : t.table = s.table
  waitList : t.waitList = s.waitList
  board    : board t = board s
  ports    : ∀ q, q ≠ p → t.port q = s.port q

theorem OnlyUnit.refl (p : Port) (s : State) : OnlyUnit p s s := ⟨rfl, rfl, rfl, rfl, fun _ _ => rfl⟩

theorem OnlyUnit.trans {p : Port} {s t u : State} (h : OnlyUnit p s t) (k : OnlyUnit p t u) : OnlyUnit p s u :=
  ⟨k.sessions.trans h.sessions, k.table.trans h.table, k.waitList.trans h.waitList, k.board.trans h.board,
    fun q hq => (k.ports q hq).trans (h.ports q hq)⟩

theorem onlyUnit_modPort (s : State) (p : Port) (g : PortUnit → PortUnit) : OnlyUnit p s (s.modPort p g) :=
  ⟨rfl, rfl, rfl, rfl, fun _ hq => State.port_modPort_other _ _ hq⟩

theorem onlyUnit_setError (s : State) (p : Port) (g : StickyErrors → StickyErrors) : OnlyUnit p s (setError s p g) := by
  unfold setError
  split
  · exact .refl p s
  · exact onlyUnit_modPort ..

theorem OnlyUnit.session {p : Port} {s t : State} (h : OnlyUnit p s t) (q : Port) : t.session q = s.session q := by
  simp only [State.session, h.sessions]

theorem OnlyUnit.onlyPort {p : Port} {s t : State} (h : OnlyUnit p s t) : OnlyPort p s t :=
  ⟨h.table, h.waitList, h.board, fun q hq => ⟨h.session q, h.ports q hq⟩⟩

/-- R118: the reply of a kept answer, or of a READ or WRITE at the arbiter, is cut off. -/
theorem onlyUnit_cutReply (s : State) (p : Port) : OnlyUnit p s (cutReply s p) := by
  simp only [cutReply]
  split
  · split
    · exact onlyUnit_setError ..
    · exact .refl p s
  · split
    · exact onlyUnit_modPort ..
    · split
      · exact (onlyUnit_modPort s p _).trans (onlyUnit_setError ..)
      · exact .refl p s

theorem lastReply_cutReply (s : State) (p : Port) : ((cutReply s p).port p).lastReply = (s.port p).lastReply := by
  simp only [cutReply]
  split
  · split
    · rw [setReplyCut, port_setError]
    · rfl
  · split
    · rw [State.port_modPort_same]
    · split
      · rw [setReplyCut, port_setError, State.port_modPort_same]
      · rfl

theorem cutLast_append (ds : List Deferred) (d : Deferred) : cutLast (ds ++ [d]) = ds ++ [{ d with cut := true }] := by
  induction ds with
  | nil => rfl
  | cons e es ih =>
    cases es with
    | nil => rfl
    | cons e' es => exact congrArg (e :: ·) ih

theorem exec_deselectionAnswering {s : State} {p : Port} (h : (s.port p).sel = .answering) (hr : s.resetLow = false)
    (hp : s.restartPending = false ∨ p ≠ .p0) : exec (.deselectionAnswering p) s = .next (toIdle (cutReply s p) p) := by
  have hheld : restartHeldBy s p = false := by
    rcases hp with hp | hp
    · simp [restartHeldBy, hp]
    · simp [restartHeldBy, hp]
  refine congrArg Host.Outcome.next ?_
  rw [if_pos ⟨h, hr⟩, hheld]
  rfl

theorem exec_deselectionSpent {s : State} {p : Port} (h : (s.port p).sel = .spent) (hr : s.resetLow = false)
    (hp : s.restartPending = false ∨ p ≠ .p0) : exec (.deselectionSpent p) s = .next (toIdle s p) := by
  have hheld : restartHeldBy s p = false := by
    rcases hp with hp | hp
    · simp [restartHeldBy, hp]
    · simp [restartHeldBy, hp]
  refine congrArg Host.Outcome.next ?_
  rw [if_pos ⟨h, hr⟩, hheld]
  rfl

end Sys2Proof.Machine

namespace Sys2Proof.Proofs

open Sys2Proof.Machine

/-- Settles O1: the equation of `step` for a queue that is not empty. -/
theorem stepTakesFront : Obligations.StepTakesFront := fun _ _ _ => rfl

/-- Settles O2: the cases of one CLKIN period; the tick that ends is that of LEASE_TICK, since the clock runs in both. -/
theorem emptyQueueCountsClkin : Obligations.EmptyQueueCountsClkin := by
  intro s hq
  have hstep : step s = .next (idle s) := by simp only [step, hq]
  rw [hstep]
  refine ⟨fun hr => ?_, fun hr h1 => ?_, fun hr h1 h2 => ?_, fun hr h1 h2 => ?_⟩
  · rw [idle, hr]; rfl
  · rw [idle, if_pos hr, clkinPeriod, if_pos h1]
  · rw [idle, if_pos hr, clkinPeriod, if_neg (not_lt.2 h1), if_pos h2]
  · rw [idle, if_pos hr, clkinPeriod, if_neg (not_lt.2 h1), if_neg (not_lt.2 h2)]
    exact (congrArg Host.Outcome.next (if_pos hr)).symm

/-- Settles O4: the resolution of a handle for any port, and the test of its owner. -/
theorem handleResolution : Obligations.HandleResolution := by
  intro s p h i
  rw [resolve_some, resolveAny_iff, ownedBy_iff]
  refine ⟨fun ⟨⟨hh, _⟩, c⟩ => ⟨hh, c⟩, fun ⟨hh, c, hc, hp⟩ => ⟨⟨hh, fun hf => ?_⟩, c, hc, hp⟩⟩
  rw [hf] at hc
  cases hc

/-- Settles O6: right after reset every slot is FREE, the list is empty and no port owns anything. -/
theorem resetMeetsInvariants : Obligations.ResetMeetsInvariants := by
  have h := allFree_reset
  refine ⟨rfl, fun p => by cases p <;> rfl, fun i => by rw [slotAt_reset]; decide, ⟨paramsOk_reset, clockOk_reset⟩,
    ⟨fun i c l n hc => ?_, nofun, nofun⟩, ⟨fun i c hc => ?_, nofun⟩, fun p j hj => ?_, ⟨Nat.zero_le _, fun _ => Nat.zero_le _⟩,
    h.usageOk rfl, h.locksOk, h.portsOk rfl rfl, h.eachBlocked, h.noCycle⟩
  · rw [h.slots i] at hc; cases hc
  · rw [h.slots i] at hc; cases hc
  · cases p <;> cases hj

/-- Settles O21: each row's own test of its state. -/
theorem selectionStates : Obligations.SelectionStates := by
  intro s p hr
  refine ⟨fun hs => ?_, fun hs hh => ?_, fun hs hh => ?_, fun a edges hs ha => ⟨fun hb => ?_, fun fill clocked => ?_,
    fun hb => ?_⟩, fun hs hp => ?_⟩
  · exact congrArg Host.Outcome.next (if_pos hs)
  · refine congrArg Host.Outcome.next ?_
    rw [hr, if_neg (by decide), if_pos ⟨hs, hh⟩]
  · refine congrArg Host.Outcome.next ?_
    rw [hr, if_neg (by decide), if_neg fun h => by rw [hh] at h; exact absurd h.2 (by decide)]
  · exact congrArg Host.Outcome.next (if_pos ⟨hs, (replySent_iff ha edges).2 hb, hr⟩)
  · rw [dataOutLevel, sentStream_spent fill hs ha, dataOutLevel]
  · exact congrArg Host.Outcome.next (if_neg fun h => absurd ((replySent_iff ha edges).1 h.2.1) (not_le.2 hb))
  · exact exec_deselectionSpent hs hr hp

/-- Settles O22: TRUNCATED by whether a byte has been taken, and then IDLE. -/
theorem deselectionInReceiving : Obligations.DeselectionInReceiving := by
  intro s p edges hs hr
  have hrec : receiving s p = true := by simp [receiving, hs, hr]
  set m := if (bytesOfEdges edges).isEmpty then s else setTruncated s p with hm
  have k : OnlyUnit p s m := by
    rw [hm]
    split
    · exact .refl p s
    · exact onlyUnit_setError ..
  have hport : m.port p = { s.port p with errors := { (s.port p).errors with
      truncated := (s.port p).errors.truncated || (decide (8 ≤ (sampled edges).length) && !clearing s) } } := by
    rw [hm, bytesOfEdges_isEmpty]
    by_cases h8 : 8 ≤ (sampled edges).length
    · simp only [h8, decide_true, Bool.not_true, Bool.false_eq_true, if_false, setTruncated, port_setError]
      cases clearing s <;> simp
    · simp [h8]
  have k' : OnlyUnit p s (toIdle m p) := k.trans (onlyUnit_modPort ..)
  exact ⟨toIdle m p, congrArg Host.Outcome.next (if_pos hrec), by rw [port_toIdle, hport], k'.session p, k'.onlyPort⟩

/-- Settles O23: what is cut off, by what the port unit has: an answer, waiting frames, or a request. -/
theorem deselectionInAnswering : Obligations.DeselectionInAnswering := by
  intro s p hs hr hc hp
  have k : OnlyUnit p s (toIdle (cutReply s p) p) := (onlyUnit_cutReply s p).trans (onlyUnit_modPort ..)
  refine ⟨_, exec_deselectionAnswering hs hr hp, k.session p, k.onlyPort, ?_⟩
  rw [port_toIdle]
  refine ⟨rfl, rfl, ?_, fun r ha => ?_, fun r ha => ?_, fun r ha hd hq => ?_, fun ds d ha hd => ?_⟩
  · exact lastReply_cutReply s p
  · simp [cutReply, ha, setReplyCut, port_setError, hc]
  · simp [cutReply, ha]
  · have hm : clearing (s.modPort p fun u => { u with request := some { r with cut := true } }) = false := hc
    simp [cutReply, ha, hd, hq, setReplyCut, port_setError, hm]
  · simp [cutReply, ha, hd, cutLast_append]

end Sys2Proof.Proofs
end


section
/-! PROOFS. The judgement of a frame: what is answered by the port unit itself, and REPLAY (R112 to R115, R118 to R120,
R123). -/

namespace Sys2Proof.Machine

/-! ### The row of a frame -/

/-- The row that carries a frame, of any CODE, at a port unit in RECEIVING. -/
theorem exec_rowOfCode {s : State} {f : Frame} (code : Byte) (h : receiving s f.port = true) :
    exec (rowOfCode code f) s = .next (frameCompletes code f s) := by
  unfold rowOfCode
  cases hc : commandOfCode code with
  | none => rfl
  | some c =>
    obtain rfl := commandCode_of_commandOfCode hc
    cases c <;> first
      | rfl
      | simp [rowOf, exec, execArbiterRequestArrives, h, frameCompletes, arrivalEnds, accessCommand]

/-! ### An answer that is not kept -/

/-- The end of a happening in which a reply that is not kept is sent, after the port's sticky errors at most have
changed: nothing else of the part has. -/
theorem settled_unkept {s m : State} {p : Port} (hl : LinesAgree s) (h : OnlyUnit p s m) {e : StickyErrors}
    (hp : m.port p = { s.port p with sel := .answering, answer := none, errors := e }) (r : Reply) :
    OnlyUnit p s (settleNotices (sendReply m p r false false)) ∧
      (settleNotices (sendReply m p r false false)).port p =
        { s.port p with sel := .answering, errors := e, answer := some { reply := r, kept := false } } ∧
      attnByte (settleNotices (sendReply m p r false false)) p = attnByte m p := by
  set t := m.modPort p fun u => { u with answer := some { reply := r, kept := false } } with ht
  have hsend : sendReply m p r false false = t := rfl
  rw [hsend]
  have k : OnlyUnit p s t := h.trans (onlyUnit_modPort ..)
  have hport : t.port p =
      { s.port p with sel := .answering, errors := e, answer := some { reply := r, kept := false } } := by
    rw [ht, State.port_modPort_same, hp]
  have hnotices (q : Port) : (t.port q).notices = (s.port q).notices := by
    by_cases hq : q = p
    · rw [hq, hport]
    · rw [k.ports q hq]
  have hdue (q : Port) : noticeDue t q = (s.port q).noticeLine :=
    (noticeDue_congr (k.session q) (hnotices q) (resetLow_of_board k.board)).trans (hl q).symm
  refine ⟨⟨k.sessions, k.table, k.waitList, k.board, fun q hq => ?_⟩, ?_, ?_⟩
  · rw [State.port_settleNotices, hdue, k.ports q hq]
  · rw [State.port_settleNotices, hdue, hport]
  · refine attnByte_congr ?_ ?_ ?_
    · rw [State.session_settleNotices, k.session, h.session]
    · rw [State.port_settleNotices, hport, hp]
    · rw [State.port_settleNotices, hport, hp]

theorem onlyUnit_sendReply (s : State) (p : Port) (r : Reply) : OnlyUnit p s (sendReply s p r false false) :=
  onlyUnit_modPort s p fun u => { u with answer := some { reply := r, kept := false } }

theorem onlyUnit_beginAnswer (s : State) (p : Port) : OnlyUnit p s (beginAnswer s p) := onlyUnit_modPort ..

/-- R120: REPLAY sends the kept last reply as it was formed, or NOTHING. -/
theorem runReplay_eq (s : State) (p : Port) (tag : Byte) (cut : Bool) : runReplay s p tag cut =
    sendReply s p ((s.port p).lastReply.getD (mkReply .nothing tag (attnByte s p) [])) false cut := by
  unfold runReplay
  split
  · next r hr => rw [hr]; rfl
  · next hr => rw [hr]; rfl

/-! ### The judgement -/

theorem lastReply_setError (s : State) (p : Port) (g : StickyErrors → StickyErrors) :
    ((setError s p g).port p).lastReply = (s.port p).lastReply := by rw [port_setError]

theorem commandOfCode_replay : commandOfCode (commandCode .replay) = some .replay := commandOfCode_commandCode _

/-- R119: a frame whose CODE is REPLAY is answered by a reply that is not kept, whatever its judgement comes to. -/
theorem takeFrame_replay (s : State) (p : Port) (f : Frame) : ∃ m r, takeFrame s p (commandCode .replay) f false =
    (sendReply m p r false false, []) ∧ (m.port p).lastReply = (s.port p).lastReply := by
  have hpasses : ∀ c, judge s p (commandCode .replay) f = .passes c → c = .replay := by
    intro c hc
    simp only [judge, commandOfCode_replay] at hc
    split at hc <;> try cases hc
    split at hc <;> try cases hc
    split at hc <;> try cases hc
    split at hc <;> try cases hc
    split at hc <;> cases hc
    rfl
  unfold takeFrame
  split
  · exact ⟨s, _, rfl, rfl⟩
  · exact ⟨_, _, rfl, lastReply_setError ..⟩
  · exact ⟨_, _, rfl, lastReply_setError ..⟩
  · next r _ =>
    refine ⟨s, mkReply r f.tag (attnByte s p) [], ?_, rfl⟩
    rw [beq_self_eq_true]
    rfl
  · next c hc =>
    rw [hpasses c hc]
    exact ⟨s, _, congrArg (·, []) (runReplay_eq ..), rfl⟩

/-- A frame that is answered without being kept: what its row leaves. -/
theorem row_unkept {s m : State} {code : Byte} {f : Frame} {r : Reply} {e : StickyErrors} (h : Completes f s)
    (hl : LinesAgree s) (ht : takeFrame (beginAnswer s f.port) f.port code f false = (sendReply m f.port r false false, []))
    (hm : OnlyUnit f.port s m)
    (hp : m.port f.port = { s.port f.port with sel := .answering, answer := none, errors := e }) :
    ∃ t, exec (rowOfCode code f) s = .next t ∧ OnlyPort f.port s t ∧ t.sessions = s.sessions ∧
      t.port f.port = { s.port f.port with
        sel := .answering, errors := e, answer := some { reply := r, kept := false } } ∧
      attnByte t f.port = attnByte m f.port := by
  have hexec := exec_rowOfCode code (receives_of_completes h)
  rw [frameCompletes_eq h, ht, arrive_nil] at hexec
  obtain ⟨k, hport, hattn⟩ := settled_unkept hl hm hp r
  exact ⟨_, hexec, k.onlyPort, k.sessions, hport, hattn⟩

/-- A frame that steps 4 to 6 of the judgement refuse: its reply is kept, unless its CODE is that of REPLAY. -/
theorem row_refused {s : State} {code : Byte} {f : Frame} {r : ResultCode} (h : Completes f s) (hl : LinesAgree s)
    (hj : judge s f.port code f = .refused r) (hc : code ≠ commandCode .replay) :
    ∃ t, exec (rowOfCode code f) s = .next t ∧ OnlyPort f.port s t ∧ t.sessions = s.sessions ∧
      Replied f.port f.tag r [] (s.port f.port) t := by
  rw [← judge_beginAnswer s f.port f.port] at hj
  have ht : takeFrame (beginAnswer s f.port) f.port code f false =
      (answerFrame (beginAnswer s f.port) f.port f.tag { code := r } true false, []) := by
    simp only [takeFrame, hj, beq_false_of_ne hc, Bool.not_false]
  have hexec := exec_rowOfCode code (receives_of_completes h)
  rw [frameCompletes_eq h, ht, arrive_nil] at hexec
  obtain ⟨honly, hreply⟩ := onlyPort_of_touchesOwnOnly (touchesOwnOnly_refl f.port (beginAnswer s f.port)) rfl rfl hl f.tag
    { code := r }
  exact ⟨_, hexec, honly, rfl, hreply⟩

theorem judge_starting {s : State} (p : Port) (code : Byte) (f : Frame) (h : clearing s = true) :
    judge s p code f = .starting := if_pos h

theorem judge_badCheck {s : State} {p : Port} {code : Byte} {f : Frame} (h : clearing s = false)
    (h72 : f.args.length ≤ 72) (hc : (s.session p).checking = true) (hm : checkMatches code f = false) :
    judge s p code f = .badCheck := by
  simp [judge, h, h72.not_gt, hc, hm]

/-- Steps 1 to 3 passed. -/
theorem judge_checked {s : State} {p : Port} {code : Byte} {f : Frame} (h : clearing s = false)
    (h72 : f.args.length ≤ 72) (hc : (s.session p).checking = false ∨ checkMatches code f = true) :
    judge s p code f = match commandOfCode code with
      | none => .refused .unknownCommand
      | some c => if isSupervision c && !(p == .p0) then .refused .notSupervisor
        else if !lengthOk c f.args then .refused .badLength else .passes c := by
  have hcheck : ((s.session p).checking && !checkMatches code f) = false := by rcases hc with hc | hc <;> simp [hc]
  rw [judge, h, if_neg (by decide), if_neg h72.not_gt, hcheck]
  rfl

/-! ### A frame that waits (R118) -/

theorem settleNotices_of_linesAgree {s : State} (h : LinesAgree s) : settleNotices s = s := by
  have hports : (settleNotices s).ports = s.ports := PerPort.ext_get fun q => by
    have hq := State.port_settleNotices s q
    rw [← h q] at hq
    exact hq
  calc settleNotices s = { s with ports := (settleNotices s).ports } := rfl
    _ = s := by rw [hports]

theorem row_waits {s : State} {code : Byte} {f : Frame} (hs : (s.port f.port).sel = .receiving)
    (hr : s.resetLow = false) (hl : LinesAgree s)
    (hout : (s.port f.port).request ≠ none ∨ (s.port f.port).deferred ≠ []) (h72 : f.args.length ≤ 72) :
    exec (rowOfCode code f) s = .next (s.modPort f.port fun u =>
      { u with
        sel := .answering, answer := none
        deferred := u.deferred ++ [{ code := code, frame := f, cut := false }] }) := by
  have hrec : receiving s f.port = true := by simp [receiving, hs, hr]
  rw [exec_rowOfCode code hrec]
  set t := s.modPort f.port fun u =>
    { u with
      sel := .answering, answer := none
      deferred := u.deferred ++ [{ code := code, frame := f, cut := false }] } with ht
  have hout' : replyOutstanding (beginAnswer s f.port) f.port = true := by
    rw [replyOutstanding, port_beginAnswer_same]
    rcases hout with h | h
    · simp [Option.isSome_iff_ne_none.2 h]
    · simp [List.isEmpty_eq_false_iff.2 h]
  have hends : frameEnds s f.port code f = (t, []) := by
    have hset : (beginAnswer s f.port).modPort f.port (fun u =>
        { u with deferred := u.deferred ++ [{ code := code, frame := f, cut := false }] }) = t := by
      rw [ht]
      cases f.port <;> rfl
    rw [frameEnds, if_pos hrec, ← hset]
    have hif : (replyOutstanding (beginAnswer s f.port) f.port && decide (f.args.length ≤ Config.maxLen)) = true := by
      rw [hout']; exact decide_eq_true h72
    exact if_pos hif
  have hlines : LinesAgree t := linesAgree_of_same (sameLine_modPort s f.port fun _ => ⟨rfl, rfl⟩) hl
  simp only [frameCompletes, if_pos hrec, hends, arrive_nil, settleNotices_of_linesAgree hlines]

end Sys2Proof.Machine

namespace Sys2Proof.Proofs

open Sys2Proof.Machine

/-- Settles O30: the reply of REPLAY, and of a REPLAY frame that its judgement answers, is sent without being kept. -/
theorem replaySendsCopy : Obligations.ReplaySendsCopy := by
  intro s f
  refine ⟨fun hp hargs hl => ?_, fun hcomp hlen => ?_⟩
  · have hj := judge_passes hp (by rw [hargs]; rfl) (by rw [hargs]; decide)
    rw [← judge_beginAnswer s f.port f.port] at hj
    have htake : takeFrame (beginAnswer s f.port) f.port (commandCode .replay) f false =
        (runReplay (beginAnswer s f.port) f.port f.tag false, []) := by
      rw [takeFrame, hj]
      rfl
    have hexec := exec_rowOf .replay hp.toCompletes
    rw [frameCompletes_eq hp.toCompletes, htake, arrive_nil, runReplay_eq] at hexec
    obtain ⟨k, hport, hattn⟩ := settled_unkept hl (onlyUnit_beginAnswer s f.port)
      (e := (s.port f.port).errors) (port_beginAnswer_same ..) (((beginAnswer s f.port).port f.port).lastReply.getD
        (mkReply .nothing f.tag (attnByte (beginAnswer s f.port) f.port) []))
    refine ⟨_, hexec, k.onlyPort, k.sessions, ?_⟩
    rw [hport, hattn, port_beginAnswer_same]
    cases (s.port f.port).lastReply <;> rfl
  · obtain ⟨m, r, htake, hlast⟩ := takeFrame_replay (beginAnswer s f.port) f.port f
    have hexec := exec_rowOf .replay hcomp
    rw [frameCompletes_eq hcomp, htake, arrive_nil] at hexec
    have hport : (sendReply m f.port r false false).port f.port =
        { m.port f.port with answer := some { reply := r, kept := false } } := by
      rw [sendReply_unkept, State.port_modPort_same]
    refine ⟨_, { reply := r, kept := false }, hexec, ?_, ?_, rfl⟩
    · rw [State.port_settleNotices, hport, hlast, port_beginAnswer_same]
    · rw [State.port_settleNotices, hport]

/-- Settles O24: the reply to an oversize frame is sent without being kept, that to an unknown command is kept. -/
theorem framesThatNameNoCommand : Obligations.FramesThatNameNoCommand := by
  refine ⟨fun s p code tag len hs hr hlen => ?_, fun s code f hcomp hc h72 hcheck hnone hl => ?_⟩
  · have hrec : receiving s p = true := by simp [receiving, hs, hr]
    have hif : (receiving s p && decide (Config.maxLen < len.toNat)) = true := by rw [hrec]; exact decide_eq_true hlen
    by_cases hc : clearing s = true
    · have k : OnlyUnit p s (sendReply (beginAnswer s p) p (mkReply .starting tag 0 []) false false) :=
        (onlyUnit_beginAnswer s p).trans (onlyUnit_sendReply ..)
      refine ⟨_, congrArg Host.Outcome.next ((if_pos hif).trans (if_pos hc)), k.session p, k.onlyPort, ?_⟩
      rw [← beginAnswer, sendReply_unkept, State.port_modPort_same, port_beginAnswer_same]
      simp [hc]
    · have hc' : clearing (beginAnswer s p) = false := Bool.eq_false_iff.2 hc
      set m := setOversize (beginAnswer s p) p with hm
      have hmport : m.port p = { s.port p with
          sel := .answering, answer := none, errors := { (s.port p).errors with oversize := true } } := by
        rw [hm, setOversize, port_setError, hc', port_beginAnswer_same]
        rfl
      have k : OnlyUnit p s (answerFrame m p tag { code := .badLength } false false) :=
        ((onlyUnit_beginAnswer s p).trans (onlyUnit_setError ..)).trans (onlyUnit_sendReply ..)
      refine ⟨answerFrame m p tag { code := .badLength } false false,
        congrArg Host.Outcome.next ((if_pos hif).trans (if_neg hc)), k.session p, k.onlyPort, ?_⟩
      have hport : (answerFrame m p tag { code := .badLength } false false).port p =
          { m.port p with answer := some { reply := mkReply .badLength tag (attnByte m p) [], kept := false } } := by
        rw [answerFrame, sendReply_unkept, State.port_modPort_same]
      have hattn : attnByte (answerFrame m p tag { code := .badLength } false false) p = attnByte m p :=
        attnByte_congr ((onlyUnit_sendReply m p _).session p) (by rw [hport]) (by rw [hport])
      rw [hattn, hport, hmport]
      simp [hc]
  · have hrow : rowOfCode code f = .unknownCommand code f := by rw [rowOfCode, hnone]
    rw [← hrow]
    refine row_refused hcomp hl ?_ ?_
    · rw [judge_checked hc h72 hcheck, hnone]
    · rintro rfl
      rw [commandOfCode_replay] at hnone
      cases hnone

end Sys2Proof.Proofs
end


section
/-! PROOFS. Frames as bytes and as clock edges, and data-out (R106, R108, R109). -/

namespace Sys2Proof.Machine

/-! ### The bytes of a frame -/

theorem frameBytes_eq (code : Byte) (f : Frame) :
    frameBytes code f = code :: f.tag :: BitVec.ofNat 8 f.args.length :: (f.args ++ bytes2 f.check) := rfl

theorem length_frameBytes (code : Byte) (f : Frame) : (frameBytes code f).length = f.args.length + 5 := by
  simp [frameBytes_eq, bytes2]

theorem lenByte_toNat {n : Nat} (h : n ≤ 72) : (BitVec.ofNat 8 n).toNat = n := by
  rw [BitVec.toNat_ofNat]
  omega

/-- The check is the two bytes after the arguments. -/
theorem check_after_args (h : Half) (args more : List Byte) :
    ofBytes2 (argByte (args ++ (bytes2 h ++ more)) args.length) (argByte (args ++ (bytes2 h ++ more)) (args.length + 1)) =
      h := by
  have hi : argByte (args ++ (bytes2 h ++ more)) args.length = h.extractLsb' 8 8 := by
    rw [argByte, List.getD_append_right _ _ _ _ le_rfl, Nat.sub_self]
    rfl
  have lo : argByte (args ++ (bytes2 h ++ more)) (args.length + 1) = h.extractLsb' 0 8 := by
    rw [argByte, List.getD_append_right _ _ _ _ (Nat.le_add_right _ 1), Nat.add_sub_cancel_left]
    rfl
  rw [hi, lo, ofBytes2_bytes2]

theorem receive_frameBytes {code : Byte} {f : Frame} (h : f.args.length ≤ 72) (more : List Byte) :
    receive f.port (frameBytes code f ++ more) = .complete code f := by
  have hlen := lenByte_toNat h
  have hrest : f.args ++ bytes2 f.check ++ more = f.args ++ (bytes2 f.check ++ more) := List.append_assoc ..
  rw [frameBytes_eq]
  simp only [List.cons_append, receive, hlen]
  rw [if_neg (show ¬ Config.maxLen < f.args.length from not_lt.2 h), hrest, if_neg, List.take_left, check_after_args]
  simp [bytes2]

theorem receive_take {code : Byte} {f : Frame} (h : f.args.length ≤ 72) {k : Nat} (hk : k < f.args.length + 5) :
    receive f.port ((frameBytes code f).take k) = .partialFrame := by
  rw [frameBytes_eq]
  match k, hk with
  | 0, _ | 1, _ | 2, _ => rfl
  | k + 3, hk =>
    simp only [List.take_succ_cons, receive, lenByte_toNat h]
    rw [if_neg (show ¬ Config.maxLen < f.args.length from not_lt.2 h), if_pos]
    rw [List.length_take]
    omega

/-! ### The bits of a frame -/

theorem bytesTaken_take (bytes : List Byte) (k : Nat) :
    bytesTaken ((bytes.flatMap bitsOfByte).take k) = bytes.take (k / 8) := by
  induction bytes generalizing k with
  | nil => simp [bytesTaken_short]
  | cons b bs ih =>
    by_cases hk : k < 8
    · rw [bytesTaken_short (by rw [List.length_take]; omega), Nat.div_eq_of_lt hk]
      rfl
    · obtain ⟨n, rfl⟩ := Nat.exists_eq_add_of_le (not_lt.1 hk)
      have htake : ((b :: bs).flatMap bitsOfByte).take (8 + n) = bitsOfByte b ++ (bs.flatMap bitsOfByte).take n := by
        rw [List.flatMap_cons, List.take_append, length_bitsOfByte, Nat.add_sub_cancel_left,
          List.take_of_length_le (by rw [length_bitsOfByte]; omega)]
      rw [htake, bytesTaken_byte, ih, Nat.add_div_left n (by decide), List.take_succ_cons]

/-! ### Data-out -/

theorem fillBit {k : Nat} : (0xFF : Byte).getMsbD (k % 8) = true := by
  have h : ∀ i : Fin 8, (0xFF : Byte).getMsbD i.val = true := by decide
  exact h ⟨k % 8, Nat.mod_lt _ (by decide)⟩

theorem streamBit_nil (k : Nat) : streamBit [] k = true := fillBit

/-- R106: the bits of the fill bytes before a reply, of the reply, and of the fill bytes after it. -/
theorem streamBit_reply (fill : Nat) (bytes : List Byte) (k : Nat) :
    (k < 8 * fill → streamBit (List.replicate fill 0xFF ++ bytes) k = true) ∧
    (8 * fill ≤ k → k < 8 * (fill + bytes.length) → streamBit (List.replicate fill 0xFF ++ bytes) k =
      (bytes.getD (k / 8 - fill) 0).getMsbD (k % 8)) ∧
    (8 * (fill + bytes.length) ≤ k → streamBit (List.replicate fill 0xFF ++ bytes) k = true) := by
  refine ⟨fun h => ?_, fun h1 h2 => ?_, fun h => ?_⟩
  · have hk : k / 8 < fill := by omega
    rw [streamBit, List.getD_append _ _ _ _ (by rwa [List.length_replicate]), List.getD_replicate _ hk]
    exact fillBit
  · have hk : k / 8 - fill < bytes.length := by omega
    rw [streamBit, List.getD_append_right _ _ _ _ (by rw [List.length_replicate]; omega), List.length_replicate,
      List.getD_eq_getElem _ _ hk, List.getD_eq_getElem _ _ hk]
  · rw [streamBit, List.getD_eq_default _ _ (by rw [List.length_append, List.length_replicate]; omega)]
    exact fillBit

theorem sentStream_reply {s : State} {p : Port} {bytes : List Byte}
    (h : dataOut s p = .reply bytes ∨ dataOut s p = .spent bytes) (fill : Nat) :
    sentStream s p fill = some (List.replicate fill 0xFF ++ bytes) := by
  rcases h with h | h <;> simp only [sentStream, h]

end Sys2Proof.Machine

namespace Sys2Proof.Proofs

open Sys2Proof.Machine

/-- Settles O3: frames by their bytes, by their bits, and data-out by the bits of the stream that is sent. -/
theorem frameRoundTrip : Obligations.FrameRoundTrip := by
  refine ⟨fun code f more h => ⟨length_frameBytes code f, receive_frameBytes h more, fun k hk => receive_take h hk⟩,
    fun code f edges h => ⟨fun more he => ?_, fun k hk he => ?_⟩, fun s p fill edges => ?_⟩
  · rw [rowOfEdges, bytesOfEdges, he, bytesTaken_bytes, receive_frameBytes h]
  · have hbytes : bytesOfEdges edges = (frameBytes code f).take (k / 8) := by rw [bytesOfEdges, he, bytesTaken_take]
    exact ⟨hbytes, by rw [rowOfEdges, hbytes, receive_take h (by omega)]⟩
  · intro k fallen
    have level (stream : List Byte) (hs : sentStream s p fill = some stream) (edges : List ClockEdge) :
        dataOutLevel s p fill edges = dataLine stream 0 none edges := by rw [dataOutLevel, hs]; rfl
    have fell (stream : List Byte) (hs : sentStream s p fill = some stream) : fallen = some (streamBit stream k) := by
      rw [← Nat.zero_add k, ← dataLine_fall stream edges 0 none, ← level stream hs]
    refine ⟨fun h => ?_, fun h => ?_, fun bit => ?_, fun h => ?_, fun bytes h => ?_⟩
    · rw [dataOutLevel, sentStream, h]
      rfl
    · rw [dataOutLevel]
      cases sentStream s p fill with
      | none => rfl
      | some stream => exact dataLine_noFall stream h 0 none
    · rw [dataOutLevel, dataOutLevel]
      cases sentStream s p fill with
      | none => rfl
      | some stream => exact dataLine_rise stream bit edges 0 none
    · rw [fell [] (by rw [sentStream, h]), streamBit_nil]
    · have hs := sentStream_reply h fill
      obtain ⟨before, during, after⟩ := streamBit_reply fill bytes k
      refine ⟨fun hk => ⟨?_, ?_⟩, fun h1 h2 => ?_, fun hk => ?_⟩
      · rw [level _ hs]
        refine dataLine_congr edges 0 none fun i hi => ?_
        rw [(streamBit_reply fill bytes i).1 (by omega), streamBit_nil]
      · rw [fell _ hs, before hk]
      · rw [fell _ hs, during h1 h2]
      · rw [fell _ hs, after hk]

end Sys2Proof.Proofs
end


section
/-! PROOFS. READ and WRITE as the arbiter serves them, and what a service leaves of the array (R141 to R146, R150, R155,
R157 to R159, R164, R165). -/

namespace Sys2Proof.Machine

/-! ### Coverage (R141, R144, R145) -/

theorem mem_touchedPages {x : AccessArgs} {page : Nat} :
    page ∈ touchedPages x.address.toNat x.length.toNat ↔ Touches x page := by
  have hle : x.address.toNat / 64 ≤ (x.address.toNat + x.length.toNat - 1) / 64 + 1 := by omega
  rw [touchedPages, List.mem_range'_1, Touches]
  change _ ∧ _ < x.address.toNat / 64 + ((x.address.toNat + x.length.toNat - 1) / 64 + 1 - x.address.toNat / 64) ↔ _
  rw [Nat.add_sub_cancel' hle, Nat.lt_succ_iff]

theorem pageCovered_iff {s : State} {p : Port} {a : Access} {page : Nat} :
    pageCovered s p a page = true ↔ CoveredFor s p a page := by
  have hmode : ∀ m : Mode, (a == .read || m == .exclusive) = true ↔ (a = .write → m = .exclusive) := by
    intro m; cases a <;> simp
  rw [pageCovered, List.any_eq_true]
  constructor
  · rintro ⟨i, -, hi⟩
    cases hc : (slotAt s i).content.heldRecord with
    | none => rw [hc] at hi; cases hi
    | some c =>
      rw [hc] at hi
      simp only [Bool.and_eq_true, hmode, beq_iff_eq] at hi
      obtain ⟨⟨hp, hcov⟩, hm⟩ := hi
      exact ⟨i, c, held_iff.2 hc, hp, by simpa [coversPage, Covers] using hcov, hm⟩
  · rintro ⟨i, c, hc, hp, hcov, hm⟩
    refine ⟨i, mem_allSlots i, ?_⟩
    rw [held_iff.1 hc]
    simp only [Bool.and_eq_true, hmode, beq_iff_eq]
    exact ⟨⟨hp, by simpa [coversPage, Covers] using hcov⟩, hm⟩

theorem coverageRequired_iff {s : State} {a : Access} : coverageRequired s.params.enforce a = true ↔ MustCover s a := by
  unfold MustCover
  cases s.params.enforce <;> cases a <;> simp [coverageRequired]

theorem firstUncovered_none {s : State} {p : Port} {a : Access} {x : AccessArgs} :
    firstUncovered s p a x.address.toNat x.length.toNat = none ↔ CoveredAsRequired s p a x := by
  rw [firstUncovered, CoveredAsRequired, ← coverageRequired_iff]
  by_cases h : coverageRequired s.params.enforce a = true
  · rw [if_pos h, List.find?_eq_none]
    simp only [mem_touchedPages, Bool.not_eq_true', Bool.not_eq_false, pageCovered_iff, h, true_imp_iff]
  · rw [if_neg h]
    exact ⟨fun _ h' => absurd h' h, fun _ => rfl⟩

/-- R145: the first touched page that is not covered. -/
theorem firstUncovered_some {s : State} {p : Port} {a : Access} {x : AccessArgs} (hm : MustCover s a) {page : Nat}
    (ht : Touches x page) (hn : ¬ CoveredFor s p a page)
    (hlow : ∀ lower, x.address.toNat / 64 ≤ lower → lower < page → CoveredFor s p a lower) :
    firstUncovered s p a x.address.toNat x.length.toNat = some page := by
  rw [firstUncovered, if_pos (coverageRequired_iff.2 hm)]
  have hsorted : (touchedPages x.address.toNat x.length.toNat).Pairwise (· < ·) := List.pairwise_lt_range' ..
  obtain ⟨rest, hf⟩ := filter_eq_cons (f := fun page => !pageCovered s p a page) hsorted (mem_touchedPages.2 ht)
    (by simpa using mt pageCovered_iff.1 hn) fun lower hl hlt => by
      simpa using pageCovered_iff.2 (hlow lower (mem_touchedPages.1 hl).1 hlt)
  rw [← List.head?_filter, hf]
  rfl

/-! ### The service of an access (R142, R143, R146) -/

theorem inArray_iff {x : AccessArgs} : InArray x ↔
    (x.length.toNat = 0 || 64 < x.length.toNat) = false ∧
      (Config.arrayBytes ≤ x.address.toNat || Config.arrayBytes < x.address.toNat + x.length.toNat) = false := by
  change _ ↔ _ ∧ (262144 ≤ _ || 262144 < _) = false
  simp only [InArray, Bool.or_eq_false_iff, decide_eq_false_iff_not]
  omega

theorem takeAccess_outside {s : State} {p : Port} {a : Access} {x : AccessArgs} (h : ¬ InArray x) :
    takeAccess a p (accessBytes x) s = (s, { code := .badRange }) := by
  rw [inArray_iff, not_and_or, Bool.not_eq_false, Bool.not_eq_false] at h
  simp only [takeAccess, accessArgs_accessBytes, refuse]
  rcases h with h | h
  · rw [if_pos h]
  · rw [if_pos h, ite_self]

theorem takeAccess_inside {s : State} {p : Port} {a : Access} {x : AccessArgs} (h : InArray x) :
    takeAccess a p (accessBytes x) s = match firstUncovered s p a x.address.toNat x.length.toNat with
      | some page => (s, { code := .accessDenied, results := num2 page })
      | none => match a with
        | .read => (s, { code := .ok, results := readBytes s.array x.address.toNat x.length.toNat })
        | .write => ({ s with array := writeBytes s.array x.address.toNat (x.data.take x.length.toNat) }, { code := .ok }) := by
  obtain ⟨h1, h2⟩ := inArray_iff.1 h
  simp only [takeAccess, accessArgs_accessBytes, h1, h2, Bool.false_eq_true, if_false] <;> rfl

/-- R146: what a WRITE stores. -/
theorem written_writeBytes {m : Memory} (hm : Memory.wf m = true) {x : AccessArgs} (hx : InArray x)
    (hd : x.data.length = x.length.toNat) :
    Written x m (writeBytes m x.address.toNat (x.data.take x.length.toNat)) := by
  intro a
  obtain ⟨-, -, hend⟩ := hx
  rw [← hd, List.take_length]
  exact readByte_writeBytes hm (by rw [hd]; exact hend) a

/-! ### The end of a service -/

/-- R118, R119: the port unit after its READ or WRITE has been answered. -/
theorem port_answered {s : State} {p : Port} (hc : clearing s = false) (r : Reply) (cut : Bool) :
    (sendReply (s.modPort p fun u => { u with request := none }) p r true cut).port p = (s.port p).served r cut := by
  cases cut
  · rw [sendReply_kept, State.port_modPort_same, State.port_modPort_same, State.port_modPort_same]
    rfl
  · have hm : clearing ((s.modPort p fun u => { u with request := none }).modPort p
      fun u => { u with lastReply := some r }) = false := hc
    rw [sendReply_cut, setReplyCut, port_setError, hm, State.port_modPort_same, State.port_modPort_same]
    rfl

theorem onlyUnit_sendReply_kept (s : State) (p : Port) (r : Reply) (cut : Bool) :
    OnlyUnit p s (sendReply s p r true cut) := by
  have keep := onlyUnit_modPort s p fun u => { u with lastReply := some r }
  cases cut
  · rw [sendReply_kept]
    exact keep.trans (onlyUnit_modPort ..)
  · rw [sendReply_cut]
    exact keep.trans (onlyUnit_setError ..)

/-- What the service of a port's request leaves. -/
structure Served (s : State) (p : Port) (tag : Byte) (a : Answer) (cut : Bool) (array : Memory) (t : State) : Prop where
  port     : t.port p = (s.port p).served (mkReply a.code tag (attnByte s p) a.results) cut
  arbiter  : ServesNext s.arbiter t.arbiter
  array    : t.array = array
  table    : t.table = s.table
  waitList : t.waitList = s.waitList
  sessions : t.sessions = s.sessions
  ports    : ∀ q, q ≠ p → t.port q = s.port q
  board    : board { t with arbiter := s.arbiter, array := s.array } = board s

/-- The row that serves a port's request. -/
def rowOfAccess (a : Access) (p : Port) : Instr := match a with | .read => .read p | .write => .write p

theorem exec_rowOfAccess {s : State} {p : Port} {r : Request} (hv : s.arbiter.serving = some (.port p))
    (hr : (s.port p).request = some r) :
    exec (rowOfAccess r.access p) s = .next (settleNotices (serveRequest s p r)) := by
  have hserved : servedRequest s p r.access = some r := by
    rw [servedRequest, if_pos hv, hr, Option.filter_some, if_pos (beq_self_eq_true _)]
  have hexec : exec (rowOfAccess r.access p) s = .next (serveAccess r.access p s) := by
    cases r.access <;> rfl
  rw [hexec, serveAccess, hserved]

theorem served_of_take {s : State} {p : Port} {a : Access} {tag : Byte} {args : List Byte} {cut : Bool}
    (hv : s.arbiter.serving = some (.port p)) (hr : (s.port p).request = some ⟨a, tag, args, cut⟩)
    (hd : (s.port p).deferred = []) (hl : LinesAgree s) (hc : clearing s = false) {x : Answer} {array : Memory}
    (ht : takeCommand (accessCommand a) p tag args (s.modPort p fun u => { u with request := none }) =
      ({ s.modPort p (fun u => { u with request := none }) with array := array }, x)) :
    ∃ t, exec (rowOfAccess a p) s = .next t ∧ Served s p tag x cut array t := by
  set s' : State := { s with array := array } with hs'
  set r := mkReply x.code tag (attnByte s p) x.results with hr'
  set m := s'.modPort p fun u => { u with request := none } with hm
  set t := sendReply m p r true cut with ht'
  have hattn : attnByte m p = attnByte s p := attnByte_congr rfl (by rw [hm, State.port_modPort_same]; rfl)
    (by rw [hm, State.port_modPort_same]; rfl)
  have hanswer : answerFrame m p tag x true cut = t := by rw [answerFrame, hattn]
  have k : OnlyUnit p s' t := (onlyUnit_modPort s' p _).trans (onlyUnit_sendReply_kept m p r cut)
  have hport : t.port p = (s.port p).served r cut := port_answered (s := s') hc r cut
  have hdeferred : (t.port p).deferred = [] := by
    rw [hport, PortUnit.served]
    cases cut <;> exact hd
  have hnotices (q : Port) : (t.port q).notices = (s.port q).notices := by
    by_cases hq : q = p
    · rw [hq, hport, PortUnit.served]
      cases cut <;> rfl
    · rw [k.ports q hq]
      rfl
  have hreset : t.resetLow = s'.resetLow := resetLow_of_board k.board
  have hdue (q : Port) : noticeDue (endService t) q = (s.port q).noticeLine :=
    (noticeDue_congr (s := s) (k.session q) (hnotices q) hreset).trans (hl q).symm
  refine ⟨settleNotices (endService t), ?_, ?_⟩
  · rw [exec_rowOfAccess hv hr, serveRequest, ht]
    change Host.Outcome.next (settleNotices (drainDeferred ((endService (answerFrame m p tag x true cut)).port p).deferred.length
      p (endService (answerFrame m p tag x true cut)))) = _
    rw [hanswer]
    have hlen : ((endService t).port p).deferred.length = 0 := by
      rw [show (endService t).port p = t.port p from rfl, hdeferred]
      rfl
    rw [hlen]
    rfl
  · obtain ⟨b1, b2, b3, b4, b5, b6, b7, b8, b9, b10⟩ := board_parts k.board
    refine ⟨?_, ?_, b2, k.table, k.waitList, k.sessions, fun q hq => ?_, ?_⟩
    · rw [State.port_settleNotices, hdue]
      have : (endService t).port p = t.port p := rfl
      rw [this, hport, PortUnit.served]
      cases cut <;> rfl
    · have : (settleNotices (endService t)).arbiter = serveNext s.arbiter := congrArg serveNext b4
      rw [this]
      exact servesNext_serveNext s.arbiter
    · rw [State.port_settleNotices, hdue]
      have : (endService t).port q = s.port q := k.ports q hq
      rw [this]
    · simp only [board, settleNotices_clock, settleNotices_clearNext, settleNotices_engine, settleNotices_params,
        settleNotices_restartPending, settleNotices_resetLow, settleNotices_powerUps, settleNotices_pending]
      change (t.clock, s.array, t.clearNext, s.arbiter, t.engine, t.params, t.restartPending, t.resetLow, t.powerUps,
        t.pending) = _
      rw [b1, b3, b5, b6, b7, b8, b9, b10]

end Sys2Proof.Machine

namespace Sys2Proof.Proofs

open Sys2Proof.Machine

/-- Settles O47: the checks pass, and the reply carries the bytes read. -/
theorem readServed : Obligations.ReadServed := by
  intro s p tag length address data cut hv hr hd hl hc hatt hlen1 hlen64 hend hcov
  have hin : InArray ⟨address, length, data⟩ := ⟨hlen1, hlen64, hend⟩
  have hfirst : firstUncovered s p .read address.toNat length.toNat = none := by
    refine (firstUncovered_none (x := ⟨address, length, data⟩)).2 fun hm page ht => ?_
    exact hcov (hm.resolve_right fun h => nomatch h.2) page ht.1 ht.2
  set s' := s.modPort p fun u => { u with request := none } with hs'
  have hacc : takeAccess .read p (accessBytes ⟨address, length, data⟩) s' =
      (s', { code := .ok, results := readBytes s.array address.toNat length.toNat }) := by
    rw [takeAccess_inside hin]
    have hfirst' : firstUncovered s' p .read address.toNat length.toNat = none := hfirst
    simp only [hfirst']
    rfl
  have htake : takeCommand .read p tag (accessBytes ⟨address, length, data⟩) s' =
      ({ s' with array := s.array }, { code := .ok, results := readBytes s.array address.toNat length.toNat }) :=
    (takeCommand_attached (s := s') hatt (by decide) tag _).trans hacc
  obtain ⟨t, hexec, d⟩ := served_of_take (a := .read) hv hr hd hl hc htake
  refine ⟨t, _, hexec, length_readBytes .., fun k hk => getD_readBytes _ _ _ _ hk, d.port, d.arbiter, d.table, d.waitList,
    d.sessions, d.ports, ?_⟩
  rw [← d.board]
  exact congrArg (fun m => board { t with arbiter := s.arbiter, array := m }) d.array

/-- Settles O48: the checks pass, and the bytes are stored. -/
theorem writeServed : Obligations.WriteServed := by
  intro s p tag x cut hv hr hd hl hc hwf hatt hlen h1 h64 hend hcov
  have hin : InArray x := by rw [hlen] at h1 h64 hend; exact ⟨h1, h64, hend⟩
  have hfirst : firstUncovered s p .write x.address.toNat x.length.toNat = none := by
    refine firstUncovered_none.2 fun hm page ht => hcov ?_ page ht.1 (hlen ▸ ht.2)
    rcases hm with h | h
    · rw [h]; decide
    · rw [h.1]; decide
  set s' := s.modPort p fun u => { u with request := none } with hs'
  have hacc : takeAccess .write p (accessBytes x) s' =
      ({ s' with array := writeBytes s.array x.address.toNat (x.data.take x.length.toNat) }, { code := .ok }) := by
    rw [takeAccess_inside hin]
    have hfirst' : firstUncovered s' p .write x.address.toNat x.length.toNat = none := hfirst
    simp only [hfirst']
    rfl
  obtain ⟨t, hexec, d⟩ := served_of_take (a := .write) hv hr hd hl hc
    ((takeCommand_attached (s := s') hatt (by decide) tag _).trans hacc)
  refine ⟨t, hexec, ?_, d.port, d.arbiter, d.table, d.waitList, d.sessions, d.ports, d.board⟩
  rw [d.array]
  exact written_writeBytes hwf hin hlen

/-- Settles O49: the session's answer, or the first check of the access that fails. -/
theorem accessRefused : Obligations.AccessRefused := by
  intro s p tag a x cut hv hr hd hl hc refusedWith attached inside
  set s' := s.modPort p fun u => { u with request := none } with hs'
  have refused (y : Answer) (ht : takeCommand (accessCommand a) p tag (accessBytes x) s' = (s', y)) :
      refusedWith y.code y.results := by
    obtain ⟨t, hexec, d⟩ := served_of_take hv hr hd hl hc (array := s.array) ht
    refine ⟨t, ?_, d.port, d.arbiter, d.table, d.waitList, d.sessions, d.ports, ?_⟩
    · rw [← hexec]
      cases a <;> rfl
    · rw [← d.board]
      exact congrArg (fun m => board { t with arbiter := s.arbiter, array := m }) d.array
  have unadmitted (code : ResultCode) (h : admission s p (accessCommand a) = some code) : refusedWith code [] := by
    refine refused { code := code } ?_
    have h' : admission s' p (accessCommand a) = some code := h
    simp only [takeCommand, h', refuse]
  have admitted (hatt : attached) (y : Answer) (ht : takeAccess a p (accessBytes x) s' = (s', y)) :
      refusedWith y.code y.results := by
    refine refused y ((takeCommand_attached (s := s') hatt (by cases a <;> decide) tag _).trans ?_)
    rw [← ht]
    cases a <;> rfl
  refine ⟨fun hst => unadmitted _ ?_, fun hst => unadmitted _ ?_, fun hatt hin => ?_, fun hatt hin hm page h1 h2 hn hlow => ?_⟩
  · exact admission_closing hst (by cases a <;> decide)
  · exact admission_detached hst (by cases a <;> decide)
  · exact admitted hatt { code := .badRange } (takeAccess_outside hin)
  · refine admitted hatt { code := .accessDenied, results := num2 page } ?_
    have hfirst : firstUncovered s' p a x.address.toNat x.length.toNat = some page :=
      firstUncovered_some (s := s') hm ⟨h1, h2⟩ hn hlow
    rw [takeAccess_inside hin]
    simp only [hfirst]

end Sys2Proof.Proofs
end


section
/-! PROOFS. Requests that arrive together at the arbiter (R142, R150). -/

namespace Sys2Proof.Machine

/-! ### READ and WRITE frames become requests -/

/-- R142: a port unit whose READ or WRITE frame has completed and passed its judgement. -/
def arrivalUnit (a : Arrival) (u : PortUnit) : PortUnit :=
  { u with
    sel := .answering, answer := none
    request := some { access := a.access, tag := a.frame.tag, args := a.frame.args, cut := false } }

/-- An arrival whose frame passes its judgement. -/
def ArrivalJudged (a : Arrival) (s : State) : Prop :=
  Passes (accessCommand a.access) a.frame s ∧ lengthOk (accessCommand a.access) a.frame.args = true ∧
    a.frame.args.length ≤ 72

theorem ArrivalJudged.modPort {a : Arrival} {s : State} (h : ArrivalJudged a s) {p : Port} (hp : a.frame.port ≠ p)
    (g : PortUnit → PortUnit) : ArrivalJudged a (s.modPort p g) := by
  obtain ⟨⟨⟨h1, h2, h3, h4⟩, h5, h6, h7⟩, hlen, h72⟩ := h
  have hport : (s.modPort p g).port a.frame.port = s.port a.frame.port := State.port_modPort_other _ _ hp
  exact ⟨⟨⟨by rw [hport]; exact h1, h2, by rw [hport]; exact h3, by rw [hport]; exact h4⟩, h5, h6, h7⟩, hlen, h72⟩

theorem arrivalEnds_eq {a : Arrival} {s : State} (h : ArrivalJudged a s) (us : List User) :
    arrivalEnds (s, us) a = (s.modPort a.frame.port (arrivalUnit a), us ++ [.port a.frame.port]) := by
  obtain ⟨hp, hlen, h72⟩ := h
  have hj := judge_passes hp hlen h72
  rw [← judge_beginAnswer s a.frame.port a.frame.port] at hj
  have hset : register (beginAnswer s a.frame.port) a.frame.port a.access a.frame false =
      s.modPort a.frame.port (arrivalUnit a) := by
    rw [register]
    cases a.frame.port <;> rfl
  have htake : takeFrame (beginAnswer s a.frame.port) a.frame.port (commandCode (accessCommand a.access)) a.frame false =
      (s.modPort a.frame.port (arrivalUnit a), [.port a.frame.port]) := by
    rw [← hset]
    simp only [takeFrame, hj]
    cases a.access <;> rfl
  simp only [arrivalEnds, frameEnds_eq hp.toCompletes, htake]

/-- R142: all frames that complete together have become the requests of their ports. -/
theorem arrivals_end {arrivals : List Arrival} (hn : (arrivals.map fun a => a.frame.port).Nodup) {s : State}
    (h : ∀ a ∈ arrivals, ArrivalJudged a s) (us : List User) :
    arrivals.foldl arrivalEnds (s, us) = (arrivals.foldl (fun s a => s.modPort a.frame.port (arrivalUnit a)) s,
      us ++ arrivals.map fun a => .port a.frame.port) := by
  induction arrivals generalizing s us with
  | nil => simp
  | cons a l ih =>
    obtain ⟨ha, hl⟩ := List.nodup_cons.1 hn
    rw [List.foldl_cons, arrivalEnds_eq (h a (List.mem_cons_self ..)), ih hl, List.foldl_cons, List.map_cons,
      List.append_assoc, List.singleton_append]
    intro b hb
    exact (h b (List.mem_cons_of_mem _ hb)).modPort (fun hab => ha (List.mem_map.2 ⟨b, hb, hab⟩)) _

/-- The port units after requests have come in. -/
theorem port_arrivals {arrivals : List Arrival} (hn : (arrivals.map fun a => a.frame.port).Nodup) (s : State) :
    (∀ a ∈ arrivals, (arrivals.foldl (fun s a => s.modPort a.frame.port (arrivalUnit a)) s).port a.frame.port =
      arrivalUnit a (s.port a.frame.port)) ∧
    ∀ q, q ∉ (arrivals.map fun a => a.frame.port) →
      (arrivals.foldl (fun s a => s.modPort a.frame.port (arrivalUnit a)) s).port q = s.port q := by
  induction arrivals generalizing s with
  | nil => exact ⟨nofun, fun _ _ => rfl⟩
  | cons a l ih =>
    obtain ⟨ha, hl⟩ := List.nodup_cons.1 hn
    obtain ⟨ih1, ih2⟩ := ih hl (s.modPort a.frame.port (arrivalUnit a))
    rw [List.foldl_cons]
    refine ⟨fun b hb => ?_, fun q hq => ?_⟩
    · rcases List.mem_cons.1 hb with rfl | hb
      · rw [ih2 _ ha, State.port_modPort_same]
      · rw [ih1 b hb, State.port_modPort_other _ _ fun hab => ha (List.mem_map.2 ⟨b, hb, hab⟩)]
    · obtain ⟨hqa, hql⟩ := not_or.1 (mt List.mem_cons.2 hq)
      rw [ih2 q hql, State.port_modPort_other _ _ hqa]

theorem sameLine_arrivals (arrivals : List Arrival) (s : State) :
    SameLine s (arrivals.foldl (fun s a => s.modPort a.frame.port (arrivalUnit a)) s) := by
  induction arrivals generalizing s with
  | nil => exact .refl s
  | cons a l ih => exact (sameLine_modPort s a.frame.port (g := arrivalUnit a) fun _ => ⟨rfl, rfl⟩).trans (ih _)

/-- Nothing but the port units. -/
theorem board_arrivals (arrivals : List Arrival) (s : State) :
    let t := arrivals.foldl (fun s a => s.modPort a.frame.port (arrivalUnit a)) s
    t.table = s.table ∧ t.waitList = s.waitList ∧ t.sessions = s.sessions ∧ board t = board s := by
  induction arrivals generalizing s with
  | nil => exact ⟨rfl, rfl, rfl, rfl⟩
  | cons a l ih => exact ih (s.modPort a.frame.port (arrivalUnit a))

/-! ### The arbiter (R150) -/

theorem has_foldl_put (us : List User) (w : UserSet) (u : User) :
    (us.foldl (fun w u => w.put u true) w).has u = true ↔ w.has u = true ∨ u ∈ us := by
  induction us generalizing w with
  | nil => simp
  | cons v us ih =>
    rw [List.foldl_cons, ih, has_put, List.mem_cons]
    by_cases h : u = v
    · simp [h]
    · simp [h]

theorem has_none (u : User) : UserSet.none.has u = false := by rcases u with (_ | _ | _ | _) | _ <;> rfl

/-- R150: requests that arrive at a busy array wait. -/
theorem arrive_busy {s : State} {us : List User} (hne : us ≠ []) (h : s.arbiter.serving ≠ none) :
    arrive s us = { s with arbiter := joinWaiting s.arbiter us } := by
  have hbusy : arrayBusy s = true := by simp [arrayBusy, Option.isSome_iff_ne_none.2 h]
  rw [arrive, if_neg (by rwa [List.isEmpty_iff]), hbusy]
  rfl

/-- R150: requests that arrive at a free array with none waiting: one is served at once. -/
theorem arrive_free {s : State} {us : List User} (hne : us ≠ []) (h : s.arbiter.serving = none)
    (hw : s.arbiter.waiting = .none) (hc : clearing s = false) :
    arrive s us = { s with arbiter := serveNext (joinWaiting s.arbiter us) } := by
  have hbusy : arrayBusy s = false := by simp [arrayBusy, h, hc]
  have hnone : arrive.someWaiting s.arbiter = false := by
    rw [arrive.someWaiting, hw, List.any_eq_false]
    exact fun u _ => by rw [has_none]; decide
  rw [arrive, if_neg (by rwa [List.isEmpty_iff]), hbusy, hnone]
  rfl

end Sys2Proof.Machine

namespace Sys2Proof.Proofs

open Sys2Proof.Machine

/-- Settles O46: the frames become requests one by one, and then the requests reach the arbiter together. -/
theorem requestsArrive : Obligations.RequestsArrive := by
  intro s arrivals hne hn hl hj
  set m := arrivals.foldl (fun s a => s.modPort a.frame.port (arrivalUnit a)) s with hm
  set us : List User := arrivals.map fun a => .port a.frame.port with hus
  obtain ⟨ht, hw, hs, hb⟩ := board_arrivals arrivals s
  obtain ⟨hin, hout⟩ := port_arrivals hn s
  have hlines : LinesAgree m := linesAgree_of_same (sameLine_arrivals arrivals s) hl
  have hboard : board m = board s := hb
  obtain ⟨b1, b2, b3, b4, b5, b6, b7, b8, b9, b10⟩ := board_parts hboard
  obtain ⟨a0, ha0⟩ := List.exists_mem_of_ne_nil _ hne
  have hcleared : clearing m = false := (congrArg (decide <| · < Config.pageCount) b3).trans (hj a0 ha0).1.cleared
  have hany : (arrivals.any fun a => receiving s a.frame.port) = true :=
    List.any_eq_true.2 ⟨a0, ha0, receives_of_completes (hj a0 ha0).1.toCompletes⟩
  have husne : us ≠ [] := by simpa [hus] using hne
  have hmem (u : User) : u ∈ us ↔ ∃ a ∈ arrivals, u = .port a.frame.port := by
    simp only [hus, List.mem_map, eq_comm]
  have hexec : exec (.arbiterRequestArrives arrivals) s = .next (settleNotices (arrive m us)) := by
    have hends := arrivals_end hn hj []
    rw [List.nil_append] at hends
    refine congrArg Host.Outcome.next ((if_pos hany).trans ?_)
    simp only [hends]
    rfl
  set b := (arrive m us).arbiter with hb'
  have harrive : arrive m us = { m with arbiter := b } := by
    rw [hb', arrive]
    split
    · rfl
    · split <;> rfl
  have hsettled : settleNotices (arrive m us) = { m with arbiter := b } := by
    rw [harrive]
    exact settleNotices_of_linesAgree (s := { m with arbiter := b }) hlines
  refine ⟨{ m with arbiter := b }, by rw [hexec, hsettled], hin, hout, fun hv => ?_, fun hv hwait => ?_, ht, hw, hs, ?_⟩
  · have harb : b = joinWaiting s.arbiter us := by rw [hb', arrive_busy husne (b4 ▸ hv), ← b4]
    rw [harb]
    exact ⟨rfl, rfl, fun u => (has_foldl_put ..).trans (or_congr_right (hmem u))⟩
  · have harb : b = serveNext (joinWaiting s.arbiter us) := by
      rw [hb', arrive_free husne (b4 ▸ hv) (b4 ▸ hwait) hcleared, ← b4]
    have hjoined (u : User) : (joinWaiting s.arbiter us).waiting.has u = true ↔ ∃ a ∈ arrivals, u = .port a.frame.port := by
      rw [joinWaiting, has_foldl_put, hwait, has_none, ← hmem]
      simp
    obtain ⟨u, hu⟩ : ∃ u, nextServed (joinWaiting s.arbiter us) = some u := by
      rw [nextServed, ← Option.isSome_iff_exists, List.find?_isSome]
      exact ⟨.port a0.frame.port, mem_usersAfter _ _, (hjoined _).2 ⟨a0, ha0, rfl⟩⟩
    obtain ⟨hhas, before, after, hsplit, hbefore⟩ := List.find?_eq_some_iff_append.1 hu
    obtain ⟨first, hfirst, rfl⟩ := (hjoined u).1 hhas
    obtain ⟨hserving, hlast, hwaiting⟩ := (servesNext_serveNext (joinWaiting s.arbiter us)).next before _ after hsplit hhas
      fun v hv => by simpa using hbefore v hv
    rw [← harb] at hserving hlast hwaiting
    refine ⟨before, first.frame.port, after, hsplit, fun a ha hmem => ?_, List.mem_map.2 ⟨first, hfirst, rfl⟩, hserving,
      hlast, fun u => ?_⟩
    · have := hbefore _ hmem
      rw [(hjoined _).2 ⟨a, ha, rfl⟩] at this
      cases this
    · change b.waiting.has u = true ↔ _
      rw [hwaiting, Bool.and_eq_true, hjoined, decide_eq_true_iff]
      constructor
      · rintro ⟨⟨a, ha, rfl⟩, hne⟩
        exact ⟨a, ha, rfl, fun h => hne (congrArg User.port h)⟩
      · rintro ⟨a, ha, rfl, hne⟩
        exact ⟨⟨a, ha, rfl⟩, fun h => hne (User.port.inj h)⟩
  · simp only [board, b1, b2, b3, b5, b6, b7, b8, b9, b10]

end Sys2Proof.Proofs
end


section
/-! PROOFS. The refusals of FILL, COPY and SUM (R160). -/

namespace Sys2Proof.Machine

/-! ### What a side's handle names -/

section

variable {s : State} {p : Port} {x : Side}

theorem content_of_resolve {h : Half} {i : SlotId} (hr : resolve s p h = some i) : (slotAt s i).content ≠ .free :=
  (resolveAny_iff.1 (resolve_some.1 hr).1).2

theorem sideContent_of_resolve {i : SlotId} (hr : resolve s p x.handle = some i) :
    sideContent s p x = (slotAt s i).content := by rw [sideContent, hr]

theorem sideContent_free : sideContent s p x = .free ↔ resolve s p x.handle = none := by
  cases hr : resolve s p x.handle with
  | none => simp [sideContent, hr]
  | some i => simp [sideContent_of_resolve hr, content_of_resolve hr]

theorem sideHeld_iff {d : Claimed} : SideHeld s p x d ↔ (sideContent s p x).heldRecord = some d := by
  cases hr : resolve s p x.handle with
  | none => simp [SideHeld, sideContent, hr, Content.heldRecord]
  | some i => simp [SideHeld, sideContent_of_resolve hr, hr, held_iff]

theorem notHeldCode_of_held {d : Claimed} (h : SideHeld s p x d) : notHeldCode s p x = none := by
  obtain ⟨l, n, hc⟩ := heldRecord_eq_some.1 (sideHeld_iff.1 h)
  rw [notHeldCode, hc]

theorem sideModeOk_of_held {d : Claimed} (h : SideHeld s p x d) :
    sideModeOk s p x = true ↔ (x.isDst = true → d.mode = .exclusive) := by
  rw [sideModeOk, sideHeld_iff.1 h]
  cases x.isDst <;> simp

theorem sideInside_of_held {d : Claimed} (h : SideHeld s p x d) : sideInside s p x = true ↔ Inside x.range d.range := by
  rw [sideInside, sideHeld_iff.1 h, insideRange_iff]

theorem SideHeld.unique {d e : Claimed} (h : SideHeld s p x d) (h' : SideHeld s p x e) : d = e :=
  Option.some.inj ((sideHeld_iff.1 h).symm.trans (sideHeld_iff.1 h'))

end

/-! ### The checks of Table 46 in their order -/

section

variable {s : State} {p : Port} {sides : List Side}

theorem any_badRange : (sides.any fun x => !rangeOk x.range) = false ↔ ∀ x ∈ sides, WellFormed x.range := by
  simp only [List.any_eq_false, Bool.not_eq_true', Bool.not_eq_false, rangeOk_iff]

theorem any_stale : (sides.any fun x => sideContent s p x == .free) = false ↔ ∀ x ∈ sides, resolve s p x.handle ≠ none := by
  simp only [List.any_eq_false, beq_iff_eq, sideContent_free, ne_eq]

theorem any_badMode (hh : ∀ x ∈ sides, ∃ d, SideHeld s p x d) : (sides.any fun x => !sideModeOk s p x) = false ↔
    ∀ x ∈ sides, x.isDst = true → ∃ d, SideHeld s p x d ∧ d.mode = .exclusive := by
  simp only [List.any_eq_false, Bool.not_eq_true', Bool.not_eq_false]
  refine forall₂_congr fun x hx => ?_
  obtain ⟨d, hd⟩ := hh x hx
  rw [sideModeOk_of_held hd]
  exact imp_congr_right fun _ => ⟨fun h => ⟨d, hd, h⟩, fun ⟨e, he, h⟩ => hd.unique he ▸ h⟩

theorem any_outside (hh : ∀ x ∈ sides, ∃ d, SideHeld s p x d) : (sides.any fun x => !sideInside s p x) = false ↔
    ∀ x ∈ sides, ∃ d, SideHeld s p x d ∧ Inside x.range d.range := by
  simp only [List.any_eq_false, Bool.not_eq_true', Bool.not_eq_false]
  refine forall₂_congr fun x hx => ?_
  obtain ⟨d, hd⟩ := hh x hx
  rw [sideInside_of_held hd]
  exact ⟨fun h => ⟨d, hd, h⟩, fun ⟨e, he, h⟩ => hd.unique he ▸ h⟩

theorem admissionRefusal_badRange (h : ¬ ∀ x ∈ sides, WellFormed x.range) :
    admissionRefusal s p sides = some .badRange :=
  if_pos (by rwa [← any_badRange, Bool.not_eq_false] at h)

theorem admissionRefusal_busy (hr : ∀ x ∈ sides, WellFormed x.range) (h : s.job p ≠ none) :
    admissionRefusal s p sides = some .jobBusy := by
  rw [admissionRefusal, any_badRange.2 hr, if_neg (by decide), if_pos (Option.isSome_iff_ne_none.2 h)]

/-- R160: an idle port's job is refused at its handles, and after them at its records. -/
theorem admissionRefusal_idle (hr : ∀ x ∈ sides, WellFormed x.range) (hi : s.job p = none) :
    admissionRefusal s p sides = if sides.any fun x => sideContent s p x == .free then some .staleHandle
      else match sides.findSome? (notHeldCode s p) with
        | some code => some code
        | none =>
          if sides.any fun x => !sideModeOk s p x then some .badMode
          else if sides.any fun x => !sideInside s p x then some .badRange
          else if Config.outcomePlaces ≤ placesUsed s p then some .outcomesFull
          else none := by
  rw [admissionRefusal, any_badRange.2 hr, if_neg (by decide), hi, if_neg (by decide)] <;> rfl

theorem admissionRefusal_stale (hr : ∀ x ∈ sides, WellFormed x.range) (hi : s.job p = none)
    (h : ¬ ∀ x ∈ sides, resolve s p x.handle ≠ none) : admissionRefusal s p sides = some .staleHandle := by
  rw [admissionRefusal_idle hr hi]
  exact if_pos (by rwa [← any_stale, Bool.not_eq_false] at h)

/-- R160, step 5: the first named record that is not HELD gives the answer. -/
theorem admissionRefusal_notHeld (hr : ∀ x ∈ sides, WellFormed x.range) (hi : s.job p = none)
    (h : ∀ x ∈ sides, resolve s p x.handle ≠ none) {before after : List Side} {x : Side} {code : ResultCode}
    (hsplit : sides = before ++ x :: after) (hb : ∀ y ∈ before, ∃ d, SideHeld s p y d)
    (hx : notHeldCode s p x = some code) : admissionRefusal s p sides = some code := by
  have hfind : sides.findSome? (notHeldCode s p) = some code := by
    have hnone : before.findSome? (notHeldCode s p) = none :=
      List.findSome?_eq_none_iff.2 fun y hy => (hb y hy).elim fun _ hd => notHeldCode_of_held hd
    rw [hsplit, List.findSome?_append, hnone, List.findSome?_cons, hx]
    rfl
  rw [admissionRefusal_idle hr hi, any_stale.2 h, if_neg (by decide), hfind]

/-- R160: a job whose records are all HELD is refused by their modes, their ranges or the outcome places. -/
theorem admissionRefusal_held (hr : ∀ x ∈ sides, WellFormed x.range) (hi : s.job p = none)
    (hh : ∀ x ∈ sides, ∃ d, SideHeld s p x d) : admissionRefusal s p sides =
      if sides.any fun x => !sideModeOk s p x then some .badMode
      else if sides.any fun x => !sideInside s p x then some .badRange
      else if Config.outcomePlaces ≤ placesUsed s p then some .outcomesFull
      else none := by
  have hres : ∀ x ∈ sides, resolve s p x.handle ≠ none := fun x hx hn => by
    obtain ⟨d, i, hi, -⟩ := hh x hx
    rw [hn] at hi
    cases hi
  have hfind : sides.findSome? (notHeldCode s p) = none :=
    List.findSome?_eq_none_iff.2 fun x hx => (hh x hx).elim fun _ hd => notHeldCode_of_held hd
  rw [admissionRefusal_idle hr hi, any_stale.2 hres, if_neg (by decide), hfind]

end

/-! ### The commands -/

/-- The job that an admitted command would begin. -/
structure BeginsJob (c : Command) (p : Port) (tag : Byte) (args : List Byte) (sides : List Side) (j : Job) : Prop where
  takes : ∀ s, ownerTakes c p tag args s = admitJob s p sides j
  len   : lengthOk c args = true
  other : c ≠ .read ∧ c ≠ .write ∧ c ≠ .replay ∧ c ≠ .open_

theorem beginsJob_fill (p : Port) (tag : Byte) (a : FillArgs) : BeginsJob .fill p tag (fillBytes a)
    [⟨a.dst, ⟨a.first.toNat, a.count.toNat⟩, true⟩]
    { tag := tag, work := .fill a.dst a.first.toNat a.pattern, count := a.count.toNat, pagesDone := 0, stop := .none } where
  takes s := by simp only [ownerTakes, takeFill, fillArgs_fillBytes]
  len := rfl
  other := by decide

theorem beginsJob_copy (p : Port) (tag : Byte) (a : CopyArgs) : BeginsJob .copy p tag (copyBytes a)
    [⟨a.src, ⟨a.srcFirst.toNat, a.count.toNat⟩, false⟩, ⟨a.dst, ⟨a.dstFirst.toNat, a.count.toNat⟩, true⟩]
    { tag := tag, count := a.count.toNat, pagesDone := 0, stop := .none
      work := .copy a.src a.dst a.srcFirst.toNat a.dstFirst.toNat
        (copyDirection ⟨a.srcFirst.toNat, a.count.toNat⟩ ⟨a.dstFirst.toNat, a.count.toNat⟩) } where
  takes s := by simp only [ownerTakes, takeCopy, copyArgs_copyBytes]
  len := rfl
  other := by decide

theorem beginsJob_sum (p : Port) (tag : Byte) (a : SpanArgs) : BeginsJob .sum p tag (spanBytes a)
    [⟨a.handle, ⟨a.first.toNat, a.count.toNat⟩, false⟩]
    { tag := tag, work := .sum a.handle a.first.toNat checkStart, count := a.count.toNat, pagesDone := 0
      stop := .none } where
  takes s := by simp only [ownerTakes, takeSum, spanArgs_spanBytes]
  len := rfl
  other := by decide

theorem exists_beginsJob {c : Command} {f : Frame} {sides : List Side} (h : NamesSides c f sides) :
    ∃ j, BeginsJob c f.port f.tag f.args sides j := by
  rcases h with ⟨a, rfl, hargs, rfl⟩ | ⟨a, rfl, hargs, rfl⟩ | ⟨a, rfl, hargs, rfl⟩ <;> rw [hargs]
  · exact ⟨_, beginsJob_fill f.port f.tag a⟩
  · exact ⟨_, beginsJob_copy f.port f.tag a⟩
  · exact ⟨_, beginsJob_sum f.port f.tag a⟩

/-- A job that is not admitted is answered with the code of the first check that fails. -/
theorem answers_of_admissionRefusal {c : Command} {f : Frame} {s : State} {sides : List Side} {code : ResultCode}
    (ha : Admitted c f s) (hl : LinesAgree s) (hs : NamesSides c f sides)
    (h : admissionRefusal s f.port sides = some code) : Answers c f s code [] := by
  obtain ⟨j, hj⟩ := exists_beginsJob hs
  have h' : admissionRefusal (beginAnswer s f.port) f.port sides = some code := h
  exact answers_of_owner (a := { code := code }) ha hl hj.len hj.other (by rw [hj.takes, admitJob, h']; rfl)

end Sys2Proof.Machine

namespace Sys2Proof.Proofs

open Sys2Proof.Machine

/-- Settles O51: Table 46, check by check. -/
theorem jobRefusedInOrder : Obligations.JobRefusedInOrder := by
  intro s c f sides ha hl hs p ranges idle resolved held modes inside
  have answers {code : ResultCode} : admissionRefusal s p sides = some code → Answers c f s code [] :=
    answers_of_admissionRefusal ha hl hs
  refine ⟨fun h => ?_, fun hr h => ?_, fun hr hi h => ?_, fun hr hi h before x after i hsplit hb hx => ⟨fun d hc => ?_,
    fun d l e hc => ?_⟩, fun hr hi hh h => ?_, fun hr hi hh hm h => ?_, fun hr hi hh hm hin h => ?_⟩
  · exact answers (admissionRefusal_badRange h)
  · exact answers (admissionRefusal_busy hr h)
  · exact answers (admissionRefusal_stale hr hi h)
  · exact answers (admissionRefusal_notHeld hr hi h hsplit hb (by rw [notHeldCode, sideContent_of_resolve hx, hc]))
  · exact answers (admissionRefusal_notHeld hr hi h hsplit hb (by rw [notHeldCode, sideContent_of_resolve hx, hc]))
  · refine answers ((admissionRefusal_held hr hi hh).trans (if_pos ?_))
    exact Bool.eq_true_of_not_eq_false (mt (any_badMode hh).1 h)
  · refine answers ((admissionRefusal_held hr hi hh).trans ?_)
    rw [(any_badMode hh).2 hm, if_neg (by decide), if_pos]
    exact Bool.eq_true_of_not_eq_false (mt (any_outside hh).1 h)
  · refine answers ((admissionRefusal_held hr hi hh).trans ?_)
    rw [(any_badMode hh).2 hm, if_neg (by decide), (any_outside hh).2 hin, if_neg (by decide), if_pos h]

end Sys2Proof.Proofs
end


section
/-! PROOFS. The choice of the engine's next job, and the admission of a FILL, COPY or SUM (R150, R158, R160, R161,
R163). -/

namespace Sys2Proof.Machine

/-! ### The choice of the next job (R163) -/

/-- R150: a request that arrives touches nothing but the arbiter. -/
theorem arrive_eq (s : State) (us : List User) : arrive s us = { s with arbiter := (arrive s us).arbiter } := by
  rw [arrive]
  split
  · rfl
  · split <;> rfl

/-- R163: the choice of a job touches nothing but the arbiter and the engine's request and turn. -/
theorem chooseJob_eq (s : State) : ∃ a i q, chooseJob s =
    { s with arbiter := a, engine := { s.engine with inFlight := i, turn := q } } := by
  rw [chooseJob]
  split
  · rw [arrive_eq]
    exact ⟨_, _, _, rfl⟩
  · exact ⟨_, _, _, rfl⟩

theorem chooseJob_inFlight {s : State} (h : s.engine.inFlight ≠ none) : chooseJob s = s := by
  obtain ⟨p, hp⟩ := Option.ne_none_iff_exists'.1 h
  rw [chooseJob, hp]

theorem chooseJob_noJob {s : State} (h : ∀ q, s.job q = none) : chooseJob s = s := by
  have hnone : (portsFrom s.engine.turn).find? (fun p => (s.job p).isSome) = none :=
    List.find?_eq_none.2 fun q _ => by simp [h q]
  rw [chooseJob, hnone]
  split
  · next heq => cases heq
  · rfl

/-- R163: the first port in cyclic order from the turn on whose job is active. -/
theorem chooseJob_first {s : State} (hf : s.engine.inFlight = none) {before after : List Port} {q : Port}
    (hsplit : portsFrom s.engine.turn = before ++ q :: after) (hq : s.job q ≠ none)
    (hb : ∀ o ∈ before, s.job o = none) : chooseJob s =
      arrive { s with engine := { s.engine with inFlight := some q, turn := nextPort q } } [.engine] := by
  have hfind : (portsFrom s.engine.turn).find? (fun p => (s.job p).isSome) = some q :=
    List.find?_eq_some_iff_append.2 ⟨Option.isSome_iff_ne_none.2 hq, before, after, hsplit, fun o ho => by simp [hb o ho]⟩
  rw [chooseJob, hf, hfind]

theorem mem_portsFrom (p q : Port) : q ∈ portsFrom p := by cases p <;> cases q <;> decide

/-- R163: a port with the only job is chosen whoever's turn it is. -/
theorem chooseJob_only {s : State} (hf : s.engine.inFlight = none) {p : Port} (hp : s.job p ≠ none)
    (ho : ∀ q, q ≠ p → s.job q = none) : chooseJob s =
      arrive { s with engine := { s.engine with inFlight := some p, turn := nextPort p } } [.engine] := by
  obtain ⟨before, after, hsplit, hnot⟩ := List.eq_append_cons_of_mem (mem_portsFrom s.engine.turn p)
  exact chooseJob_first hf hsplit hp fun o h => ho o fun hop => hnot (hop ▸ h)

/-- R150: the engine's request is served at once or joins those that wait. -/
theorem arrive_engine (s : State) : let b := (arrive s [.engine]).arbiter
    b.serving = some .engine ∧ b.lastServed = .engine ∨
      b.serving = s.arbiter.serving ∧ b.waiting = { s.arbiter.waiting with engine := true } := by
  simp only
  rw [arrive, if_neg (by simp)]
  split
  · exact .inr ⟨rfl, rfl⟩
  · next hfree =>
    have hnone : ∀ u, s.arbiter.waiting.has u = false := by
      simp only [Bool.or_eq_true, not_or, Bool.not_eq_true] at hfree
      exact fun u => Bool.eq_false_iff.2 (List.any_eq_false.1 hfree.2 u (mem_usersAfter _ u))
    obtain ⟨before, after, hsplit, hnot⟩ :=
      List.eq_append_cons_of_mem (mem_usersAfter s.arbiter.lastServed .engine)
    obtain ⟨h1, h2, -⟩ := (servesNext_serveNext (joinWaiting s.arbiter [.engine])).next before .engine after hsplit rfl
      fun v hv => by
        have hne : v ≠ .engine := fun h => hnot (h ▸ hv)
        exact (has_put ..).trans ((if_neg hne).trans (hnone v))
    exact .inl ⟨h1, h2⟩

/-! ### Admission (R160, R161) -/

/-- R158: DOWNWARD exactly when the ranges overlap with the destination above the source. -/
theorem copyDirection_eq (a b n : Nat) :
    copyDirection ⟨a, n⟩ ⟨b, n⟩ = if a < b ∧ b < a + n then .downward else .upward := by
  rw [copyDirection]
  refine ite_congr (propext ?_) (fun _ => rfl) fun _ => rfl
  simp only [Bool.and_eq_true, overlaps_iff, Overlap, decide_eq_true_eq]
  omega

/-- R160: a side whose record is HELD with its range inside, EXCLUSIVE if the side is written. -/
def SideGood (s : State) (p : Port) (x : Side) : Prop :=
  WellFormed x.range ∧ ∃ i d, resolve s p x.handle = some i ∧ Held s i d ∧ Inside x.range d.range ∧
    (x.isDst = true → d.mode = .exclusive)

/-- R160: a job that meets the checks of Table 46 is admitted. -/
theorem admissionRefusal_eq_none {s : State} {p : Port} {sides : List Side} (hi : s.job p = none)
    (hf : placesUsed s p < 8) (h : ∀ x ∈ sides, SideGood s p x) : admissionRefusal s p sides = none := by
  have hheld : ∀ x ∈ sides, ∃ d, SideHeld s p x d ∧ Inside x.range d.range ∧ (x.isDst = true → d.mode = .exclusive) :=
    fun x hx => by
      obtain ⟨-, i, d, hr, hd, hin, hm⟩ := h x hx
      exact ⟨d, ⟨i, hr, hd⟩, hin, hm⟩
  have hh : ∀ x ∈ sides, ∃ d, SideHeld s p x d := fun x hx => (hheld x hx).imp fun _ hd => hd.1
  rw [admissionRefusal_held (fun x hx => (h x hx).1) hi hh,
    (any_badMode hh).2 fun x hx hdst => (hheld x hx).imp fun _ ⟨hd, _, hm⟩ => ⟨hd, hm hdst⟩, if_neg (by decide),
    (any_outside hh).2 fun x hx => (hheld x hx).imp fun _ ⟨hd, hin, _⟩ => ⟨hd, hin⟩, if_neg (by decide),
    if_neg (not_le.2 hf)]

/-- The job table and the port's own session context once a job is in the table with its place. -/
theorem job_reserve_setJob (s : State) (p q : Port) (j : Job) :
    (reservePlace (s.setJob p (some j)) p .job).job q = if q = p then some j else s.job q := by
  change (s.setJob p (some j)).job q = _
  split
  · next h => rw [h, State.job_setJob_same]
  · next h => exact State.job_setJob_other _ _ h

theorem board_replying_engine (s : State) (p : Port) (tag : Byte) (a : Answer) (b : Arbiter) (e : Engine) :
    board { replying s p tag a with arbiter := b, engine := e } = board { s with arbiter := b, engine := e } := rfl

end Sys2Proof.Machine

namespace Sys2Proof.Proofs

open Sys2Proof.Machine

/-- Settles O50: the job enters the table, its place is reserved, and the engine chooses. -/
theorem jobAdmitted : Obligations.JobAdmitted := by
  intro s c f job ha hl hidle hplaces h
  obtain ⟨sides, hgood, hjob⟩ : ∃ sides, (∀ x ∈ sides, SideGood s f.port x) ∧
      BeginsJob c f.port f.tag f.args sides job := by
    rcases h with ⟨a, rfl, hargs, ⟨hw, hd⟩, rfl⟩ | ⟨a, rfl, hargs, ⟨hw, hd⟩, ⟨hw', hd'⟩, rfl⟩ |
      ⟨a, rfl, hargs, ⟨hw, hd⟩, rfl⟩ <;> rw [hargs]
    · exact ⟨_, List.forall_mem_singleton.2 ⟨hw, hd⟩, beginsJob_fill ..⟩
    · rw [← copyDirection_eq]
      exact ⟨_, List.forall_mem_cons.2 ⟨⟨hw, hd⟩, List.forall_mem_singleton.2 ⟨hw', hd'⟩⟩, beginsJob_copy ..⟩
    · exact ⟨_, List.forall_mem_singleton.2 ⟨hw, hd⟩, beginsJob_sum ..⟩
  set p := f.port with hp
  set m := reservePlace ((beginAnswer s p).setJob p (some job)) p .job with hm
  have hadmit : ownerTakes c p f.tag f.args (beginAnswer s p) =
      (chooseJob m, { code := .pending, results := num1 (portNumber p) }) := by
    have hn : admissionRefusal (beginAnswer s p) p sides = none := admissionRefusal_eq_none hidle hplaces hgood
    rw [hjob.takes, admitJob, hn]
  have hmjob (q : Port) : m.job q = if q = p then some job else s.job q := job_reserve_setJob ..
  have hmses (q : Port) : m.session q = if q = p then
      { s.session q with reserved := (s.session q).reserved ++ [.job] } else s.session q := session_reservePlace ..
  obtain ⟨a, i, n, hx⟩ := chooseJob_eq m
  have hown : exec (rowOf c f) s = .next (replying (chooseJob m) p f.tag
      { code := .pending, results := num1 (portNumber p) }) := exec_admitted ha hjob.len hjob.other hadmit
  refine ⟨_, hown, ?_, fun q hq => ?_, ?_, ?_, ?_, ?_, fun hf => ?_, fun hf hall => ?_, ?_, ?_⟩
  · rw [replying_job, hx]
    exact (hmjob p).trans (if_pos rfl)
  · rw [replying_job, hx]
    exact (hmjob q).trans (if_neg hq)
  · rw [replying_session, hx]
    exact (hmses p).trans (if_pos rfl)
  · refine othersKept_replying _ _ hl (by rw [hx]; rfl) fun q hq => ?_
    rw [hx]
    exact ⟨(hmses q).trans (if_neg hq), port_beginAnswer_other s hq⟩
  · rw [replying_table, hx]; rfl
  · rw [replying_waitList, hx]; rfl
  · rw [replying_engine, replying_arbiter, chooseJob_inFlight (s := m) hf]
    exact ⟨rfl, rfl, rfl⟩
  · have hch := chooseJob_only (s := m) hf (p := p) (by rw [hmjob, if_pos rfl]; simp) fun q hq => by
      rw [hmjob, if_neg hq, hall]
    rw [replying_engine, replying_arbiter, hch]
    have ha := arrive_engine { m with engine := { m.engine with inFlight := some p, turn := nextPort p } }
    rw [arrive_eq]
    exact ⟨rfl, rfl, ha⟩
  · rw [board_replying_engine, hx]
    rfl
  · have hport : (chooseJob m).port p = { s.port p with sel := .answering, answer := none } := by
      rw [hx]
      exact port_beginAnswer_same s p
    exact replied_replying f.tag { code := .pending, results := num1 (portNumber p) } hport

end Sys2Proof.Proofs
end


section
/-! PROOFS. A page step at the arbiter: what it finds, what it transfers, and whom the engine and the arbiter serve next
(R150, R157 to R159, R163 to R165, R168, R169). -/

namespace Sys2Proof.Machine

/-! ### The record checks (R164, R165) -/

section

variable {s : State} {p : Port} {x : Side} {j : Job}

theorem goodRecord_iff {c : Claimed} : (insideRange x.range c.range && (!x.isDst || c.mode == .exclusive)) = true ↔
    Inside x.range c.range ∧ (x.isDst = true → c.mode = .exclusive) := by
  rw [Bool.and_eq_true, insideRange_iff]
  refine and_congr_right fun _ => ?_
  cases x.isDst <;> simp

theorem sideFailure_of_held {i : SlotId} {d : Claimed} (hr : resolve s p x.handle = some i) (hd : Held s i d) :
    sideFailure s p x =
      if insideRange x.range d.range && (!x.isDst || d.mode == .exclusive) then none else some .host := by
  obtain ⟨l, n, hc⟩ := hd
  rw [sideFailure, sideContent_of_resolve hr, hc]

/-- R165: the check of a record fails as Table 47 says. -/
theorem sideFailure_of_fails {cause : StopCause} (h : SideFails s p x cause) : sideFailure s p x = some cause := by
  rcases h with ⟨i, c, l, e, hr, hc, rfl⟩ | ⟨hr, rfl⟩ | ⟨i, d, hr, hd, hn, rfl⟩
  · rw [sideFailure, sideContent_of_resolve hr, hc]
    cases e <;> rfl
  · rw [sideFailure, sideContent_free.2 hr]
  · rw [sideFailure_of_held hr hd, if_neg (mt goodRecord_iff.1 hn)]

theorem sideFailure_eq_none : sideFailure s p x = none ↔ SidePasses s p x := by
  constructor
  · intro h
    cases hr : resolve s p x.handle with
    | none =>
      rw [sideFailure, sideContent_free.2 hr] at h
      cases h
    | some i =>
      have hc := sideContent_of_resolve hr
      cases hs : (slotAt s i).content with
      | free => exact absurd hs (content_of_resolve hr)
      | reserved d =>
        rw [sideFailure, hc, hs] at h
        cases h
      | lapsed d l e =>
        rw [sideFailure, hc, hs] at h
        cases e <;> cases h
      | held d l n =>
        have hd : Held s i d := ⟨l, n, hs⟩
        rw [sideFailure_of_held hr hd] at h
        obtain ⟨hin, hm⟩ := goodRecord_iff.1 (of_not_not fun hn => by rw [if_neg hn] at h; cases h)
        exact ⟨i, d, hr, hd, hin, hm⟩
  · rintro ⟨i, d, hr, hd, hg⟩
    rw [sideFailure_of_held hr hd, if_pos (goodRecord_iff.2 hg)]

theorem findSome_sideFailure : (jobSides j).findSome? (sideFailure s p) = none ↔ ∀ x ∈ jobSides j, SidePasses s p x :=
  List.findSome?_eq_none_iff.trans (forall₂_congr fun _ _ => sideFailure_eq_none)

theorem stepFinding_closed (h : j.stop = .closed) : stepFinding s p j = .closed := if_pos h

/-- R164, step 2: the first record that fails its check ends the job. -/
theorem stepFinding_fails (h : j.stop ≠ .closed) {before after : List Side} {cause : StopCause}
    (hsplit : jobSides j = before ++ x :: after) (hb : ∀ y ∈ before, SidePasses s p y) (hx : SideFails s p x cause) :
    stepFinding s p j = .stopped cause := by
  have hfind : (jobSides j).findSome? (sideFailure s p) = some cause := by
    rw [hsplit, List.findSome?_append, List.findSome?_eq_none_iff.2 fun y hy => sideFailure_eq_none.2 (hb y hy),
      List.findSome?_cons, sideFailure_of_fails hx]
    rfl
  rw [stepFinding, if_neg h, hfind]

/-- R164, steps 3 and 4: every record passes its check. -/
theorem stepFinding_passes (h : j.stop ≠ .closed) (hx : ∀ x ∈ jobSides j, SidePasses s p x) :
    stepFinding s p j = if j.stop = .host then .stopped .host else .transfer := by
  rw [stepFinding, if_neg h, findSome_sideFailure.2 hx]

theorem stepFinding_transfer : stepFinding s p j = .transfer ↔
    j.stop = .none ∧ ∀ x ∈ jobSides j, SidePasses s p x := by
  constructor
  · intro h
    have hclosed : j.stop ≠ .closed := fun hc => by
      rw [stepFinding_closed hc] at h
      cases h
    have hfind : (jobSides j).findSome? (sideFailure s p) = none := by
      rw [stepFinding, if_neg hclosed] at h
      split at h
      · cases h
      · assumption
    have hx := findSome_sideFailure.1 hfind
    rw [stepFinding_passes hclosed hx] at h
    refine ⟨?_, hx⟩
    cases hs : j.stop with
    | none => rfl
    | host =>
      rw [hs] at h
      cases h
    | closed => exact absurd hs hclosed
  · rintro ⟨hs, hx⟩
    rw [stepFinding_passes (by rw [hs]; decide) hx, hs]
    rfl

end

/-! ### The page that moves (R157 to R159) -/

theorem stepPage_eq_pageOf (j : Job) (first : Nat) : stepPage j first = pageOf j first := by
  unfold stepPage pageOf Work.direction
  cases j.work with
  | copy _ _ _ _ d => cases d <;> rfl
  | fill => rfl
  | sum => rfl

/-- R157 to R159: the array after the next step of a job whose ranges lie in the array. -/
theorem pageMoved_stepArray {m : Memory} (hm : Memory.wf m = true) {j : Job} (hd : j.pagesDone < j.count)
    (hs : ∀ x ∈ jobSides j, x.range.first + x.range.count ≤ 4096) : PageMoved j m (stepArray m j) := by
  have hlt {f : Nat} (h : f + j.count ≤ 4096) : pageOf j f < 4096 :=
    stepPage_eq_pageOf j f ▸ (stepPage_lt hd f).trans_le h
  unfold PageMoved stepArray
  unfold jobSides at hs
  cases hw : j.work with
  | fill dst f b =>
    rw [hw] at hs
    intro a
    have hf := hlt (hs ⟨dst, ⟨f, j.count⟩, true⟩ (List.mem_cons_self ..))
    simp only [stepPage_eq_pageOf, readByte_writePage hm hf (length_filledPage b)]
    refine ite_congr rfl (fun ha => ?_) fun _ => rfl
    exact List.getD_replicate _ (by show _ < 64; omega)
  | copy src dst f g d =>
    rw [hw] at hs
    intro a
    have hg := hlt (hs ⟨dst, ⟨g, j.count⟩, true⟩ (List.mem_cons_of_mem _ (List.mem_cons_self ..)))
    simp only [stepPage_eq_pageOf, readByte_writePage hm hg (length_readPage m _)]
    refine ite_congr rfl (fun ha => ?_) fun _ => rfl
    rw [readPage, getD_readBytes _ _ _ _ (by show _ < 64; omega), ← ha]
    exact congrArg _ (by omega)
  | sum => rfl

/-! ### The end of a service of the engine (R150, R163) -/

/-- What a page step leaves, when the service has left `m`. -/
structure StepLeft (s m t : State) : Prop where
  table    : t.table = m.table
  waitList : t.waitList = m.waitList
  sessions : t.sessions = m.sessions
  array    : t.array = m.array
  job      : ∀ q, t.job q = m.job q
  port     : ∀ q, t.port q = { m.port q with noticeLine := noticeDue t q }
  engine   : EngineChose m.engine.turn t
  arbiter  : ArbiterAfterStep s t
  board    : ∀ (b : Arbiter) (e : Engine) (a : Memory),
    board { t with array := a, arbiter := b, engine := e } = board { m with array := a, arbiter := b, engine := e }

theorem stepLeft_endEngineService {s m : State} (ha : m.arbiter = s.arbiter) (hv : s.arbiter.serving = some .engine) :
    StepLeft s m (settleNotices (endEngineService m)) := by
  set k : State := { m with engine := { m.engine with inFlight := none } } with hk
  obtain ⟨b, i, n, hx⟩ := chooseJob_eq k
  have hport (q : Port) : (endEngineService m).port q = m.port q := by
    rw [endEngineService, ← hk, hx]; rfl
  have hbusy : k.arbiter.serving ≠ none := by rw [hk]; simp [ha, hv]
  have hjob (q : Port) : (settleNotices (endEngineService m)).job q = m.job q := by
    rw [endEngineService, ← hk, hx]; rfl
  have hengine : (settleNotices (endEngineService m)).engine = (chooseJob k).engine := rfl
  have harbiter : (settleNotices (endEngineService m)).arbiter = serveNext (chooseJob k).arbiter := rfl
  have hchosen (before : List Port) (q : Port) (after : List Port) (hsplit : portsFrom m.engine.turn = before ++ q :: after)
      (hq : m.job q ≠ none) (hb : ∀ o ∈ before, m.job o = none) : chooseJob k =
        { k with engine := { k.engine with inFlight := some q, turn := nextPort q }
                 arbiter := joinWaiting m.arbiter [.engine] } := by
    rw [chooseJob_first (s := k) rfl hsplit hq hb]
    exact arrive_busy (List.cons_ne_nil _ _) hbusy
  refine ⟨?_, ?_, ?_, ?_, hjob, fun q => ?_, ⟨fun h => ?_, fun before q after hsplit hq hb => ?_⟩, ?_, fun b e a => ?_⟩
  · rw [endEngineService, ← hk, hx]; rfl
  · rw [endEngineService, ← hk, hx]; rfl
  · rw [endEngineService, ← hk, hx]; rfl
  · rw [endEngineService, ← hk, hx]; rfl
  · rw [port_settled, hport]
  · rw [hengine, chooseJob_noJob (s := k) fun q => (hjob q).symm.trans (h q)]
    exact ⟨rfl, rfl⟩
  · rw [hengine, hchosen before q after hsplit (hjob q ▸ hq) fun o ho => (hjob o).symm.trans (hb o ho)]
    exact ⟨rfl, rfl⟩
  · rw [ArbiterAfterStep, hengine, harbiter]
    by_cases hall : ∀ q, m.job q = none
    · rw [chooseJob_noJob (s := k) hall, hk, if_pos rfl, ← ha]
      exact servesNext_serveNext _
    · obtain ⟨q, before, after, hsplit, hq, hb⟩ : ∃ q before after, portsFrom m.engine.turn = before ++ q :: after ∧
          m.job q ≠ none ∧ ∀ o ∈ before, m.job o = none := by
        obtain ⟨q, hq⟩ := not_forall.1 hall
        obtain ⟨o, ho⟩ : ∃ o, (portsFrom m.engine.turn).find? (fun p => (m.job p).isSome) = some o := by
          rw [← Option.isSome_iff_exists, List.find?_isSome]
          exact ⟨q, mem_portsFrom .., Option.isSome_iff_ne_none.2 hq⟩
        obtain ⟨h1, before, after, hsplit, hb⟩ := List.find?_eq_some_iff_append.1 ho
        exact ⟨o, before, after, hsplit, Option.isSome_iff_ne_none.1 h1, fun x hx => by simpa using hb x hx⟩
      rw [hchosen before q after hsplit hq hb, if_neg (by simp), ← ha]
      exact servesNext_serveNext _
  · rw [endEngineService, ← hk, hx]; rfl

/-- R151, R164: the row of a page step of a port's job. -/
theorem exec_pageStep {s : State} {p : Port} {j : Job} (hv : s.arbiter.serving = some .engine)
    (hf : s.engine.inFlight = some p) (hj : s.job p = some j) (hin : stepOutside s p j = false) :
    exec .pageStep s = .next (settleNotices (endEngineService (servePageStep s p j))) := by
  have hserved : servedJob s = some (p, j) := by
    rw [servedJob, hv, hf]
    exact congrArg (Option.map fun j => (p, j)) hj
  refine (rfl : _ = execPageStep s).trans ?_
  rw [execPageStep, hserved]
  exact if_neg (by rw [hin]; decide)

theorem stepOutside_of_ne {s : State} {p : Port} {j : Job} (h : stepFinding s p j ≠ .transfer) :
    stepOutside s p j = false := by
  rw [stepOutside, beq_eq_false_iff_ne.2 h, Bool.false_and]

theorem stepJob_work (m : Memory) (j : Job) : (stepJob m j).work = match j.work with
    | .sum src f c => .sum src f (checkBytes c (readBytes m (64 * pageOf j f) 64))
    | w => w := by
  unfold stepJob
  simp only
  cases hw : j.work with
  | sum src f c => simp only [← stepPage_eq_pageOf]; rfl
  | fill => rfl
  | copy => rfl

theorem kind_stepJob (m : Memory) (j : Job) : (stepJob m j).work.kind = j.work.kind := by
  rw [stepJob_work]
  cases j.work <;> rfl

end Sys2Proof.Machine

namespace Sys2Proof.Proofs

open Sys2Proof.Machine

/-- Settles O52: the finding is to transfer, and the service then ends. -/
theorem pageStepTransfers : Obligations.PageStepTransfers := by
  intro s p j hv hf hj hstop hm hl hd hs work
  have hfind : stepFinding s p j = .transfer := stepFinding_transfer.2 ⟨hstop, fun x hx => (hs x hx).2⟩
  have hin : stepOutside s p j = false := stepOutside_eq_false ⟨hd, fun x hx => (hs x hx).1⟩
  have hmoved := pageMoved_stepArray hm hd fun x hx => (hs x hx).1
  have hwork : (stepJob s.array j).work = work := stepJob_work ..
  set a := stepArray s.array j with ha
  have hserve : servePageStep s p j = if j.pagesDone + 1 = j.count
      then endJob { s with array := a } p (stepJob s.array j) (.jobDone j.work.kind j.count (sumValue work))
      else State.setJob { s with array := a } p (some (stepJob s.array j)) := by
    rw [servePageStep, hfind]
    refine ite_congr rfl (fun hc => ?_) fun _ => rfl
    rw [kind_stepJob, hwork]
    exact congrArg (fun n => endJob _ p _ (.jobDone j.work.kind n (sumValue work))) hc
  rw [exec_pageStep hv hf hj hin]
  by_cases hc : j.pagesDone + 1 = j.count
  · rw [if_pos hc] at hserve
    obtain ⟨h1, h2, h3, h4, h5, h6, h7, h8, h9⟩ := stepLeft_endEngineService (s := s) (m := servePageStep s p j)
      (by rw [hserve]; rfl) hv
    rw [hserve] at h1 h2 h3 h4 h5 h6 h7 h8 h9 ⊢
    have hses (q : Port) := session_fillPlace (State.setJob { s with array := a } p none) p q .job
      { tag := j.tag, body := .jobDone j.work.kind j.count (sumValue work) }
    refine ⟨_, rfl, h1, h2, h4 ▸ hmoved, fun h => absurd hc h.ne, fun _ => ⟨?_, ?_⟩, fun q hq => ⟨?_, ?_⟩, h6, h7, h8, ?_⟩
    · exact (h5 p).trans (State.job_setJob_same _ _ _)
    · exact (congrArg (·.get p) h3).trans ((hses p).trans (if_pos rfl))
    · exact (h5 q).trans (State.job_setJob_other _ _ hq)
    · exact (congrArg (·.get q) h3).trans ((hses q).trans (if_neg hq))
    · exact h9 ..
  · rw [if_neg hc] at hserve
    obtain ⟨h1, h2, h3, h4, h5, h6, h7, h8, h9⟩ := stepLeft_endEngineService (s := s) (m := servePageStep s p j)
      (by rw [hserve]; rfl) hv
    rw [hserve] at h1 h2 h3 h4 h5 h6 h7 h8 h9 ⊢
    refine ⟨_, rfl, h1, h2, h4 ▸ hmoved, fun _ => ⟨?_, h3⟩, fun h => absurd h hc, fun q hq => ⟨?_, ?_⟩, h6, h7, h8, h9 ..⟩
    · refine (h5 p).trans ((State.job_setJob_same _ _ _).trans ?_)
      rw [← hwork]
      rfl
    · exact (h5 q).trans (State.job_setJob_other _ _ hq)
    · exact congrArg (·.get q) h3

/-- Settles O53: the finding is to stop, by the stop request or by the first record that fails its check. -/
theorem pageStepStops : Obligations.PageStepStops := by
  intro s p j hv hf hj ends stopped
  have leaves {m : State} {session : Session} (hfind : stepFinding s p j ≠ .transfer) (hm : servePageStep s p j = m)
      (hold : m.array = s.array ∧ m.table = s.table ∧ m.waitList = s.waitList ∧ m.ports = s.ports ∧
        m.engine.turn = s.engine.turn ∧ m.arbiter = s.arbiter)
      (hboard : ∀ b e a, board { m with array := a, arbiter := b, engine := e } =
        board { s with array := a, arbiter := b, engine := e })
      (hjob : m.job p = none ∧ ∀ q, q ≠ p → m.job q = s.job q)
      (hses : m.session p = session ∧ ∀ q, q ≠ p → m.session q = s.session q) : ends session := by
    obtain ⟨ha, ht, hw, hp, hturn, harb⟩ := hold
    obtain ⟨h1, h2, h3, h4, h5, h6, h7, h8, h9⟩ := stepLeft_endEngineService (s := s) (m := m) harb hv
    refine ⟨settleNotices (endEngineService m), ?_, (h5 p).trans hjob.1, ?_, h4.trans ha, h1.trans ht, h2.trans hw,
      fun q hq => ⟨(h5 q).trans (hjob.2 q hq), ?_⟩, fun q => ?_, hturn ▸ h7, h8, ?_⟩
    · rw [exec_pageStep hv hf hj (stepOutside_of_ne hfind), hm]
    · exact (congrArg (·.get p) h3).trans hses.1
    · exact (congrArg (·.get q) h3).trans (hses.2 q hq)
    · have hq : m.port q = s.port q := congrArg (·.get q) hp
      rw [← hq]
      exact h6 q
    · have := (h9 s.arbiter s.engine s.array).trans (hboard s.arbiter s.engine s.array)
      rw [← this, ← h4.trans ha]
  have stops {cause : StopCause} (hfind : stepFinding s p j = .stopped cause) : ends (stopped cause) := by
    have hses (q : Port) := session_fillPlace (s.setJob p none) p q .job
      { tag := j.tag, body := .jobStopped j.work.kind j.pagesDone cause (sumValue j.work) }
    refine leaves (by rw [hfind]; nofun) (m := endJob s p j (.jobStopped j.work.kind j.pagesDone cause (sumValue j.work)))
      (by rw [servePageStep, hfind]) ⟨rfl, rfl, rfl, rfl, rfl, rfl⟩ (fun _ _ _ => rfl) ⟨State.job_setJob_same _ _ _, fun q hq => State.job_setJob_other _ _ hq⟩
      ⟨(hses p).trans (if_pos rfl), fun q hq => (hses q).trans (if_neg hq)⟩
  refine ⟨fun h => ?_, fun h before x after cause hsplit hb hx => stops (stepFinding_fails h hsplit hb hx), fun h hx => ?_⟩
  · have hfind : stepFinding s p j = .closed := stepFinding_closed h
    refine leaves (by rw [hfind]; nofun) (m := reportJobEnded s p) (by rw [servePageStep, hfind])
      ⟨rfl, rfl, rfl, rfl, rfl, rfl⟩ (fun _ _ _ => rfl) ⟨State.job_setJob_same _ _ _, fun q hq => State.job_setJob_other _ _ hq⟩
      ⟨State.session_modSession_same _ _ _, fun q hq => State.session_modSession_other _ _ hq⟩
  · exact stops ((stepFinding_passes (by rw [h]; decide) hx).trans (if_pos h))

end Sys2Proof.Proofs
end


section
/-! PROOFS. Power-up, start-up clearing, pin reset and RESTART (R22, R71, R75, R105, R124, R125, R152 to R155, R172,
R184 to R186). -/

namespace Sys2Proof.Machine

/-! ### The service that a reset waits for (R155) -/

/-- R90: the session context admits a READ or WRITE exactly of an ATTACHED port. -/
theorem admission_access {s : State} {p : Port} (a : Access) :
    admission s p (accessCommand a) = none ↔ (s.session p).state = .attached := by
  have hc : accessCommand a ≠ .status ∧ accessCommand a ≠ .replay ∧ accessCommand a ≠ .ackErrors ∧
      accessCommand a ≠ .open_ := by cases a <;> decide
  obtain ⟨h1, h2, h3, h4⟩ := hc
  cases hs : (s.session p).state with
  | attached => simp [admission_attached hs h4]
  | closing => simp [admission_closing hs ⟨h1, h2, h3⟩]
  | detached => simp [admission_detached hs ⟨h1, h2, h3, h4⟩]

theorem arrayAfterService_idle {s : State} (h : s.arbiter.serving = none) : arrayAfterService s = s.array := by
  rw [arrayAfterService, h]

theorem arrayAfterService_port {s : State} {p : Port} {r : Request} (hv : s.arbiter.serving = some (.port p))
    (hr : (s.port p).request = some r) : arrayAfterService s =
      if (s.session p).state = .attached then (takeAccess r.access p r.args s).1.array else s.array := by
  simp only [arrayAfterService, hv, hr]
  by_cases hs : (s.session p).state = .attached
  · simp only [(admission_access r.access).2 hs, if_pos hs]
  · obtain ⟨code, hcode⟩ := Option.ne_none_iff_exists'.1 (mt (admission_access r.access).1 hs)
    simp only [hcode, if_neg hs]

theorem arrayAfterService_engine {s : State} {p : Port} {j : Job} (hv : s.arbiter.serving = some .engine)
    (hf : s.engine.inFlight = some p) (hj : s.job p = some j) :
    arrayAfterService s = if stepFinding s p j = .transfer then stepArray s.array j else s.array := by
  simp only [arrayAfterService, hv, servedJob, hf, hj, Option.map_some]

/-- R146: what the service of an access leaves of the array. -/
theorem array_takeAccess {s : State} {p : Port} {a : Access} {x : AccessArgs} :
    (a = .write → InArray x → CoveredAsRequired s p a x → (takeAccess a p (accessBytes x) s).1.array =
      writeBytes s.array x.address.toNat (x.data.take x.length.toNat)) ∧
    (¬ (a = .write ∧ InArray x ∧ CoveredAsRequired s p a x) → (takeAccess a p (accessBytes x) s).1.array = s.array) := by
  constructor
  · rintro rfl hi hc
    rw [takeAccess_inside hi, firstUncovered_none.2 hc]
  · intro h
    by_cases hi : InArray x
    · rw [takeAccess_inside hi]
      cases hu : firstUncovered s p a x.address.toNat x.length.toNat with
      | some page => rfl
      | none =>
        cases a with
        | read => rfl
        | write => exact absurd ⟨rfl, hi, firstUncovered_none.1 hu⟩ h
    · rw [takeAccess_outside hi]

/-- R155: the service in progress completes. -/
theorem serviceDone_arrayAfterService {s : State} (hm : Memory.wf s.array = true) :
    ServiceDone s (arrayAfterService s) where
  idle := arrayAfterService_idle
  access p a tag x cut hv hr := by
    rw [arrayAfterService_port hv hr]
    obtain ⟨hwrite, hkept⟩ := array_takeAccess (s := s) (p := p) (a := a) (x := x)
    constructor
    · intro ha hs hi hc hd
      rw [if_pos hs, hwrite ha hi hc]
      exact written_writeBytes hm hi hd
    · intro h
      split
      · next hs => exact hkept fun ⟨ha, hi, hc⟩ => h ⟨ha, hs, hi, hc⟩
      · rfl
  step p j hv hf hj hd hs := by
    rw [arrayAfterService_engine hv hf hj]
    constructor
    · intro hstop hx
      rw [if_pos (stepFinding_transfer.2 ⟨hstop, hx⟩)]
      exact pageMoved_stepArray hm hd hs
    · intro h
      refine if_neg fun ht => ?_
      obtain ⟨hstop, hx⟩ := stepFinding_transfer.1 ht
      rcases h with h | ⟨x, hmem, hn⟩
      · exact h hstop
      · exact hn (hx x hmem)

/-- R155: the level of a select line is nothing to the service. -/
theorem ServiceDone.of_lineHigh {s : State} {q : Port} {after : Memory} (h : ServiceDone (lineHigh s q) after) :
    ServiceDone s after where
  idle := h.idle
  access p a tag x cut hv hr := h.access p a tag x cut hv (by
    rw [← hr, lineHigh, State.port_modPort]
    split
    · next heq => rw [heq]
    · rfl)
  step := h.step

/-! ### What a reset leaves -/

theorem session_resetBlocks (s : State) (x : Params) (c : Clock) (p : Port) :
    (resetBlocks s x c).session p = Session.reset := by cases p <;> rfl

theorem port_resetBlocks (s : State) (x : Params) (c : Clock) (p : Port) :
    (resetBlocks s x c).port p = resetPort (s.port p) := PerPort.get_map ..

/-- R22, R105: the blocks after pin reset and RESTART, with the NOTICE lines in agreement. -/
theorem afterReset_settled {s m t : State} (ht : t.table = resetTable m.table ∧ t.waitList = [] ∧
    t.sessions = .all .reset ∧ t.ports = m.ports.map resetPort ∧ t.arbiter = .reset ∧ t.engine = .reset)
    (hflags : t.restartPending = false ∧ t.resetLow = false)
    (hs : m.table = s.table ∧ t.clearNext = s.clearNext ∧ t.pending = s.pending ∧ t.powerUps = s.powerUps) :
    AfterReset s (settleNotices t) ∧
      ∀ p, ((settleNotices t).port p).seenHigh = (m.port p).seenHigh := by
  obtain ⟨htable, hwait, hsess, hports, harb, heng⟩ := ht
  have hsession (p : Port) : (settleNotices t).session p = Session.reset := by
    rw [State.session_settleNotices, State.session, hsess]
    cases p <;> rfl
  have hport (p : Port) : (settleNotices t).port p = { PortUnit.reset with seenHigh := (m.port p).seenHigh } := by
    rw [port_settled, noticeDue_of_maskNone (by rw [hsession]; rfl)]
    have : t.port p = resetPort (m.port p) := by rw [State.port, hports, PerPort.get_map]; rfl
    rw [this]
    rfl
  refine ⟨⟨fun i => ?_, hwait, hsession, fun p => ?_, harb, heng, hflags.1, hflags.2, hs.2.1, hs.2.2⟩, fun p => ?_⟩
  · have : slotAt (settleNotices t) i = resetSlot (slotAt m i) := by
      change slotAt t i = _
      simp [slotAt, htable, resetTable]
    rw [this, slotAt_eq_of_table hs.1, resetSlot]
    cases hc : (slotAt s i).content <;> simp
  · rw [hport]
  · rw [hport]

/-- R124: the port units while RESET_N is low. -/
theorem port_assertReset (s : State) (p : Port) : (settleNotices (assertReset s)).port p =
    { s.port p with sel := .idle, answer := none, request := none, deferred := [], noticeLine := false } := by
  have hlow : noticeDue (settleNotices (assertReset s)) p = false := Bool.and_false _
  have hport : (assertReset s).port p = abandonPort (s.port p) := PerPort.get_map ..
  rw [port_settled, hlow, hport]
  rfl

/-! ### RESTART (R184) -/

/-- R184: P0's deselection while a RESTART is pending is its taking hold. -/
theorem exec_deselection_restart {s : State} (hp : s.restartPending = true) (hr : s.resetLow = false) :
    ((s.port .p0).sel = .answering → exec (.deselectionAnswering .p0) s = exec .restartTakesHold s) ∧
    ((s.port .p0).sel = .spent → exec (.deselectionSpent .p0) s = exec .restartTakesHold s) := by
  have hheld : restartHeldBy s .p0 = true := by rw [restartHeldBy, hp]; rfl
  have hhold : exec .restartTakesHold s = .next (settleNotices (restartTakesHold (lineHigh s .p0))) :=
    congrArg Host.Outcome.next (if_pos (by rw [hp, hr]; rfl))
  constructor <;> intro hs <;> rw [hhold] <;> refine congrArg Host.Outcome.next ?_ <;>
    rw [if_pos ⟨hs, hr⟩, if_pos hheld]

end Sys2Proof.Machine

namespace Sys2Proof.Proofs

open Sys2Proof.Machine

/-- Settles O15: the state of a power-up, and the clearing of one page. -/
theorem powerUpAndClearing : Obligations.PowerUpAndClearing := by
  refine ⟨fun s => ?_, fun s hm => ⟨fun h => ?_, fun h => ?_⟩⟩
  · obtain ⟨t, ht⟩ : ∃ t, execPowerUp s = .next t := ⟨_, rfl⟩
    refine ⟨t, ht, slotAt_powerUp ht, waitList_powerUp ht, ?_⟩
    have hbytes (a : Nat) (ha : a < 262144) : readByte t.array a = Config.powerUpByte s.powerUps a := by
      have harray : t.array = cellsOf (Config.powerUpByte s.powerUps) := by
        simp only [execPowerUp, Host.Outcome.next.injEq] at ht
        rw [← ht]
      rw [harray]
      exact readByte_cellsOf _ ha
    cases ht
    refine ⟨rfl, rfl, rfl, rfl, fun p => ?_, rfl, rfl, rfl, fun p => ?_, fun p => ?_, rfl,
      hbytes, rfl, rfl, rfl⟩
    · cases p <;> rfl
    · cases p <;> rfl
    · cases p <;> rfl
  · refine congrArg Host.Outcome.next (if_neg ?_)
    exact fun hc => absurd h (not_le.2 (of_decide_eq_true hc))
  · have hclear : exec .startupClearPage s = .next (clearPage s) :=
      congrArg Host.Outcome.next (if_pos (decide_eq_true h))
    have hbytes (a : Nat) : readByte (writePage s.array s.clearNext (filledPage 0)) a =
        if a / 64 = s.clearNext then 0 else readByte s.array a := by
      rw [readByte_writePage hm h (length_filledPage 0)]
      exact ite_congr rfl (fun ha => List.getD_replicate _ (by show _ < 64; omega)) fun _ => rfl
    set s' : State := { s with array := writePage s.array s.clearNext (filledPage 0), clearNext := s.clearNext + 1 }
    by_cases hlast : s.clearNext < 4095
    · have hpage : clearPage s = s' := if_pos (decide_eq_true (Nat.succ_lt_succ hlast))
      rw [hclear, hpage]
      exact ⟨_, rfl, rfl, hbytes, fun _ => ⟨rfl, rfl⟩, fun he => absurd he hlast.ne, rfl, rfl, rfl, rfl, rfl⟩
    · have hpage : clearPage s = endClearing s' :=
        if_neg fun hc => hlast (Nat.lt_of_succ_lt_succ (of_decide_eq_true hc))
      rw [hclear, hpage]
      exact ⟨_, rfl, rfl, hbytes, fun he => absurd he hlast, fun _ => ⟨rfl, rfl⟩, rfl, rfl, rfl, rfl, rfl⟩

/-- Settles O16: RESET_N going low, and its release. -/
theorem pinReset : Obligations.PinReset := by
  refine ⟨fun s hr hm => ?_, fun s hr => ?_⟩
  · have hrow : exec .resetNAssert s = .next (settleNotices (assertReset s)) :=
      congrArg Host.Outcome.next (if_neg (by rw [hr]; decide))
    refine ⟨_, hrow, rfl, rfl, fun p => ⟨port_assertReset s p, rfl⟩, rfl, rfl, serviceDone_arrayAfterService hm, rfl, rfl,
      rfl, rfl, rfl, rfl, rfl, rfl, rfl, rfl, rfl⟩
  · have hrow : exec .resetNRelease s = .next (settleNotices (releaseReset s)) := congrArg Host.Outcome.next (if_pos hr)
    obtain ⟨hreset, hseen⟩ := afterReset_settled (s := s) (m := s) (t := releaseReset s) ⟨rfl, rfl, rfl, rfl, rfl, rfl⟩
      ⟨rfl, rfl⟩ ⟨rfl, rfl, rfl, rfl⟩
    exact ⟨_, hrow, hreset, rfl, rfl, rfl, hseen⟩

/-- Settles O17: RESTART as it is taken, and its taking hold at P0's deselection. -/
theorem restartTaken : Obligations.RestartTaken := by
  refine ⟨fun s f ha hargs hl => ?_, fun s hp hr => ?_⟩
  · have htake : ownerTakes .restart f.port f.tag f.args (beginAnswer s f.port) =
        ({ beginAnswer s f.port with restartPending := true }, { code := .ok }) := rfl
    have hrow := exec_admitted ha (by rw [hargs]; rfl) (by decide) htake
    refine ⟨_, hrow, rfl, rfl, ⟨rfl, rfl, rfl, ?_⟩, replied_replying f.tag { code := .ok } ?_⟩
    · exact othersKept_replying (s1 := { beginAnswer s f.port with restartPending := true }) f.tag { code := .ok } hl rfl
        fun q hq => ⟨rfl, port_beginAnswer_other s hq⟩
    · exact port_beginAnswer_same s f.port
  · obtain ⟨h1, h2⟩ := exec_deselection_restart hp hr
    have hrow : exec .restartTakesHold s = .next (settleNotices (restartTakesHold (lineHigh s .p0))) :=
      congrArg Host.Outcome.next (if_pos (by rw [hp, hr]; rfl))
    obtain ⟨hreset, hseen⟩ := afterReset_settled (s := s) (m := lineHigh s .p0) (t := restartTakesHold (lineHigh s .p0))
      ⟨rfl, rfl, rfl, rfl, rfl, rfl⟩ ⟨rfl, hr⟩ ⟨rfl, rfl, rfl, rfl⟩
    refine ⟨h1, h2, _, hrow, hreset, rfl, rfl, fun hm => ?_, fun hv => ?_, ?_, fun p hne => ?_⟩
    · exact (serviceDone_arrayAfterService (s := lineHigh s .p0) hm).of_lineHigh
    · exact arrayAfterService_idle (s := lineHigh s .p0) hv
    · rw [hseen, lineHigh, State.port_modPort_same]
    · rw [hseen, lineHigh, State.port_modPort_other _ _ hne]

end Sys2Proof.Proofs
end


section
/-! PROOFS. The warnings and the lapses of a lease tick, each as one pass over the slots (R78, R79). -/

namespace Sys2Proof.Machine

theorem any_congr_of_mem {α : Type} {l : List α} {f g : α → Bool} (h : ∀ a ∈ l, f a = g a) : l.any f = l.any g := by
  rw [Bool.eq_iff_iff, List.any_eq_true, List.any_eq_true]
  exact exists_congr fun a => and_congr_right fun ha => by rw [h a ha]

/-! ### Warnings (R78) -/

/-- R78: a slot after its record's warning, if it is to be warned by its holder's threshold. -/
def warnMark (threshold : Port → Nat) (x : Slot) : Slot :=
  match x.content with
  | .held c l n =>
    { x with content := .held c { l with
        warned := l.warned || decide (0 < threshold c.holder ∧ n = threshold c.holder) } n }
  | _ => x

/-- R78: a slot whose record is to be warned, of a port. -/
def warns (threshold : Port → Nat) (p : Port) (x : Slot) : Bool :=
  match x.content with
  | .held c l n => c.holder == p && !l.warned && decide (0 < threshold c.holder ∧ n = threshold c.holder)
  | _ => false

/-- R78: the warn threshold of each port. -/
def thresholds (s : State) (p : Port) : Nat := (s.session p).warnThreshold

theorem port_raiseLeaseLow (s : State) (p q : Port) : (raiseLeaseLow s p).port q = { s.port q with
    notices := { (s.port q).notices with leaseLow := (s.port q).notices.leaseLow || p == q } } := by
  rw [raiseLeaseLow, State.port_modPort]
  by_cases h : q = p
  · subst h; simp
  · simp [h, beq_eq_false_iff_ne.2 (Ne.symm h)]

/-- What warnings of some slots leave. -/
structure Warned (l : List SlotId) (s t : State) : Prop where
  slots    : ∀ j, slotAt t j = if j ∈ l then warnMark (thresholds s) (slotAt s j) else slotAt s j
  waitList : t.waitList = s.waitList
  sessions : t.sessions = s.sessions
  port     : ∀ p, t.port p = { s.port p with
    notices := { (s.port p).notices with
      leaseLow := (s.port p).notices.leaseLow || l.any fun j => warns (thresholds s) p (slotAt s j) } }

theorem warnDue_of_held {s : State} {i : SlotId} {c : Claimed} {l : Lease} {n : Nat}
    (hc : (slotAt s i).content = .held c l n) : warnDue s i = true ↔
      l.warned = false ∧ 0 < thresholds s c.holder ∧ n = thresholds s c.holder := by
  simp only [warnDue, hc, Bool.and_eq_true, decide_eq_true_eq, Bool.not_eq_true', thresholds]
  tauto

theorem warned_one (s : State) (i : SlotId) : Warned [i] s (warnSlot s i) := by
  have kept (h : warnMark (thresholds s) (slotAt s i) = slotAt s i)
      (hp : ∀ p, warns (thresholds s) p (slotAt s i) = false) : Warned [i] s s := by
    refine ⟨fun j => ?_, rfl, rfl, fun p => ?_⟩
    · by_cases hj : j = i
      · rw [if_pos (by simp [hj]), hj, h]
      · rw [if_neg (by simp [hj])]
    · simp [hp p]
  cases hc : (slotAt s i).content with
  | held c l n =>
    by_cases hd : warnDue s i = true
    · obtain ⟨hw, hthr⟩ := (warnDue_of_held hc).1 hd
      have hs : warnSlot s i = raiseLeaseLow (setContent s i (.held c { l with warned := true } n)) c.holder := by
        rw [warnSlot, if_pos hd, hc]
      rw [hs]
      refine ⟨fun j => ?_, rfl, rfl, fun p => ?_⟩
      · by_cases hj : j = i
        · subst hj
          rw [if_pos (List.mem_singleton_self _)]
          refine (slotAt_setContent_same ..).trans ?_
          simp only [warnMark, hc, decide_eq_true hthr, Bool.or_true]
        · rw [if_neg (by simp [hj])]
          exact slotAt_setContent_other s _ hj
      · have hwarns : warns (thresholds s) p (slotAt s i) = (c.holder == p) := by
          simp only [warns, hc, hw, decide_eq_true hthr, Bool.not_false, Bool.and_true]
        rw [port_raiseLeaseLow, List.any_cons, List.any_nil, Bool.or_false, hwarns]
        rfl
    · have hs : warnSlot s i = s := if_neg hd
      have hoff : l.warned = true ∨ ¬ (0 < thresholds s c.holder ∧ n = thresholds s c.holder) := by
        have := mt (warnDue_of_held hc).2 hd
        rw [not_and_or, Bool.not_eq_false] at this
        exact this
      rw [hs]
      refine kept ?_ fun p => ?_
      · have hkeep : (l.warned || decide (0 < thresholds s c.holder ∧ n = thresholds s c.holder)) = l.warned := by
          rcases hoff with h | h
          · rw [h, Bool.true_or]
          · rw [decide_eq_false h, Bool.or_false]
        simp only [warnMark, hc, hkeep]
        rw [← hc]
      · rcases hoff with h | h
        · simp [warns, hc, h]
        · simp only [warns, hc, decide_eq_false h, Bool.and_false]
  | _ =>
    have hs : warnSlot s i = s := if_neg (by simp [warnDue, hc])
    rw [hs]
    exact kept (by simp only [warnMark, hc]) fun p => by simp only [warns, hc]

theorem warned_foldl {l : List SlotId} (hn : l.Nodup) (s : State) : Warned l s (l.foldl warnSlot s) := by
  induction l generalizing s with
  | nil => exact ⟨fun _ => rfl, rfl, rfl, fun p => by simp⟩
  | cons i l ih =>
    obtain ⟨hi, hl⟩ := List.nodup_cons.1 hn
    obtain ⟨h1, h2, h3, h4⟩ := warned_one s i
    obtain ⟨k1, k2, k3, k4⟩ := ih hl (warnSlot s i)
    have hthr : thresholds (warnSlot s i) = thresholds s :=
      funext fun p => congrArg (fun x => (PerPort.get x p).warnThreshold) h3
    have hkept (j : SlotId) (hj : j ∈ l) : slotAt (warnSlot s i) j = slotAt s j :=
      (h1 j).trans (if_neg fun h : j ∈ [i] => hi (List.mem_singleton.1 h ▸ hj))
    refine ⟨fun j => ?_, k2.trans h2, k3.trans h3, fun p => ?_⟩
    · rw [List.foldl_cons, k1, hthr]
      by_cases hj : j ∈ l
      · rw [if_pos hj, if_pos (List.mem_cons_of_mem _ hj), hkept j hj]
      · rw [if_neg hj, h1]
        exact ite_congr (propext (by simp [hj])) (fun _ => rfl) fun _ => rfl
    · have hany : (l.any fun j => warns (thresholds s) p (slotAt (warnSlot s i) j)) =
          l.any fun j => warns (thresholds s) p (slotAt s j) :=
        any_congr_of_mem fun j hj => by rw [hkept j hj]
      rw [List.foldl_cons, k4, h4, hthr, hany]
      simp only [List.any_cons, List.any_nil, Bool.or_false, Bool.or_assoc]

/-! ### Lapses (R79) -/

/-- R79: a slot after its record has lapsed, if its remaining is 0. -/
def lapseMark (x : Slot) : Slot :=
  match x.content with
  | .held c l 0 => { x with content := .lapsed c l .expired }
  | _ => x

/-- R79: a slot whose record lapses, of a port. -/
def lapsesOf (p : Port) (x : Slot) : Bool :=
  match x.content with
  | .held c _ 0 => c.holder == p
  | _ => false

/-- R79: the UPGRADE entries of a port whose records lapse, in the order of some slots. -/
def upgradeEnds (s : State) (l : List SlotId) (p : Port) : List WaitEntry :=
  (l.filter (lapseDue s)).flatMap fun i =>
    s.waitList.filter fun e => e.port == p && e.isUpgrade && e.ticket == slotHandle s i

/-- A session context whose entries have ended RECORD_ENDED, each in its reserved place (R69, R128). -/
def Session.recordsEnded (x : Session) (entries : List WaitEntry) : Session :=
  { x with
    reserved := placesWithout x.reserved entries
    held := x.held ++ entries.map fun e => { tag := e.tag, body := .ended .upgrade .recordEnded e.ticket } }

theorem Session.recordsEnded_append (x : Session) (a b : List WaitEntry) :
    (x.recordsEnded a).recordsEnded b = x.recordsEnded (a ++ b) := by
  simp only [Session.recordsEnded, placesWithout, List.foldl_append, List.map_append, List.append_assoc]

theorem Session.recordsEnded_nil (x : Session) : x.recordsEnded [] = x := by
  rw [Session.recordsEnded, List.map_nil, List.append_nil]
  rfl

/-- What the lapses of some slots leave. -/
structure Lapsed (l : List SlotId) (s t : State) : Prop where
  slots    : ∀ j, slotAt t j = if j ∈ l then lapseMark (slotAt s j) else slotAt s j
  waitList : t.waitList = s.waitList.filter fun e => !(l.any fun i => lapseDue s i && e.ticket == slotHandle s i)
  session  : ∀ p, t.session p = (s.session p).recordsEnded (upgradeEnds s l p)
  port     : ∀ p, t.port p = { s.port p with
    notices := { (s.port p).notices with
      leaseLost := (s.port p).notices.leaseLost || l.any fun j => lapsesOf p (slotAt s j) } }

theorem gen_lapseMark (x : Slot) : (lapseMark x).gen = x.gen := by
  unfold lapseMark
  split <;> rfl

theorem lapseDue_iff {s : State} {i : SlotId} : lapseDue s i = true ↔ ∃ c l, (slotAt s i).content = .held c l 0 := by
  unfold lapseDue
  split
  · next c l h => simp [h]
  · next h =>
    refine iff_of_false (by decide) ?_
    rintro ⟨c, l, hc⟩
    exact h c l hc

theorem slot_of_not_lapseDue {s : State} {i : SlotId} (h : lapseDue s i = false) :
    lapseMark (slotAt s i) = slotAt s i ∧ ∀ p, lapsesOf p (slotAt s i) = false := by
  unfold lapseMark lapsesOf
  split
  · next c l hc => exact absurd (lapseDue_iff.2 ⟨c, l, hc⟩) (by rw [h]; decide)
  · exact ⟨rfl, fun _ => rfl⟩

/-- R50: an entry with the handle of a HELD record is the upgrade of its holder. -/
theorem InStep.upgrade_of_held {s : State} (h : InStep s) {e : WaitEntry} (he : e ∈ s.waitList) {i : SlotId}
    (hi : e.ticket = slotHandle s i) {c : Claimed} {l : Lease} {n : Nat} (hc : (slotAt s i).content = .held c l n) :
    e.isUpgrade = true ∧ e.port = c.holder := by
  rcases h.content_of_ticket he hi with ⟨d, hd⟩ | ⟨hup, -⟩
  · rw [hc] at hd
    cases hd
  · obtain ⟨-, d, l', n', hd, hp, -⟩ := h.upgrade_content he (isUpgrade_iff.1 hup) hi
    rw [hc] at hd
    cases hd
    exact ⟨hup, hp.symm⟩

theorem lapsed_one {s : State} (h : InStep s) (i : SlotId) : Lapsed [i] s (lapseSlot s i) := by
  cases hd : lapseDue s i with
  | false =>
    obtain ⟨hmark, hport⟩ := slot_of_not_lapseDue hd
    rw [lapseSlot_of_not_due hd]
    refine ⟨fun j => ?_, ?_, fun p => ?_, fun p => ?_⟩
    · by_cases hj : j = i
      · rw [if_pos (by simp [hj]), hj, hmark]
      · rw [if_neg (by simp [hj])]
    · exact (List.filter_eq_self.2 fun e _ => by simp [hd]).symm
    · rw [upgradeEnds, List.filter_cons_of_neg (by simp [hd])]
      exact (Session.recordsEnded_nil _).symm
    · simp [hport p]
  | true =>
    obtain ⟨c, l, hc⟩ := lapseDue_iff.1 hd
    set m := raiseLeaseLost (setContent s i (.lapsed c l .expired)) c.holder with hm
    have hs : lapseSlot s i = endUpgradeOf m (slotHandle s i) := lapseSlot_of_due hc
    obtain ⟨hwait, hsess, hothers⟩ := endUpgradeOf_held (m := m) h rfl (fun q => rfl) hc
    have hfilter (p : Port) : upgradeEnds s [i] p =
        if p = c.holder then s.waitList.filter fun e => e.ticket == slotHandle s i else [] := by
      rw [upgradeEnds, List.filter_cons_of_pos hd, List.filter_nil, List.flatMap_cons, List.flatMap_nil, List.append_nil]
      split
      · next hp =>
        refine List.filter_congr fun e he => ?_
        by_cases ht : e.ticket = slotHandle s i
        · obtain ⟨hu, hport⟩ := h.upgrade_of_held he ht hc
          simp [hu, hport, hp]
        · simp [ht]
      · next hp =>
        refine List.filter_eq_nil_iff.2 fun e he hx => ?_
        simp only [Bool.and_eq_true, beq_iff_eq] at hx
        exact hp (hx.1.1.symm.trans (h.upgrade_of_held he hx.2 hc).2)
    rw [hs]
    refine ⟨fun j => ?_, ?_, fun p => ?_, fun p => ?_⟩
    · rw [slotAt_eq_of_table (table_endUpgradeOf m _)]
      by_cases hj : j = i
      · subst hj
        rw [if_pos (List.mem_singleton_self _)]
        refine (slotAt_setContent_same ..).trans ?_
        simp only [lapseMark, hc]
      · rw [if_neg (by simp [hj])]
        exact slotAt_setContent_other s _ hj
    · rw [hwait]
      exact List.filter_congr fun e _ => by simp [hd]
    · rw [hfilter]
      split
      · next hp =>
        subst hp
        rw [hsess]
        rw [Session.ended, Session.recordsEnded, List.map_congr_left fun e he => ?_]
        rw [beq_iff_eq.1 (List.mem_filter.1 he).2]
      · next hp =>
        rw [hothers p hp, Session.recordsEnded_nil]
    · have hl : lapsesOf p (slotAt s i) = (c.holder == p) := by simp only [lapsesOf, hc]
      rw [port_endUpgradeOf, hm, port_raiseLeaseLost, List.any_cons, List.any_nil, Bool.or_false, hl]
      have : (setContent s i (.lapsed c l .expired)).port p = s.port p := rfl
      rw [this]
      by_cases hp : p = c.holder
      · subst hp; simp
      · simp [hp, beq_eq_false_iff_ne.2 (Ne.symm hp)]

/-- The lapse of one slot leaves what the lapses of others turn on. -/
theorem Lapsed.kept {s t : State} {i j : SlotId} (h : Lapsed [i] s t) (hj : j ≠ i) :
    slotAt t j = slotAt s j ∧ lapseDue t j = lapseDue s j ∧ slotHandle t j = slotHandle s j ∧
      t.waitList.filter (fun e => e.ticket == slotHandle s j) = s.waitList.filter fun e => e.ticket == slotHandle s j := by
  have hslot : slotAt t j = slotAt s j := (h.slots j).trans (if_neg (by simp [hj]))
  refine ⟨hslot, by simp only [lapseDue, hslot], slotHandle_of_gen (by rw [hslot]), ?_⟩
  rw [h.waitList, List.filter_filter]
  refine List.filter_congr fun e _ => ?_
  by_cases ht : e.ticket = slotHandle s j
  · have hne : e.ticket ≠ slotHandle s i := fun he => hj (slotHandle_inj (ht.symm.trans he))
    simp [hne]
  · simp [ht]

theorem lapsed_foldl {l : List SlotId} (hn : l.Nodup) {s : State} (h : InStep s) :
    Lapsed l s (l.foldl lapseSlot s) ∧ InStep (l.foldl lapseSlot s) := by
  induction l generalizing s with
  | nil =>
    refine ⟨⟨fun _ => rfl, ?_, fun p => (Session.recordsEnded_nil _).symm, fun p => by simp⟩, h⟩
    exact (List.filter_eq_self.2 fun _ _ => rfl).symm
  | cons i l ih =>
    obtain ⟨hi, hl⟩ := List.nodup_cons.1 hn
    have one := lapsed_one h i
    obtain ⟨k, hin⟩ := ih hl (s := lapseSlot s i) ((shrinks_lapseSlot h i).inStep h)
    have hkept (j : SlotId) (hj : j ∈ l) := one.kept (j := j) fun h => hi (h ▸ hj)
    refine ⟨⟨fun j => ?_, ?_, fun p => ?_, fun p => ?_⟩, hin⟩
    · rw [List.foldl_cons, k.slots]
      by_cases hj : j ∈ l
      · rw [if_pos hj, if_pos (List.mem_cons_of_mem _ hj), (hkept j hj).1]
      · rw [if_neg hj, one.slots]
        exact ite_congr (propext (by simp [hj])) (fun _ => rfl) fun _ => rfl
    · rw [List.foldl_cons, k.waitList, one.waitList, List.filter_filter]
      refine List.filter_congr fun e _ => ?_
      have hany : (l.any fun j => lapseDue (lapseSlot s i) j && e.ticket == slotHandle (lapseSlot s i) j) =
          l.any fun j => lapseDue s j && e.ticket == slotHandle s j :=
        any_congr_of_mem fun j hj => by rw [(hkept j hj).2.1, (hkept j hj).2.2.1]
      rw [hany]
      simp only [List.any_cons, List.any_nil, Bool.or_false, Bool.not_or, Bool.and_comm]
    · have hends : upgradeEnds (lapseSlot s i) l p = upgradeEnds s l p := by
        rw [upgradeEnds, upgradeEnds, List.filter_congr fun j hj => (hkept j hj).2.1]
        refine List.flatMap_congr fun j hj => ?_
        obtain ⟨-, -, hh, hf⟩ := hkept j (List.mem_of_mem_filter hj)
        rw [hh, ← List.filter_filter, hf, List.filter_filter]
      rw [List.foldl_cons, k.session, one.session, Session.recordsEnded_append, hends]
      refine congrArg _ ?_
      rw [upgradeEnds, upgradeEnds, upgradeEnds, ← List.flatMap_append, ← List.filter_append]
      rfl
    · have hany : (l.any fun j => lapsesOf p (slotAt (lapseSlot s i) j)) = l.any fun j => lapsesOf p (slotAt s j) :=
        any_congr_of_mem fun j hj => by rw [(hkept j hj).1]
      rw [List.foldl_cons, k.port, one.port, hany]
      simp only [List.any_cons, List.any_nil, Bool.or_false, Bool.or_assoc]

end Sys2Proof.Machine
end


section
/-! PROOFS. One lease tick: the expiry of waits as one pass over the list, and the five steps together (R65, R72, R76 to
R81). -/

namespace Sys2Proof.Machine

/-! ### Wait expiry (R65, R80) -/

/-- A session context whose entries have timed out, each in its reserved place, with the slots of CLAIMs freed. -/
def Session.timedOut (x : Session) (entries : List WaitEntry) : Session :=
  { x with
    reserved := placesWithout x.reserved entries
    held := x.held ++ entries.map fun e => { tag := e.tag, body := .ended e.waitKind .timedOut e.ticket }
    usage := x.usage - (entries.filter fun e => !e.isUpgrade).length }

theorem Session.timedOut_append (x : Session) (a b : List WaitEntry) :
    (x.timedOut a).timedOut b = x.timedOut (a ++ b) := by
  simp only [Session.timedOut, placesWithout, List.foldl_append, List.map_append, List.append_assoc, List.filter_append,
    List.length_append, Nat.sub_sub]

theorem Session.timedOut_nil (x : Session) : x.timedOut [] = x := by
  rw [Session.timedOut, List.map_nil, List.append_nil]
  rfl

/-- What the expiry of some entries leaves, oldest first. -/
structure Expired (entries : List WaitEntry) (s t : State) : Prop where
  waitList : t.waitList = s.waitList.filter fun e => decide (e ∉ entries)
  freed    : ∀ e ∈ entries, e.isUpgrade = false → ∀ i, e.ticket = slotHandle s i →
    slotAt t i = { gen := nextGen (slotAt s i).gen, content := .free }
  kept     : ∀ i, (∀ e ∈ entries, e.isUpgrade = false → e.ticket ≠ slotHandle s i) → slotAt t i = slotAt s i
  session  : ∀ p, t.session p = (s.session p).timedOut (entries.filter fun e => e.port == p)
  ports    : t.ports = s.ports

theorem Dropped.timedOut {s t : State} {e : WaitEntry} {i : SlotId} (d : Dropped s e .timedOut i t) (p : Port) :
    t.session p = (s.session p).timedOut ([e].filter fun e => e.port == p) := by
  by_cases hp : e.port = p
  · subst hp
    rw [d.session, List.filter_cons_of_pos (by simp), List.filter_nil, Session.timedOut]
    cases hu : e.isUpgrade <;> simp [hu, placesWithout]
  · rw [d.sessions p (Ne.symm hp), List.filter_cons_of_neg (by simpa using hp), List.filter_nil, Session.timedOut_nil]

theorem expired_foldl {entries : List WaitEntry} (hn : entries.Nodup) {s : State} (h : InStep s)
    (hl : ∀ e ∈ entries, e ∈ s.waitList) :
    Expired entries s (entries.foldl expireEntry s) ∧ InStep (entries.foldl expireEntry s) := by
  induction entries generalizing s with
  | nil =>
    exact ⟨⟨(List.filter_eq_self.2 fun _ _ => rfl).symm, nofun, fun _ _ => rfl, fun p => (Session.timedOut_nil _).symm, rfl⟩,
      h⟩
  | cons e l ih =>
    obtain ⟨hnot, hn⟩ := List.nodup_cons.1 hn
    obtain ⟨he, hl⟩ := List.forall_mem_cons.1 hl
    obtain ⟨i, hi⟩ := h.slotOf he
    have d : Dropped s e .timedOut i (expireEntry s e) := dropped_dropEntry h he .timedOut hi
    have hin : InStep (expireEntry s e) := (shrinks_dropEntry h he .timedOut).inStep h
    have hmem (o : WaitEntry) (ho : o ∈ l) : o ∈ (expireEntry s e).waitList := by
      rw [d.waitList]
      exact (List.mem_erase_of_ne fun heq : o = e => hnot (heq ▸ ho)).2 (hl o ho)
    have hother {o : WaitEntry} (ho : o ∈ l) {j : SlotId} (hj : o.ticket = slotHandle s j) : j ≠ i := fun hji =>
      hnot (h.entry_eq (hl o ho) he (by rw [hj, hi, hji]) ▸ ho)
    obtain ⟨k, hk⟩ := ih hn hin hmem
    have hslot {j : SlotId} (hj : j ≠ i) : slotAt (expireEntry s e) j = slotAt s j := d.others j hj
    have hhandle {j : SlotId} (hj : j ≠ i) : slotHandle (expireEntry s e) j = slotHandle s j :=
      slotHandle_of_gen (by rw [hslot hj])
    refine ⟨⟨?_, fun o ho hu j hj => ?_, fun j hj => ?_, fun p => ?_, ?_⟩, hk⟩
    · rw [List.foldl_cons, k.waitList, d.waitList, h.nodup.erase_eq_filter, List.filter_filter]
      refine List.filter_congr fun o _ => ?_
      rw [Bool.eq_iff_iff]
      simp only [Bool.and_eq_true, decide_eq_true_eq, bne_iff_ne, List.mem_cons, not_or, and_comm]
    · rcases List.mem_cons.1 ho with rfl | ho
      · obtain rfl : j = i := slotHandle_inj (hj.symm.trans hi)
        have hfree : slotAt (expireEntry s o) j = { gen := nextGen (slotAt s j).gen, content := .free } := by
          rw [d.slot, hu]
          rfl
        rw [List.foldl_cons, k.kept j fun x hx _ => hin.unnamed_free (by rw [hfree]) x (hmem x hx), hfree]
      · have hne := hother ho hj
        rw [List.foldl_cons, k.freed o ho hu j (hj.trans (hhandle hne).symm), hslot hne]
    · by_cases hji : j = i
      · subst hji
        have hu : e.isUpgrade = true := by
          by_contra hf
          exact hj e (List.mem_cons_self ..) (Bool.eq_false_of_not_eq_true hf) hi
        have hsame : slotAt (expireEntry s e) j = slotAt s j := by rw [d.slot, if_pos hu]
        have hh : slotHandle (expireEntry s e) j = slotHandle s j := slotHandle_of_gen (by rw [hsame])
        rw [List.foldl_cons, k.kept j fun x hx hux => by rw [hh]; exact hj x (List.mem_cons_of_mem _ hx) hux, hsame]
      · rw [List.foldl_cons, k.kept j fun x hx hux => by
          rw [hhandle hji]
          exact hj x (List.mem_cons_of_mem _ hx) hux, hslot hji]
    · rw [List.foldl_cons, k.session, d.timedOut, Session.timedOut_append, ← List.filter_append]
      rfl
    · rw [List.foldl_cons, k.ports, d.ports]

/-! ### The steps of a tick together (R76) -/

/-- R77, R78: the part after the first two steps of a tick. -/
def counted (s : State) : State := warnings (countdown s)

/-- R65: an entry with one tick less to wait. -/
def waitedOn (e : WaitEntry) : WaitEntry := { e with waitRemaining := e.waitRemaining - 1 }

theorem waitList_countWaits (s : State) : (countWaits s).waitList = s.waitList.map waitedOn := rfl

theorem waitedOn_over (e : WaitEntry) : decide ((waitedOn e).waitRemaining = 0) = decide (e.waitRemaining ≤ 1) :=
  decide_eq_decide.2 (show e.waitRemaining - 1 = 0 ↔ _ by omega)

theorem waitedOn_stays (e : WaitEntry) : (!decide ((waitedOn e).waitRemaining = 0)) = decide (2 ≤ e.waitRemaining) := by
  rw [waitedOn_over, ← decide_not]
  exact decide_eq_decide.2 (by omega)

/-- R76: the part after the first four steps of a tick. -/
def tickedBeforeScan (s : State) : State := waitExpiries (lapses (counted s))

section

variable (s : State)

theorem warned_counted : Warned allSlots (countdown s) (counted s) := warned_foldl (List.nodup_finRange 128) _

theorem slotAt_counted (i : SlotId) : slotAt (counted s) i = warnMark (thresholds s) (countdownSlot (slotAt s i)) := by
  rw [(warned_counted s).slots, if_pos (mem_allSlots i), slotAt_countdown]
  rfl

theorem slotAt_counted_held {i : SlotId} {c : Claimed} {l : Lease} {n : Nat} (hc : (slotAt s i).content = .held c l n) :
    slotAt (counted s) i = { gen := (slotAt s i).gen, content := .held c { l with
      warned := l.warned || decide (0 < thresholds s c.holder ∧ n - 1 = thresholds s c.holder) } (n - 1) } := by
  simp only [slotAt_counted, countdownSlot, hc, warnMark]

theorem slotAt_counted_other {i : SlotId} (hc : (slotAt s i).content.heldRecord = none) :
    slotAt (counted s) i = slotAt s i := by
  have hcount : countdownSlot (slotAt s i) = slotAt s i := by
    unfold countdownSlot
    split
    · next h => rw [h] at hc; cases hc
    · rfl
  rw [slotAt_counted, hcount]
  unfold warnMark
  split
  · next h => rw [h] at hc; cases hc
  · rfl

theorem gen_counted (i : SlotId) : (slotAt (counted s) i).gen = (slotAt s i).gen := by
  cases hc : (slotAt s i).content with
  | held c l n => rw [slotAt_counted_held s hc]
  | _ => rw [slotAt_counted_other s (by rw [hc]; rfl)]

theorem slotHandle_counted (i : SlotId) : slotHandle (counted s) i = slotHandle s i := slotHandle_of_gen (gen_counted s i)

theorem waitList_counted : (counted s).waitList = s.waitList := (warned_counted s).waitList

theorem session_counted (p : Port) : (counted s).session p = s.session p :=
  congrArg (PerPort.get · p) (warned_counted s).sessions

theorem lapseDue_counted (i : SlotId) : lapseDue (counted s) i = lastTick s i := by
  rw [Bool.eq_iff_iff, lapseDue_iff]
  cases hc : (slotAt s i).content with
  | held c l n =>
    rw [slotAt_counted_held s hc]
    simp only [lastTick, hc, decide_eq_true_eq, Content.held.injEq, exists_and_left]
    constructor
    · rintro ⟨_, _, _, hn⟩
      omega
    · intro hn
      exact ⟨c, rfl, _, rfl, by omega⟩
  | _ =>
    rw [slotAt_counted_other s (by rw [hc]; rfl)]
    simp [hc, lastTick]

theorem upgradeEnds_counted (p : Port) : upgradeEnds (counted s) allSlots p = recordEnds s p := by
  rw [upgradeEnds, recordEnds, waitList_counted, List.filter_congr fun i _ => lapseDue_counted s i]
  exact List.flatMap_congr fun i _ => by rw [slotHandle_counted]

end

section

variable {s : State} (h : InStep s)

include h

theorem inStep_counted : InStep (counted s) := by
  obtain ⟨h1, h2⟩ := counted_leases s
  exact (shrinks_of_leases h1 h2).inStep h

theorem lapsed_lapses : Lapsed allSlots (counted s) (lapses (counted s)) ∧ InStep (lapses (counted s)) :=
  lapsed_foldl (List.nodup_finRange 128) (inStep_counted h)

/-- R79: the entries that end with their records. -/
theorem mem_recordEnds {e : WaitEntry} (he : e ∈ s.waitList) : e ∈ recordEnds s e.port ↔
    ∃ i, lastTick s i = true ∧ e.ticket = slotHandle s i := by
  simp only [recordEnds, List.mem_flatMap, List.mem_filter, mem_allSlots, true_and, he, Bool.and_eq_true, beq_self_eq_true,
    beq_iff_eq]
  refine exists_congr fun i => and_congr_right fun hi => and_iff_right_of_imp fun ht => ?_
  cases hc : (slotAt s i).content with
  | held c l n => exact (h.upgrade_of_held he ht hc).1
  | _ => simp [lastTick, hc] at hi

theorem waitList_lapses : (lapses (counted s)).waitList =
    s.waitList.filter fun e => !(recordEnds s e.port).contains e := by
  rw [(lapsed_lapses h).1.waitList, waitList_counted]
  refine List.filter_congr fun e he => congrArg (!·) ?_
  rw [Bool.eq_iff_iff, List.contains_iff_mem, mem_recordEnds h he, List.any_eq_true]
  simp only [mem_allSlots, true_and, lapseDue_counted, slotHandle_counted, Bool.and_eq_true, beq_iff_eq]

theorem waitList_counting : (countWaits (lapses (counted s))).waitList =
    (s.waitList.filter fun e => !(recordEnds s e.port).contains e).map waitedOn :=
  (waitList_countWaits _).trans (congrArg _ (waitList_lapses h))

/-- R65, R80: the entries that time out, as their ports' lists give them. -/
theorem expiredEntries_counting (p : Port) :
    (expiredEntries (countWaits (lapses (counted s)))).filter (fun e => e.port == p) = (timeOuts s p).map waitedOn := by
  rw [expiredEntries, waitList_counting h, List.filter_map, List.filter_map, List.filter_filter, List.filter_filter, timeOuts]
  refine congrArg _ (List.filter_congr fun e _ => ?_)
  have hport : (waitedOn e).port = e.port := rfl
  simp only [Function.comp, waitedOn_over, hport]
  by_cases hp : e.port = p
  · rw [hp, beq_self_eq_true, Bool.true_and]
  · rw [beq_eq_false_iff_ne.2 hp, Bool.false_and, Bool.false_and, Bool.false_and]

theorem expired_counting : Expired (expiredEntries (countWaits (lapses (counted s)))) (countWaits (lapses (counted s)))
    (tickedBeforeScan s) ∧ InStep (tickedBeforeScan s) :=
  expired_foldl ((inStep_countWaits (lapsed_lapses h).2).nodup.sublist List.filter_sublist)
    (inStep_countWaits (lapsed_lapses h).2) fun _ he => List.mem_of_mem_filter he

theorem waitList_ticked : (tickedBeforeScan s).waitList =
    (s.waitList.filter fun e => decide (2 ≤ e.waitRemaining) && !(recordEnds s e.port).contains e).map waitedOn := by
  have hstay : (tickedBeforeScan s).waitList =
      (countWaits (lapses (counted s))).waitList.filter fun e => !decide (e.waitRemaining = 0) := by
    rw [(expired_counting h).1.waitList]
    refine List.filter_congr fun e he => ?_
    rw [Bool.eq_iff_iff]
    simp [expiredEntries, he]
  rw [hstay, waitList_counting h, List.filter_map, List.filter_filter]
  exact congrArg _ (List.filter_congr fun e _ => congrArg (· && _) (waitedOn_stays e))

end

end Sys2Proof.Machine
end


section
/-! PROOFS. One lease tick, from the record count to the grant scan (R72, R76 to R81). -/

namespace Sys2Proof.Machine

theorem placesWithout_waitedOn (r : List Reservation) (l : List WaitEntry) :
    placesWithout r (l.map waitedOn) = placesWithout r l := List.foldl_map

theorem timedOut_waitedOn (x : Session) (l : List WaitEntry) : x.timedOut (l.map waitedOn) = x.timedOut l := by
  rw [Session.timedOut, placesWithout_waitedOn, List.map_map, List.filter_map, List.length_map]
  rfl

section

variable (s : State)

theorem session_countWaits (p : Port) : (countWaits s).session p = s.session p := rfl
theorem port_countWaits (p : Port) : (countWaits s).port p = s.port p := rfl
theorem slotAt_countWaits (i : SlotId) : slotAt (countWaits s) i = slotAt s i := rfl

end

theorem port_of_ports {s t : State} (h : t.ports = s.ports) (p : Port) : t.port p = s.port p :=
  congrArg (PerPort.get · p) h

theorem session_ticked {s : State} (h : InStep s) (p : Port) : (tickedBeforeScan s).session p =
    ((s.session p).recordsEnded (recordEnds s p)).timedOut (timeOuts s p) := by
  rw [(expired_counting h).1.session, expiredEntries_counting h, timedOut_waitedOn, session_countWaits,
    (lapsed_lapses h).1.session, upgradeEnds_counted, session_counted]

/-- R76, steps 1 to 4: the slot of no CLAIM that times out. -/
theorem slotAt_ticked_kept {s : State} (h : InStep s) {i : SlotId}
    (hi : ∀ e ∈ s.waitList, e.isUpgrade = false → e.ticket = slotHandle s i → 2 ≤ e.waitRemaining) :
    slotAt (tickedBeforeScan s) i = lapseMark (slotAt (counted s) i) := by
  have hslot : slotAt (lapses (counted s)) i = lapseMark (slotAt (counted s) i) :=
    ((lapsed_lapses h).1.slots i).trans (if_pos (mem_allSlots i))
  have hhandle : slotHandle (countWaits (lapses (counted s))) i = slotHandle s i :=
    slotHandle_of_gen (by rw [slotAt_countWaits, hslot, gen_lapseMark, gen_counted])
  rw [(expired_counting h).1.kept i fun e he hu ht => ?_, slotAt_countWaits, hslot]
  obtain ⟨hmem, hzero⟩ := List.mem_filter.1 he
  rw [waitList_counting h] at hmem
  obtain ⟨o, ho, rfl⟩ := List.mem_map.1 hmem
  have hstay := hi o (List.mem_of_mem_filter ho) hu (ht.trans hhandle)
  rw [waitedOn_over, decide_eq_true_eq] at hzero
  omega

/-- R65: the slot of a CLAIM that times out. -/
theorem slotAt_ticked_freed {s : State} (h : InStep s) {i : SlotId} {e : WaitEntry} (he : e ∈ s.waitList)
    (hu : e.isUpgrade = false) (hi : e.ticket = slotHandle s i) (hlast : e.waitRemaining ≤ 1) :
    slotAt (tickedBeforeScan s) i = { gen := nextGen (slotAt s i).gen, content := .free } := by
  obtain ⟨term, label, hk⟩ := isUpgrade_false_iff.1 hu
  have hc := h.claim_content he hk hi
  have hcounted : slotAt (counted s) i = slotAt s i := slotAt_counted_other s (by rw [hc]; rfl)
  have hslot : slotAt (countWaits (lapses (counted s))) i = slotAt s i := by
    rw [slotAt_countWaits, (lapsed_lapses h).1.slots, if_pos (mem_allSlots i), hcounted, lapseMark, hc]
  have hnot : e ∉ recordEnds s e.port := fun hm => by
    obtain ⟨j, hj, ht⟩ := (mem_recordEnds h he).1 hm
    obtain rfl : j = i := slotHandle_inj (ht.symm.trans hi)
    simp [lastTick, hc] at hj
  have hmem : waitedOn e ∈ expiredEntries (countWaits (lapses (counted s))) := by
    refine List.mem_filter.2 ⟨?_, (waitedOn_over e).trans (decide_eq_true hlast)⟩
    rw [waitList_counting h]
    exact List.mem_map_of_mem (List.mem_filter.2 ⟨he, by simpa using hnot⟩)
  rw [(expired_counting h).1.freed _ hmem hu i (hi.trans (slotHandle_of_gen (by rw [hslot])).symm), hslot]

/-- R76: what steps 1 to 4 of a tick make of the port units. -/
theorem port_ticked {s : State} (h : InStep s) (p : Port) : (tickedBeforeScan s).port p = { s.port p with
    notices := { (s.port p).notices with
      leaseLow := (s.port p).notices.leaseLow ||
        allSlots.any fun j => warns (thresholds s) p (countdownSlot (slotAt s j))
      leaseLost := (s.port p).notices.leaseLost || allSlots.any fun j => lapsesOf p (slotAt (counted s) j) } } := by
  have hexp : (tickedBeforeScan s).port p = (lapses (counted s)).port p :=
    (port_of_ports (expired_counting h).1.ports p).trans (port_countWaits _ p)
  have hthr : thresholds (countdown s) = thresholds s := rfl
  have hport : (countdown s).port p = s.port p := rfl
  rw [hexp, (lapsed_lapses h).1.port, (warned_counted s).port, hthr, hport]
  simp only [slotAt_countdown]

theorem warns_countdown {s : State} {p : Port} {i : SlotId} :
    warns (thresholds s) p (countdownSlot (slotAt s i)) = true ↔ ∃ c l n, (slotAt s i).content = .held c l n ∧
      c.holder = p ∧ l.warned = false ∧ 0 < thresholds s p ∧ n - 1 = thresholds s p := by
  cases hc : (slotAt s i).content with
  | held c l n =>
    simp only [warns, countdownSlot, hc, Bool.and_eq_true, beq_iff_eq, Bool.not_eq_true', decide_eq_true_eq,
      Content.held.injEq]
    constructor
    · rintro ⟨⟨rfl, hw⟩, h1, h2⟩
      exact ⟨c, l, n, ⟨rfl, rfl, rfl⟩, rfl, hw, h1, h2⟩
    · rintro ⟨_, _, _, ⟨rfl, rfl, rfl⟩, rfl, hw, h1, h2⟩
      exact ⟨⟨rfl, hw⟩, h1, h2⟩
  | _ => simp [warns, countdownSlot, hc]

theorem lapsesOf_counted {s : State} {p : Port} {i : SlotId} : lapsesOf p (slotAt (counted s) i) = true ↔
    ∃ c l n, (slotAt s i).content = .held c l n ∧ c.holder = p ∧ n ≤ 1 := by
  cases hc : (slotAt s i).content with
  | held c l n =>
    rw [slotAt_counted_held s hc]
    simp only [Content.held.injEq]
    constructor
    · intro hx
      unfold lapsesOf at hx
      split at hx
      · next heq =>
        simp only [Content.held.injEq] at heq
        obtain ⟨rfl, -, hn⟩ := heq
        exact ⟨_, l, n, ⟨rfl, rfl, rfl⟩, beq_iff_eq.1 hx, by omega⟩
      · cases hx
    · rintro ⟨_, _, _, ⟨rfl, rfl, rfl⟩, rfl, hn⟩
      have hz : n - 1 = 0 := by omega
      simp only [hz, lapsesOf, beq_self_eq_true]
  | _ =>
    rw [slotAt_counted_other s (by rw [hc]; rfl)]
    simp [lapsesOf, hc]

theorem tickBeforeScan_ticked {s : State} (h : InStep s) : TickBeforeScan s (tickedBeforeScan s) where
  running i c l n hc hn := by
    rw [slotAt_ticked_kept h fun e he hu ht => ?_, slotAt_counted_held s hc]
    · unfold lapseMark
      split
      · next heq =>
        simp only [Content.held.injEq] at heq
        omega
      · rfl
    · have := (h.upgrade_of_held he ht hc).1
      rw [hu] at this
      cases this
  lapsing i c l n hc hn := by
    rw [slotAt_ticked_kept h fun e he hu ht => ?_, slotAt_counted_held s hc]
    · have hz : n - 1 = 0 := by omega
      have hoff : decide (0 < thresholds s c.holder ∧ 0 = thresholds s c.holder) = false := decide_eq_false (by omega)
      rw [hz, hoff, Bool.or_false]
      rfl
    · have := (h.upgrade_of_held he ht hc).1
      rw [hu] at this
      cases this
  reserved i c hc e he hi := by
    have hcounted : slotAt (counted s) i = slotAt s i := slotAt_counted_other s (by rw [hc]; rfl)
    have hu : e.isUpgrade = false := by
      obtain ⟨o, ho, hoi, hou⟩ := h.slots i c hc
      rw [h.entry_eq he ho (hi.trans hoi.symm)]
      exact hou
    split
    · next hstay =>
      rw [slotAt_ticked_kept h fun o ho _ hoi => by rwa [h.entry_eq ho he (hoi.trans hi.symm)], hcounted, lapseMark, hc]
    · next hlast => exact slotAt_ticked_freed h he hu hi (by omega)
  free i hc := by
    rw [slotAt_ticked_kept h fun e he _ ht => absurd ht (h.unnamed_free hc e he),
      slotAt_counted_other s (by rw [hc]; rfl), lapseMark, hc]
  lapsed i c l x hc := by
    rw [slotAt_ticked_kept h fun e he _ ht => absurd ht (h.unnamed_lapsed hc e he),
      slotAt_counted_other s (by rw [hc]; rfl), lapseMark, hc]
  entries := waitList_ticked h
  sessions p := by
    rw [session_ticked h, Session.timedOut, Session.recordsEnded]
    simp only [← placesWithout_append]
  leaseLow p := by
    simp only [port_ticked h, Bool.or_eq_true, List.any_eq_true, mem_allSlots, true_and, warns_countdown]
    rfl
  leaseLost p := by
    simp only [port_ticked h, Bool.or_eq_true, List.any_eq_true, mem_allSlots, true_and, lapsesOf_counted]
  contended p := by rw [port_ticked h]

/-! ### The grant scan of a tick (R81) -/

/-- A port unit after the lease flags and then CONTENDED have been set, but for CONTENDED and the line. -/
theorem portUnit_of_scanned {u v w : PortUnit} {line : Bool}
    (h : { u with notices := { u.notices with contended := v.notices.contended } } = v)
    (k : v = { w with
      notices := { w.notices with leaseLow := v.notices.leaseLow, leaseLost := v.notices.leaseLost } }) :
    let x : PortUnit := { u with noticeLine := line }
    { x with notices := { x.notices with contended := w.notices.contended }, noticeLine := w.noticeLine } =
      { w with notices := { w.notices with leaseLow := v.notices.leaseLow, leaseLost := v.notices.leaseLost } } := by
  have hc : v.notices.contended = w.notices.contended := congrArg (·.notices.contended) k
  have hl : u.noticeLine = w.noticeLine := (congrArg (·.noticeLine) h).trans (congrArg (·.noticeLine) k)
  simp only
  rw [← k, ← hc, ← hl]
  exact h

theorem tickLocks_eq (s : State) : tickLocks s =
    if allSlots.any (lapseDue (counted s)) || !(expiredEntries (countWaits (lapses (counted s)))).isEmpty
    then grantScan (tickedBeforeScan s) else tickedBeforeScan s := by
  unfold tickLocks tickedBeforeScan counted
  rfl

/-- R81: a scan exactly when a record has lapsed or an entry has timed out. -/
theorem tickScans_iff {s : State} (h : InStep s) :
    (allSlots.any (lapseDue (counted s)) || !(expiredEntries (countWaits (lapses (counted s)))).isEmpty) = true ↔
      (∃ i, lastTick s i = true) ∨ ∃ p, timeOuts s p ≠ [] := by
  rw [Bool.or_eq_true, List.any_eq_true]
  refine or_congr (by simp only [mem_allSlots, true_and, lapseDue_counted]) ?_
  have hport (p : Port) := expiredEntries_counting h p
  rw [Bool.not_eq_true', ← Bool.not_eq_true, List.isEmpty_iff]
  constructor
  · intro hne
    obtain ⟨e, he⟩ := List.exists_mem_of_ne_nil _ hne
    refine ⟨e.port, fun hnil => ?_⟩
    have hmem : e ∈ (timeOuts s e.port).map waitedOn := hport e.port ▸ List.mem_filter.2 ⟨he, beq_self_eq_true _⟩
    rw [hnil] at hmem
    cases hmem
  · rintro ⟨p, hp⟩ hnil
    have := hport p
    rw [hnil] at this
    exact hp (List.map_eq_nil_iff.1 this.symm)

end Sys2Proof.Machine

namespace Sys2Proof.Proofs

open Sys2Proof.Machine

/-- Settles O18: the four steps as passes over the slots and the list, the scan when it is due, and the clock. -/
theorem leaseTick : Obligations.LeaseTick := by
  intro s hr h
  obtain ⟨m, hm⟩ : ∃ m, m = tickedBeforeScan s := ⟨_, rfl⟩
  have hin : InStep m := hm ▸ (expired_counting h).2
  obtain ⟨u, hu⟩ : ∃ u, u = tickLocks s := ⟨_, rfl⟩
  set t := settleNotices { u with clock := nextTick u.clock } with ht
  have hboard : board u = board s := hu ▸ board_tickLocks s
  have hrow : exec .leaseTick s = .next t := by
    refine congrArg Host.Outcome.next ((if_pos hr).trans ?_)
    rw [endTick, ← hu]
  have same : SameForScan u t := ⟨rfl, rfl, fun _ => State.session_settleNotices .., fun p => by
    rw [ht, State.port_settleNotices]
    rfl⟩
  have hcontended (p : Port) : { u.port p with
      notices := { (u.port p).notices with contended := (m.port p).notices.contended } } = m.port p := by
    rw [hu, tickLocks_eq, ← hm]
    split
    · obtain ⟨granted, k⟩ := scans_grantScan hin
      exact k.port p
    · rfl
  refine ⟨t, m, hrow, hm ▸ tickBeforeScan_ticked h, fun hscan => ?_, fun hnone => ?_, fun p => ?_, ?_, ?_⟩
  · obtain ⟨granted, k⟩ := scans_grantScan hin
    have hscanned : u = grantScan m := by rw [hu, tickLocks_eq, ← hm, if_pos ((tickScans_iff h).2 hscan)]
    exact ⟨granted, (hscanned ▸ k.toScans).congr ⟨rfl, rfl, fun _ => rfl, fun _ => rfl⟩ same⟩
  · have hkept : u = m := by rw [hu, tickLocks_eq, ← hm, if_neg (mt (tickScans_iff h).1 hnone)]
    rw [hkept] at same
    exact ⟨slotAt_eq_of_table same.table, same.waitList, fun p => ⟨same.session p, same.contended p⟩⟩
  · have hport := port_ticked h p
    rw [← hm] at hport
    rw [ht, State.port_settleNotices]
    refine portUnit_of_scanned (hcontended p) ?_
    rw [hport]
  · rw [ht]
    change nextTick u.clock = _
    rw [clock_of_board hboard]
    rfl
  · obtain ⟨-, b2, b3, b4, b5, b6, b7, b8, b9, b10⟩ := board_parts hboard
    change (s.clock, u.array, u.clearNext, u.arbiter, u.engine, u.params, u.restartPending, u.resetLow, u.powerUps,
      u.pending) = _
    rw [b2, b3, b4, b5, b6, b7, b8, b9, b10]
    rfl

end Sys2Proof.Proofs
end


section
/-! PROOFS. The owners of the commands do not see the wires of the ports: the selection, the answer being sent, the
frames that wait and the NOTICE line. A change of these can come before or after what an owner does (R107, R108, R118,
R137). -/

namespace Sys2Proof.Machine

/-! ### The wires -/

/-- What of a port unit no owner reads or changes: its selection, what it sends and has sent, the request and the frames
that wait, and the line. -/
structure Wire where
  sel        : SelState
  seenHigh   : Bool
  answer     : Option Sending
  lastReply  : Option Reply
  noticeLine : Bool
  request    : Option Request
  deferred   : List Deferred

/-- The wires of a port unit. -/
def PortUnit.wire (u : PortUnit) : Wire :=
  ⟨u.sel, u.seenHigh, u.answer, u.lastReply, u.noticeLine, u.request, u.deferred⟩

/-- A port unit with other wires. -/
def PortUnit.wired (u : PortUnit) (v : Wire) : PortUnit :=
  { u with sel := v.sel, seenHigh := v.seenHigh, answer := v.answer, lastReply := v.lastReply, noticeLine := v.noticeLine
           request := v.request, deferred := v.deferred }

/-- What of the part no owner reads and none but RESTART changes. -/
structure Wiring where
  port           : Port → Wire
  restartPending : Bool
  resetLow       : Bool

/-- The wiring of a state. -/
def wiring (s : State) : Wiring := ⟨fun p => (s.port p).wire, s.restartPending, s.resetLow⟩

/-- The part with another wiring. -/
def rewire (w : Wiring) (s : State) : State :=
  { s with
    ports := ⟨s.ports.p0.wired (w.port .p0), s.ports.p1.wired (w.port .p1), s.ports.p2.wired (w.port .p2),
      s.ports.p3.wired (w.port .p3)⟩
    restartPending := w.restartPending
    resetLow := w.resetLow }

/-- What an owner does, with its answer, when the wiring is another. -/
def rewired (w : Wiring) {α : Type} (x : State × α) : State × α := (rewire w x.1, x.2)

section

variable (w : Wiring) (s : State)

theorem port_rewire (p : Port) : (rewire w s).port p = (s.port p).wired (w.port p) := by cases p <;> rfl

theorem state_ext_ports {s t : State} (h : ∀ p, t.port p = s.port p) (hs : { t with ports := s.ports } = s) : t = s := by
  have hp : t.ports = s.ports := by
    obtain ⟨a0, a1, a2, a3⟩ : t.ports.p0 = s.ports.p0 ∧ t.ports.p1 = s.ports.p1 ∧ t.ports.p2 = s.ports.p2 ∧
      t.ports.p3 = s.ports.p3 := ⟨h .p0, h .p1, h .p2, h .p3⟩
    cases ht : t.ports
    cases hs : s.ports
    simp_all
  rw [← hs, ← hp]

/-- The wiring as it is. -/
theorem rewire_wiring : rewire (wiring s) s = s :=
  state_ext_ports (fun p => (port_rewire (wiring s) s p).trans rfl) rfl

theorem wiring_rewire : wiring (rewire w s) = w := by
  have hp : (fun p => ((rewire w s).port p).wire) = w.port := funext fun p => by rw [port_rewire]; rfl
  rw [wiring, hp]
  rfl

theorem rewire_rewire (v : Wiring) : rewire v (rewire w s) = rewire v s := rfl

theorem modPort_rewire {g : PortUnit → PortUnit} (hg : ∀ u v, g (PortUnit.wired u v) = (g u).wired v) (p : Port) :
    (rewire w s).modPort p g = rewire w (s.modPort p g) := by
  refine state_ext_ports (fun q => ?_) rfl
  rw [port_rewire, State.port_modPort, State.port_modPort, port_rewire, port_rewire]
  by_cases h : q = p
  · rw [if_pos h, if_pos h, hg, h]
  · rw [if_neg h, if_neg h]

theorem foldl_rewire {α : Type} {f : State → α → State} (hf : ∀ s a, f (rewire w s) a = rewire w (f s a)) (l : List α) :
    l.foldl f (rewire w s) = rewire w (l.foldl f s) := by
  induction l generalizing s with
  | nil => rfl
  | cons a l ih => rw [List.foldl_cons, hf, ih, List.foldl_cons]

/-- A test that comes out alike on both sides. -/
theorem ite_map {α β : Type} (f : α → β) {c c' : Prop} [Decidable c] [Decidable c'] {a b : β} {a' b' : α} (h : c ↔ c')
    (ha : a = f a') (hb : b = f b') : (if c then a else b) = f (if c' then a' else b') := by
  by_cases hc : c'
  · rw [if_pos hc, if_pos (h.2 hc), ha]
  · rw [if_neg hc, if_neg (mt h.1 hc), hb]

/-! ### What the owners read -/

@[simp] theorem slotAt_rewire (i : SlotId) : slotAt (rewire w s) i = slotAt s i := rfl
@[simp] theorem slotHandle_rewire (i : SlotId) : slotHandle (rewire w s) i = slotHandle s i := rfl
@[simp] theorem session_rewire (p : Port) : (rewire w s).session p = s.session p := rfl
@[simp] theorem job_rewire (p : Port) : (rewire w s).job p = s.job p := rfl
@[simp] theorem waitList_rewire : (rewire w s).waitList = s.waitList := rfl
@[simp] theorem params_rewire : (rewire w s).params = s.params := rfl
@[simp] theorem clock_rewire : (rewire w s).clock = s.clock := rfl
@[simp] theorem array_rewire : (rewire w s).array = s.array := rfl
@[simp] theorem engine_rewire : (rewire w s).engine = s.engine := rfl
@[simp] theorem arbiter_rewire : (rewire w s).arbiter = s.arbiter := rfl
@[simp] theorem clearing_rewire : clearing (rewire w s) = clearing s := rfl
@[simp] theorem ownedBy_rewire (p : Port) (i : SlotId) : ownedBy (rewire w s) p i = ownedBy s p i := rfl
@[simp] theorem resolve_rewire (p : Port) (h : Half) : resolve (rewire w s) p h = resolve s p h := rfl
@[simp] theorem resolveAny_rewire (h : Half) : resolveAny (rewire w s) h = resolveAny s h := rfl
@[simp] theorem engaged_rewire (i : SlotId) : engaged (rewire w s) i = engaged s i := rfl
@[simp] theorem upgradeWaits_rewire (h : Half) : upgradeWaits (rewire w s) h = upgradeWaits s h := rfl
@[simp] theorem lowestFree_rewire : lowestFree (rewire w s) = lowestFree s := rfl
@[simp] theorem overlapsSelf_rewire (p : Port) (r : Range) : overlapsSelf (rewire w s) p r = overlapsSelf s p r := rfl
@[simp] theorem resolvedTerm_rewire (n : Nat) : resolvedTerm (rewire w s) n = resolvedTerm s n := rfl
@[simp] theorem renewTerm_rewire (l : Lease) (n : Nat) : renewTerm (rewire w s) l n = renewTerm s l n := rfl
@[simp] theorem contested_rewire (c : Claimed) (l : Lease) : contested (rewire w s) c l = contested s c l := rfl
@[simp] theorem blocked_rewire (p : Port) (m : Mode) (r : Range) : blocked (rewire w s) p m r = blocked s p m r := rfl
@[simp] theorem conflictAnswer_rewire (p : Port) (m : Mode) (r : Range) :
    conflictAnswer (rewire w s) p m r = conflictAnswer s p m r := rfl
@[simp] theorem heldByBlocks_rewire (p : Port) (m : Mode) (r : Range) :
    heldByBlocks (rewire w s) p m r = heldByBlocks s p m r := rfl
@[simp] theorem placesUsed_rewire (p : Port) : placesUsed (rewire w s) p = placesUsed s p := rfl
@[simp] theorem portWaits_rewire (p : Port) : portWaits (rewire w s) p = portWaits s p := rfl
@[simp] theorem grantable_rewire (l : List WaitEntry) (e : WaitEntry) : grantable (rewire w s) l e = grantable s l e := rfl
@[simp] theorem admissionRefusal_rewire (p : Port) (l : List Side) :
    admissionRefusal (rewire w s) p l = admissionRefusal s p l := rfl
@[simp] theorem firstUncovered_rewire (p : Port) (a : Access) (x n : Nat) :
    firstUncovered (rewire w s) p a x n = firstUncovered s p a x n := rfl
@[simp] theorem arrayBusy_rewire : arrayBusy (rewire w s) = arrayBusy s := rfl
@[simp] theorem quotaInUse_rewire (v : Nat) (x : Param) : quotaInUse (rewire w s) v x = quotaInUse s v x := by
  cases x <;> rfl
@[simp] theorem admission_rewire (p : Port) (c : Command) : admission (rewire w s) p c = admission s p c := by
  cases c <;> rfl
@[simp] theorem notices_rewire (p : Port) : ((rewire w s).port p).notices = (s.port p).notices := by
  rw [port_rewire]; rfl
@[simp] theorem errors_rewire (p : Port) : ((rewire w s).port p).errors = (s.port p).errors := by
  rw [port_rewire]; rfl
@[simp] theorem noticeFlags_rewire (p : Port) : noticeFlags (rewire w s) p = noticeFlags s p := by
  simp only [noticeFlags, notices_rewire, session_rewire]
@[simp] theorem noticeActive_rewire (p : Port) : noticeActive (rewire w s) p = noticeActive s p := by
  simp only [noticeActive, noticeFlags_rewire, session_rewire]
@[simp] theorem attnByte_rewire (p : Port) : attnByte (rewire w s) p = attnByte s p := by
  simp only [attnByte, noticeActive_rewire, errors_rewire]
  rfl

@[simp] theorem waitsFor_rewire (a b : Port) : waitsFor (rewire w s) a b = waitsFor s a b := by
  have hfrom : ∀ es older, waitsForFrom (rewire w s) a b older es = waitsForFrom s a b older es := by
    intro es
    induction es with
    | nil => intro _; rfl
    | cons e es ih =>
      intro older
      simp only [waitsForFrom, ih]
      rfl
  exact hfrom s.waitList []

@[simp] theorem leadsTo_rewire (a b : Port) : leadsTo (rewire w s) a b = leadsTo s a b := by
  have hwithin : ∀ n a b, leadsWithin (rewire w s) n a b = leadsWithin s n a b := by
    intro n
    induction n with
    | zero => intro _ _; rfl
    | succ n ih =>
      intro a b
      simp only [leadsWithin, ih, waitsFor_rewire]
  exact hwithin 4 a b

@[simp] theorem deadlockPort_rewire (p : Port) (m : Mode) (r : Range) :
    deadlockPort (rewire w s) p m r = deadlockPort s p m r := by
  simp only [deadlockPort, leadsTo_rewire]
  rfl

@[simp] theorem queueRefusal_rewire (p : Port) (m : Mode) (r : Range) :
    queueRefusal (rewire w s) p m r = queueRefusal s p m r := by
  simp only [queueRefusal, deadlockPort_rewire]
  rfl

/-! ### What the owners do -/

@[simp] theorem modSession_rewire (p : Port) (g : Session → Session) :
    (rewire w s).modSession p g = rewire w (s.modSession p g) := rfl
@[simp] theorem setJob_rewire (p : Port) (j : Option Job) : (rewire w s).setJob p j = rewire w (s.setJob p j) := rfl
@[simp] theorem setContent_rewire (i : SlotId) (c : Content) : setContent (rewire w s) i c = rewire w (setContent s i c) := rfl
@[simp] theorem reservePlace_rewire (p : Port) (r : Reservation) :
    reservePlace (rewire w s) p r = rewire w (reservePlace s p r) := rfl
@[simp] theorem allocate_rewire (p : Port) (i : SlotId) (c : Content) :
    allocate (rewire w s) p i c = rewire w (allocate s p i c) := rfl
@[simp] theorem endEntry_rewire (e : WaitEntry) (how : WaitEnd) :
    endEntry (rewire w s) e how = rewire w (endEntry s e how) := rfl
@[simp] theorem removeEntriesOf_rewire (p : Port) : removeEntriesOf (rewire w s) p = rewire w (removeEntriesOf s p) := rfl
@[simp] theorem setEvicted_rewire (p : Port) : setEvicted (rewire w s) p = rewire w (setEvicted s p) := rfl
@[simp] theorem raiseRevoked_rewire (p : Port) : raiseRevoked (rewire w s) p = rewire w (raiseRevoked s p) :=
  modPort_rewire w s (fun _ _ => rfl) p
@[simp] theorem raiseContended_rewire (p : Port) : raiseContended (rewire w s) p = rewire w (raiseContended s p) :=
  modPort_rewire w s (fun _ _ => rfl) p

@[simp] theorem freeSlot_rewire (i : SlotId) : freeSlot (rewire w s) i = rewire w (freeSlot s i) := by
  simp only [freeSlot, slotAt_rewire]
  split <;> rfl

@[simp] theorem dropEntry_rewire (e : WaitEntry) (how : WaitEnd) :
    dropEntry (rewire w s) e how = rewire w (dropEntry s e how) := by
  simp only [dropEntry, freeClaimSlot, endEntry_rewire]
  split
  · exact freeSlot_rewire ..
  · rfl

@[simp] theorem endUpgradeOf_rewire (h : Half) : endUpgradeOf (rewire w s) h = rewire w (endUpgradeOf s h) := by
  simp only [endUpgradeOf, waitList_rewire]
  split <;> rfl

@[simp] theorem appendEntry_rewire (e : WaitEntry) : appendEntry (rewire w s) e = rewire w (appendEntry s e) :=
  foldl_rewire w (reservePlace { s with waitList := s.waitList ++ [e] } e.port (.entry e.ticket)) (raiseContended_rewire w) _

@[simp] theorem grantEntry_rewire (e : WaitEntry) : grantEntry (rewire w s) e = rewire w (grantEntry s e) := by
  unfold grantEntry
  split <;> rfl

theorem scanPass_rewire (es : List WaitEntry) (a b : List WaitEntry) : scanPass ⟨rewire w s, a, b⟩ es =
    ⟨rewire w (scanPass ⟨s, a, b⟩ es).state, (scanPass ⟨s, a, b⟩ es).stay, (scanPass ⟨s, a, b⟩ es).granted⟩ := by
  induction es generalizing s a b with
  | nil => rfl
  | cons e es ih =>
    simp only [scanPass, grantable_rewire, grantEntry_rewire]
    split
    · exact ih ..
    · exact ih ..

@[simp] theorem contendGranted_rewire (e : WaitEntry) : contendGranted (rewire w s) e = rewire w (contendGranted s e) := by
  simp only [contendGranted, slotAt_rewire, waitList_rewire]
  split
  · rfl
  · split
    · exact ite_map _ Iff.rfl (raiseContended_rewire ..) rfl
    · rfl

@[simp] theorem grantScan_rewire : grantScan (rewire w s) = rewire w (grantScan s) := by
  simp only [grantScan, waitList_rewire, scanPass_rewire]
  generalize scanPass ⟨s, [], []⟩ s.waitList = x
  exact foldl_rewire w { x.state with waitList := x.stay } (contendGranted_rewire w) x.granted

@[simp] theorem freeSlotsOf_rewire (p : Port) : freeSlotsOf (rewire w s) p = rewire w (freeSlotsOf s p) := by
  refine foldl_rewire w s (fun s i => ?_) allSlots
  exact ite_map _ Iff.rfl (freeSlot_rewire ..) rfl

@[simp] theorem closeJob_rewire (p : Port) : closeJob (rewire w s) p = rewire w (closeJob s p) := by
  simp only [closeJob, job_rewire]
  split <;> rfl

@[simp] theorem teardown_rewire (p : Port) : teardown (rewire w s) p = rewire w (teardown s p) := by
  simp only [teardown, freeSlotsOf_rewire, removeEntriesOf_rewire, job_rewire, modSession_rewire]
  rw [modPort_rewire w _ (g := fun u => { u with notices := .none }) fun _ _ => rfl, closeJob_rewire, grantScan_rewire]

@[simp] theorem arrive_rewire (us : List User) : arrive (rewire w s) us = rewire w (arrive s us) := by
  exact ite_map _ Iff.rfl rfl (ite_map _ Iff.rfl rfl rfl)

@[simp] theorem chooseJob_rewire : chooseJob (rewire w s) = rewire w (chooseJob s) := by
  simp only [chooseJob, engine_rewire, job_rewire]
  split
  · next p _ _ =>
    exact arrive_rewire w { s with engine := { s.engine with inFlight := some p, turn := nextPort p } } [.engine]
  · rfl

@[simp] theorem revokeSlot_rewire (i : SlotId) (c : Claimed) (l : Lease) :
    revokeSlot (rewire w s) i c l = rewire w (revokeSlot s i c l) := by
  simp only [revokeSlot, setContent_rewire, raiseRevoked_rewire, slotHandle_rewire, endUpgradeOf_rewire]

@[simp] theorem withdrawSlot_rewire (i : SlotId) : withdrawSlot (rewire w s) i = rewire w (withdrawSlot s i) := by
  simp only [withdrawSlot, waitList_rewire, slotHandle_rewire]
  split
  · exact freeSlot_rewire w (endEntry s _ .withdrawn) i
  · exact freeSlot_rewire w s i

@[simp] theorem setError_rewire (p : Port) (g : StickyErrors → StickyErrors) :
    setError (rewire w s) p g = rewire w (setError s p g) := by
  exact ite_map _ Iff.rfl rfl (modPort_rewire w s (fun _ _ => rfl) p)

end

end Sys2Proof.Machine
end


section
/-! PROOFS. What each owner does and answers does not turn on the wires of the ports (R107, R108, R118, R137). -/

namespace Sys2Proof.Machine

section

variable (w : Wiring) (s : State) (p : Port) (tag : Byte) (args : List Byte)

theorem pair_rewired {α : Type} {x y : State} (h : x = rewire w y) (a : α) : (x, a) = rewired w (y, a) := by
  rw [h, rewired]

/-! ### Sessions, outcomes and notices -/

theorem takeOpen_rewire : takeOpen p args (rewire w s) = rewired w (takeOpen p args s) := by
  unfold takeOpen
  split <;> rfl

theorem takeClose_rewire : takeClose p (rewire w s) = rewired w (takeClose p s) := by
  simp only [takeClose, teardown_rewire, session_rewire]
  exact pair_rewired w rfl _

theorem takeStatus_rewire : takeStatus p (rewire w s) = rewired w (takeStatus p s) := by
  simp only [takeStatus, noticeFlags_rewire, errors_rewire]
  exact pair_rewired w rfl _

theorem takeAckErrors_rewire : takeAckErrors p (rewire w s) = rewired w (takeAckErrors p s) := by
  simp only [takeAckErrors, errors_rewire]
  exact pair_rewired w (modPort_rewire w s (fun _ _ => rfl) p) _

theorem takeCollect_rewire : takeCollect p (rewire w s) = rewired w (takeCollect p s) := by
  simp only [takeCollect, session_rewire]
  split <;> rfl

theorem takeSetNotice_rewire : takeSetNotice p args (rewire w s) = rewired w (takeSetNotice p args s) := by
  simp only [takeSetNotice, noticeFlags_rewire]
  split <;> rfl

theorem takeClearNotices_rewire : takeClearNotices p args (rewire w s) = rewired w (takeClearNotices p args s) := by
  unfold takeClearNotices
  split
  · rfl
  · next m _ =>
    simp only [modPort_rewire w s (g := fun u => { u with notices := u.notices.without m }) (fun _ _ => rfl) p,
      notices_rewire, noticeFlags_rewire]
    exact pair_rewired w rfl _

/-! ### Locks -/

theorem claimDecide_rewire (m : Mode) (r : Range) (term wait : Nat) (label : Half) (i : SlotId) :
    claimDecide (rewire w s) p tag m r term wait label i = rewired w (claimDecide s p tag m r term wait label i) := by
  refine ite_map _ Iff.rfl rfl (ite_map _ Iff.rfl rfl ?_)
  rw [queueRefusal_rewire]
  split
  · rfl
  · simp only [claimQueue, allocate_rewire, slotHandle_rewire, appendEntry_rewire]
    exact pair_rewired w rfl _

theorem takeClaim_rewire : takeClaim p tag args (rewire w s) = rewired w (takeClaim p tag args s) := by
  unfold takeClaim
  simp only
  split
  · rfl
  · refine ite_map _ Iff.rfl rfl (ite_map _ Iff.rfl rfl (ite_map _ Iff.rfl rfl (ite_map _ Iff.rfl rfl
      (ite_map _ Iff.rfl rfl ?_))))
    rw [lowestFree_rewire]
    split
    · rfl
    · exact claimDecide_rewire ..

theorem takeRenew_rewire : takeRenew p args (rewire w s) = rewired w (takeRenew p args s) := by
  refine ite_map _ Iff.rfl rfl ?_
  rw [resolve_rewire]
  split
  · rfl
  · rw [slotAt_rewire]
    split
    · rfl
    · rfl
    · rfl
    · exact ite_map _ Iff.rfl rfl rfl

theorem takeRelease_rewire : takeRelease p args (rewire w s) = rewired w (takeRelease p args s) := by
  unfold takeRelease
  rw [resolve_rewire]
  split
  · rfl
  · rw [slotAt_rewire]
    split
    · rfl
    · rfl
    · refine ite_map _ Iff.rfl rfl (pair_rewired w ?_ _)
      rw [freeSlot_rewire, grantScan_rewire]
    · exact pair_rewired w (freeSlot_rewire ..) _

theorem takeDowngrade_rewire : takeDowngrade p args (rewire w s) = rewired w (takeDowngrade p args s) := by
  unfold takeDowngrade
  rw [resolve_rewire]
  split
  · rfl
  · rw [slotAt_rewire]
    split
    · rfl
    · rfl
    · rfl
    · refine ite_map _ Iff.rfl rfl (ite_map _ Iff.rfl rfl (pair_rewired w ?_ _))
      rw [setContent_rewire, grantScan_rewire]

theorem upgradeDecide_rewire (i : SlotId) (c : Claimed) (l : Lease) (n wait : Nat) :
    upgradeDecide (rewire w s) p tag i c l n wait = rewired w (upgradeDecide s p tag i c l n wait) := by
  refine ite_map _ Iff.rfl rfl (ite_map _ Iff.rfl rfl ?_)
  rw [queueRefusal_rewire]
  split
  · rfl
  · exact pair_rewired w (appendEntry_rewire ..) _

theorem takeUpgrade_rewire : takeUpgrade p tag args (rewire w s) = rewired w (takeUpgrade p tag args s) := by
  refine ite_map _ Iff.rfl rfl ?_
  rw [resolve_rewire]
  split
  · rfl
  · rw [slotAt_rewire]
    split
    · rfl
    · rfl
    · rfl
    · exact ite_map _ Iff.rfl rfl (ite_map _ Iff.rfl rfl (upgradeDecide_rewire ..))

theorem takeTrim_rewire : takeTrim p args (rewire w s) = rewired w (takeTrim p args s) := by
  refine ite_map _ Iff.rfl rfl ?_
  rw [resolve_rewire]
  split
  · rfl
  · rw [slotAt_rewire]
    split
    · rfl
    · rfl
    · rfl
    · refine ite_map _ Iff.rfl rfl (ite_map _ Iff.rfl rfl (pair_rewired w ?_ _))
      rw [setContent_rewire, grantScan_rewire]

theorem takeCancel_rewire : takeCancel p args (rewire w s) = rewired w (takeCancel p args s) := by
  simp only [takeCancel, waitList_rewire]
  split
  · rfl
  · exact pair_rewired w (by rw [dropEntry_rewire, grantScan_rewire]) _

theorem takeProbe_rewire : takeProbe args (rewire w s) = rewired w (takeProbe args s) := ite_map _ Iff.rfl rfl rfl

theorem takeList_rewire : takeList p args (rewire w s) = rewired w (takeList p args s) := ite_map _ Iff.rfl rfl rfl

/-! ### The array and the engine -/

theorem takeAccess_rewire (a : Access) : takeAccess a p args (rewire w s) = rewired w (takeAccess a p args s) := by
  refine ite_map _ Iff.rfl rfl (ite_map _ Iff.rfl rfl ?_)
  rw [firstUncovered_rewire]
  split
  · rfl
  · cases a <;> rfl

theorem admitJob_rewire (sides : List Side) (j : Job) :
    admitJob (rewire w s) p sides j = rewired w (admitJob s p sides j) := by
  simp only [admitJob, admissionRefusal_rewire]
  split
  · rfl
  · exact pair_rewired w (by rw [setJob_rewire, reservePlace_rewire, chooseJob_rewire]) _

theorem takeStopJob_rewire : takeStopJob p (rewire w s) = rewired w (takeStopJob p s) := by
  simp only [takeStopJob, job_rewire]
  split <;> rfl

theorem takeJobState_rewire : takeJobState p (rewire w s) = rewired w (takeJobState p s) := by
  simp only [takeJobState, job_rewire]
  split <;> rfl

/-! ### Supervision -/

theorem takeConfigSet_rewire : takeConfigSet args (rewire w s) = rewired w (takeConfigSet args s) := by
  unfold takeConfigSet
  simp only
  split
  · rfl
  · exact ite_map _ Iff.rfl rfl (ite_map _ (by rw [quotaInUse_rewire]) rfl rfl)

theorem takeConfigGet_rewire : takeConfigGet args (rewire w s) = rewired w (takeConfigGet args s) := by
  unfold takeConfigGet
  split <;> rfl

theorem takeRevoke_rewire : takeRevoke args (rewire w s) = rewired w (takeRevoke args s) := by
  unfold takeRevoke
  rw [resolveAny_rewire]
  split
  · rfl
  · rw [slotAt_rewire]
    split
    · rfl
    · rfl
    · exact pair_rewired w (by rw [revokeSlot_rewire, grantScan_rewire]) _
    · exact pair_rewired w (by rw [withdrawSlot_rewire, grantScan_rewire]) _

theorem takeEvict_rewire : takeEvict args (rewire w s) = rewired w (takeEvict args s) := by
  unfold takeEvict
  simp only
  split
  · rfl
  · rfl
  · rw [session_rewire]
    split
    · rfl
    · rw [teardown_rewire, setEvicted_rewire, session_rewire]
      exact pair_rewired w rfl _
    · rw [setEvicted_rewire, session_rewire]
      exact pair_rewired w rfl _

theorem takeInspect_rewire : takeInspect args (rewire w s) = rewired w (takeInspect args s) := by
  unfold takeInspect
  simp only
  split <;> rfl

theorem takeWaitlist_rewire : takeWaitlist args (rewire w s) = rewired w (takeWaitlist args s) := ite_map _ Iff.rfl rfl rfl

/-! ### All of them -/

theorem ownerTakes_rewire {c : Command} (hc : c ≠ .restart) :
    ownerTakes c p tag args (rewire w s) = rewired w (ownerTakes c p tag args s) := by
  cases c with
  | open_ => exact takeOpen_rewire ..
  | close => exact takeClose_rewire ..
  | status => exact takeStatus_rewire ..
  | replay => rfl
  | ackErrors => exact takeAckErrors_rewire ..
  | claim => exact takeClaim_rewire ..
  | renew => exact takeRenew_rewire ..
  | release => exact takeRelease_rewire ..
  | downgrade => exact takeDowngrade_rewire ..
  | upgrade => exact takeUpgrade_rewire ..
  | trim => exact takeTrim_rewire ..
  | cancel => exact takeCancel_rewire ..
  | probe => exact takeProbe_rewire ..
  | list => exact takeList_rewire ..
  | read => exact takeAccess_rewire ..
  | write => exact takeAccess_rewire ..
  | fill => exact admitJob_rewire ..
  | copy => exact admitJob_rewire ..
  | sum => exact admitJob_rewire ..
  | stopJob => exact takeStopJob_rewire ..
  | jobState => exact takeJobState_rewire ..
  | collect => exact takeCollect_rewire ..
  | setNotice => exact takeSetNotice_rewire ..
  | clearNotices => exact takeClearNotices_rewire ..
  | configSet => exact takeConfigSet_rewire ..
  | configGet => exact takeConfigGet_rewire ..
  | revoke => exact takeRevoke_rewire ..
  | evict => exact takeEvict_rewire ..
  | inspect => exact takeInspect_rewire ..
  | waitlist => exact takeWaitlist_rewire ..
  | restart => exact absurd rfl hc

theorem takeCommand_rewire {c : Command} (hc : c ≠ .restart) :
    takeCommand c p tag args (rewire w s) = rewired w (takeCommand c p tag args s) := by
  simp only [takeCommand, admission_rewire]
  split
  · rfl
  · exact ownerTakes_rewire w s p tag args hc

end

end Sys2Proof.Machine
end


section
/-! PROOFS. What a frame's judgement and its taking do to the part does not turn on the selections, the answers being
sent, the NOTICE lines and the frames that wait (R107 to R109, R118, R119, R142). -/

namespace Sys2Proof.Machine

/-! ### The tune of a port unit: its wires but for its last reply and its request -/

/-- The selection of a port unit, what it sends, its line, and the frames that wait. -/
structure Tune where
  sel        : SelState
  seenHigh   : Bool
  answer     : Option Sending
  noticeLine : Bool
  deferred   : List Deferred

/-- The tune of a port unit. -/
def PortUnit.tune (u : PortUnit) : Tune := ⟨u.sel, u.seenHigh, u.answer, u.noticeLine, u.deferred⟩

/-- A port unit with another tune. -/
def PortUnit.tuned (u : PortUnit) (v : Tune) : PortUnit :=
  { u with sel := v.sel, seenHigh := v.seenHigh, answer := v.answer, noticeLine := v.noticeLine, deferred := v.deferred }

/-- Wires with another tune. -/
def Wire.tuned (x : Wire) (v : Tune) : Wire :=
  { x with sel := v.sel, seenHigh := v.seenHigh, answer := v.answer, noticeLine := v.noticeLine, deferred := v.deferred }

/-- The part with other tunes at its port units. -/
def retune (v : Port → Tune) (s : State) : State :=
  rewire { wiring s with port := fun p => (s.port p).wire.tuned (v p) } s

/-- The tunes of the port units. -/
def tunes (s : State) (p : Port) : Tune := (s.port p).tune

/-- What a happening does does not turn on the tunes and does not change them. -/
def Deaf (f : State → State) : Prop := ∀ v s, f (retune v s) = retune v (f s)

theorem port_retune (v : Port → Tune) (s : State) (p : Port) : (retune v s).port p = (s.port p).tuned (v p) :=
  port_rewire ..

theorem retune_tunes (s : State) : retune (tunes s) s = s :=
  state_ext_ports (fun p => (port_retune (tunes s) s p).trans rfl) rfl

theorem retune_retune (v v' : Port → Tune) (s : State) : retune v (retune v' s) = retune v s :=
  state_ext_ports (fun p => by rw [port_retune, port_retune, port_retune]; rfl) rfl

theorem tunes_retune (v : Port → Tune) (s : State) : tunes (retune v s) = v :=
  funext fun p => by rw [tunes, port_retune]; rfl

/-- Two states are the same if they are so but for their tunes, and their tunes are. -/
theorem eq_of_retune {s t : State} (h : retune (tunes s) t = s) (ht : tunes t = tunes s) : t = s := by
  rw [← ht, retune_tunes] at h
  exact h

theorem Deaf.tunes {f : State → State} (h : Deaf f) (s : State) : Machine.tunes (f s) = Machine.tunes s := by
  have := h (Machine.tunes s) s
  rw [retune_tunes] at this
  rw [this, tunes_retune]

theorem Deaf.comp {f g : State → State} (hf : Deaf f) (hg : Deaf g) : Deaf fun s => f (g s) := fun v s =>
  (congrArg f (hg v s)).trans (hf v (g s))

theorem deaf_modPort {g : PortUnit → PortUnit} (hg : ∀ u v, g (PortUnit.tuned u v) = (g u).tuned v) (p : Port) :
    Deaf fun s => s.modPort p g := by
  intro v s
  refine state_ext_ports (fun q => ?_) rfl
  rw [port_retune, State.port_modPort, State.port_modPort, port_retune, port_retune]
  by_cases h : q = p
  · rw [if_pos h, if_pos h, hg, h]
  · rw [if_neg h, if_neg h]

/-- What owners do has no ear for the wires, nor for the tunes among them. -/
theorem deaf_of_rewire {f : State → State} (h : ∀ w s, f (rewire w s) = rewire w (f s)) : Deaf f := by
  intro v s
  have hw : wiring (f s) = wiring s := by
    have := h (wiring s) s
    rw [rewire_wiring] at this
    rw [this, wiring_rewire]
  have hwire (p : Port) : ((f s).port p).wire = (s.port p).wire := congrFun (congrArg Wiring.port hw) p
  rw [retune, h, retune, hw]
  simp only [hwire]

theorem wiring_of_rewire {f : State → State} (h : ∀ w s, f (rewire w s) = rewire w (f s)) (s : State) :
    wiring (f s) = wiring s := by
  have := h (wiring s) s
  rw [rewire_wiring] at this
  rw [this, wiring_rewire]

theorem deaf_setError (p : Port) (g : StickyErrors → StickyErrors) : Deaf fun s => setError s p g :=
  deaf_of_rewire fun w s => setError_rewire w s p g

theorem deaf_arrive (us : List User) : Deaf fun s => arrive s us := deaf_of_rewire fun w s => arrive_rewire w s us

theorem deaf_endService : Deaf endService := deaf_of_rewire fun _ _ => rfl

section

variable (v : Port → Tune) (s : State) (p : Port) (tag : Byte) (args : List Byte) (code : Byte) (f : Frame)

theorem judge_retune : judge (retune v s) p code f = judge s p code f := rfl

theorem attnByte_retune : attnByte (retune v s) p = attnByte s p := attnByte_rewire ..

theorem noticeDue_retune : noticeDue (retune v s) p = noticeDue s p :=
  noticeDue_congr rfl (by rw [port_retune]; rfl) rfl

theorem request_retune : ((retune v s).port p).request = (s.port p).request := by rw [port_retune]; rfl

theorem lastReply_retune : ((retune v s).port p).lastReply = (s.port p).lastReply := by rw [port_retune]; rfl

theorem takeCommand_retune (c : Command) : takeCommand c p tag args (retune v s) =
    (retune v (takeCommand c p tag args s).1, (takeCommand c p tag args s).2) := by
  by_cases hc : c = .restart
  · subst hc
    simp only [takeCommand, retune, admission_rewire]
    split <;> rfl
  · have h := fun w s => takeCommand_rewire w s p tag args hc
    have hf : Deaf fun s => (takeCommand c p tag args s).1 := deaf_of_rewire fun w s => congrArg Prod.fst (h w s)
    have ha := congrArg Prod.snd (h { wiring s with port := fun p => (s.port p).wire.tuned (v p) } s)
    exact Prod.ext (hf v s) ha

end

/-! ### What a frame is answered with at once (R112, R119, R120) -/

/-- What the owners leave, the reply that is formed at once, and whether it is kept; nothing for a READ or WRITE that is
handed on (R142). -/
def replyOf (s : State) (p : Port) (code : Byte) (f : Frame) : Option (State × Reply × Bool) :=
  match judge s p code f with
  | .starting => some (s, mkReply .starting f.tag 0 [], false)
  | .oversize => some (setOversize s p, mkReply .badLength f.tag (attnByte (setOversize s p) p) [], false)
  | .badCheck => some (setCheckFailed s p, mkReply .checkFailed f.tag (attnByte (setCheckFailed s p) p) [], false)
  | .refused r => some (s, mkReply r f.tag (attnByte s p) [], !(code == commandCode .replay))
  | .passes .read => none
  | .passes .write => none
  | .passes .replay => some (s, (s.port p).lastReply.getD (mkReply .nothing f.tag (attnByte s p) []), false)
  | .passes c =>
    some ((takeCommand c p f.tag f.args s).1,
      mkReply (takeCommand c p f.tag f.args s).2.code f.tag (attnByte (takeCommand c p f.tag f.args s).1 p)
        (takeCommand c p f.tag f.args s).2.results, true)

/-- The access that a verdict hands on. -/
def accessOf : Verdict → Access
  | .passes .write => .write
  | _ => .read

theorem not_restart_of_judge {s : State} {p : Port} {code : Byte} {f : Frame} (hc : code ≠ commandCode .restart) :
    judge s p code f ≠ .passes .restart := by
  intro h
  unfold judge at h
  split at h
  · cases h
  · split at h
    · cases h
    · split at h
      · cases h
      · split at h
        · cases h
        · next c hcode =>
          split at h
          · cases h
          · split at h
            · cases h
            · cases h
              exact hc (commandCode_of_commandOfCode hcode).symm

section

variable {s : State} {p : Port} {code : Byte} {f : Frame}

/-- R112: a frame that is answered at once. -/
theorem takeFrame_of_reply {cut : Bool} (hc : cut = false ∨ code ≠ commandCode .restart) {t : State} {r : Reply} {k : Bool}
    (h : replyOf s p code f = some (t, r, k)) : takeFrame s p code f cut = (sendReply t p r k cut, []) := by
  unfold replyOf at h
  unfold takeFrame
  cases hj : judge s p code f with
  | starting => rw [hj] at h; cases h; rfl
  | oversize => rw [hj] at h; cases h; rfl
  | badCheck => rw [hj] at h; cases h; rfl
  | refused r => rw [hj] at h; cases h; rfl
  | passes c =>
    rw [hj] at h
    cases c with
    | read => cases h
    | write => cases h
    | replay =>
      cases h
      exact congrArg (·, []) (runReplay_eq ..)
    | restart =>
      obtain rfl : cut = false := hc.resolve_right fun hn => not_restart_of_judge hn hj
      cases h
      rfl
    | _ => cases h; rfl

/-- R142: a frame that is handed on. -/
theorem takeFrame_of_request (cut : Bool) (h : replyOf s p code f = none) :
    takeFrame s p code f cut = (register s p (accessOf (judge s p code f)) f cut, [.port p]) := by
  unfold replyOf at h
  unfold takeFrame
  cases hj : judge s p code f with
  | passes c =>
    rw [hj] at h
    cases c with
    | read => rfl
    | write => rfl
    | _ => cases h
  | _ => rw [hj] at h; cases h

theorem wiring_setError (s : State) (p : Port) (g : StickyErrors → StickyErrors) : wiring (setError s p g) = wiring s :=
  wiring_of_rewire (f := fun s => setError s p g) (fun w s => setError_rewire w s p g) s

/-- Of a frame that is not RESTART, what the owners leave has the wiring that they found. -/
theorem wiring_replyOf (hc : code ≠ commandCode .restart) {t : State} {r : Reply} {k : Bool}
    (h : replyOf s p code f = some (t, r, k)) : wiring t = wiring s := by
  unfold replyOf at h
  cases hj : judge s p code f with
  | starting => rw [hj] at h; cases h; rfl
  | oversize => rw [hj] at h; cases h; exact wiring_setError ..
  | badCheck => rw [hj] at h; cases h; exact wiring_setError ..
  | refused r => rw [hj] at h; cases h; rfl
  | passes c =>
    have taken (hne : c ≠ .restart) : wiring (takeCommand c p f.tag f.args s).1 = wiring s :=
      wiring_of_rewire (f := fun s => (takeCommand c p f.tag f.args s).1)
        (fun w s => congrArg Prod.fst (takeCommand_rewire w s p f.tag f.args hne)) s
    rw [hj] at h
    cases c with
    | read => cases h
    | write => cases h
    | replay => cases h; rfl
    | restart => exact absurd hj (not_restart_of_judge hc)
    | _ => cases h; exact taken (by decide)

end

theorem replyOf_retune (v : Port → Tune) (s : State) (p : Port) (code : Byte) (f : Frame) :
    replyOf (retune v s) p code f = (replyOf s p code f).map fun x => (retune v x.1, x.2) := by
  have herr (g : StickyErrors → StickyErrors) : setError (retune v s) p g = retune v (setError s p g) := deaf_setError p g v s
  unfold replyOf
  rw [judge_retune]
  cases hj : judge s p code f with
  | starting => rfl
  | oversize => simp only [setOversize, herr, attnByte_retune, Option.map_some]
  | badCheck => simp only [setCheckFailed, herr, attnByte_retune, Option.map_some]
  | refused r => simp only [attnByte_retune, Option.map_some]
  | passes c =>
    cases c with
    | read => rfl
    | write => rfl
    | replay => simp only [attnByte_retune, lastReply_retune, Option.map_some]
    | _ => simp only [takeCommand_retune, attnByte_retune, Option.map_some]

/-! ### Replies and requests -/

/-- R119: the part once a reply is kept, if it is one that is. -/
def keepReply (s : State) (p : Port) (r : Reply) (kept : Bool) : State :=
  if kept then s.modPort p fun u => { u with lastReply := some r } else s

/-- R118: the part once a reply has been formed whose selection has ended. -/
def cutShort (s : State) (p : Port) (kept : Bool) : State := if kept then setReplyCut s p else s

theorem sendReply_true (s : State) (p : Port) (r : Reply) (k : Bool) :
    sendReply s p r k true = cutShort (keepReply s p r k) p k := rfl

theorem sendReply_false (s : State) (p : Port) (r : Reply) (k : Bool) : sendReply s p r k false =
    (keepReply s p r k).modPort p fun u => { u with answer := some { reply := r, kept := k } } := rfl

theorem deaf_keepReply (p : Port) (r : Reply) (k : Bool) : Deaf fun s => keepReply s p r k := by
  cases k with
  | false => exact fun _ _ => rfl
  | true => exact deaf_modPort (g := fun u => { u with lastReply := some r }) (fun _ _ => rfl) p

theorem deaf_cutShort (p : Port) (k : Bool) : Deaf fun s => cutShort s p k := by
  cases k with
  | false => exact fun _ _ => rfl
  | true => exact deaf_setError p fun e => { e with replyCut := true }

/-- R142: a request at its port. -/
def withRequest (s : State) (p : Port) (a : Access) (f : Frame) (cut : Bool) : State :=
  s.modPort p fun u => { u with request := some { access := a, tag := f.tag, args := f.args, cut := cut } }

theorem register_eq (s : State) (p : Port) (a : Access) (f : Frame) (cut : Bool) :
    register s p a f cut = cutShort (withRequest s p a f cut) p cut := rfl

theorem deaf_withRequest (p : Port) (a : Access) (f : Frame) (cut : Bool) : Deaf fun s => withRequest s p a f cut :=
  deaf_modPort (g := fun u => { u with request := some { access := a, tag := f.tag, args := f.args, cut := cut } })
    (fun _ _ => rfl) p

/-- R112, R118: the taking of a frame whose selection has ended. -/
theorem deaf_takeFrame (p : Port) {code : Byte} (hc : code ≠ commandCode .restart) (f : Frame) (v : Port → Tune) (s : State) :
    takeFrame (retune v s) p code f true = (retune v (takeFrame s p code f true).1, (takeFrame s p code f true).2) := by
  have hr := replyOf_retune v s p code f
  cases h : replyOf s p code f with
  | none =>
    rw [h] at hr
    rw [takeFrame_of_request true h, takeFrame_of_request true hr, judge_retune, register_eq, register_eq]
    exact congrArg (·, _) ((deaf_cutShort p true).comp (deaf_withRequest p _ f true) v s)
  | some x =>
    obtain ⟨t, r, k⟩ := x
    rw [h] at hr
    rw [takeFrame_of_reply (.inr hc) h, takeFrame_of_reply (.inr hc) hr, sendReply_true, sendReply_true]
    exact congrArg (·, _) ((deaf_cutShort p k).comp (deaf_keepReply p r k) v t)

end Sys2Proof.Machine
end


section
/-! PROOFS. The frames that wait for an earlier reply, and the judgement of the last of them (R108, R112, R118, R119,
R137). -/

namespace Sys2Proof.Machine

/-! ### Frames that wait -/

/-- The part with other frames waiting at a port. -/
def withWaiting (s : State) (p : Port) (ds : List Deferred) : State := s.modPort p fun u => { u with deferred := ds }

theorem waiting_withWaiting (s : State) (p : Port) (ds : List Deferred) : ((withWaiting s p ds).port p).deferred = ds := by
  rw [withWaiting, State.port_modPort_same]

theorem withWaiting_withWaiting (s : State) (p : Port) (ds ds' : List Deferred) :
    withWaiting (withWaiting s p ds) p ds' = withWaiting s p ds' := by
  refine state_ext_ports (fun q => ?_) rfl
  simp only [withWaiting, State.port_modPort]
  by_cases h : q = p
  · subst h; simp
  · simp [h]

theorem withWaiting_self (s : State) (p : Port) : withWaiting s p (s.port p).deferred = s := by
  refine state_ext_ports (fun q => ?_) rfl
  rw [withWaiting, State.port_modPort]
  split
  · next h => rw [h]
  · rfl

theorem withWaiting_eq_retune (s : State) (p : Port) (ds : List Deferred) :
    withWaiting s p ds = retune (fun q => if q = p then { tunes s p with deferred := ds } else tunes s q) s := by
  refine state_ext_ports (fun q => ?_) rfl
  rw [port_retune, withWaiting, State.port_modPort]
  by_cases h : q = p
  · subst h
    rw [if_pos rfl, if_pos rfl]
    rfl
  · rw [if_neg h, if_neg h]
    rfl

theorem Deaf.withWaiting {f : State → State} (h : Deaf f) (s : State) (p : Port) (ds : List Deferred) :
    f (Machine.withWaiting s p ds) = Machine.withWaiting (f s) p ds := by
  rw [withWaiting_eq_retune, h, withWaiting_eq_retune, h.tunes]

/-- What is steady while a port's frames whose selections have ended are judged: the pins and the tunes, and the port
has a last reply once it has one. -/
structure Steady (p : Port) (s t : State) : Prop where
  restartPending : t.restartPending = s.restartPending
  resetLow       : t.resetLow = s.resetLow
  lastReply      : (s.port p).lastReply ≠ none → (t.port p).lastReply ≠ none

theorem Steady.trans {p : Port} {s t u : State} (h : Steady p s t) (k : Steady p t u) : Steady p s u :=
  ⟨k.restartPending.trans h.restartPending, k.resetLow.trans h.resetLow, fun hl => k.lastReply (h.lastReply hl)⟩

theorem steady_of_wiring {p : Port} {s t : State} (h : wiring t = wiring s) : Steady p s t :=
  ⟨congrArg Wiring.restartPending h, congrArg Wiring.resetLow h, fun hl => by
    have : (t.port p).wire = (s.port p).wire := congrFun (congrArg Wiring.port h) p
    have : (t.port p).lastReply = (s.port p).lastReply := congrArg Wire.lastReply this
    rwa [this]⟩

theorem steady_modPort (p : Port) (s : State) (g : PortUnit → PortUnit)
    (h : (s.port p).lastReply ≠ none → (g (s.port p)).lastReply ≠ none) : Steady p s (s.modPort p g) :=
  ⟨rfl, rfl, fun hl => by rw [State.port_modPort_same]; exact h hl⟩

theorem steady_cutShort (p : Port) (s : State) (k : Bool) : Steady p s (cutShort s p k) := by
  cases k with
  | false => exact ⟨rfl, rfl, id⟩
  | true => exact steady_of_wiring (t := setReplyCut s p) (wiring_setError s p _)

theorem steady_keepReply (p : Port) (s : State) (r : Reply) (k : Bool) : Steady p s (keepReply s p r k) := by
  cases k with
  | false => exact ⟨rfl, rfl, id⟩
  | true => exact steady_modPort p s (fun u => { u with lastReply := some r }) fun _ => Option.some_ne_none r

theorem steady_arrive (p : Port) (s : State) (us : List User) : Steady p s (arrive s us) :=
  steady_of_wiring (wiring_of_rewire (f := fun s => arrive s us) (fun w s => arrive_rewire w s us) s)

theorem steady_takeFrame (p : Port) (s : State) {code : Byte} (hc : code ≠ commandCode .restart) (f : Frame) :
    Steady p s (takeFrame s p code f true).1 := by
  cases h : replyOf s p code f with
  | none =>
    rw [takeFrame_of_request true h, register_eq]
    have hset : Steady p s (withRequest s p (accessOf (judge s p code f)) f true) := steady_modPort p s _ id
    exact hset.trans (steady_cutShort p (withRequest s p (accessOf (judge s p code f)) f true) true)
  | some x =>
    obtain ⟨t, r, k⟩ := x
    rw [takeFrame_of_reply (.inr hc) h, sendReply_true]
    exact ((steady_of_wiring (wiring_replyOf hc h)).trans (steady_keepReply p t r k)).trans (steady_cutShort ..)

/-- A frame judged and taken, and its request at the arbiter. -/
def takeAndArrive (s : State) (p : Port) (d : Deferred) : State :=
  arrive (takeFrame s p d.code d.frame d.cut).1 (takeFrame s p d.code d.frame d.cut).2

theorem deaf_takeAndArrive (p : Port) {d : Deferred} (hcut : d.cut = true) (hc : d.code ≠ commandCode .restart) :
    Deaf fun s => takeAndArrive s p d := by
  intro v s
  simp only [takeAndArrive, hcut, deaf_takeFrame p hc]
  exact deaf_arrive _ v _

theorem steady_takeAndArrive (p : Port) (s : State) {d : Deferred} (hcut : d.cut = true)
    (hc : d.code ≠ commandCode .restart) : Steady p s (takeAndArrive s p d) := by
  rw [takeAndArrive, hcut]
  exact (steady_takeFrame p s hc d.frame).trans (steady_arrive ..)

theorem drainDeferred_cons {s : State} {p : Port} {d : Deferred} {ds : List Deferred} (n : Nat)
    (h : (s.port p).deferred = d :: ds) : drainDeferred (n + 1) p s =
      if (s.port p).request.isSome then s else drainDeferred n p (takeAndArrive (withWaiting s p ds) p d) := by
  rw [drainDeferred, h] <;> rfl

/-- The request of a port does not turn on the frames that wait. -/
theorem request_withWaiting (s : State) (p : Port) (ds : List Deferred) :
    ((withWaiting s p ds).port p).request = (s.port p).request := by
  rw [withWaiting, State.port_modPort_same]

/-- R118: one more frame at the end of those that wait. -/
structure DrainsTo (p : Port) (d : Deferred) (s m t : State) : Prop where
  steady  : Steady p s m
  tune    : ∀ q, tunes m q = if q = p then { tunes s p with deferred := (m.port p).deferred } else tunes s q
  waits   : (m.port p).request ≠ none → t = withWaiting m p ((m.port p).deferred ++ [d])
  judged  : (m.port p).request = none → (m.port p).deferred = [] ∧ t = takeAndArrive m p d

theorem drainsTo_self {p : Port} {d : Deferred} {s t : State}
    (h : (s.port p).request ≠ none → t = withWaiting s p ((s.port p).deferred ++ [d]))
    (h' : (s.port p).request = none → (s.port p).deferred = [] ∧ t = takeAndArrive s p d) : DrainsTo p d s s t := by
  refine ⟨⟨rfl, rfl, id⟩, fun q => ?_, h, h'⟩
  split
  · next h => rw [h]; rfl
  · rfl

theorem drainsTo_drainDeferred (p : Port) (d : Deferred) (ds : List Deferred)
    (hds : ∀ o ∈ ds, o.cut = true ∧ o.code ≠ commandCode .restart) (s : State) (hs : (s.port p).deferred = ds) :
    DrainsTo p d s (drainDeferred ds.length p s) (drainDeferred (ds.length + 1) p (withWaiting s p (ds ++ [d]))) := by
  induction ds generalizing s with
  | nil =>
    have hcons := drainDeferred_cons 0 (s := withWaiting s p [d]) (waiting_withWaiting s p [d])
    have hself : withWaiting (withWaiting s p [d]) p [] = s := by rw [withWaiting_withWaiting, ← hs, withWaiting_self]
    rw [request_withWaiting, hself] at hcons
    rw [List.length_nil, List.nil_append, hcons]
    refine drainsTo_self (fun hr => ?_) fun hr => ⟨hs, ?_⟩
    · rw [if_pos (Option.isSome_iff_ne_none.2 hr), hs]
      rfl
    · rw [hr]
      rfl
  | cons o ds ih =>
    obtain ⟨⟨hcut, hc⟩, hds⟩ := List.forall_mem_cons.1 hds
    rw [List.length_cons, List.cons_append, drainDeferred_cons ds.length hs,
      drainDeferred_cons (ds.length + 1) (waiting_withWaiting s p (o :: (ds ++ [d]))), request_withWaiting,
      withWaiting_withWaiting]
    by_cases hr : (s.port p).request = none
    · have hdeaf := deaf_takeAndArrive p hcut hc
      set s1 := takeAndArrive (withWaiting s p ds) p o with hs1
      have htunes : tunes s1 = tunes (withWaiting s p ds) := hdeaf.tunes _
      have hlast : takeAndArrive (withWaiting s p (ds ++ [d])) p o = withWaiting s1 p (ds ++ [d]) := by
        rw [hs1, ← hdeaf.withWaiting, withWaiting_withWaiting]
      have hwait : (s1.port p).deferred = ds :=
        (congrArg Tune.deferred (congrFun htunes p)).trans (waiting_withWaiting s p ds)
      rw [hr, if_neg (by decide), if_neg (by decide), hlast]
      obtain ⟨hsteady, htune, hwaits, hjudged⟩ := ih hds s1 hwait
      refine ⟨((steady_modPort p s _ id).trans (steady_takeAndArrive p _ hcut hc)).trans hsteady, fun q => ?_, hwaits,
        hjudged⟩
      rw [htune q, htunes, withWaiting_eq_retune, tunes_retune]
      by_cases hq : q = p
      · simp [hq]
      · simp [hq]
    · rw [if_pos (Option.isSome_iff_ne_none.2 hr), if_pos (Option.isSome_iff_ne_none.2 hr)]
      exact drainsTo_self (fun _ => by rw [hs]; rfl) fun h => absurd h hr

end Sys2Proof.Machine
end


section
/-! PROOFS. The judgement of the last frame that waits, as of one that completes when the earlier replies have been formed
(R108, R112, R118, R137, R142). -/

namespace Sys2Proof.Machine

/-! ### The end of a happening and the tunes (R137) -/

/-- A tune with another line. -/
def Tune.withLine (v : Tune) (line : Bool) : Tune := { v with noticeLine := line }

theorem Tune.withLine_congr {a b : Tune} (h : a.withLine false = b.withLine false) (line : Bool) :
    a.withLine line = b.withLine line := by
  have := congrArg (Tune.withLine · line) h
  exact this

theorem tunes_settleNotices (s : State) (q : Port) : tunes (settleNotices s) q = (tunes s q).withLine (noticeDue s q) := by
  rw [tunes, State.port_settleNotices]
  rfl

theorem tunes_modPort (s : State) (p q : Port) (g : PortUnit → PortUnit) :
    tunes (s.modPort p g) q = if q = p then (g (s.port p)).tune else tunes s q := by
  rw [tunes, State.port_modPort]
  split <;> rfl

theorem retune_settleNotices (v : Port → Tune) (s : State) : retune v (settleNotices s) = retune v s :=
  state_ext_ports (fun p => by rw [port_retune, port_retune, State.port_settleNotices]; rfl) rfl

/-- A change of the tune of a port unit is lost when the tunes are changed. -/
theorem retune_modPort (v : Port → Tune) (s : State) (p : Port) {g : PortUnit → PortUnit}
    (hg : ∀ u w, (g u).tuned w = PortUnit.tuned u w) : retune v (s.modPort p g) = retune v s := by
  refine state_ext_ports (fun q => ?_) rfl
  rw [port_retune, port_retune, State.port_modPort]
  split
  · next h => rw [hg, h]
  · rfl

/-- R137: the lines in agreement, whatever they were before. -/
theorem settleNotices_congr {s t : State} (h : retune (tunes s) t = s)
    (hl : ∀ q, (tunes t q).withLine false = (tunes s q).withLine false) : settleNotices t = settleNotices s := by
  have hdue (q : Port) : noticeDue t q = noticeDue s q := by rw [← noticeDue_retune (tunes s) t, h]
  refine eq_of_retune ?_ (funext fun q => ?_)
  · rw [retune_settleNotices]
    have := retune_retune (tunes (settleNotices s)) (tunes s) t
    rw [h] at this
    rw [← this, ← retune_settleNotices (tunes (settleNotices s)) s, retune_tunes]
  · rw [tunes_settleNotices, tunes_settleNotices, hdue]
    exact Tune.withLine_congr (hl q) _

theorem settleNotices_eq_retune (s : State) : settleNotices s = retune (fun q => (tunes s q).withLine (noticeDue s q)) s :=
  state_ext_ports (fun p => by rw [port_retune, State.port_settleNotices]; rfl) rfl

/-! ### The deselection after the reply (R118) -/

theorem noticeDue_modPort {s : State} {p : Port} {g : PortUnit → PortUnit} (hg : ∀ u, (g u).notices = u.notices)
    (q : Port) : noticeDue (s.modPort p g) q = noticeDue s q := by
  refine noticeDue_congr rfl ?_ rfl
  rw [State.port_modPort]
  split
  · next h => rw [hg, h]
  · rfl

theorem cutShort_true (s : State) (p : Port) :
    cutShort s p true = setError s p fun e => { e with replyCut := true } := rfl

theorem noticeDue_cutShort (s : State) (p : Port) (k : Bool) (q : Port) : noticeDue (cutShort s p k) q = noticeDue s q := by
  cases k with
  | false => rfl
  | true =>
    have herr := noticeDue_modPort (s := s) (p := p)
      (g := fun u => { u with errors := { u.errors with replyCut := true } }) (fun _ => rfl) q
    rw [cutShort_true, setError]
    split
    · rfl
    · exact herr

theorem noticeDue_arrive (s : State) (us : List User) (q : Port) : noticeDue (arrive s us) q = noticeDue s q := by
  rw [arrive_eq]
  rfl

theorem cutReply_sent {s : State} {p : Port} {r : Reply} {k : Bool}
    (h : (s.port p).answer = some { reply := r, kept := k }) : cutReply s p = cutShort s p k := by
  rw [cutReply, h]
  rfl

theorem cutReply_requested {s : State} {p : Port} {a : Access} {f : Frame} (ha : (s.port p).answer = none)
    (hd : (s.port p).deferred = [])
    (hr : (s.port p).request = some { access := a, tag := f.tag, args := f.args, cut := false }) :
    cutReply s p = cutShort (withRequest s p a f true) p true := by
  simp only [cutReply, ha, hd, hr]
  rfl

theorem arrive_modPort (s : State) (p : Port) (g : PortUnit → PortUnit) (us : List User) :
    arrive (s.modPort p g) us = (arrive s us).modPort p g :=
  ite_map (fun s : State => s.modPort p g) Iff.rfl rfl (ite_map (fun s : State => s.modPort p g) Iff.rfl rfl rfl)

theorem arrive_cutShort (s : State) (p : Port) (k : Bool) (us : List User) :
    arrive (cutShort s p k) us = cutShort (arrive s us) p k := by
  cases k with
  | false => rfl
  | true =>
    have hc : clearing (arrive s us) = clearing s := by rw [arrive_eq]; rfl
    rw [cutShort_true, cutShort_true, setError, setError, hc]
    split
    · rfl
    · exact arrive_modPort ..

theorem withRequest_withRequest (s : State) (p : Port) (a : Access) (f : Frame) (cut cut' : Bool) :
    withRequest (withRequest s p a f cut) p a f cut' = withRequest s p a f cut' := by
  refine state_ext_ports (fun q => ?_) rfl
  simp only [withRequest, State.port_modPort]
  by_cases h : q = p
  · subst h; simp
  · simp [h]

/-- The port unit as the selection of a later frame has it: a frame of an earlier one is judged, cut off, and the
selection, its line and its answer are put back. -/
def putBack (s : State) (p : Port) (v : Tune) : State :=
  s.modPort p fun u => { u with sel := v.sel, seenHigh := v.seenHigh, answer := v.answer }

theorem retune_putBack (v : Port → Tune) (s : State) (p : Port) (x : Tune) : retune v (putBack s p x) = retune v s :=
  retune_modPort v s p fun _ _ => rfl

theorem retune_toIdle (v : Port → Tune) (s : State) (p : Port) : retune v (toIdle s p) = retune v s :=
  retune_modPort v s p fun _ _ => rfl

/-- R118: a frame judged and then cut off, against one that was judged as cut off: `n` is the part after the first
judgement, `z` after the second. -/
theorem putBack_cutReply {n z : State} {p : Port} {cutOff : State → State} (hdeaf : Deaf cutOff)
    (hcut : cutReply (settleNotices n) p = cutOff (settleNotices n)) (hcore : cutOff (retune (tunes z) n) = z)
    (hdue : ∀ q, noticeDue n q = noticeDue z q)
    (htunes : ∀ q, q ≠ p → (tunes n q).withLine false = (tunes z q).withLine false)
    (hwait : (tunes n p).deferred = (tunes z p).deferred) :
    putBack (toIdle (cutReply (settleNotices n) p) p) p (tunes z p) = settleNotices z := by
  refine eq_of_retune ?_ (funext fun q => ?_)
  · rw [retune_putBack, retune_toIdle, hcut, ← hdeaf,
      retune_settleNotices, ← retune_retune _ (tunes z), hdeaf, hcore, ← retune_settleNotices, retune_tunes]
  · rw [putBack, tunes_modPort, toIdle, tunes_modPort, hcut, hdeaf.tunes, tunes_settleNotices, tunes_settleNotices, hdue]
    by_cases hq : q = p
    · subst hq
      rw [if_pos rfl, State.port_modPort_same]
      have htune : ((cutOff (settleNotices n)).port q).tune = (tunes n q).withLine (noticeDue z q) := by
        rw [← hdue, ← tunes_settleNotices, ← hdeaf.tunes]
        rfl
      have hl : ((cutOff (settleNotices n)).port q).noticeLine = noticeDue z q := congrArg Tune.noticeLine htune
      have hd : ((cutOff (settleNotices n)).port q).deferred = (tunes z q).deferred :=
        (congrArg Tune.deferred htune).trans hwait
      simp only [PortUnit.tune, hl, hd, Tune.withLine]
    · rw [if_neg hq, if_neg hq]
      exact Tune.withLine_congr (htunes q hq) _

end Sys2Proof.Machine
end


section
/-! PROOFS. The frames that wait when the arbiter has served a port, and what the judgement answers (R108, R112 to R115,
R118, R123, R142). -/

namespace Sys2Proof.Machine

/-! ### The service that the frames wait for (R142) -/

/-- R142: the part after the service of a port's request, before the frames that wait are judged. -/
def servedPart (p : Port) (r : Request) (s : State) : State :=
  let x := takeCommand (accessCommand r.access) p r.tag r.args (s.modPort p fun u => { u with request := none })
  endService (answerFrame x.1 p r.tag x.2 true r.cut)

theorem serveRequest_eq (s : State) (p : Port) (r : Request) : serveRequest s p r =
    drainDeferred ((servedPart p r s).port p).deferred.length p (servedPart p r s) := rfl

theorem deaf_servedPart (p : Port) {r : Request} (hcut : r.cut = true) : Deaf (servedPart p r) := by
  intro v s
  have hstart : (retune v s).modPort p (fun u => { u with request := none }) =
      retune v (s.modPort p fun u => { u with request := none }) :=
    deaf_modPort (g := fun u => { u with request := none }) (fun _ _ => rfl) p v s
  simp only [servedPart, hstart, takeCommand_retune, answerFrame, hcut, attnByte_retune, sendReply_true]
  exact (deaf_endService.comp ((deaf_cutShort p true).comp (deaf_keepReply p _ true))) v _

theorem servedPart_pins {p : Port} {r : Request} (hcut : r.cut = true) (s : State) :
    (servedPart p r s).restartPending = s.restartPending ∧ (servedPart p r s).resetLow = s.resetLow ∧
      ((servedPart p r s).port p).lastReply ≠ none := by
  have hne : accessCommand r.access ≠ .restart := by cases r.access <;> decide
  set s1 := s.modPort p fun u => { u with request := none } with hs1
  set x := takeCommand (accessCommand r.access) p r.tag r.args s1 with hx
  have hw : wiring x.1 = wiring s1 := wiring_of_rewire
    (f := fun s => (takeCommand (accessCommand r.access) p r.tag r.args s).1)
    (fun w s => congrArg Prod.fst (takeCommand_rewire w s p r.tag r.args hne)) s1
  set y := keepReply x.1 p (mkReply x.2.code r.tag (attnByte x.1 p) x.2.results) true with hy
  have hserved : servedPart p r s = endService (cutShort y p true) := by
    rw [servedPart, hcut, answerFrame, sendReply_true]
  have hlast : (y.port p).lastReply ≠ none := by
    have : (y.port p).lastReply = some (mkReply x.2.code r.tag (attnByte x.1 p) x.2.results) := by
      rw [hy, keepReply, if_pos rfl, State.port_modPort_same]
    rw [this]
    exact Option.some_ne_none _
  have k := steady_cutShort p y true
  have kept := (steady_of_wiring (p := p) hw).trans ((steady_keepReply p x.1 _ true).trans k)
  rw [hserved]
  exact ⟨kept.restartPending, kept.resetLow, k.lastReply hlast⟩

/-! ### The last frame that waits -/

theorem tunes_replyOf {s t : State} {p : Port} {code : Byte} {f : Frame} {r : Reply} {k : Bool}
    (h : replyOf s p code f = some (t, r, k)) : tunes t = tunes s := by
  have hr := replyOf_retune (tunes s) s p code f
  rw [retune_tunes, h] at hr
  have ht : t = retune (tunes s) t := congrArg Prod.fst (Option.some.inj hr)
  rw [ht, tunes_retune]

theorem replyOf_retune_some {s t : State} {p : Port} {code : Byte} {f : Frame} {r : Reply} {k : Bool}
    (h : replyOf s p code f = some (t, r, k)) (w : Port → Tune) : replyOf (retune w s) p code f = some (retune w t, r, k) := by
  rw [replyOf_retune, h]
  rfl

theorem replyOf_retune_none {s : State} {p : Port} {code : Byte} {f : Frame} (h : replyOf s p code f = none)
    (w : Port → Tune) : replyOf (retune w s) p code f = none := by
  rw [replyOf_retune, h]
  rfl

/-- The taking of a frame, and its request at the arbiter. -/
def frameTaken (s : State) (p : Port) (code : Byte) (f : Frame) (cut : Bool) : State :=
  arrive (takeFrame s p code f cut).1 (takeFrame s p code f cut).2

theorem frameTaken_of_reply {s t : State} {p : Port} {code : Byte} {f : Frame} {cut : Bool} {r : Reply} {k : Bool}
    (hc : cut = false ∨ code ≠ commandCode .restart) (h : replyOf s p code f = some (t, r, k)) :
    frameTaken s p code f cut = sendReply t p r k cut := by
  rw [frameTaken, takeFrame_of_reply hc h, arrive_nil]

theorem frameTaken_of_request {s : State} {p : Port} {code : Byte} {f : Frame} (cut : Bool)
    (h : replyOf s p code f = none) : frameTaken s p code f cut =
      arrive (register s p (accessOf (judge s p code f)) f cut) [.port p] := by
  rw [frameTaken, takeFrame_of_request cut h]

/-- A port unit that sends a reply. -/
def sending (s : State) (p : Port) (x : Sending) : State := s.modPort p fun u => { u with answer := some x }

theorem tunes_sending (s : State) (p q : Port) (x : Sending) :
    tunes (sending s p x) q = if q = p then { tunes s p with answer := some x } else tunes s q := tunes_modPort ..

theorem retune_sending (v : Port → Tune) (s : State) (p : Port) (x : Sending) :
    retune v (sending s p x) = retune v s := retune_modPort v s p fun _ _ => rfl

theorem port_arrive (s : State) (us : List User) (q : Port) : (arrive s us).port q = s.port q := by
  rw [arrive_eq]
  rfl

theorem request_withRequest (s : State) (p : Port) (a : Access) (f : Frame) (cut : Bool) :
    ((withRequest s p a f cut).port p).request = some { access := a, tag := f.tag, args := f.args, cut := cut } := by
  rw [withRequest, State.port_modPort_same]

theorem noticeDue_withRequest (s : State) (p : Port) (a : Access) (f : Frame) (cut : Bool) (q : Port) :
    noticeDue (withRequest s p a f cut) q = noticeDue s q :=
  noticeDue_modPort (g := fun u => { u with request := some { access := a, tag := f.tag, args := f.args, cut := cut } })
    (fun _ => rfl) q

/-- R108: the lines are nothing to the judgement of a frame. -/
theorem settled_frameTaken_retune {m : State} {w : Port → Tune} (p : Port) (code : Byte) (f : Frame)
    (hw : ∀ q, (w q).withLine false = (tunes m q).withLine false) :
    settleNotices (frameTaken (retune w m) p code f false) = settleNotices (frameTaken m p code f false) := by
  cases h : replyOf m p code f with
  | none =>
    have hdeaf : Deaf fun s => arrive (withRequest s p (accessOf (judge m p code f)) f false) [.port p] :=
      (deaf_arrive _).comp (deaf_withRequest p _ f false)
    rw [frameTaken_of_request false h, frameTaken_of_request false (replyOf_retune_none h w), judge_retune, register_eq,
      register_eq]
    refine (congrArg settleNotices (hdeaf w m)).trans (settleNotices_congr ?_ fun q => ?_)
    · rw [retune_retune]
      exact retune_tunes _
    · rw [tunes_retune, hw]
      exact congrArg (Tune.withLine · false) (congrFun (hdeaf.tunes m).symm q)
  | some x =>
    obtain ⟨t, r, k⟩ := x
    have hkeep : keepReply (retune w t) p r k = retune w (keepReply t p r k) := deaf_keepReply p r k w t
    have ht : tunes (keepReply t p r k) = tunes m := ((deaf_keepReply p r k).tunes t).trans (tunes_replyOf h)
    rw [frameTaken_of_reply (.inl rfl) h, frameTaken_of_reply (.inl rfl) (replyOf_retune_some h w), sendReply_false,
      sendReply_false, hkeep]
    refine settleNotices_congr (s := sending (keepReply t p r k) p ⟨r, k⟩)
      (t := sending (retune w (keepReply t p r k)) p ⟨r, k⟩) ?_ fun q => ?_
    · rw [retune_sending, retune_retune, ← retune_sending _ _ p ⟨r, k⟩, retune_tunes]
    · rw [tunes_sending, tunes_sending, tunes_retune, ht]
      split
      · exact congrArg (fun v : Tune => { v with answer := some ⟨r, k⟩ }) (hw p)
      · exact hw q

/-- R118: a frame that is judged in its selection and then cut off, as one whose selection has ended. -/
theorem putBack_frameTaken {m : State} {w : Port → Tune} {p : Port} {code : Byte} {f : Frame}
    (hc : code ≠ commandCode .restart) (hw : ∀ q, q ≠ p → (w q).withLine false = (tunes m q).withLine false)
    (hsel : (w p).sel = .answering) (hans : (w p).answer = none) (hwait : (w p).deferred = [])
    (hempty : (tunes m p).deferred = []) (hlow : m.resetLow = false) (hpend : m.restartPending = false ∨ p ≠ .p0) :
    ∃ n', exec (.deselectionAnswering p) (settleNotices (frameTaken (retune w m) p code f false)) = .next n' ∧
      putBack n' p (tunes m p) = settleNotices (frameTaken m p code f true) := by
  have deselected {n : State} (hs : (tunes n p).sel = .answering) (hr : n.resetLow = m.resetLow)
      (hp : n.restartPending = m.restartPending) : exec (.deselectionAnswering p) (settleNotices n) =
        .next (toIdle (cutReply (settleNotices n) p) p) := by
    refine exec_deselectionAnswering ?_ (hr.trans hlow) (hp ▸ hpend)
    rw [State.port_settleNotices]
    exact hs
  cases h : replyOf m p code f with
  | none =>
    set a := accessOf (judge m p code f) with ha
    set y := arrive (withRequest m p a f false) [.port p] with hy
    set z := arrive (cutShort (withRequest m p a f true) p true) [.port p] with hz
    have hdeaf : Deaf fun s => arrive (withRequest s p a f false) [.port p] := (deaf_arrive _).comp (deaf_withRequest p a f false)
    have hcutOff : Deaf fun s => cutShort (withRequest s p a f true) p true := (deaf_cutShort p true).comp (deaf_withRequest p a f true)
    have hn : frameTaken (retune w m) p code f false = retune w y := by
      rw [frameTaken_of_request false (replyOf_retune_none h w), judge_retune, register_eq]
      exact hdeaf w m
    have hzt : tunes z = tunes m := ((deaf_arrive _).comp hcutOff).tunes m
    have hyreq : (y.port p).request = some { access := a, tag := f.tag, args := f.args, cut := false } := by
      rw [hy, port_arrive, request_withRequest]
    have hdue (q : Port) : noticeDue y q = noticeDue m q := by
      rw [hy, noticeDue_arrive, noticeDue_withRequest]
    have hyz : cutShort (withRequest y p a f true) p true = z := by
      have : withRequest y p a f true = arrive (withRequest m p a f true) [.port p] := by
        rw [hy, withRequest, ← arrive_modPort, ← withRequest, withRequest_withRequest]
      rw [this, hz, arrive_cutShort]
    have hsame : (wiring y).resetLow = m.resetLow ∧ (wiring y).restartPending = m.restartPending := by
      rw [hy, arrive_eq]
      exact ⟨rfl, rfl⟩
    rw [hn, frameTaken_of_request true h, register_eq, ← ha, ← hz]
    refine ⟨_, deselected (by rw [tunes_retune]; exact hsel) hsame.1 hsame.2, ?_⟩
    rw [← hzt]
    refine putBack_cutReply hcutOff (cutReply_requested ?_ ?_ ?_) ?_ (fun q => ?_) (fun q hq => ?_) ?_
    · rw [State.port_settleNotices, port_retune]
      exact hans
    · rw [State.port_settleNotices, port_retune]
      exact hwait
    · rw [State.port_settleNotices, port_retune]
      exact hyreq
    · refine (congrArg (fun s => cutShort (withRequest s p a f true) p true) (retune_retune (tunes z) w y)).trans ?_
      exact (hcutOff (tunes z) y).trans ((congrArg (retune (tunes z)) hyz).trans (retune_tunes z))
    · rw [noticeDue_retune, hdue, hz, noticeDue_arrive, noticeDue_cutShort, noticeDue_withRequest]
    · rw [tunes_retune, hzt, hw q hq]
    · rw [tunes_retune, hzt, hwait, hempty]
  | some x =>
    obtain ⟨t, r, k⟩ := x
    set y := keepReply t p r k with hy
    have hkeep : keepReply (retune w t) p r k = retune w y := deaf_keepReply p r k w t
    have hn : frameTaken (retune w m) p code f false = sending (retune w y) p ⟨r, k⟩ := by
      rw [frameTaken_of_reply (.inl rfl) (replyOf_retune_some h w), sendReply_false, hkeep]
      rfl
    have hz : frameTaken m p code f true = cutShort y p k := by
      rw [frameTaken_of_reply (.inr hc) h, sendReply_true]
    have hyt : tunes y = tunes m := ((deaf_keepReply p r k).tunes t).trans (tunes_replyOf h)
    have hzt : tunes (cutShort y p k) = tunes m := ((deaf_cutShort p k).tunes y).trans hyt
    have hsteady : Steady p m y := (steady_of_wiring (wiring_replyOf hc h)).trans (steady_keepReply p t r k)
    rw [hn, hz]
    refine ⟨_, deselected ?_ hsteady.resetLow hsteady.restartPending, ?_⟩
    · rw [tunes_sending, if_pos rfl, tunes_retune]
      exact hsel
    · rw [← hzt]
      refine putBack_cutReply (deaf_cutShort p k) (cutReply_sent (r := r) ?_) ?_ (fun q => ?_) (fun q hq => ?_) ?_
      · rw [State.port_settleNotices, sending, State.port_modPort_same]
      · rw [retune_sending, retune_retune]
        refine (deaf_cutShort p k (tunes (cutShort y p k)) y).trans ?_
        rw [retune_tunes]
      · rw [noticeDue_cutShort, ← noticeDue_retune (tunes y) (sending _ _ _), retune_sending, retune_retune, retune_tunes]
      · rw [tunes_sending, if_neg hq, tunes_retune, hzt, hw q hq]
      · rw [tunes_sending, if_pos rfl, tunes_retune, hzt, hempty]
        exact hwait

end Sys2Proof.Machine
end


section
/-! PROOFS. The judgement of frames: those that it answers, and the last of those that wait (R108, R112 to R115, R118,
R123, R142). -/

namespace Sys2Proof.Machine

theorem commandCode_injective {c d : Command} (h : commandCode c = commandCode d) : c = d := by
  have := congrArg commandOfCode h
  rw [commandOfCode_commandCode, commandOfCode_commandCode] at this
  exact Option.some.inj this

theorem rowOfCode_commandCode (c : Command) (f : Frame) : rowOfCode (commandCode c) f = rowOf c f := by
  rw [rowOfCode, commandOfCode_commandCode]

/-! ### Frames that their judgement answers (R112 to R115) -/

theorem row_starting {s : State} {code : Byte} {f : Frame} (h : Completes f s) (hl : LinesAgree s)
    (hc : clearing s = true) : ∃ t, exec (rowOfCode code f) s = .next t ∧ OnlyPort f.port s t ∧ t.sessions = s.sessions ∧
      t.port f.port = { s.port f.port with
        sel := .answering, answer := some { reply := mkReply .starting f.tag 0 [], kept := false } } := by
  have hj := judge_starting f.port code f hc
  rw [← judge_beginAnswer s f.port f.port] at hj
  have ht : takeFrame (beginAnswer s f.port) f.port code f false =
      (sendReply (beginAnswer s f.port) f.port (mkReply .starting f.tag 0 []) false false, []) := by
    rw [takeFrame, hj]
  obtain ⟨t, hexec, honly, hsessions, hport, -⟩ := row_unkept h hl ht (onlyUnit_beginAnswer ..)
    (e := (s.port f.port).errors) (port_beginAnswer_same ..)
  exact ⟨t, hexec, honly, hsessions, hport⟩

theorem row_badCheck {s : State} {code : Byte} {f : Frame} (h : Completes f s) (h72 : f.args.length ≤ 72)
    (hl : LinesAgree s) (hc : clearing s = false) (hon : (s.session f.port).checking = true)
    (hm : checkMatches code f = false) :
    ∃ t, exec (rowOfCode code f) s = .next t ∧ OnlyPort f.port s t ∧ t.sessions = s.sessions ∧
      t.port f.port = { s.port f.port with
        sel := .answering, errors := { (s.port f.port).errors with checkFailed := true }
        answer := some { reply := mkReply .checkFailed f.tag (attnByte t f.port) [], kept := false } } := by
  have hj := judge_badCheck hc h72 hon hm
  rw [← judge_beginAnswer s f.port f.port] at hj
  set m := setCheckFailed (beginAnswer s f.port) f.port with hset
  have hclear : clearing (beginAnswer s f.port) = false := hc
  have hport : m.port f.port = { s.port f.port with
      sel := .answering, answer := none, errors := { (s.port f.port).errors with checkFailed := true } } := by
    rw [hset, setCheckFailed, port_setError, hclear, port_beginAnswer_same]
    rfl
  have ht : takeFrame (beginAnswer s f.port) f.port code f false =
      (sendReply m f.port (mkReply .checkFailed f.tag (attnByte m f.port) []) false false, []) := by
    rw [takeFrame, hj]
    rfl
  obtain ⟨t, hexec, honly, hsessions, hp, hattn⟩ := row_unkept h hl ht
    ((onlyUnit_beginAnswer ..).trans (onlyUnit_setError ..)) hport
  exact ⟨t, hexec, honly, hsessions, by rw [hp, hattn]⟩

/-- A frame of a command that steps 5 and 6 refuse. -/
theorem answers_refused {s : State} {c : Command} {f : Frame} {r : ResultCode} (h : Completes f s) (hl : LinesAgree s)
    (hj : judge s f.port (commandCode c) f = .refused r) (hc : c ≠ .replay) : Answers c f s r [] := by
  have := row_refused h hl hj fun hcode => hc (commandCode_injective hcode)
  rwa [rowOfCode_commandCode] at this

theorem answers_notSupervisor {s : State} {c : Command} {f : Frame} (h : Completes f s) (h72 : f.args.length ≤ 72)
    (hl : LinesAgree s) (hc : clearing s = false)
    (hcheck : (s.session f.port).checking = false ∨ checkMatches (commandCode c) f = true) (hsup : isSupervision c = true)
    (hp : f.port ≠ .p0) : Answers c f s .notSupervisor [] := by
  refine answers_refused h hl ?_ (by rintro rfl; cases hsup)
  rw [judge_checked hc h72 hcheck, commandOfCode_commandCode]
  simp [hsup, hp]

theorem answers_badLength {s : State} {c : Command} {f : Frame} (h : Completes f s) (h72 : f.args.length ≤ 72)
    (hl : LinesAgree s) (hc : clearing s = false)
    (hcheck : (s.session f.port).checking = false ∨ checkMatches (commandCode c) f = true)
    (hrole : isSupervision c = false ∨ f.port = .p0) (hlen : lengthOk c f.args = false) (hne : c ≠ .replay) :
    Answers c f s .badLength [] := by
  refine answers_refused h hl ?_ hne
  rw [judge_checked hc h72 hcheck, commandOfCode_commandCode]
  rcases hrole with hrole | hrole <;> simp [hrole, hlen]

/-! ### The frames that wait when the arbiter serves a request (R142) -/

/-- R118: the last frame that waits is left over, or judged, once those before it have been. -/
theorem drainsTo_serveRequest {s : State} {p : Port} {r : Request} (hcut : r.cut = true) {ds : List Deferred} {d : Deferred}
    (hwait : (s.port p).deferred = ds ++ [d]) (hds : ∀ o ∈ ds, o.cut = true ∧ o.code ≠ commandCode .restart) :
    DrainsTo p d (servedPart p r (withWaiting s p ds)) (serveRequest (withWaiting s p ds) p r) (serveRequest s p r) := by
  have hdeaf := deaf_servedPart p hcut
  set t := servedPart p r (withWaiting s p ds) with ht
  have hs : servedPart p r s = withWaiting t p (ds ++ [d]) := by
    rw [ht, ← hdeaf.withWaiting, withWaiting_withWaiting, ← hwait, withWaiting_self]
  have htw : (t.port p).deferred = ds :=
    (congrArg Tune.deferred (congrFun (hdeaf.tunes (withWaiting s p ds)) p)).trans (waiting_withWaiting s p ds)
  have h := drainsTo_drainDeferred p d ds hds t htw
  rw [serveRequest_eq, serveRequest_eq, ← ht, htw, hs, waiting_withWaiting, List.length_append, List.length_singleton]
  exact h

theorem settleNotices_withWaiting (s : State) (p : Port) (ds : List Deferred) :
    settleNotices (withWaiting s p ds) = withWaiting (settleNotices s) p ds := by
  refine state_ext_ports (fun q => ?_) rfl
  have hdue : noticeDue (withWaiting s p ds) q = noticeDue s q :=
    noticeDue_modPort (g := fun u => { u with deferred := ds }) (fun _ => rfl) q
  simp only [State.port_settleNotices, hdue]
  rw [withWaiting, withWaiting, State.port_modPort, State.port_modPort]
  split
  · next h => rw [State.port_settleNotices, h]
  · rw [State.port_settleNotices]

/-- R118: one more frame waits. -/
theorem modPort_waiting_append (s : State) (p : Port) (d : Deferred) :
    (s.modPort p fun u => { u with deferred := u.deferred ++ [d] }) = withWaiting s p ((s.port p).deferred ++ [d]) := by
  refine state_ext_ports (fun q => ?_) rfl
  rw [withWaiting, State.port_modPort, State.port_modPort]

/-- A port unit put in RECEIVING. -/
def listening (s : State) (p : Port) : State := s.modPort p fun u => { u with sel := .receiving }

theorem retune_listening (v : Port → Tune) (s : State) (p : Port) : retune v (listening s p) = retune v s :=
  retune_modPort v s p fun _ _ => rfl

theorem retune_beginAnswer (v : Port → Tune) (s : State) (p : Port) : retune v (beginAnswer s p) = retune v s :=
  retune_modPort v s p fun _ _ => rfl

/-- A frame completes at a port unit that has been put in RECEIVING at the end of a happening, and no reply is
outstanding there. -/
theorem exec_rowOfCode_received {m : State} {p : Port} (code : Byte) {f : Frame} (hp : f.port = p)
    (hlow : m.resetLow = false) (hreq : (m.port p).request = none) (hwait : (m.port p).deferred = []) :
    ∃ w : Port → Tune, (∀ q, q ≠ p → (w q).withLine false = (tunes m q).withLine false) ∧
      (w p).withLine false = { tunes m p with sel := .answering, answer := none, noticeLine := false } ∧
      exec (rowOfCode code f) (listening (settleNotices m) p) =
        .next (settleNotices (frameTaken (retune w m) p code f false)) := by
  subst hp
  set x := listening (settleNotices m) f.port with hx
  have hunit : x.port f.port = { m.port f.port with sel := .receiving, noticeLine := noticeDue m f.port } := by
    rw [hx, listening, State.port_modPort_same, State.port_settleNotices]
  have hcomp : Completes f x :=
    ⟨by rw [hunit], hlow, by rw [hunit]; exact hreq, by rw [hunit]; exact hwait⟩
  have hbegin : beginAnswer x f.port = retune (tunes (beginAnswer x f.port)) m := by
    have h (v : Port → Tune) : retune v (beginAnswer x f.port) = retune v m := by
      rw [retune_beginAnswer, hx, retune_listening, retune_settleNotices]
    rw [← h, retune_tunes]
  refine ⟨tunes (beginAnswer x f.port), fun q hq => ?_, ?_, ?_⟩
  · rw [beginAnswer, tunes_modPort, if_neg hq, hx, listening, tunes_modPort, if_neg hq, tunes_settleNotices]
    rfl
  · rw [beginAnswer, tunes_modPort, if_pos rfl, hunit]
    rfl
  · rw [exec_rowOfCode code (receives_of_completes hcomp), frameCompletes_eq hcomp, ← hbegin]
    rfl

end Sys2Proof.Machine

namespace Sys2Proof.Proofs

open Sys2Proof.Machine

/-- Settles O25: frames that wait, frames that the judgement answers, and the last of those that wait when a service ends;
what its judgement does turns neither on the frames that wait nor on the port's present selection. -/
theorem judgementAnswers : Obligations.JudgementAnswers := by
  refine ⟨fun s code f hs hr hl hout h72 => row_waits hs hr hl hout h72, fun s code f h h72 hl =>
    ⟨row_starting h hl, fun hc hon hm => row_badCheck h h72 hl hc hon hm, ?_⟩, ?_⟩
  · rintro c rfl hc hcheck
    exact ⟨answers_notSupervisor h h72 hl hc hcheck, answers_badLength h h72 hl hc hcheck⟩
  · intro s p r ds d m hv hr hcut hwait hds hframes _ hlow hpend row hrow
    have hrowEq (a : Access) : (match a with | .read => .read p | .write => .write p) = rowOfAccess a p := by
      cases a <;> rfl
    rw [show row = rowOfAccess r.access p from hrowEq _] at hrow ⊢
    obtain ⟨s1, hs1⟩ : ∃ x, x = withWaiting s p ds := ⟨_, rfl⟩
    have hreq1 : (s1.port p).request = some r := by rw [hs1, request_withWaiting, hr]
    have hrow1 : exec (rowOfAccess r.access p) s1 = .next m := by rw [hs1]; exact hrow
    have hv1 : s1.arbiter.serving = some (.port p) := by rw [hs1]; exact hv
    have hd := drainsTo_serveRequest hcut hwait hds
    rw [exec_rowOfAccess hv1 hreq1] at hrow1
    rw [exec_rowOfAccess hv hr]
    rw [← hs1] at hd
    obtain ⟨hpend1, hlow1, hlast⟩ := servedPart_pins (p := p) hcut s1
    obtain ⟨hsteady, htune, hwaits, hjudged⟩ := hd
    set m0 := serveRequest s1 p r with hm0
    obtain rfl : settleNotices m0 = m := Host.Outcome.next.inj hrow1
    have hlow0 : m0.resetLow = false := by rw [hsteady.resetLow, hlow1, hs1]; exact hlow
    have hpend0 : m0.restartPending = false ∨ p ≠ .p0 := by rw [hsteady.restartPending, hpend1, hs1]; exact hpend
    have htune0 : (tunes m0 p).sel = (s.port p).sel ∧ (tunes m0 p).seenHigh = (s.port p).seenHigh ∧
        (tunes m0 p).answer = (s.port p).answer := by
      rw [htune p, if_pos rfl, (deaf_servedPart p hcut).tunes, hs1, withWaiting_eq_retune, tunes_retune]
      exact ⟨by rw [if_pos rfl]; rfl, by rw [if_pos rfl]; rfl, by rw [if_pos rfl]; rfl⟩
    obtain ⟨hsel, hhigh, hans⟩ := htune0
    have hp : d.frame.port = p := (hframes d (by simp)).1
    rw [State.port_settleNotices]
    refine ⟨hsteady.lastReply hlast, fun hreq => ?_, fun hreq hsel' hans' hcut' => ?_, fun hreq hcut' hc => ?_⟩
    · rw [hwaits hreq, settleNotices_withWaiting, modPort_waiting_append, State.port_settleNotices]
    · obtain ⟨hempty, hlastTaken⟩ := hjudged hreq
      obtain ⟨w, hw, hwp, hexec⟩ := exec_rowOfCode_received d.code hp hlow0 hreq hempty
      refine Eq.trans ?_ hexec.symm
      have htaken : serveRequest s p r = frameTaken m0 p d.code d.frame false := by rw [hlastTaken, ← hcut']; rfl
      rw [htaken, settled_frameTaken_retune p d.code d.frame fun q => ?_]
      by_cases hq : q = p
      · rw [hq, hwp, ← hsel', ← hans', ← hsel, ← hans]
        rfl
      · exact hw q hq
    · obtain ⟨hempty, hlastTaken⟩ := hjudged hreq
      obtain ⟨w, hw, hwp, hexec⟩ := exec_rowOfCode_received d.code hp hlow0 hreq hempty
      have htaken : serveRequest s p r = frameTaken m0 p d.code d.frame true := by rw [hlastTaken, ← hcut']; rfl
      obtain ⟨n', hdeselect, hback⟩ := putBack_frameTaken (f := d.frame) hc hw (congrArg Tune.sel hwp)
        (congrArg Tune.answer hwp) ((congrArg Tune.deferred hwp).trans hempty) hempty hlow0 hpend0
      refine ⟨_, n', hexec, hdeselect, ?_⟩
      rw [htaken, ← hback, putBack, hsel, hhigh, hans]

end Sys2Proof.Proofs
end
